-- ==== Sys2Proof/Word.lean ====
section
/-! DEFINITION. The words of the block: bytes, addresses and flash words, result codes (00_scope.md R12, R14, R16). -/
namespace Sys2Proof

/-- A byte: 8 bits, bit 7 most significant (R14). -/
abbrev Byte := BitVec 8

/-- A program-memory byte address: `ADDR_WIDTH` = 16 bits (R12). -/
abbrev Addr := BitVec 16

/-- A word of the temporary write buffer: 16 bits (10_state.md R30). -/
abbrev FlashWord := BitVec 16

/-- A result code: `RESULT_WIDTH` = 16 bits, two's complement (R16). -/
abbrev Result := BitVec 16

end Sys2Proof
end

