-- ==== Sys2Proof/Config.lean ====
section
/-! DEFINITION. The parameters of 00_scope.md R12: the values the spec fixes, the parameters it leaves open, and the free values. -/
namespace Sys2Proof.Config

/-- Ticks per time unit (R12). -/
abbrev S : Nat := 10

/-- Ticks from the nominal start of a slot to its sample (R12). -/
abbrev PH : Nat := 5

/-- Polling rounds of `RECV_PACKET` (R12). -/
abbrev pktSyncRounds : Nat := 100

/-- Polls per round of `RECV_PACKET` (R12). -/
abbrev pktSubpolls : Nat := 10

/-- Bytes of the transfer buffer `XB` (R12). -/
abbrev xbSize : Nat := 255

/-- Bytes of a flash page and of the page buffer `PB` (R12). -/
abbrev pageSize : Nat := 128

/-- Words of the temporary write buffer `TWB`, `PAGE_SIZE/2` (10_state.md R30). -/
abbrev twbSize : Nat := 64

/-- First address of the protected region (R12). -/
abbrev userLimit : Nat := 0x7000

/-- Value of a byte of an erased page (R12). -/
abbrev erasedByte : Byte := 0xFF

/-- Entry point of the user application (R12). -/
abbrev userEntry : Addr := 0x0000

/-- Where the block stands (10_state.md R41): with its boot sequence and Command Processor, which is then the only
caller; or alone, driven through the caller interface (95_test_vectors.md P4). DESIGN CHOICE, log entry 1. -/
inductive Assembly where
  | bootloader
  | caller
deriving DecidableEq, Repr

/-- The constraints of R13 on the open parameters. -/
abbrev Admissible (progMemSize bootGrace tOpcode tOperand : Nat) : Prop :=
  pageSize ∣ progMemSize ∧ userLimit ≤ progMemSize ∧ progMemSize ≤ 2 ^ 16 ∧
    1 ≤ bootGrace ∧ 1 ≤ tOpcode ∧ 1 ≤ tOperand

/-- The parameters R12 leaves OPEN, under the constraints of R13. The default values are those 95_test_vectors.md uses.
DESIGN CHOICE, log entry 2. -/
structure Params where
  /-- With or without the Command Processor. -/
  assembly : Assembly := .bootloader
  /-- `PROG_MEM_SIZE`, bytes. -/
  progMemSize : Nat := 0x8000
  /-- `BOOT_GRACE`, units. -/
  bootGrace : Nat := 2
  /-- `T_OPCODE`, units. -/
  tOpcode : Nat := 50
  /-- `T_OPERAND`, units. -/
  tOperand : Nat := 5
  /-- `T_ADC`, ticks. -/
  tAdc : Nat := 0
  /-- `T_FILL`, ticks. -/
  tFill : Nat := 0
  /-- `T_TWB`, ticks. -/
  tTwb : Nat := 0
  /-- `T_ERASE`, ticks. -/
  tErase : Nat := 0
  /-- `T_WRITE`, ticks. -/
  tWrite : Nat := 0
  /-- R13. -/
  admissible : Admissible progMemSize bootGrace tOpcode tOperand := by decide
deriving DecidableEq, Repr

/-- The ADC sample of a draw (10_state.md R45, 93_implementation_defined.md U2): a FREE VALUE, log entry 8. -/
opaque adcSample : Nat → Byte

/-- A byte nothing determines: buffers at reset (U1, U12), pages cut short (U3), a write to a page that is not erased
(U4). A FREE VALUE, log entries 5, 9 and 10. -/
opaque freeByte : Nat → Byte

/-- A word of `TWB` at reset (U12): a FREE VALUE, log entry 5. -/
opaque freeWord : Nat → FlashWord

/-- The result for a packet of more than 32767 bytes (U6) that ends at an absolute tick: a FREE VALUE, log entry 11. -/
opaque overlongResult : Nat → Result

/-- `PACKET_CHECK(n)` for more bytes than `XB` holds, where 42_hash_integrity.md R174 gives no value: a FREE VALUE of the
buffer and of `n`, log entry 29. -/
opaque overlongCheck : List Byte → Nat → Bool

/-- What the peer drives at an absolute tick, stream by stream: a function nothing determines, so that what is proved of it
is proved of every `peer_out(t)` (10_state.md R34). Log entry 3. -/
opaque peerOut : Nat → Nat → Bool

/-- Symbols of a packet of at most 32767 bytes, the last one included (10_state.md R24). -/
abbrev packetSymbols : Nat := 8 * 32767 + 8

end Sys2Proof.Config
end

