-- ==== Sys2Proof/Syntax.lean ====
section
/-! DEFINITION. The instructions of the block, one constructor per row of the opcode table, and the three forms in which
one is presented to it: bytes of a command request, slots on the line, a request at the caller interface. -/
namespace Sys2Proof

/-- `arg_src` of `HASH` (10_state.md R41): 0 = `XB[0..len-1]`, 1 = all of `PB`. -/
inductive HashSource where
  | xb
  | pb
deriving DecidableEq, Repr

/-- The operations of the block (00_scope.md R8). -/
inductive Instr where
  -- command requests (30_encoding.md R101); the checksum byte `ck` is an operand, judged at execution (R184)
  /-- Opcode 0x00, `CMD_I`. -/
  | rdbuf (idx ck : Byte)
  /-- Opcode 0x01, `CMD_IV`. -/
  | wrbuf (idx val ck : Byte)
  /-- Opcode 0x02, `CMD_N`. -/
  | pwrstat (ck : Byte)
  /-- Opcode 0x03, `CMD_N`. -/
  | hashbuf (ck : Byte)
  /-- Opcode 0x04, `CMD_A`. -/
  | fill (addr : Addr) (ck : Byte)
  /-- Opcode 0x05, `CMD_A`. -/
  | commit (addr : Addr) (ck : Byte)
  -- reserved opcodes (R111), each with its opcode byte
  | reserved0607 (op : Byte)
  | reserved080F (op : Byte)
  | reserved101F (op : Byte)
  | reserved203F (op : Byte)
  | reserved407F (op : Byte)
  | reserved80FF (op : Byte)
  -- wire forms
  /-- Byte frame (R91). -/
  | byteFrame (v : Byte)
  /-- Symbol `00` (R93). -/
  | symStop
  /-- Symbol `01` (R93). -/
  | symD0
  /-- Symbol `10` (R93). -/
  | symD1
  /-- Symbol `11` (R93). -/
  | symStart
  /-- Packet (R95). -/
  | packet (bytes : List Byte)
  -- operations of the caller interface (10_state.md R42)
  | nop
  | sendByte (v : Byte)
  | recvByte (timeout : BitVec 16)
  | sendSym (code : BitVec 2)
  | sendPacket (len : Byte)
  | recvPacket (maxSize : Byte)
  | hash (src : HashSource) (len : Byte)
  | cmdStep
  | fillPage (addr : Addr)
  | commitPage (addr : Addr)
  | erasePage (addr : Addr)
  | writePage (addr : Addr)
  | opselReserved (code : BitVec 4)
deriving DecidableEq, Repr

/-- One request at the caller interface: the operation-select code and the argument signals (10_state.md R41). -/
structure Call where
  opSel : BitVec 4
  argV : Byte := 0
  argT : BitVec 16 := 0
  argA : Addr := 0
  argSrc : HashSource := .xb
deriving DecidableEq, Repr

/-- An encoded instruction, in the form in which the block meets it (30_encoding.md, first paragraph). -/
inductive Code where
  /-- A command request: its bytes in transmission order. -/
  | bytes (bs : List Byte)
  /-- A wire form: its slot levels, first slot first. -/
  | slots (levels : List Bool)
  /-- A request at the caller interface. -/
  | call (c : Call)
deriving DecidableEq, Repr

end Sys2Proof
end

