-- ==== Sys2Proof/WellFormed.lean ====
section
/-! DEFINITION. Which instruction terms have an encoding: a reserved row holds a code of its own range only. -/
namespace Sys2Proof

/-- The reserved rows hold an opcode byte (30_encoding.md R110) or an operation-select code (10_state.md R42) of their
range; every other term is well formed. -/
def Instr.wf : Instr → Bool
  | .reserved0607 op => 0x06 ≤ op.toNat && op.toNat ≤ 0x07
  | .reserved080F op => 0x08 ≤ op.toNat && op.toNat ≤ 0x0F
  | .reserved101F op => 0x10 ≤ op.toNat && op.toNat ≤ 0x1F
  | .reserved203F op => 0x20 ≤ op.toNat && op.toNat ≤ 0x3F
  | .reserved407F op => 0x40 ≤ op.toNat && op.toNat ≤ 0x7F
  | .reserved80FF op => 0x80 ≤ op.toNat && op.toNat ≤ 0xFF
  | .opselReserved code => 0xC ≤ code.toNat && code.toNat ≤ 0xF
  | .rdbuf _ _ | .wrbuf _ _ _ | .pwrstat _ | .hashbuf _ | .fill _ _ | .commit _ _ => true
  | .byteFrame _ | .symStop | .symD0 | .symD1 | .symStart | .packet _ => true
  | .nop | .sendByte _ | .recvByte _ | .sendSym _ | .sendPacket _ | .recvPacket _ | .hash _ _ | .cmdStep => true
  | .fillPage _ | .commitPage _ | .erasePage _ | .writePage _ => true

end Sys2Proof
end

