-- ==== Sys2Proof/Decode.lean ====
section
/-! DEFINITION. Wire forms as slot lists, the decoder (total, rejecting by name), the encoder, and the words of the opcode
table. Sources: 30_encoding.md R90 to R114, 10_state.md R42. -/
namespace Sys2Proof

/-- Why an encoded form is no instruction. -/
inductive DecodeError where
  /-- A request of no bytes. -/
  | emptyRequest
  /-- A request shorter than its opcode says (R104). -/
  | truncatedRequest (op : Byte)
  /-- Bytes after the end of the request (R104). -/
  | trailingBytes (op : Byte)
  /-- A byte frame whose slot 0 is not asserted (R91). -/
  | frameWithoutStart
  /-- A byte frame whose slot 9 is asserted (R113). -/
  | frameStopAsserted
  /-- A packet that does not begin with `SYM_START` (R95). -/
  | packetWithoutStart
  /-- `11` after the start of a packet (R112). -/
  | packetDesync
  /-- Slots that end before `SYM_STOP`, or a `SYM_STOP` inside a byte or before the last slot (R95). -/
  | packetIllFormed
deriving DecidableEq, Repr

/-! ## Bits and slots -/

/-- The shift-in of R177: `(acc << 1) OR b` on 8 bits. -/
def shiftIn (acc : Byte) (b : Bool) : Byte :=
  (acc <<< 1) ||| (if b then 1#8 else 0#8)

/-- The bits of a byte in line order, bit 7 first (R60). -/
def bitsOf (v : Byte) : List Bool :=
  (List.range 8).map fun k => v.getLsbD (7 - k)

/-- The byte of 8 bits in line order. -/
def byteOfBits (bits : List Bool) : Byte :=
  bits.foldl shiftIn 0#8

/-- The 10 slots of the byte frame `1dddddddd0` (R91); a bit of value 1 is an asserted slot (R92). -/
def frameSlots (v : Byte) : List Bool :=
  true :: bitsOf v ++ [false]

/-- The two slots of a symbol code, left digit first (R93). -/
def symSlots (code : BitVec 2) : List Bool :=
  [code.getLsbD 1, code.getLsbD 0]

/-- `SYM_STOP`. -/
abbrev stopCode : BitVec 2 := 0b00#2
/-- `SYM_D0`. -/
abbrev d0Code : BitVec 2 := 0b01#2
/-- `SYM_D1`. -/
abbrev d1Code : BitVec 2 := 0b10#2
/-- `SYM_START`. -/
abbrev startCode : BitVec 2 := 0b11#2

/-- The data symbol of a bit (41_symbol_transport.md R152). -/
def dsym (b : Bool) : BitVec 2 :=
  if b then d1Code else d0Code

/-- The 16 slots of a byte in the symbol variant: one data symbol per bit (R94). -/
def byteSymSlots (v : Byte) : List Bool :=
  (bitsOf v).flatMap fun b => symSlots (dsym b)

/-- The slots of a packet (R95). -/
def packetSlots (bytes : List Byte) : List Bool :=
  symSlots startCode ++ (bytes.flatMap byteSymSlots ++ symSlots stopCode)

/-! ## The decoder -/

/-- A command request as the Command Processor meets it. -/
inductive Request where
  | rdbuf (idx ck : Byte)
  | wrbuf (idx val ck : Byte)
  | pwrstat (ck : Byte)
  | hashbuf (ck : Byte)
  | fill (addr : Addr) (ck : Byte)
  | commit (addr : Addr) (ck : Byte)
  | reserved0607 (op : Byte)
  | reserved080F (op : Byte)
  | reserved101F (op : Byte)
  | reserved203F (op : Byte)
  | reserved407F (op : Byte)
  | reserved80FF (op : Byte)
deriving DecidableEq, Repr

/-- The instruction of a request. -/
def Request.toInstr : Request → Instr
  | .rdbuf idx ck => .rdbuf idx ck
  | .wrbuf idx val ck => .wrbuf idx val ck
  | .pwrstat ck => .pwrstat ck
  | .hashbuf ck => .hashbuf ck
  | .fill addr ck => .fill addr ck
  | .commit addr ck => .commit addr ck
  | .reserved0607 op => .reserved0607 op
  | .reserved080F op => .reserved080F op
  | .reserved101F op => .reserved101F op
  | .reserved203F op => .reserved203F op
  | .reserved407F op => .reserved407F op
  | .reserved80FF op => .reserved80FF op

/-- Operand counts (43_command_processor.md R183): `none` for a reserved opcode, which has length 1 (R104). -/
def nops (op : Byte) : Option Nat :=
  match op.toNat with
  | 0 => some 1
  | 1 => some 2
  | 2 => some 0
  | 3 => some 0
  | 4 => some 2
  | 5 => some 2
  | _ => none

/-- The row of a reserved opcode (R110); applied to opcodes from 0x06 on. -/
def reservedRequest (op : Byte) : Request :=
  if op.toNat < 0x08 then .reserved0607 op
  else if op.toNat < 0x10 then .reserved080F op
  else if op.toNat < 0x20 then .reserved101F op
  else if op.toNat < 0x40 then .reserved203F op
  else if op.toNat < 0x80 then .reserved407F op
  else .reserved80FF op

/-- Reads one request from the front of a byte list and gives the bytes after it. Formats: R101; the address is
`ah ‖ al` (R102). -/
def decodeRequest : List Byte → Except DecodeError (Request × List Byte)
  | [] => .error .emptyRequest
  | op :: rest =>
    match op.toNat, rest with
    | 0, idx :: ck :: r => .ok (.rdbuf idx ck, r)
    | 1, idx :: val :: ck :: r => .ok (.wrbuf idx val ck, r)
    | 2, ck :: r => .ok (.pwrstat ck, r)
    | 3, ck :: r => .ok (.hashbuf ck, r)
    | 4, ah :: al :: ck :: r => .ok (.fill (ah ++ al) ck, r)
    | 5, ah :: al :: ck :: r => .ok (.commit (ah ++ al) ck, r)
    | n, r => if n < 6 then .error (.truncatedRequest op) else .ok (reservedRequest op, r)

/-- The bytes of exactly one request. -/
def decodeBytes (bs : List Byte) : Except DecodeError Instr :=
  match decodeRequest bs with
  | .error e => .error e
  | .ok (r, []) => .ok r.toInstr
  | .ok (_, b :: _) => .error (.trailingBytes b)

/-- The instruction of a symbol with the given halves (R93). -/
def decodeSymbol : Bool → Bool → Instr
  | false, false => .symStop
  | false, true => .symD0
  | true, false => .symD1
  | true, true => .symStart

/-- The byte of a frame: slot 0, the 8 data slots, slot 9 (R91, R113). -/
def decodeFrame (start : Bool) (data : List Bool) (stop : Bool) : Except DecodeError Instr :=
  if start = false then .error .frameWithoutStart
  else if stop = true then .error .frameStopAsserted
  else .ok (.byteFrame (byteOfBits data))

/-- The slots of a packet after its `SYM_START` (R95): `done` holds the finished bytes, last first; `cur` and `k` the bits
of the byte in progress. -/
def decodePacketBody : List Bool → List Byte → Byte → Nat → Except DecodeError (List Byte)
  | a :: b :: rest, done, cur, k =>
    if a = true ∧ b = true then .error .packetDesync
    else if a = false ∧ b = false then
      if rest = [] ∧ k = 0 then .ok done.reverse else .error .packetIllFormed
    else if k = 7 then decodePacketBody rest (shiftIn cur a :: done) 0#8 0
    else decodePacketBody rest done (shiftIn cur a) (k + 1)
  | [_], _, _, _ => .error .packetIllFormed
  | [], _, _, _ => .error .packetIllFormed

/-- A wire form, known by its number of slots: 2 for a symbol, 10 for a byte frame, else a packet (R91, R93, R95). -/
def decodeSlots : List Bool → Except DecodeError Instr
  | [a, b] => .ok (decodeSymbol a b)
  | [s, d7, d6, d5, d4, d3, d2, d1, d0, p] => decodeFrame s [d7, d6, d5, d4, d3, d2, d1, d0] p
  | true :: true :: rest =>
    match decodePacketBody rest [] 0#8 0 with
    | .error e => .error e
    | .ok bytes => .ok (.packet bytes)
  | _ => .error .packetWithoutStart

/-- A request at the caller interface (10_state.md R42); arguments an operation does not name are not looked at. -/
def decodeCall (c : Call) : Instr :=
  match c.opSel.toNat with
  | 0x0 => .nop
  | 0x1 => .sendByte c.argV
  | 0x2 => .recvByte c.argT
  | 0x3 => .sendSym (c.argV.extractLsb' 0 2)
  | 0x4 => .sendPacket c.argV
  | 0x5 => .recvPacket c.argV
  | 0x6 => .hash c.argSrc c.argV
  | 0x7 => .cmdStep
  | 0x8 => .fillPage c.argA
  | 0x9 => .commitPage c.argA
  | 0xA => .erasePage c.argA
  | 0xB => .writePage c.argA
  | _ => .opselReserved c.opSel

/-- The decoder. -/
def decode : Code → Except DecodeError Instr
  | .bytes bs => decodeBytes bs
  | .slots levels => decodeSlots levels
  | .call c => .ok (decodeCall c)

/-! ## The encoder -/

/-- The high byte of an address, sent first (R61). -/
def addrHigh (a : Addr) : Byte := a.extractLsb' 8 8

/-- The low byte of an address. -/
def addrLow (a : Addr) : Byte := a.extractLsb' 0 8

/-- The encoded form of an instruction. -/
def encode : Instr → Code
  | .rdbuf idx ck => .bytes [0x00#8, idx, ck]
  | .wrbuf idx val ck => .bytes [0x01#8, idx, val, ck]
  | .pwrstat ck => .bytes [0x02#8, ck]
  | .hashbuf ck => .bytes [0x03#8, ck]
  | .fill addr ck => .bytes [0x04#8, addrHigh addr, addrLow addr, ck]
  | .commit addr ck => .bytes [0x05#8, addrHigh addr, addrLow addr, ck]
  | .reserved0607 op => .bytes [op]
  | .reserved080F op => .bytes [op]
  | .reserved101F op => .bytes [op]
  | .reserved203F op => .bytes [op]
  | .reserved407F op => .bytes [op]
  | .reserved80FF op => .bytes [op]
  | .byteFrame v => .slots (frameSlots v)
  | .symStop => .slots (symSlots stopCode)
  | .symD0 => .slots (symSlots d0Code)
  | .symD1 => .slots (symSlots d1Code)
  | .symStart => .slots (symSlots startCode)
  | .packet bytes => .slots (packetSlots bytes)
  | .nop => .call { opSel := 0x0#4 }
  | .sendByte v => .call { opSel := 0x1#4, argV := v }
  | .recvByte timeout => .call { opSel := 0x2#4, argT := timeout }
  | .sendSym code => .call { opSel := 0x3#4, argV := code.zeroExtend 8 }
  | .sendPacket len => .call { opSel := 0x4#4, argV := len }
  | .recvPacket maxSize => .call { opSel := 0x5#4, argV := maxSize }
  | .hash src len => .call { opSel := 0x6#4, argV := len, argSrc := src }
  | .cmdStep => .call { opSel := 0x7#4 }
  | .fillPage addr => .call { opSel := 0x8#4, argA := addr }
  | .commitPage addr => .call { opSel := 0x9#4, argA := addr }
  | .erasePage addr => .call { opSel := 0xA#4, argA := addr }
  | .writePage addr => .call { opSel := 0xB#4, argA := addr }
  | .opselReserved code => .call { opSel := code }

/-! ## The words of the opcode table -/

/-- The low `n` bytes of `w`, high-order byte first: byte 0 of a request stands in the high-order bits (R101). -/
def bytesOfWord : Nat → Nat → List Byte
  | 0, _ => []
  | n + 1, w => BitVec.ofNat 8 (w / 2 ^ (8 * n)) :: bytesOfWord n w

/-- The low `n` slots of `w`, slot 0 in the high-order bit (spec/opcode_table.json, notes of the wire rows). -/
def slotsOfWord : Nat → Nat → List Bool
  | 0, _ => []
  | n + 1, w => (w / 2 ^ n % 2 == 1) :: slotsOfWord n w

/-- The encoded form of a word of the opcode table. The layers of the table share their words (`0x2` is `SYM_D1` and
`RECV_BYTE`); which layer a width stands for is DESIGN CHOICE, log entry 14. A width that is no whole number of bytes
is a layer's own width. -/
def tableCode (nbits w : Nat) : Option Code :=
  match nbits with
  | 2 => some (.slots (slotsOfWord 2 w))
  | 4 => some (.call { opSel := BitVec.ofNat 4 w })
  | 10 => some (.slots (slotsOfWord 10 w))
  | 8 => if w < 16 then some (.call { opSel := BitVec.ofNat 4 w }) else some (.bytes (bytesOfWord 1 w))
  | 16 => some (.bytes (bytesOfWord 2 w))
  | 24 => some (.bytes (bytesOfWord 3 w))
  | 32 => some (.bytes (bytesOfWord 4 w))
  | _ => none

/-- The instruction the decoder reads from a word of the opcode table. -/
def decodeTableWord (nbits w : Nat) : Option Instr :=
  match tableCode nbits w with
  | none => none
  | some c =>
    match decode c with
    | .ok i => some i
    | .error _ => none

end Sys2Proof
end

