-- ==== Sys2Proof/Machine/State.lean ====
section
/-! DEFINITION. The state of the block (10_state.md), the environment it runs in (R34), why a step can stop, and reset. -/
namespace Sys2Proof.Machine

open Sys2Proof.Config

/-- Why a run stops with a fault. -/
inductive Fault where
  /-- Raised by the flash primitives for a page that does not lie inside `[0, PROG_MEM_SIZE)`, where 20_memory.md R69
  says there is no memory. Safe: the block makes no such access, its checks (R212, R217) come first. -/
  | noProgramMemory (addr : Nat)
deriving DecidableEq, Repr

/-- Why the model has no meaning to give. -/
inductive Refusal where
  /-- Raised by `exec` for an instruction that has no meaning yet; no arm raises it. Safe. -/
  | notModelled (mnemonic : String)
  /-- Raised by `step` when what stands in the transmit engine is no wire form, or a request no request. Safe: no step
  puts such a thing there. -/
  | undecodable (e : DecodeError)
deriving DecidableEq, Repr

/-- Operating modes (10_state.md R28, 60_exceptions.md R250). -/
inductive Mode where
  | bootCheck
  | update
  | userApp
deriving DecidableEq, Repr

/-- `rx_state` (10_state.md R23). -/
inductive RxPhase where
  | idle
  | search
  | data
  | stopChk
  | h1
  | h2
deriving DecidableEq, Repr

/-- `fs_state` (10_state.md R30). -/
inductive FsPhase where
  | idle
  | fill
  | erase
  | write
deriving DecidableEq, Repr

/-- A stretch of one level. -/
structure Seg where
  ticks : Nat
  level : Bool
deriving DecidableEq, Repr

/-- What the peer drives from absolute tick 0 on (10_state.md R34): the stretches of `lead`, then the levels of `stream`, any
function of the tick; or, with no stream, the stretches of `loop` again and again, and idle where there are none. Log
entry 3. -/
structure Wave where
  lead : List Seg := []
  loop : List Seg := []
  stream : Option Nat := none
deriving DecidableEq, Repr

/-- The positions of a loss of power in the steps of a commit (44_flash_sequencer.md R218, the rows of its table). -/
inductive CutPos where
  | beforeErase
  | duringErase
  | betweenSteps
  | duringWrite
  | afterWrite
deriving DecidableEq, Repr

/-- A reset the environment makes: its absolute tick, and the position it takes among flash steps that last no tick
(R218). -/
structure PowerLoss where
  tick : Nat
  cut : CutPos := .beforeErase
deriving DecidableEq, Repr

/-- A request presented at the caller interface at an absolute tick (10_state.md R41). -/
structure TimedCall where
  tick : Nat
  call : Call
deriving DecidableEq, Repr

/-- The inputs of the block (10_state.md R34), as plain data. All ticks are absolute: `epoch + now`. -/
structure Env where
  /-- The parameters. No step changes them. -/
  par : Params := {}
  /-- `peer_out`. No step changes it. -/
  wave : Wave := {}
  /-- The absolute tick of the last release of reset. -/
  epoch : Nat := 0
  /-- The resets still to come, next one first. -/
  power : List PowerLoss := []
  /-- The caller's requests still to come, next one first. -/
  calls : List TimedCall := []
deriving DecidableEq, Repr

/-- Working registers of the transmit engine (10_state.md R22) and the slots of a wire form loaded into it. -/
structure TxRegs where
  /-- `tx_active`. -/
  active : Bool := false
  /-- `tx_sr`. -/
  sr : Byte := 0
  /-- `tx_slot`, 4 bits. -/
  slot : Nat := 0
  /-- `tx_sub`, 4 bits. -/
  sub : Nat := 0
  /-- `tx_bit`, 3 bits. -/
  bit : Nat := 0
  /-- `tx_idx`, 8 bits. -/
  idx : Nat := 0
  /-- Slots loaded and not yet driven. The model's own, log entry 13. -/
  wire : List Bool := []
deriving DecidableEq, Repr

/-- Working registers of the receive engine (10_state.md R23), and `t0` (R33). -/
structure RxRegs where
  /-- `rx_state`. -/
  phase : RxPhase := .idle
  /-- `rx_polls`. -/
  polls : Nat := 0
  /-- `rx_wait`, 5 bits. -/
  wait : Nat := 0
  /-- `rx_k`, 4 bits. -/
  k : Nat := 0
  /-- `rx_sr`. -/
  sr : Byte := 0
  /-- `rx_first`. -/
  first : Bool := false
  /-- `rx_count`; unbounded, as 93_implementation_defined.md U6 allows. Log entry 11. -/
  count : Nat := 0
  /-- `max_size` of the packet being received. Log entry 25. -/
  max : Byte := 0
  /-- `t0` of the last synchronisation. -/
  t0 : Nat := 0
deriving DecidableEq, Repr

/-- Working registers of the Command Processor (10_state.md R26). -/
structure CpRegs where
  op : Byte := 0
  a0 : Byte := 0
  a1 : Byte := 0
  ck : Byte := 0
  /-- `t0_last`. -/
  t0Last : Nat := 0
deriving DecidableEq, Repr

/-- Registers of the flash sequencer (10_state.md R30). -/
structure FsRegs where
  /-- `fs_state`. -/
  phase : FsPhase := .idle
  /-- `fs_addr`. -/
  addr : Addr := 0
deriving DecidableEq, Repr

/-- Program memory as cells: addresses strictly rising, no entry that holds what an unlisted address reads as. -/
abbrev Memory := List Host.Cell

/-- What an unlisted address of program memory reads as: an erased byte. DESIGN CHOICE, log entry 7. -/
def Memory.blank : Byte := erasedByte

/-- The page buffer (10_state.md R21). -/
abbrev PageBuffer := Vector Byte pageSize

/-- The transfer buffer (10_state.md R31). -/
abbrev TransferBuffer := Vector Byte xbSize

/-- The temporary write buffer (10_state.md R30). -/
abbrev WriteBuffer := Vector FlashWord twbSize

/-- The state of the block and of its environment. -/
@[ext]
structure State where
  /-- The inputs. -/
  env : Env
  /-- Every `set_line` made so far, with its absolute tick, newest first. The model's own, log entry 22. -/
  devLog : List (Nat × Bool)
  /-- Free values drawn so far. The model's own, log entry 28. -/
  draws : Nat
  /-- `FLASH`. -/
  flash : Memory
  /-- `PB`. -/
  pb : PageBuffer
  /-- `XB`. -/
  xb : TransferBuffer
  /-- `TWB`. -/
  twb : WriteBuffer
  /-- `now`: ticks since the release of reset. -/
  now : Nat
  mode : Mode
  /-- `dev_out`. -/
  devOut : Bool
  result : Result
  busy : Bool
  /-- `boot_user`. -/
  bootUser : Bool
  /-- `pc` as handed to the surrounding processor (R266). -/
  pc : Option Addr
  tx : TxRegs
  rx : RxRegs
  /-- The hash unit's register (R25). -/
  h : Byte
  cp : CpRegs
  fs : FsRegs
deriving DecidableEq, Repr

/-- How many free values the buffers take at a reset. -/
abbrev powerUpDraws : Nat := pageSize + xbSize + twbSize

/-- The block right after the release of a reset (10_state.md R38): what survives is FLASH and the environment. The
buffers hold free values (log entry 5), the working registers 0 (log entry 6). -/
def State.powerUp (env : Env) (flash : Memory) (devLog : List (Nat × Bool)) (draws : Nat) : State where
  env := env
  devLog := devLog
  draws := draws + powerUpDraws
  flash := flash
  pb := Vector.ofFn fun i => freeByte (draws + i)
  xb := Vector.ofFn fun i => freeByte (draws + pageSize + i)
  twb := Vector.ofFn fun i => freeWord (draws + pageSize + xbSize + i)
  now := 0
  mode := .bootCheck
  devOut := false
  result := 0
  busy := env.par.assembly == .bootloader
  bootUser := false
  pc := none
  tx := {}
  rx := {}
  h := 0
  cp := {}
  fs := {}

/-- The block right after its first reset, with nothing in program memory and nothing to come on its inputs. -/
def State.reset : State :=
  State.powerUp {} [] [] 0

end Sys2Proof.Machine
end

