-- ==== Sys2Proof/Machine/Operands.lean ====
section
/-! DEFINITION. Operand forms: indexes, addresses and page masking, word assembly, the byte lists an operation reads. -/
namespace Sys2Proof.Machine

open Sys2Proof.Config

/-- The page-aligned address of the page that holds `addr`: `addr AND NOT(PAGE_SIZE-1)` (20_memory.md R63). -/
def pageBase (addr : Addr) : Addr :=
  addr &&& ~~~(BitVec.ofNat 16 (pageSize - 1))

/-- `addr AND (PAGE_SIZE-1) = 0` (R63). -/
def pageAligned (addr : Addr) : Bool :=
  addr &&& BitVec.ofNat 16 (pageSize - 1) == 0#16

/-- The words of a page in little-endian pairs: `TWB[k] = PB[2k+1] ‖ PB[2k]` (20_memory.md R62, 44_flash_sequencer.md
R213). -/
def wordsOfPage (pb : PageBuffer) : WriteBuffer :=
  Vector.ofFn fun k : Fin twbSize =>
    have hk : k.val < 64 := k.isLt
    pb[2 * k.val + 1]'(by simp only [pageSize]; omega) ++ pb[2 * k.val]'(by simp only [pageSize]; omega)

/-- Byte `i` of the page the words of `TWB` stand for: the low byte of a word at the even index (44_flash_sequencer.md
R215). -/
def twbByte (twb : WriteBuffer) (i : Nat) : Byte :=
  let w := twb.toList.getD (i / 2) 0#16
  if i % 2 = 0 then w.extractLsb' 0 8 else w.extractLsb' 8 8

/-- The bytes `HASH` reads (42_hash_integrity.md R171): `XB[0..len-1]`, or all of `PB`. -/
def hashInput (src : HashSource) (len : Byte) (pb : PageBuffer) (xb : TransferBuffer) : List Byte :=
  match src with
  | .xb => xb.toList.take len.toNat
  | .pb => pb.toList

/-- The bytes `SEND_PACKET(len)` sends: `XB[0..len-1]` (41_symbol_transport.md R153). -/
def packetInput (len : Byte) (xb : TransferBuffer) : List Byte :=
  xb.toList.take len.toNat

end Sys2Proof.Machine
end

