-- ==== Sys2Proof/Machine/Flags.lean ====
section
/-! DEFINITION. The block has no condition codes (10_state.md R29). What it judges and reports is here: result codes, the
8-bit hash, and the range and alignment checks. -/
namespace Sys2Proof.Machine

open Sys2Proof.Config

/-- Result -1: TimeoutError, SyncError, rejection (60_exceptions.md R231). -/
abbrev resultTimeout : Result := 0xFFFF#16

/-- Result -2: FramingError (R231). -/
abbrev resultFraming : Result := 0xFFFE#16

/-- Result of an accepted `FILL_PAGE` or `COMMIT_PAGE` (10_state.md R42). -/
abbrev resultPage : Result := BitVec.ofNat 16 pageSize

/-- A byte as a result: non-negative (00_scope.md R16). -/
def resultOfByte (v : Byte) : Result := v.zeroExtend 16

/-- A packet's byte count as a result. From 32768 on the spec leaves it open (10_state.md R24,
93_implementation_defined.md U6): a free value of the absolute tick at which the packet ends, so that no two packets share
one. Log entry 11. -/
def resultOfCount (count tick : Nat) : Result :=
  if count ≤ 32767 then BitVec.ofNat 16 count else overlongResult tick

/-- `rotl8` (00_scope.md R14). -/
def rotl8 (x : Byte) : Byte := x.rotateLeft 1

/-- One step of the hash (42_hash_integrity.md R171). -/
def hashStep (h b : Byte) : Byte := rotl8 h ^^^ b

/-- `HASH(bytes)` (R171). -/
def hashBytes (bytes : List Byte) : Byte := bytes.foldl hashStep 0#8

/-- `PACKET_CHECK(n)` on the bytes of `XB` (R174): the last of `n` received bytes is the hash of the others; false for
`n = 0`. The rule speaks of bytes held in `XB[0..n-1]`; for a count above `XB_SIZE`, which `RECV_PACKET` can report, it gives
no value and the model a free one (DESIGN CHOICE, log entry 29). -/
def packetCheck (xb : TransferBuffer) (n : Nat) : Bool :=
  if xbSize < n then overlongCheck xb.toList n
  else match xb.toList.take n |>.reverse with
  | [] => false
  | ck :: others => hashBytes others.reverse == ck

/-- The address check of a commit, erase or write (44_flash_sequencer.md R212), on the address as received. -/
def inUserRegion (addr : Addr) : Bool := addr.toNat < userLimit

/-- The check of a fill (20_memory.md R64, R72): aligned, and the page inside program memory, without wrap-around. -/
def fillAccepts (progMemSize : Nat) (addr : Addr) : Bool :=
  pageAligned addr && addr.toNat + pageSize ≤ progMemSize

end Sys2Proof.Machine
end

