-- ==== Sys2Proof/Machine/Ops.lean ====
section
/-! DEFINITION. The named operations over the line, time, buffers and program memory, and the one exception that cuts an
operation short: loss of power. -/
namespace Sys2Proof.Machine

open Sys2Proof.Config

/-! ## Named updates -/

def State.setEnv (x : Env) (s : State) : State := { s with env := x }
def State.setDraws (x : Nat) (s : State) : State := { s with draws := x }
def State.setFlash (x : Memory) (s : State) : State := { s with flash := x }
def State.setPb (x : PageBuffer) (s : State) : State := { s with pb := x }
def State.setXb (x : TransferBuffer) (s : State) : State := { s with xb := x }
def State.setTwb (x : WriteBuffer) (s : State) : State := { s with twb := x }
def State.setNow (x : Nat) (s : State) : State := { s with now := x }
def State.setMode (x : Mode) (s : State) : State := { s with mode := x }
def State.setResult (x : Result) (s : State) : State := { s with result := x }
def State.setBusy (x : Bool) (s : State) : State := { s with busy := x }
def State.setTx (x : TxRegs) (s : State) : State := { s with tx := x }
def State.setRx (x : RxRegs) (s : State) : State := { s with rx := x }
def State.setH (x : Byte) (s : State) : State := { s with h := x }
def State.setCp (x : CpRegs) (s : State) : State := { s with cp := x }
def State.setFs (x : FsRegs) (s : State) : State := { s with fs := x }

/-! ## Program memory -/

/-- `FLASH[a]`. -/
def Memory.read : Memory → Nat → Byte
  | [], _ => Memory.blank
  | (b, v) :: m, a => if b = a then v else Memory.read m a

/-- The cells of `f 0 .. f (n-1)` at `addr ..` in canonical form. -/
def Memory.cellsOf (addr : Nat) (f : Nat → Byte) (n : Nat) : Memory :=
  (List.range n).filterMap fun i => if f i = Memory.blank then none else some (addr + i, f i)

/-- `MemWrite(addr, n, f)` (00_scope.md R15): `FLASH[addr+i] <- f i` for `i < n`. -/
def Memory.writeRange (m : Memory) (addr n : Nat) (f : Nat → Byte) : Memory :=
  m.filter (fun c => c.1 < addr) ++ (Memory.cellsOf addr f n ++ m.filter (fun c => addr + n ≤ c.1))

/-- The canonical form: addresses strictly rising, no cell that holds what an unlisted address reads as. -/
def Memory.wf (m : Memory) : Bool :=
  decide (m.Pairwise fun c d => c.1 < d.1) && m.all fun c => c.2 != Memory.blank

/-- Every byte of `[addr, addr+n)` is erased. -/
def Memory.erased (m : Memory) (addr n : Nat) : Bool :=
  (List.range n).all fun i => m.read (addr + i) == erasedByte

/-! ## The line -/

/-- Ticks of a list of stretches. -/
def segTicks : List Seg → Nat
  | [] => 0
  | g :: gs => g.ticks + segTicks gs

/-- The level `n` ticks into a list of stretches, if it lasts that long. -/
def segLevel : List Seg → Nat → Option Bool
  | [], _ => none
  | g :: gs, n => if n < g.ticks then some g.level else segLevel gs (n - g.ticks)

/-- `peer_out` at an absolute tick. -/
def Wave.level (w : Wave) (n : Nat) : Bool :=
  match segLevel w.lead n with
  | some l => l
  | none =>
    match w.stream with
    | some k => peerOut k n
    | none => (segLevel w.loop ((n - segTicks w.lead) % segTicks w.loop)).getD false

/-- The absolute tick. -/
def State.clock (s : State) : Nat := s.env.epoch + s.now

/-- `line(t) = dev_out OR peer_out(t)` (00_scope.md R10) at a tick `t` until which the block makes no `set_line`. -/
def State.line (s : State) (t : Nat) : Bool :=
  s.devOut || s.env.wave.level (s.env.epoch + t)

/-- `set_line(v)` (R10). -/
def State.setLine (v : Bool) (s : State) : State :=
  { s with devOut := v, devLog := (s.clock, v) :: s.devLog }

/-- `dev_out` at an absolute tick, read back from the log of `set_line`. -/
def State.devOutAt (s : State) (tick : Nat) : Bool :=
  match s.devLog.find? (fun e => e.1 ≤ tick) with
  | some e => e.2
  | none => false

/-- The first of the `n` polls from tick `t` on, one a tick, that reads the line asserted (40_byte_transport.md R135). -/
def firstAsserted (line : Nat → Bool) : Nat → Nat → Option Nat
  | _, 0 => none
  | t, n + 1 => if line t then some t else firstAsserted line (t + 1) n

/-! ## Runs, time and loss of power -/

/-- How an operation ends: completed, cut short by a loss of power with FLASH as the loss leaves it, or stopped. -/
inductive Run (α : Type) where
  | done (a : α) (s : State)
  | lost (s : State)
  | fault (r : Fault)

/-- One operation after another. -/
def Run.bind {α β : Type} (r : Run α) (f : α → State → Run β) : Run β :=
  match r with
  | .done a s => f a s
  | .lost s => .lost s
  | .fault r => .fault r

/-- The next reset falls before tick `c`. A reset at tick `r` finds the state at the start of tick `r`
(44_flash_sequencer.md R218), so an operation that completes at `r` has completed. -/
def State.lossBefore (s : State) (c : Nat) : Bool :=
  match s.env.power with
  | [] => false
  | p :: _ => p.tick < s.env.epoch + c

/-- A reset falls at the present tick or fell before it. -/
def State.lossDue (s : State) : Bool := s.lossBefore (s.now + 1)

/-- Lets time pass up to tick `c`, if the power lasts. -/
def advanceTo (c : Nat) (s : State) : Run Unit :=
  if s.lossBefore c then .lost s else .done () (s.setNow c)

/-- `delay(n)` (00_scope.md R15). -/
def delay (n : Nat) (s : State) : Run Unit := advanceTo (s.now + n) s

/-- TAKING THE EXCEPTION of this block, loss of power or reset (60_exceptions.md R231, 70_reset_and_hazards.md R260):
nothing is saved, FLASH survives, everything else is as 10_state.md R38 says, and the boot sequence starts at tick 0.
There is no return from it (R245). The peer's and the caller's time goes on; a request presented up to the tick of the reset
is lost with the block it was presented to (DESIGN CHOICE, log entry 30). -/
def State.takeReset (s : State) : State :=
  let t := match s.env.power with
    | [] => s.clock
    | p :: _ => max p.tick s.clock
  State.powerUp
    { s.env with epoch := t, power := s.env.power.tail, calls := s.env.calls.dropWhile fun c => c.tick ≤ t }
    s.flash ((t, false) :: s.devLog) s.draws

/-- What a run comes to: a loss of power is taken as a reset. -/
def Run.outcome {α : Type} : Run α → Host.Outcome State Fault Refusal
  | .done _ s => .next s
  | .lost s => .next s.takeReset
  | .fault r => .fault r

/-! ## Driving the line -/

/-- Drives slots from the present tick on, `S` ticks each (30_encoding.md R90). -/
def driveSlots : List Bool → State → Run Unit
  | [], s => .done () s
  | v :: vs, s => (delay S (s.setLine v)).bind fun _ s' => driveSlots vs s'

/-- The transmit engine at the start of a transmission (10_state.md R22). -/
def TxRegs.start (tx : TxRegs) : TxRegs := { tx with active := true, slot := 0, sub := 0 }

/-- The transmit engine after its last slot `n`. The registers keep their last values, log entry 17. -/
def TxRegs.stop (n : Nat) (tx : TxRegs) : TxRegs := { tx with active := false, slot := n, sub := 0 }

/-- The byte that is sent. -/
def TxRegs.setSr (v : Byte) (tx : TxRegs) : TxRegs := { tx with sr := v }

/-- `tx_sr`, `tx_idx` and `tx_bit` after a packet: the last byte, its index and its last bit, log entry 17. -/
def TxRegs.packetSent (bytes : List Byte) (tx : TxRegs) : TxRegs :=
  match bytes.getLast? with
  | none => tx
  | some v => { tx with sr := v, idx := (bytes.length - 1) % 256, bit := 0 }

/-- The body of `SEND_BYTE(v)` (40_byte_transport.md R131). -/
def sendByte (v : Byte) (s : State) : Run Unit :=
  (driveSlots (frameSlots v) (s.setTx (s.tx.setSr v).start)).bind fun _ s' =>
    .done () (s'.setTx (s'.tx.stop 9))

/-- The body of `SEND_SYM(code)` (41_symbol_transport.md R151). -/
def sendSymbol (code : BitVec 2) (s : State) : Run Unit :=
  (driveSlots (symSlots code) (s.setTx s.tx.start)).bind fun _ s' =>
    .done () (s'.setTx (s'.tx.stop 1))

/-- The packet of the bytes on the line (R153). -/
def sendPacket (bytes : List Byte) (s : State) : Run Unit :=
  (driveSlots (packetSlots bytes) (s.setTx s.tx.start)).bind fun _ s' =>
    .done () (s'.setTx ((s'.tx.stop 1).packetSent bytes))

/-! ## Sampling the line -/

/-- How `RECV_BYTE` ends (40_byte_transport.md R134). -/
inductive RxByte where
  | timeout
  | framing
  | byte (v : Byte)
deriving DecidableEq, Repr

/-- The result code (00_scope.md R16). -/
def RxByte.result : RxByte → Result
  | .timeout => resultTimeout
  | .framing => resultFraming
  | .byte v => resultOfByte v

/-- The value sampled after a synchronisation at `t0`: sample `k` at tick `t0 + S + PH + k*S` gives bit `7-k` (R136). -/
def sampledByte (line : Nat → Bool) (t0 : Nat) : Byte :=
  byteOfBits ((List.range 8).map fun k => line (t0 + S + PH + k * S))

/-- What the samples after a synchronisation at `t0` give: the stop sample is at `t0 + 9S + PH` (R137). -/
def sampledFrame (line : Nat → Bool) (t0 : Nat) : RxByte :=
  if line (t0 + 9 * S + PH) then .framing else .byte (sampledByte line t0)

/-- The receive engine after a search without a start: the machine of R140 has used up its polls. -/
def RxRegs.noStart (timeout : Nat) (rx : RxRegs) : RxRegs :=
  { rx with phase := .idle, polls := if timeout = 0 then rx.polls else 0 }

/-- The receive engine after a frame, as the machine of R140 leaves it: synchronised at `t0`, `left` polls left, `v`
shifted in. -/
def RxRegs.frameTaken (t0 left : Nat) (v : Byte) (rx : RxRegs) : RxRegs :=
  { rx with phase := .idle, polls := left, wait := 0, k := 8, sr := v, t0 := t0 }

/-- The body of `RECV_BYTE(timeout)` (R134). -/
def recvByte (timeout : Nat) (s : State) : Run RxByte :=
  match firstAsserted s.line s.now (timeout * S) with
  | none =>
    (advanceTo (s.now + timeout * S) s).bind fun _ s' =>
      .done .timeout ((s'.setRx (s'.rx.noStart timeout)).setResult resultTimeout)
  | some t0 =>
    (advanceTo (t0 + 9 * S + PH + 1) s).bind fun _ s' =>
      .done (sampledFrame s.line t0)
        ((s'.setRx (s'.rx.frameTaken t0 (timeout * S - (t0 - s.now)) (sampledByte s.line t0))).setResult
          (sampledFrame s.line t0).result)

/-! ## Flash primitives -/

/-- What a loss of power does to a flash step (44_flash_sequencer.md R218). -/
inductive FlashCut where
  /-- The step completes. -/
  | completes
  /-- The step has had no effect. -/
  | untouched
  /-- The step is in progress: every byte of the page is unspecified. -/
  | scrambled
deriving DecidableEq, Repr

/-- A reset that falls at the tick of a step of zero duration takes the position the environment chose (R218); a position
that is past counts as the earliest that is left. Log entry 12. -/
def zeroCut (phase : FsPhase) (cut : CutPos) : FlashCut :=
  match phase, cut with
  | .write, .duringWrite => .scrambled
  | .write, .afterWrite => .completes
  | .write, _ => .untouched
  | _, .beforeErase => .untouched
  | _, .duringErase => .scrambled
  | _, _ => .completes

/-- How the next reset meets a step that occupies `dur` ticks from now on: no effect for `r ≤ a`, in progress for
`a < r < b`, complete for `r ≥ b` (R218). -/
def State.flashCut (s : State) (phase : FsPhase) (dur : Nat) : FlashCut :=
  match s.env.power with
  | [] => .completes
  | p :: _ =>
    if p.tick < s.clock then .untouched
    else if dur = 0 then
      if p.tick = s.clock then zeroCut phase p.cut else .completes
    else if p.tick = s.clock then .untouched
    else if p.tick < s.clock + dur then .scrambled
    else .completes

/-- The page as an interrupted erase or write leaves it, or a write onto a page that is not erased: every byte a free
value. Log entries 9 and 10. -/
def State.scramblePage (s : State) (pa : Nat) : State :=
  (s.setFlash (s.flash.writeRange pa pageSize fun i => freeByte (s.draws + i))).setDraws (s.draws + pageSize)

/-- `fs_state`. -/
def FsRegs.setPhase (phase : FsPhase) (fs : FsRegs) : FsRegs := { fs with phase := phase }

/-- There is memory for the whole page (20_memory.md R69). -/
def State.pageExists (s : State) (pa : Nat) : Bool := pa + pageSize ≤ s.env.par.progMemSize

/-- A step of the flash sequencer on the page at `pa` that takes `dur` ticks and, if the power lasts, has the effect
`effect` on the state. -/
def flashStep (phase : FsPhase) (pa dur : Nat) (effect : State → State) (s : State) : Run Unit :=
  if s.pageExists pa then
    match s.flashCut phase dur with
    | .completes =>
      .done () (((effect s).setNow (s.now + dur)).setFs (s.fs.setPhase phase))
    | .untouched => .lost s
    | .scrambled => .lost (s.scramblePage pa)
  else .fault (.noProgramMemory pa)

/-- `erase_page(pa)` (44_flash_sequencer.md R214). -/
def State.blankPage (pa : Nat) (s : State) : State :=
  s.setFlash (s.flash.writeRange pa pageSize fun _ => erasedByte)

/-- `write_page(pa, TWB)` (R215): a plain store onto an erased page; onto another page the spec defines no content
(93_implementation_defined.md U4) and every byte of it is a free value. -/
def State.storePage (pa : Nat) (s : State) : State :=
  if s.flash.erased pa pageSize then
    s.setFlash (s.flash.writeRange pa pageSize (twbByte s.twb))
  else s.scramblePage pa

/-- `PB[i] <- FLASH[addr + i]` for all `i`, in `T_FILL` ticks (R217). -/
def loadPage (addr : Nat) (s : State) : Run Unit :=
  if s.pageExists addr then
    delay s.env.par.tFill (s.setPb (Vector.ofFn fun i => s.flash.read (addr + i)))
  else .fault (.noProgramMemory addr)

/-! ## The caller interface -/

/-- A request is accepted: the caller interface is served and `busy = 0` (10_state.md R41). -/
def State.callerReady (s : State) : Bool :=
  s.env.par.assembly == .caller && !s.busy

/-- The completion of an operation of the caller interface with result `r` (R29). -/
def State.complete (r : Result) (s : State) : State := (s.setResult r).setBusy false

/-- An operation of the caller interface: `busy` from its start to its completion, then `result` (R29, R41). A body that
answers none has not completed. A request that is not accepted is ignored. -/
def callerOp (body : State → Run (Option Result)) (s : State) : Host.Outcome State Fault Refusal :=
  if s.callerReady then
    ((body (s.setBusy true)).bind fun r s' =>
      match r with
      | none => .done () s'
      | some r => (.done () (s'.complete r) : Run Unit)).outcome
  else .next s

/-- The same result for a body that has none (R29). -/
def Run.withResult {α : Type} (r : Run α) (f : α → Result) : Run (Option Result) :=
  r.bind fun a s => .done (some (f a)) s

/-- `RECV_PACKET` is past its search and has not completed. -/
def State.inPacket (s : State) : Bool := s.rx.phase == .h1

/-- The block may run an operation of its own (60_exceptions.md R250): the Command Processor is in update mode, or the
block stands alone; and no packet is being received (R47). -/
def State.serving (s : State) : Bool :=
  (s.env.par.assembly == .caller || s.mode == .update) && !s.inPacket

/-- An operation that takes place only while the block serves; else it is ignored. -/
def whileServing (body : State → Run Unit) (s : State) : Host.Outcome State Fault Refusal :=
  if s.serving then (body s).outcome else .next s

end Sys2Proof.Machine
end

