-- ==== Sys2Proof/Machine/Caller.lean ====
section
/-! DEFINITION. The operations of the caller interface that do nothing (10_state.md R42): NOP and the reserved codes. -/
namespace Sys2Proof.Machine

/-- `NOP`: completes at once, result 0. -/
def execNop (s : State) : Host.Outcome State Fault Refusal :=
  callerOp (fun s' => .done (some 0#16) s') s

/-- Codes 0xC to 0xF: treated as `NOP`. -/
def execOpselReserved (_code : BitVec 4) (s : State) : Host.Outcome State Fault Refusal :=
  callerOp (fun s' => .done (some 0#16) s') s

end Sys2Proof.Machine
end

