-- ==== Sys2Proof/Machine/Flash.lean ====
section
/-! DEFINITION. The flash programming sequencer (44_flash_sequencer.md): FILL_PAGE, COMMIT_PAGE, ERASE_PAGE,
WRITE_PAGE. -/
namespace Sys2Proof.Machine

open Sys2Proof.Config

/-- The sequencer is at rest. -/
def State.fsIdle (s : State) : State := s.setFs (s.fs.setPhase .idle)

/-- The body of `FILL_PAGE(addr)` (R217); false: rejected. -/
def fillPage (addr : Addr) (s : State) : Run Bool :=
  if fillAccepts s.env.par.progMemSize addr then
    (loadPage addr.toNat s).bind fun _ s' => .done true s'
  else .done false s

/-- `fs_addr`. -/
def FsRegs.setAddr (addr : Addr) (fs : FsRegs) : FsRegs := { fs with addr := addr }

/-- Step 1 of a commit (R213): the words of `PB` go to `TWB`. -/
def fillWriteBuffer (s : State) : Run Unit :=
  delay s.env.par.tTwb ((s.setTwb (wordsOfPage s.pb)).setFs (s.fs.setPhase .fill))

/-- `erase_page` in `T_ERASE` ticks (R214). -/
def eraseStep (pa : Addr) (s : State) : Run Unit :=
  flashStep .erase pa.toNat s.env.par.tErase (State.blankPage pa.toNat) s

/-- `write_page` in `T_WRITE` ticks (R215). -/
def writeStep (pa : Addr) (s : State) : Run Unit :=
  flashStep .write pa.toNat s.env.par.tWrite (State.storePage pa.toNat) s

/-- The body of `COMMIT_PAGE(addr)` (R216); false: rejected before anything is touched. -/
def commitPage (addr : Addr) (s : State) : Run Bool :=
  if inUserRegion addr then
    (fillWriteBuffer (s.setFs (s.fs.setAddr (pageBase addr)))).bind fun _ s1 =>
      (eraseStep (pageBase addr) s1).bind fun _ s2 =>
        (writeStep (pageBase addr) s2).bind fun _ s3 => .done true s3.fsIdle
  else .done false s

/-- The body of `ERASE_PAGE(addr)` (R214): a rejected address does nothing. -/
def erasePage (addr : Addr) (s : State) : Run Unit :=
  if inUserRegion addr then (eraseStep (pageBase addr) s).bind fun _ s' => .done () s'.fsIdle
  else .done () s

/-- The body of `WRITE_PAGE(addr)` (R215): a rejected address does nothing. -/
def writePage (addr : Addr) (s : State) : Run Unit :=
  if inUserRegion addr then (writeStep (pageBase addr) s).bind fun _ s' => .done () s'.fsIdle
  else .done () s

/-- The result of a fill or commit at the caller interface (10_state.md R42): `PAGE_SIZE`, or -1 if rejected. -/
def resultOfPage (accepted : Bool) : Result := if accepted then resultPage else resultTimeout

/-- `FILL_PAGE` (R217). -/
def execFillPage (addr : Addr) (s : State) : Host.Outcome State Fault Refusal :=
  callerOp (fun s' => (fillPage addr s').withResult resultOfPage) s

/-- `COMMIT_PAGE` (R216). -/
def execCommitPage (addr : Addr) (s : State) : Host.Outcome State Fault Refusal :=
  callerOp (fun s' => (commitPage addr s').withResult resultOfPage) s

/-- `ERASE_PAGE` (R214): result 0. -/
def execErasePage (addr : Addr) (s : State) : Host.Outcome State Fault Refusal :=
  callerOp (fun s' => (erasePage addr s').withResult fun _ => 0#16) s

/-- `WRITE_PAGE` (R215): result 0. -/
def execWritePage (addr : Addr) (s : State) : Host.Outcome State Fault Refusal :=
  callerOp (fun s' => (writePage addr s').withResult fun _ => 0#16) s

end Sys2Proof.Machine
end

