-- ==== Sys2Proof/Machine/Integrity.lean ====
section
/-! DEFINITION. The hash unit at the caller interface (42_hash_integrity.md): HASH. -/
namespace Sys2Proof.Machine

/-- The hash unit computes `HASH(bytes)`; its register keeps the value (10_state.md R25). It takes no tick (R171). -/
def State.runHash (bytes : List Byte) (s : State) : State :=
  s.setH (hashBytes bytes)

/-- `HASH` (R171): the hash of `XB[0..len-1]` or of `PB`. -/
def execHash (src : HashSource) (len : Byte) (s : State) : Host.Outcome State Fault Refusal :=
  callerOp (fun s' =>
    let t := s'.runHash (hashInput src len s'.pb s'.xb)
    .done (some (resultOfByte t.h)) t) s

end Sys2Proof.Machine
end

