-- ==== Sys2Proof/Machine/Command.lean ====
section
/-! DEFINITION. The Command Processor (43_command_processor.md): the six commands, the reserved opcodes, the reception of a
request, CMD_STEP. -/
namespace Sys2Proof.Machine

open Sys2Proof.Config

/-! ## Response and integrity check -/

/-- The tick at which a response starts: `max(te, t0_last + 10*S)` (R185). -/
def State.responseTick (s : State) : Nat := max s.now (s.cp.t0Last + 10 * S)

/-- `respond(v)` (R185): one `SEND_BYTE`, not before the STOP slot of the request's last frame has ended. -/
def respond (v : Byte) (s : State) : Run Unit :=
  (advanceTo s.responseTick s).bind fun _ s' => sendByte v s'

/-- Runs `body` if the checksum received is the hash of the bytes before it; else the request is dropped (R184). -/
def withChecksum (req : List Byte) (ck : Byte) (body : State → Run Unit) (s : State) : Run Unit :=
  let t := s.runHash req
  if ck = t.h then body t else .done () t

/-! ## The commands: what each does once its request has been received -/

/-- `RDBUF idx` (R187). -/
def runRdbuf (idx ck : Byte) (s : State) : Run Unit :=
  withChecksum [0x00#8, idx] ck (fun t =>
    if h : idx.toNat < pageSize then respond t.pb[idx.toNat] t else .done () t) s

/-- `WRBUF idx, val` (R188). -/
def runWrbuf (idx val ck : Byte) (s : State) : Run Unit :=
  withChecksum [0x01#8, idx, val] ck (fun t =>
    if h : idx.toNat < pageSize then respond val (t.setPb (t.pb.set idx.toNat val)) else .done () t) s

/-- `PWRSTAT` (R190): a fresh ADC sample, in `T_ADC` ticks. -/
def runPwrstat (ck : Byte) (s : State) : Run Unit :=
  withChecksum [0x02#8] ck (fun t =>
    (delay t.env.par.tAdc t).bind fun _ u => respond (adcSample u.draws) (u.setDraws (u.draws + 1))) s

/-- `HASHBUF` (R191). -/
def runHashbuf (ck : Byte) (s : State) : Run Unit :=
  withChecksum [0x03#8] ck (fun t =>
    let u := t.runHash t.pb.toList
    respond u.h u) s

/-- Responds with `PAGE_SIZE` if the page operation was accepted; else the request is dropped (R193, R196). -/
def respondPage (accepted : Bool) (s : State) : Run Unit :=
  if accepted then respond (BitVec.ofNat 8 pageSize) s else .done () s

/-- `FILL addr` (R193). -/
def runFill (addr : Addr) (ck : Byte) (s : State) : Run Unit :=
  withChecksum [0x04#8, addrHigh addr, addrLow addr] ck (fun t =>
    (fillPage addr t).bind respondPage) s

/-- `COMMIT addr` (R196). -/
def runCommit (addr : Addr) (ck : Byte) (s : State) : Run Unit :=
  withChecksum [0x05#8, addrHigh addr, addrLow addr] ck (fun t =>
    (commitPage addr t).bind respondPage) s

/-- A reserved opcode (R197): dropped, nothing changes. -/
def dropReserved (s : State) : Run Unit := .done () s

/-! ## Meanings -/

/-- `RDBUF` (R187). -/
def execRdbuf (idx ck : Byte) (s : State) : Host.Outcome State Fault Refusal :=
  whileServing (runRdbuf idx ck) s

/-- `WRBUF` (R188). -/
def execWrbuf (idx val ck : Byte) (s : State) : Host.Outcome State Fault Refusal :=
  whileServing (runWrbuf idx val ck) s

/-- `PWRSTAT` (R190). -/
def execPwrstat (ck : Byte) (s : State) : Host.Outcome State Fault Refusal :=
  whileServing (runPwrstat ck) s

/-- `HASHBUF` (R191). -/
def execHashbuf (ck : Byte) (s : State) : Host.Outcome State Fault Refusal :=
  whileServing (runHashbuf ck) s

/-- `FILL` (R193). -/
def execFill (addr : Addr) (ck : Byte) (s : State) : Host.Outcome State Fault Refusal :=
  whileServing (runFill addr ck) s

/-- `COMMIT` (R196). -/
def execCommit (addr : Addr) (ck : Byte) (s : State) : Host.Outcome State Fault Refusal :=
  whileServing (runCommit addr ck) s

/-- Opcodes 0x06 and 0x07 (R197). -/
def execReserved0607 (_op : Byte) (s : State) : Host.Outcome State Fault Refusal :=
  whileServing dropReserved s

/-- Opcodes 0x08 to 0x0F (R197). -/
def execReserved080F (_op : Byte) (s : State) : Host.Outcome State Fault Refusal :=
  whileServing dropReserved s

/-- Opcodes 0x10 to 0x1F (R197). -/
def execReserved101F (_op : Byte) (s : State) : Host.Outcome State Fault Refusal :=
  whileServing dropReserved s

/-- Opcodes 0x20 to 0x3F (R197). -/
def execReserved203F (_op : Byte) (s : State) : Host.Outcome State Fault Refusal :=
  whileServing dropReserved s

/-- Opcodes 0x40 to 0x7F (R197). -/
def execReserved407F (_op : Byte) (s : State) : Host.Outcome State Fault Refusal :=
  whileServing dropReserved s

/-- Opcodes 0x80 to 0xFF (R197). -/
def execReserved80FF (_op : Byte) (s : State) : Host.Outcome State Fault Refusal :=
  whileServing dropReserved s

/-! ## Reception of a request -/

/-- Where operand `i` goes (10_state.md R26). -/
def CpRegs.setOperand (i : Nat) (v : Byte) (c : CpRegs) : CpRegs :=
  if i = 0 then { c with a0 := v } else { c with a1 := v }

/-- The opcode byte. -/
def CpRegs.setOp (v : Byte) (c : CpRegs) : CpRegs := { c with op := v }

/-- The checksum byte and its synchronisation tick. -/
def CpRegs.setChecksum (v : Byte) (t0 : Nat) (c : CpRegs) : CpRegs := { c with ck := v, t0Last := t0 }

/-- Receives `n` operand bytes, the first being operand `i` (R182); none: the request is dropped. -/
def recvOperands : Nat → Nat → State → Run (Option (List Byte))
  | 0, _, s => .done (some []) s
  | n + 1, i, s =>
    (recvByte s.env.par.tOperand s).bind fun r s' =>
      match r with
      | .byte v =>
        (recvOperands n (i + 1) (s'.setCp (s'.cp.setOperand i v))).bind fun vs t =>
          .done (vs.map (v :: ·)) t
      | .timeout => .done none s'
      | .framing => .done none s'

/-- Receives the checksum byte and notes its synchronisation tick (R182). -/
def recvChecksum (s : State) : Run (Option Byte) :=
  (recvByte s.env.par.tOperand s).bind fun r s' =>
    match r with
    | .byte v => .done (some v) (s'.setCp (s'.cp.setChecksum v s'.rx.t0))
    | .timeout => .done none s'
    | .framing => .done none s'

/-- Receives the bytes after the opcode. -/
def recvRest (op : Byte) (n : Nat) (s : State) : Run (Option (List Byte)) :=
  (recvOperands n 0 s).bind fun args s1 =>
    match args with
    | none => .done none s1
    | some vs =>
      (recvChecksum s1).bind fun ck s2 => .done (ck.map fun c => op :: vs ++ [c]) s2

/-- Receives one request (R182, R183): its bytes, or none if it is dropped on the way. A reserved opcode is received
alone (R197). -/
def recvRequest (s : State) : Run (Option (List Byte)) :=
  (recvByte s.env.par.tOpcode s).bind fun r s' =>
    match r with
    | .byte op =>
      let t := s'.setCp (s'.cp.setOp op)
      match nops op with
      | none => .done (some [op]) t
      | some n => recvRest op n t
    | .timeout => .done none s'
    | .framing => .done none s'

/-- Executes a received request. -/
def runRequest : Request → State → Run Unit
  | .rdbuf idx ck => runRdbuf idx ck
  | .wrbuf idx val ck => runWrbuf idx val ck
  | .pwrstat ck => runPwrstat ck
  | .hashbuf ck => runHashbuf ck
  | .fill addr ck => runFill addr ck
  | .commit addr ck => runCommit addr ck
  | .reserved0607 _ => dropReserved
  | .reserved080F _ => dropReserved
  | .reserved101F _ => dropReserved
  | .reserved203F _ => dropReserved
  | .reserved407F _ => dropReserved
  | .reserved80FF _ => dropReserved

/-- The body of `CMD_STEP` (R182): one request, received, checked and executed, or dropped. -/
def cmdStep (s : State) : Run Unit :=
  (recvRequest s).bind fun bytes s' =>
    match bytes with
    | none => .done () s'
    | some bs =>
      match decodeRequest bs with
      | .ok (r, _) => runRequest r s'
      | .error _ => .done () s'

/-- `CMD_STEP` at the caller interface (R182): always result 0. -/
def execCmdStep (s : State) : Host.Outcome State Fault Refusal :=
  callerOp (fun s' => (cmdStep s').withResult fun _ => 0#16) s

end Sys2Proof.Machine
end

