-- ==== Sys2Proof/Machine/Symbol.lean ====
section
/-! DEFINITION. The symbol transport and packet framer (41_symbol_transport.md): the four symbols, PACKET, SEND_SYM,
SEND_PACKET, RECV_PACKET. -/
namespace Sys2Proof.Machine

open Sys2Proof.Config

/-! ## Transmit -/

/-- `SYM_STOP` (30_encoding.md R93): the transmitter drives `00`. Log entry 13. -/
def execSymStop (s : State) : Host.Outcome State Fault Refusal :=
  whileServing (sendSymbol stopCode) s

/-- `SYM_D0` (R93): the transmitter drives `01`. -/
def execSymD0 (s : State) : Host.Outcome State Fault Refusal :=
  whileServing (sendSymbol d0Code) s

/-- `SYM_D1` (R93): the transmitter drives `10`. -/
def execSymD1 (s : State) : Host.Outcome State Fault Refusal :=
  whileServing (sendSymbol d1Code) s

/-- `SYM_START` (R93): the transmitter drives `11`. -/
def execSymStart (s : State) : Host.Outcome State Fault Refusal :=
  whileServing (sendSymbol startCode) s

/-- `PACKET` (30_encoding.md R95): the transmitter drives the packet of the bytes. -/
def execPacket (bytes : List Byte) (s : State) : Host.Outcome State Fault Refusal :=
  whileServing (sendPacket bytes) s

/-- `SEND_SYM` (R151): result 0; `dev_out` keeps the level of the second half. -/
def execSendSym (code : BitVec 2) (s : State) : Host.Outcome State Fault Refusal :=
  callerOp (fun s' => (sendSymbol code s').withResult fun _ => 0#16) s

/-- `SEND_PACKET(len)` (R153): the packet of `XB[0..len-1]`; result 0. -/
def execSendPacket (len : Byte) (s : State) : Host.Outcome State Fault Refusal :=
  callerOp (fun s' => (sendPacket (packetInput len s'.xb) s').withResult fun _ => 0#16) s

/-! ## Receive -/

/-- The receive engine when the search for a packet's start ends in a timeout (R155, R160). -/
def RxRegs.noPacket (maxSize : Byte) (rx : RxRegs) : RxRegs :=
  { rx with phase := .idle, polls := 0, count := 0, sr := 0, k := 0, max := maxSize }

/-- The receive engine one tick after the poll at `t0` that found the line asserted, `left` polls being left (R160): the next
sample is at `t0 + 2S + PH`. -/
def RxRegs.packetSynced (maxSize : Byte) (t0 left : Nat) (rx : RxRegs) : RxRegs :=
  { rx with
    phase := .h1, polls := left, wait := 2 * S + PH - 1, count := 0, sr := 0, k := 0, max := maxSize, t0 := t0 }

/-- The search of `RECV_PACKET` (R156): -1 after `PKT_SYNC_ROUNDS * PKT_SUBPOLLS` polls; none when synchronised. -/
def searchPacket (maxSize : Byte) (s : State) : Run (Option Result) :=
  match firstAsserted s.line s.now (pktSyncRounds * pktSubpolls) with
  | none =>
    (advanceTo (s.now + pktSyncRounds * pktSubpolls) s).bind fun _ s' =>
      .done (some resultTimeout) (s'.setRx (s'.rx.noPacket maxSize))
  | some t0 =>
    (advanceTo (t0 + 1) s).bind fun _ s' =>
      .done none (s'.setRx (s'.rx.packetSynced maxSize t0 (pktSyncRounds * pktSubpolls - (t0 - s.now))))

/-- The receive engine after a data bit that does not complete a byte. -/
def RxRegs.bitTaken (a : Bool) (rx : RxRegs) : RxRegs :=
  { rx with phase := .h1, wait := S - 1, first := a, k := rx.k + 1, sr := shiftIn rx.sr a }

/-- The receive engine after a data bit that completes a byte: the byte is counted, stored or not (R158). -/
def RxRegs.byteTaken (a : Bool) (rx : RxRegs) : RxRegs :=
  { rx with phase := .h1, wait := S - 1, first := a, k := 0, sr := 0, count := rx.count + 1 }

/-- A completed byte is stored at `XB[count]` while `count < max_size` (R158). -/
def State.storeByte (v : Byte) (s : State) : State :=
  if s.rx.count < s.rx.max.toNat then s.setXb (s.xb.setIfInBounds s.rx.count v) else s

/-- A data bit (R157, R158). -/
def takeDataBit (a : Bool) (s : State) : State :=
  if s.rx.k + 1 = 8 then (s.storeByte (shiftIn s.rx.sr a)).setRx (s.rx.byteTaken a)
  else s.setRx (s.rx.bitTaken a)

/-- The receive engine after the symbol that ends the packet. -/
def RxRegs.packetEnded (a : Bool) (rx : RxRegs) : RxRegs :=
  { rx with phase := .idle, wait := 0, first := a }

/-- One symbol of a packet (R157): the first half is sampled `rx_wait` ticks on, the second half `S` ticks later. `00` ends
the packet with its count, `11` ends it with -2, `01` and `10` are data bits 0 and 1. Above 32767 bytes the result is a free
value of the tick at which the packet ends (DESIGN CHOICE, log entry 11). -/
def recvSymbol (s : State) : Run (Option Result) :=
  let ta := s.now + s.rx.wait
  let a := s.line ta
  let b := s.line (ta + S)
  (advanceTo (ta + S + 1) s).bind fun _ s' =>
    match a, b with
    | false, false => .done (some (resultOfCount s'.rx.count s'.clock)) (s'.setRx (s'.rx.packetEnded a))
    | true, true => .done (some resultFraming) (s'.setRx (s'.rx.packetEnded a))
    | _, _ => .done none (takeDataBit a s')

/-- At most `fuel` symbols, up to the one that ends the packet. -/
def recvSymbols : Nat → State → Run (Option Result)
  | 0, s => .done none s
  | fuel + 1, s =>
    (recvSymbol s).bind fun r s' =>
      match r with
      | some r => .done (some r) s'
      | none => recvSymbols fuel s'

/-- How many symbols one step takes. Without a stream, more than the peer's waveform has before it repeats: a packet that has
not ended by then never ends (R161). With one, all symbols of the longest packet that has a result (R24); the block then
goes on symbol by symbol. Log entry 16. -/
def State.symbolFuel (s : State) : Nat :=
  match s.env.wave.stream with
  | none => segTicks s.env.wave.lead + segTicks s.env.wave.loop + 2
  | some _ => packetSymbols

/-- The body of `RECV_PACKET(maxSize)` (R155). It answers none if the packet has not ended; the block then goes on
receiving it. -/
def recvPacket (maxSize : Byte) (s : State) : Run (Option Result) :=
  (searchPacket maxSize s).bind fun r s' =>
    match r with
    | some r => .done (some r) s'
    | none => recvSymbols s'.symbolFuel s'

/-- `RECV_PACKET` (R155): the byte count, -1 or -2. -/
def execRecvPacket (maxSize : Byte) (s : State) : Host.Outcome State Fault Refusal :=
  callerOp (recvPacket maxSize) s

/-- A further symbol of a packet that is still being received (R161). -/
def continuePacket (s : State) : Host.Outcome State Fault Refusal :=
  ((recvSymbol s).bind fun r s' =>
    match r with
    | some r => .done () (s'.complete r)
    | none => .done () s').outcome

end Sys2Proof.Machine
end

