-- ==== Sys2Proof/Machine/Transport.lean ====
section
/-! DEFINITION. The byte-timing transport (40_byte_transport.md): BYTE_FRAME, SEND_BYTE, RECV_BYTE. -/
namespace Sys2Proof.Machine

open Sys2Proof.Config

/-- `BYTE_FRAME` (30_encoding.md R91): the transmitter drives the frame of `v`. Log entry 13. -/
def execByteFrame (v : Byte) (s : State) : Host.Outcome State Fault Refusal :=
  whileServing (sendByte v) s

/-- `SEND_BYTE` (R131): result 0. -/
def execSendByte (v : Byte) (s : State) : Host.Outcome State Fault Refusal :=
  callerOp (fun s' => (sendByte v s').withResult fun _ => 0#16) s

/-- `RECV_BYTE` (R134): the byte, -1 or -2. -/
def execRecvByte (timeout : BitVec 16) (s : State) : Host.Outcome State Fault Refusal :=
  callerOp (fun s' => (recvByte timeout.toNat s').withResult RxByte.result) s

end Sys2Proof.Machine
end

