-- ==== Sys2Proof/Machine/Dispatch.lean ====
section
/-! DEFINITION. One arm per instruction. -/
namespace Sys2Proof.Machine

def exec (i : Instr) (s : State) : Host.Outcome State Fault Refusal :=
  match i with
  | .rdbuf idx ck => Sys2Proof.Machine.execRdbuf idx ck s
  | .wrbuf idx val ck => Sys2Proof.Machine.execWrbuf idx val ck s
  | .pwrstat ck => Sys2Proof.Machine.execPwrstat ck s
  | .hashbuf ck => Sys2Proof.Machine.execHashbuf ck s
  | .fill addr ck => Sys2Proof.Machine.execFill addr ck s
  | .commit addr ck => Sys2Proof.Machine.execCommit addr ck s
  | .reserved0607 op => Sys2Proof.Machine.execReserved0607 op s
  | .reserved080F op => Sys2Proof.Machine.execReserved080F op s
  | .reserved101F op => Sys2Proof.Machine.execReserved101F op s
  | .reserved203F op => Sys2Proof.Machine.execReserved203F op s
  | .reserved407F op => Sys2Proof.Machine.execReserved407F op s
  | .reserved80FF op => Sys2Proof.Machine.execReserved80FF op s
  | .byteFrame v => Sys2Proof.Machine.execByteFrame v s
  | .symStop => Sys2Proof.Machine.execSymStop s
  | .symD0 => Sys2Proof.Machine.execSymD0 s
  | .symD1 => Sys2Proof.Machine.execSymD1 s
  | .symStart => Sys2Proof.Machine.execSymStart s
  | .packet bytes => Sys2Proof.Machine.execPacket bytes s
  | .nop => Sys2Proof.Machine.execNop s
  | .sendByte v => Sys2Proof.Machine.execSendByte v s
  | .recvByte timeout => Sys2Proof.Machine.execRecvByte timeout s
  | .sendSym code => Sys2Proof.Machine.execSendSym code s
  | .sendPacket len => Sys2Proof.Machine.execSendPacket len s
  | .recvPacket maxSize => Sys2Proof.Machine.execRecvPacket maxSize s
  | .hash src len => Sys2Proof.Machine.execHash src len s
  | .cmdStep => Sys2Proof.Machine.execCmdStep s
  | .fillPage addr => Sys2Proof.Machine.execFillPage addr s
  | .commitPage addr => Sys2Proof.Machine.execCommitPage addr s
  | .erasePage addr => Sys2Proof.Machine.execErasePage addr s
  | .writePage addr => Sys2Proof.Machine.execWritePage addr s
  | .opselReserved code => Sys2Proof.Machine.execOpselReserved code s

end Sys2Proof.Machine
end

