-- ==== Sys2Proof/Machine/Sequencer.lean ====
section
/-! DEFINITION. What the block does next: the boot sequence, the command loop, the caller interface, the transmit engine;
and how an encoded instruction is put where the block meets it. -/
namespace Sys2Proof.Machine

open Sys2Proof.Config

/-! ## Boot (70_reset_and_hazards.md R262, R263) -/

/-- Polls of the grace window that are left. -/
def State.gracePolls (s : State) : Nat := s.env.par.bootGrace * S - s.now

/-- The window was seen asserted: update mode for good (R263, R265). -/
def State.enterUpdate (s : State) : State := s.setMode .update

/-- The window was not seen asserted: control goes to the user application (R266). -/
def State.enterUserApp (s : State) : State :=
  { s with mode := .userApp, bootUser := true, pc := some userEntry }

/-- The rest of the boot sequence: one poll a tick; the first that reads 1 decides for update mode at the next tick
(R263). -/
def bootStep (s : State) : Host.Outcome State Fault Refusal :=
  match firstAsserted s.line s.now s.gracePolls with
  | some p => ((advanceTo (p + 1) s).bind fun _ s' => .done () s'.enterUpdate).outcome
  | none => ((delay s.gracePolls s).bind fun _ s' => .done () s'.enterUserApp).outcome

/-! ## Fetch and execute -/

/-- The block does nothing for a tick. -/
def idleStep (s : State) : Host.Outcome State Fault Refusal := (delay 1 s).outcome

/-- The command loop (43_command_processor.md R181): receives a request, decodes it, executes it. -/
def commandStep (s : State) : Host.Outcome State Fault Refusal :=
  match recvRequest s with
  | .done (some bs) s' =>
    match decode (.bytes bs) with
    | .ok i => exec i s'
    | .error e => .refused (.undecodable e)
  | .done none s' => .next s'
  | .lost s' => .next s'.takeReset
  | .fault r => .fault r

/-- The transmit engine with nothing loaded. -/
def TxRegs.unloaded (tx : TxRegs) : TxRegs := { tx with wire := [] }

/-- The transmit engine drives the wire form it was loaded with. Log entry 13. -/
def wireStep (s : State) : Host.Outcome State Fault Refusal :=
  match decode (.slots s.tx.wire) with
  | .ok i => exec i (s.setTx s.tx.unloaded)
  | .error e => .refused (.undecodable e)

/-- The caller's next request is taken from the queue. -/
def State.popCall (s : State) : State := s.setEnv { s.env with calls := s.env.calls.tail }

/-- The caller interface (10_state.md R41): the request presented at this tick is executed; one presented while the block
was busy has been ignored; else time passes. Log entry 19. -/
def callerStep (s : State) : Host.Outcome State Fault Refusal :=
  match s.env.calls with
  | [] => idleStep s
  | c :: _ =>
    if c.tick < s.clock then .next s.popCall
    else if c.tick = s.clock then exec (decodeCall c.call) s.popCall
    else (advanceTo (c.tick - s.env.epoch) s).outcome

/-- A block that serves: it goes on with a packet, drives a loaded wire form, or waits for what `next` brings. -/
def servingStep (next : State → Host.Outcome State Fault Refusal) (s : State) : Host.Outcome State Fault Refusal :=
  if s.inPacket then continuePacket s
  else if s.tx.wire = [] then next s
  else wireStep s

/-- One step of a block that keeps its power. -/
def poweredStep (s : State) : Host.Outcome State Fault Refusal :=
  match s.env.par.assembly with
  | .caller => servingStep callerStep s
  | .bootloader =>
    match s.mode with
    | .bootCheck => bootStep s
    | .update => servingStep commandStep s
    | .userApp => idleStep s

/-- The request presented at this tick. One of an earlier tick was ignored while the block was busy (10_state.md R41), whether
or not it has left the list. -/
def State.presented (s : State) : Option TimedCall :=
  match s.env.calls.dropWhile fun c => c.tick < s.clock with
  | [] => none
  | c :: _ => if c.tick = s.clock then some c else none

/-- A request is presented at the very tick at which a reset falls, and the environment has chosen a position for the reset
that is not before it (44_flash_sequencer.md R218): the request starts first, and an operation that takes no tick, or a
flash step of zero duration, meets the reset in the position chosen. Log entry 30. -/
def State.requestFirst (s : State) : Bool :=
  match s.env.power with
  | [] => false
  | p :: _ =>
    s.callerReady && !s.inPacket && s.tx.wire == [] && p.tick == s.clock && s.presented.isSome && p.cut != .beforeErase

/-! ## Placing an instruction -/

/-- The levels of the slots from absolute tick `t` on. -/
def waveOfSlots (t : Nat) (levels : List Bool) : Wave where
  lead := ⟨t, false⟩ :: levels.map fun l => ⟨S, l⟩
  loop := []

/-- The same block, built as `a`. -/
def Params.withAssembly (a : Assembly) (p : Params) : Params := { p with assembly := a }

/-- Puts an encoded instruction where the very next step meets it: a request on the line from the present tick on, in
update mode; a wire form in the transmit engine; a request at the caller interface at the present tick. Log entry 15. -/
def State.place (c : Code) (s : State) : State :=
  match c with
  | .bytes bs =>
    { s with
      env := { s.env with
        par := Params.withAssembly .bootloader s.env.par
        wave := waveOfSlots s.clock (bs.flatMap frameSlots)
        power := [] }
      mode := .update
      devOut := false
      busy := true
      tx := { s.tx with wire := [] }
      rx := { s.rx with phase := .idle } }
  | .slots levels =>
    { s with
      env := { s.env with par := Params.withAssembly .bootloader s.env.par, power := [] }
      mode := .update
      busy := true
      tx := { s.tx with wire := levels }
      rx := { s.rx with phase := .idle } }
  | .call c =>
    { s with
      env := { s.env with
        par := Params.withAssembly .caller s.env.par
        power := []
        calls := [⟨s.clock, c⟩] }
      busy := false
      tx := { s.tx with wire := [] }
      rx := { s.rx with phase := .idle } }

end Sys2Proof.Machine
end

