-- ==== Sys2Proof/Machine/Step.lean ====
section
/-! DEFINITION. One step of the machine, and the placing of a word of the opcode table. -/
namespace Sys2Proof.Machine

/-- One step: a reset that is due comes first (60_exceptions.md R242), unless a request of the same tick does
(44_flash_sequencer.md R218, log entry 30); then what the block does next. -/
def step (s : State) : Host.Outcome State Fault Refusal :=
  if s.lossDue && !s.requestFirst then .next s.takeReset else poweredStep s

/-- `s` with the instruction of a table word where the next step meets it. -/
def State.withFetchWord (s : State) (nbits w : Nat) : State :=
  match tableCode nbits w with
  | none => s
  | some c => s.place c

end Sys2Proof.Machine
end

