-- ==== Sys2Proof/Machine/Tick.lean ====
section
/-! DEFINITION. The tick machines: those of 40_byte_transport.md R140 and 41_symbol_transport.md R160, and those of the
transmitter's counters, one step per tick, on the working registers of 10_state.md R22 and R23. A machine that is at rest
stays as it is. -/
namespace Sys2Proof.Machine

open Sys2Proof.Config

/-- One tick of a receive machine: its registers move on, and `complete(r)` (R140) ends the operation. -/
def State.rxTicked (r : RxRegs × Option Result) (s : State) : State :=
  let t := (s.setNow (s.now + 1)).setRx r.1
  match r.2 with
  | none => t
  | some r => t.complete r

/-- `rx_polls <- rx_polls - 1`; at 0 the search ends with -1. -/
def RxRegs.pollMissed (rx : RxRegs) : RxRegs × Option Result :=
  if rx.polls - 1 = 0 then ({ rx with polls := 0, phase := .idle }, some resultTimeout)
  else ({ rx with polls := rx.polls - 1 }, none)

/-- `rx_wait <- rx_wait - 1`. -/
def RxRegs.waited (rx : RxRegs) : RxRegs := { rx with wait := rx.wait - 1 }

/-! ## RECV_BYTE (R140) -/

/-- The start of `RECV_BYTE(timeout)`. -/
def rxByteStart (timeout : Nat) (s : State) : State :=
  if timeout = 0 then (s.setRx { s.rx with phase := .idle }).complete resultTimeout
  else s.setRx { s.rx with phase := .search, polls := timeout * S }

/-- The registers of `RECV_BYTE` after a tick at which the line has the level `x`. -/
def RxRegs.byteTick (x : Bool) (now : Nat) (rx : RxRegs) : RxRegs × Option Result :=
  match rx.phase with
  | .search =>
    if x then ({ rx with phase := .data, wait := S + PH - 1, k := 0, sr := 0, t0 := now }, none) else rx.pollMissed
  | .data =>
    if 0 < rx.wait then (rx.waited, none)
    else
      ({ rx with
          phase := if rx.k + 1 = 8 then .stopChk else .data
          sr := shiftIn rx.sr x
          k := rx.k + 1
          wait := S - 1 }, none)
  | .stopChk =>
    if 0 < rx.wait then (rx.waited, none)
    else ({ rx with phase := .idle }, some (if x then resultFraming else resultOfByte rx.sr))
  | .idle | .h1 | .h2 => (rx, none)

/-- One tick of the receiver. -/
def rxByteTick (s : State) : State :=
  if s.rx.phase = .idle then s else s.rxTicked (s.rx.byteTick (s.line s.now) s.now)

/-! ## RECV_PACKET (R160) -/

/-- The start of `RECV_PACKET(maxSize)`. -/
def rxPacketStart (maxSize : Byte) (s : State) : State :=
  s.setRx { s.rx with
    phase := .search, polls := pktSyncRounds * pktSubpolls, count := 0, sr := 0, k := 0, max := maxSize }

/-- The registers of `RECV_PACKET` after a tick at which the line has the level `x`; `tick` is the absolute tick
at which the operation completes if it completes now. -/
def RxRegs.packetTick (x : Bool) (now tick : Nat) (rx : RxRegs) : RxRegs × Option Result :=
  match rx.phase with
  | .search =>
    if x then ({ rx with phase := .h1, wait := 2 * S + PH - 1, t0 := now }, none) else rx.pollMissed
  | .h1 =>
    if 0 < rx.wait then (rx.waited, none)
    else ({ rx with first := x, phase := .h2, wait := S - 1 }, none)
  | .h2 =>
    if 0 < rx.wait then (rx.waited, none)
    else if rx.first = false ∧ x = false then ({ rx with phase := .idle }, some (resultOfCount rx.count tick))
    else if rx.first = true ∧ x = true then ({ rx with phase := .idle }, some resultFraming)
    else if rx.k + 1 = 8 then
      ({ rx with phase := .h1, wait := S - 1, k := 0, sr := 0, count := rx.count + 1 }, none)
    else ({ rx with phase := .h1, wait := S - 1, k := rx.k + 1, sr := shiftIn rx.sr rx.first }, none)
  | .idle | .data | .stopChk => (rx, none)

/-- The tick at which the eighth bit of a byte has been sampled. -/
def RxRegs.byteDone (x : Bool) (rx : RxRegs) : Bool :=
  rx.phase == .h2 && rx.wait == 0 && rx.first != x && rx.k + 1 == 8

/-- One tick of the packet receiver; a completed byte is stored while there is room. -/
def rxPacketTick (s : State) : State :=
  if s.rx.phase = .idle then s
  else
    let x := s.line s.now
    let t := if s.rx.byteDone x then s.storeByte (shiftIn s.rx.sr s.rx.first) else s
    t.rxTicked (s.rx.packetTick x s.now (s.clock + 1))

/-! ## SEND_BYTE (R140, last paragraph) -/

/-- The start of `SEND_BYTE(v)`. -/
def txByteStart (v : Byte) (s : State) : State := s.setTx (s.tx.setSr v).start

/-- `level(n)`: 1 in slot 0, `tx_sr[8-n]` in slots 1 to 8, 0 in slot 9. -/
def txLevel (sr : Byte) (slot : Nat) : Bool :=
  if slot = 0 then true else if slot = 9 then false else sr.getLsbD (8 - slot)

/-- The transmit registers after a tick: `tx_sub` counts `0..S-1`, `tx_slot` advances when it wraps, `tx_active` falls
after slot 9. -/
def TxRegs.tick (tx : TxRegs) : TxRegs :=
  if tx.sub + 1 = S then
    if tx.slot = 9 then { tx with sub := 0, active := false } else { tx with sub := 0, slot := tx.slot + 1 }
  else { tx with sub := tx.sub + 1 }

/-- One tick of the transmitter: the level is set at the first tick of a slot. -/
def txByteTick (s : State) : State :=
  if s.tx.active then
    let u := if s.tx.sub = 0 then s.setLine (txLevel s.tx.sr s.tx.slot) else s
    (u.setNow (s.now + 1)).setTx s.tx.tick
  else s

/-- `n` ticks of a machine. -/
def runTicks {α : Type} (tick : α → α) : Nat → α → α
  | 0, s => s
  | n + 1, s => runTicks tick n (tick s)

/-! ## SEND_SYM and SEND_PACKET (10_state.md R22, 41_symbol_transport.md R151, R153) -/

/-- A symbol to be sent: its code, and for a data symbol the byte it belongs to, the index of that byte and of the bit. -/
structure TxSymbol where
  code : BitVec 2
  data : Option (Byte × Nat × Nat) := none
deriving DecidableEq, Repr

/-- The symbols of a byte, bit 7 first (R153). -/
def symbolsOfByte (v : Byte) (idx : Nat) : List TxSymbol :=
  (List.range 8).map fun j => { code := dsym (v.getLsbD (7 - j)), data := some (v, idx, 7 - j) }

/-- The symbols of the bytes of a packet, the first of which has index `idx`. -/
def symbolsOfBytes : List Byte → Nat → List TxSymbol
  | [], _ => []
  | v :: vs, idx => symbolsOfByte v idx ++ symbolsOfBytes vs (idx + 1)

/-- The symbols of a packet (R153). -/
def symbolsOfPacket (bytes : List Byte) : List TxSymbol :=
  { code := startCode } :: (symbolsOfBytes bytes 0 ++ [{ code := stopCode }])

/-- The transmit registers at the start of a symbol: `tx_sr`, `tx_idx` and `tx_bit` of a data symbol (10_state.md R22). -/
def TxRegs.load (sym : TxSymbol) (tx : TxRegs) : TxRegs :=
  match sym.data with
  | none => { tx with slot := 0, sub := 0 }
  | some (v, idx, bit) => { tx with slot := 0, sub := 0, sr := v, idx := idx % 256, bit := bit }

/-- The block, and the symbols it is sending, the one on the line first. -/
abbrev SymbolTx := State × List TxSymbol

/-- The start of a transmission of symbols. -/
def txSymbolsStart (syms : List TxSymbol) (s : State) : SymbolTx :=
  match syms with
  | [] => (s, [])
  | sym :: _ => (s.setTx (s.tx.start.load sym), syms)

/-- The level of slot 0 or 1 of a symbol (R151). -/
def symbolLevel (code : BitVec 2) (slot : Nat) : Bool := code.getLsbD (1 - slot)

/-- The registers and the symbols left after a tick: `tx_sub` counts `0..S-1`, `tx_slot` 0 and 1, then the next symbol is
loaded; `tx_active` falls after the last. -/
def TxRegs.symbolTick (syms : List TxSymbol) (tx : TxRegs) : TxRegs × List TxSymbol :=
  if tx.sub + 1 < S then ({ tx with sub := tx.sub + 1 }, syms)
  else if tx.slot = 0 then ({ tx with sub := 0, slot := 1 }, syms)
  else match syms with
    | _ :: next :: rest => (tx.load next, next :: rest)
    | _ => ({ tx with sub := 0, active := false }, [])

/-- One tick of the transmitter of symbols: the level is set at the first tick of a slot. -/
def txSymbolTick (m : SymbolTx) : SymbolTx :=
  match m.2 with
  | [] => m
  | sym :: _ =>
    let u := if m.1.tx.sub = 0 then m.1.setLine (symbolLevel sym.code m.1.tx.slot) else m.1
    let r := m.1.tx.symbolTick m.2
    ((u.setNow (m.1.now + 1)).setTx r.1, r.2)

end Sys2Proof.Machine
end

