-- ==== Sys2Proof/Safety.lean ====
section
/-! DEFINITION. The terms the statements use: what the line carries, what the block drives, what counts as a well-formed
state, and what a step leaves alone. -/
namespace Sys2Proof.Machine

open Sys2Proof.Config

/-! ## The line -/

/-- From tick `e` on the line carries the slots, `S` ticks each (30_encoding.md R90). -/
def State.Carries (s : State) (e : Nat) (levels : List Bool) : Prop :=
  ∀ τ, τ < S * levels.length → s.line (e + τ) = levels.getD (τ / S) false

/-- The line is idle from tick `a` up to tick `b`. -/
def State.Idle (s : State) (a b : Nat) : Prop :=
  ∀ τ, a ≤ τ → τ < b → s.line τ = false

/-- The first tick of `[a, b)` at which the line is asserted is `t0`. -/
def State.FirstAsserted (s : State) (a b t0 : Nat) : Prop :=
  a ≤ t0 ∧ t0 < b ∧ s.line t0 = true ∧ s.Idle a t0

/-- From absolute tick `e` on the block has driven the slots. -/
def State.Drove (s : State) (e : Nat) (levels : List Bool) : Prop :=
  ∀ τ, τ < S * levels.length → s.devOutAt (e + τ) = levels.getD (τ / S) false

/-- What the block had driven before the absolute tick `e` is as it was. -/
def SameLineBefore (e : Nat) (s t : State) : Prop :=
  ∀ τ, τ < e → t.devOutAt τ = s.devOutAt τ

/-- The halves of symbol `j` after a synchronisation at `t0` (41_symbol_transport.md R157). -/
def State.pairAt (s : State) (t0 j : Nat) : Bool × Bool :=
  (s.line (t0 + 2 * S * j + PH), s.line (t0 + 2 * S * j + S + PH))

/-- A pair that carries a data bit (R157). -/
def isData (p : Bool × Bool) : Bool := p.1 != p.2

/-! ## Program memory -/

/-- No byte of program memory has changed. -/
def SameFlash (s t : State) : Prop :=
  ∀ a, t.flash.read a = s.flash.read a

/-- No byte outside `[pa, pa + PAGE_SIZE)` has changed. -/
def SameFlashOutside (pa : Nat) (s t : State) : Prop :=
  ∀ a, a < pa ∨ pa + pageSize ≤ a → t.flash.read a = s.flash.read a

/-- No byte of the protected region has changed (20_memory.md R73). -/
def SameProtected (s t : State) : Prop :=
  ∀ a, userLimit ≤ a → t.flash.read a = s.flash.read a

/-- The page at `pa` holds the bytes of `PB` (44_flash_sequencer.md R216). -/
def State.PageHolds (t : State) (pa : Nat) (pb : PageBuffer) : Prop :=
  ∀ i : Fin pageSize, t.flash.read (pa + i) = pb[i]

/-- Every byte of the page at `pa` is erased (44_flash_sequencer.md R214). -/
def State.PageErased (t : State) (pa : Nat) : Prop :=
  ∀ i : Fin pageSize, t.flash.read (pa + i) = erasedByte

/-! ## Outcomes -/

/-- The step from `s` to `t` took the next reset: it has been used up and the boot sequence is at its start (R260). -/
def TookReset (s t : State) : Prop :=
  s.env.power ≠ [] ∧ t.env.power = s.env.power.tail ∧ t.mode = .bootCheck ∧ t.now = 0

/-- `t` differs from `s` at most in what a transmission writes: time, the line, the transmit registers. -/
def OnlyTransmitted (s t : State) : Prop :=
  t = { s with now := t.now, devOut := t.devOut, devLog := t.devLog, tx := t.tx } ∧ t.tx.wire = s.tx.wire

/-- From the present tick on the slots have been driven, `S` ticks each, and nothing else has changed: the state after a
transmission (30_encoding.md R90). -/
def Transmitted (levels : List Bool) (s t : State) : Prop :=
  t.now = s.now + S * levels.length ∧ t.devOut = levels.getLastD s.devOut ∧ t.Drove s.clock levels ∧
    SameLineBefore s.clock s t ∧ OnlyTransmitted s t ∧ SameFlash s t

/-- `i` drives the slots, wherever the block serves and the power lasts. -/
def Drives (i : Instr) (levels : List Bool) : Prop :=
  ∀ s : State, s.serving = true → s.lossBefore (s.now + S * levels.length) = false →
    ∃ t, exec i s = .next t ∧ Transmitted levels s t

/-- `t` is what a response of `v` that starts at tick `ts` makes of `s` (43_command_processor.md R185): the frame of `v` on
the line in `[ts, ts + 10*S)`, nothing driven between the present tick and `ts`, and no other change. -/
def Responded (v : Byte) (ts : Nat) (s t : State) : Prop :=
  t.now = ts + 10 * S ∧ t.devOut = false ∧ t.Drove (s.env.epoch + ts) (frameSlots v) ∧
    SameLineBefore (s.env.epoch + ts) s t ∧ OnlyTransmitted s t ∧ SameFlash s t

/-- The tick at which a response to a request starts whose execution ends at tick `te` (R185). -/
def State.responseAt (s : State) (te : Nat) : Nat := max te (s.cp.t0Last + 10 * S)

/-- `t` differs from `s` at most in what the reception of a byte writes: time, `result`, and the registers of the receive
engine that belong to the byte variant. The engine is at rest. -/
def OnlyReceived (s t : State) : Prop :=
  t = { s with now := t.now, result := t.result, rx := t.rx } ∧ SameFlash s t ∧ t.rx.phase = .idle ∧
    t.rx.first = s.rx.first ∧ t.rx.count = s.rx.count ∧ t.rx.max = s.rx.max

/-- `t` differs from `s` at most in what the reception of the bytes of a request writes: time, `result`, the receive engine and
the registers of the Command Processor. -/
def OnlyListened (s t : State) : Prop :=
  t = { s with now := t.now, result := t.result, rx := t.rx, cp := t.cp }

/-- `t` differs from `s` at most in what the reception of a packet writes: time, `result`, `XB`, the receive engine. -/
def OnlyReceivedPacket (s t : State) : Prop :=
  t = { s with now := t.now, result := t.result, xb := t.xb, rx := t.rx } ∧ SameFlash s t

/-- `XB` after a packet of `n` bytes whose symbols begin after the synchronisation at `t0` (41_symbol_transport.md R158): the
first `min n maxSize` bytes are stored, bit `7-m` of byte `i` being the first half of symbol `8*i + m + 1`; the others are as
they were. -/
def StoredPacket (t0 n : Nat) (maxSize : Byte) (s t : State) : Prop :=
  ∀ i : Fin xbSize,
    if i.val < min n maxSize.toNat then ∀ m, m < 8 → t.xb[i].getLsbD (7 - m) = (s.pairAt t0 (8 * i.val + m + 1)).1
    else t.xb[i] = s.xb[i]

/-- `u` is what a commit of the page at `pa` makes of `s` (44_flash_sequencer.md R216), but for the time it takes. -/
def Committed (pa : Addr) (s u : State) : Prop :=
  u = { s with now := u.now, flash := u.flash, twb := wordsOfPage s.pb, fs := ⟨.idle, pa⟩ } ∧
    u.PageHolds pa.toNat s.pb ∧ SameFlashOutside pa.toNat s u

/-- What a reset in the given position leaves in the page at `pa` of a commit whose erase and write take no time, begun in `s`
(44_flash_sequencer.md R218, the rows of its table): the old bytes, free values, erased bytes, free values, the bytes of
`PB`. -/
def PageAfterCut (cut : CutPos) (pa : Nat) (s t : State) : Prop :=
  match cut with
  | .beforeErase => SameFlash s t
  | .duringErase => ∀ i : Fin pageSize, t.flash.read (pa + i) = freeByte (s.draws + i)
  | .betweenSteps => t.PageErased pa
  | .duringWrite => ∀ i : Fin pageSize, t.flash.read (pa + i) = freeByte (s.draws + i)
  | .afterWrite => t.PageHolds pa s.pb

/-- What the reset `p` leaves in the page at `pa` of a commit begun in `s` (44_flash_sequencer.md R218), whatever the durations:
the erase occupies `[a, b)`, the write `[b, c)`. A step that takes time has had no effect at its first tick; where the reset
falls at the tick of a step that takes none, its position decides (log entry 12). The rows are those of the table: the old
bytes, free values, erased bytes, free values, the bytes of `PB`. -/
def PageAfterReset (p : PowerLoss) (pa : Nat) (s t : State) : Prop :=
  let a := s.clock + s.env.par.tTwb
  let b := a + s.env.par.tErase
  let c := b + s.env.par.tWrite
  if p.tick < a ∨ p.tick = a ∧ (0 < s.env.par.tErase ∨ p.cut = .beforeErase) then SameFlash s t
  else if p.tick < b ∨ p.tick = b ∧ s.env.par.tErase = 0 ∧ p.cut = .duringErase then
    ∀ i : Fin pageSize, t.flash.read (pa + i) = freeByte (s.draws + i)
  else if p.tick = b ∧ (0 < s.env.par.tWrite ∨ (p.cut ≠ .duringWrite ∧ p.cut ≠ .afterWrite)) then t.PageErased pa
  else if p.tick < c ∨ p.tick = c ∧ s.env.par.tWrite = 0 ∧ p.cut = .duringWrite then
    ∀ i : Fin pageSize, t.flash.read (pa + i) = freeByte (s.draws + i)
  else t.PageHolds pa s.pb

/-- A commit of `dur` ticks begun in `s` completes before the reset `p` (R218): the reset falls after its last tick, or at it and
not before or in a write that takes no time. -/
def CompletesBefore (p : PowerLoss) (dur : Nat) (s : State) : Prop :=
  s.clock + dur < p.tick ∨ p.tick = s.clock + dur ∧ (0 < s.env.par.tWrite ∨ p.cut = .afterWrite)

/-- The step from `s` to `t` took the reset that falls at the absolute tick `r`, at that tick (log entry 4). -/
def TookResetAt (r : Nat) (s t : State) : Prop := TookReset s t ∧ t.env.epoch = r

/-- The duration of a commit in ticks (R216). -/
def State.commitTicks (s : State) : Nat := s.env.par.tTwb + s.env.par.tErase + s.env.par.tWrite

/-- The Command Processor awaits an opcode: update mode, nothing loaded into the transmitter, no packet in progress, no
reset to come. -/
structure State.Awaiting (s : State) : Prop where
  assembly : s.env.par.assembly = .bootloader
  mode : s.mode = .update
  packet : s.inPacket = false
  wire : s.tx.wire = []
  power : s.env.power = []

/-- `u` is the state after the request `bs` has been received whose first frame begins at tick `e`
(43_command_processor.md R182): the last byte completes `9*S + PH + 1` ticks after its START, the registers of the Command
Processor hold what has arrived (10_state.md R26), and nothing else has changed but time, `result` and the receive
registers. -/
def ReceivedRequest (bs : List Byte) (e : Nat) (s u : State) : Prop :=
  u.now = e + 10 * S * (bs.length - 1) + 9 * S + PH + 1 ∧
    u.cp.op = bs.getD 0 0#8 ∧ (2 < bs.length → u.cp.a0 = bs.getD 1 0#8) ∧ (3 < bs.length → u.cp.a1 = bs.getD 2 0#8) ∧
    (1 < bs.length → u.cp.ck = bs.getD (bs.length - 1) 0#8 ∧ u.cp.t0Last = e + 10 * S * (bs.length - 1)) ∧
    u.rx.phase = .idle ∧ u = { s with now := u.now, result := u.result, rx := u.rx, cp := u.cp }

/-! ## Well-formed states -/

/-- The log of `set_line` is ordered, and nothing in it is yet to come. -/
def State.LogOrdered (s : State) : Prop :=
  s.devLog.Pairwise (fun e f => f.1 ≤ e.1) ∧ ∀ e ∈ s.devLog, e.1 ≤ s.clock

/-- What holds of the block between two steps. -/
structure State.Inv (s : State) : Prop where
  /-- FLASH is in canonical form. -/
  flashForm : s.flash.wf = true
  /-- FLASH has no cell outside `[0, PROG_MEM_SIZE)` (20_memory.md R69). -/
  flashExtent : ∀ c ∈ s.flash, c.1 < s.env.par.progMemSize
  /-- The user application runs exactly after the normal boot (R266). -/
  bootUser : s.bootUser = true ↔ s.mode = .userApp
  /-- The jump has been made exactly after the normal boot (R266). -/
  handedOver : s.pc = if s.mode = .userApp then some userEntry else none
  /-- With the Command Processor present `busy` reads 1 throughout (10_state.md R41). -/
  busyThroughout : s.env.par.assembly = .bootloader → s.busy = true
  /-- Out of update mode the block does not drive the line (60_exceptions.md R250). -/
  lineReleased : s.env.par.assembly = .bootloader → s.mode ≠ .update → s.devOut = false
  /-- A block that stands alone takes no boot decision. -/
  callerMode : s.env.par.assembly = .caller → s.mode = .bootCheck
  /-- Between steps the receive engine is at rest or in a packet, and only a block that stands alone is in a packet. -/
  rxPhase : s.rx.phase = .idle ∨ (s.rx.phase = .h1 ∧ s.env.par.assembly = .caller ∧ s.busy = true)
  /-- `rx_wait` fits its 5 bits, `rx_k` counts to 8, and fewer than 8 bits stand in an unfinished byte. -/
  rxCounters : s.rx.wait ≤ 2 * S + PH ∧ s.rx.k ≤ 8 ∧ (s.rx.phase = .h1 → s.rx.k < 8)
  /-- The transmitter is at rest and its counters are in range (10_state.md R22). -/
  txAtRest : s.tx.active = false ∧ s.tx.slot ≤ 9 ∧ s.tx.sub < S ∧ s.tx.bit ≤ 7 ∧ s.tx.idx ≤ 255
  /-- The flash sequencer is at rest (R30). -/
  fsAtRest : s.fs.phase = .idle
  /-- `dev_out` is the level last set. -/
  lineLogged : s.devOut = (s.devLog.head?.map (·.2)).getD false
  /-- The log is a history. -/
  logOrdered : s.LogOrdered

end Sys2Proof.Machine
end

