-- ==== Sys2Proof/Certificates/Slice0/Obligations.lean ====
section
/-! DEFINITION. The statements for the provers. Each docstring names the rule of spec/ it formalises, and the log entry of a
choice of the model it rests on. -/
open Sys2Proof Sys2Proof.Machine Sys2Proof.Config

/-! ## Encoding -/

/-- Decoding an encoded well-formed instruction gives it back, in every layer (30_encoding.md R91 to R102, 10_state.md R42). -/
def Obligations.DecodeEncode : Prop :=
  ∀ i : Instr, i.wf = true → decode (encode i) = .ok i

/-- A command request and a wire form have one encoding each: what decodes to an instruction is its encoding. -/
def Obligations.EncodingUnique : Prop :=
  (∀ bs i, decodeBytes bs = .ok i → encode i = .bytes bs) ∧
    ∀ levels i, decodeSlots levels = .ok i → encode i = .slots levels

/-- Whatever decodes is well formed: reserved opcodes and codes land in the row of their range (R110, R111, R114). -/
def Obligations.DecodedWellFormed : Prop :=
  ∀ c i, decode c = .ok i → i.wf = true

/-- The first byte of a request decides its length (R101, R104): `nops + 2` bytes, or one byte for an opcode outside `0..5`;
what follows belongs to the next request. -/
def Obligations.RequestLength : Prop :=
  ∀ (op : Byte) (tail : List Byte),
    (op.toNat < 6 ↔ nops op ≠ none) ∧
      match nops op with
      | none => decodeRequest (op :: tail) = .ok (reservedRequest op, tail)
      | some n =>
        if tail.length ≤ n then decodeRequest (op :: tail) = .error (.truncatedRequest op)
        else ∃ r, decodeRequest (op :: tail) = .ok (r, tail.drop (n + 1))

/-- Words of the opcode table, written out from the formats of R91, R93, R101 and the codes of R42. Which layer a width
stands for, and that an operation-select word carries arguments of 0, is the model's choice: log entry 14. -/
def Obligations.TableWordsDecode : Prop :=
  decodeTableWord 32 0x01004246 = some (.wrbuf 0x00#8 0x42#8 0x46#8) ∧
    decodeTableWord 24 0x007F7F = some (.rdbuf 0x7F#8 0x7F#8) ∧
    decodeTableWord 32 0x05018096 = some (.commit 0x0180#16 0x96#8) ∧
    decodeTableWord 10 0b1010000100 = some (.byteFrame 0x42#8) ∧
    decodeTableWord 2 0b10 = some .symD1 ∧
    decodeTableWord 4 0x5 = some (.recvPacket 0x00#8) ∧
    decodeTableWord 8 0x80 = some (.reserved80FF 0x80#8)

/-! ## The step -/

/-- A step runs the decoded instruction: a request as received, the caller's request presented at this tick, the wire form
loaded into the transmitter. Around `exec` the step adds the reception (43_command_processor.md R182), the removal of the
request from the caller's queue (10_state.md R41, log entry 19), or the emptying of the transmitter (log entry 13). -/
def Obligations.StepRunsDecoded : Prop :=
  (∀ (s u : State) (bs : List Byte) (i : Instr), s.Awaiting → recvRequest s = .done (some bs) u →
      decode (.bytes bs) = .ok i → step s = exec i u) ∧
    (∀ (s : State) (c : TimedCall) (cs : List TimedCall), s.env.par.assembly = .caller → s.lossDue = false →
      s.inPacket = false → s.tx.wire = [] → s.env.calls = c :: cs → c.tick = s.clock →
      step s = exec (decodeCall c.call) s.popCall ∧ decode (.call c.call) = .ok (decodeCall c.call)) ∧
    ∀ (s : State) (i : Instr), s.serving = true → s.lossDue = false → s.tx.wire ≠ [] →
      decode (.slots s.tx.wire) = .ok i → step s = exec i (s.setTx s.tx.unloaded)

/-- In update mode one step is one `CMD_STEP` (R181): receiving bytes, decoding them and executing the instruction comes to
what the pseudocode of R182 comes to. -/
def Obligations.UpdateStepIsCmdStep : Prop :=
  ∀ s : State, s.env.par.assembly = .bootloader → s.mode = .update → s.inPacket = false → s.tx.wire = [] →
    s.lossDue = false → step s = (cmdStep s).outcome

/-- Every instruction comes to a next state from every state: no outcome of the block is a stop (60_exceptions.md R231).
That `WRITE_PAGE` goes on, with free values, onto a page that is not erased, where 93_implementation_defined.md U4 also has a
refusal, is log entry 10; that an endless packet, which U8 calls stuck, answers a next state is log entry 16. -/
def Obligations.ExecAlwaysNext : Prop :=
  ∀ (i : Instr) (s : State), ∃ t, exec i s = .next t

/-- A step stops only where the transmitter has been loaded with slots that are no wire form (log entry 13). That no step
stops in an instruction rests on log entries 10 (a write to a page that is not erased) and 16 (an endless packet). -/
def Obligations.StepAlwaysNext : Prop :=
  ∀ s : State, (s.tx.wire = [] ∨ ∃ i, decode (.slots s.tx.wire) = .ok i) → ∃ t, step s = .next t

/-- A reset that is due comes before anything else (60_exceptions.md R242), unless a request presented at the same tick comes
first (log entry 30), and leaves what 10_state.md R38 says: FLASH is retained, `mode`, `dev_out`, `result`, `busy`,
`boot_user`, `tx_active`, `rx_state`, `fs_state` and `now` have their values. `busy` is stated for the assembly with a boot
sequence, where no request comes first (log entry 1). -/
def Obligations.ResetState : Prop :=
  ∀ s : State, s.lossDue = true →
    (s.env.par.assembly = .bootloader → s.requestFirst = false) ∧
      (s.requestFirst = false →
        ∃ t, step s = .next t ∧ TookReset s t ∧ t.flash = s.flash ∧ t.devOut = false ∧ t.result = 0 ∧
          (s.env.par.assembly = .bootloader → t.busy = true) ∧ t.bootUser = false ∧ t.tx.active = false ∧
          t.rx.phase = .idle ∧ t.fs.phase = .idle ∧ t.env.par = s.env.par ∧ t.env.wave = s.env.wave)

/-- Loss of power overrides everything at the tick it falls (60_exceptions.md R242, R243): an instruction either leaves the
environment as it is, and then no reset has fallen before the tick at which it ends (unless one was overdue before it began),
or it ends in the state after the next reset, with `dev_out` 0 and the modes at their reset values. That the reset is
released at the tick of the loss (`epoch`), a tick that has passed counting as the present one, is log entry 4; that a reset
at the very completion tick is taken after the completion is log entry 26; that requests presented up to the reset are lost
is log entry 30; that `pc` is then absent is log entry 24. -/
def Obligations.LossOverrides : Prop :=
  ∀ (i : Instr) (s t : State), exec i s = .next t →
    (t.env = s.env ∧ (s.lossBefore s.now = false → t.lossBefore t.now = false)) ∨
      (TookReset s t ∧ t.devOut = false ∧ t.bootUser = false ∧ t.pc = none ∧ t.result = 0 ∧ t.fs.phase = .idle ∧
        t.env.par = s.env.par ∧ t.env.wave = s.env.wave ∧
        (∀ p ps, s.env.power = p :: ps → t.env.epoch = max p.tick s.clock) ∧
        t.env.calls = s.env.calls.dropWhile fun c => c.tick ≤ t.env.epoch)

/-! ## Invariants -/

/-- The state after the first reset is well formed. What `State.reset` holds beyond R38 is the model's choice (log entries
1, 2, 6 and 7), and so are the clauses on counters (17), on the log of the line (22) and on `pc` (24). -/
def Obligations.ResetMeetsInv : Prop :=
  State.reset.Inv

/-- Every step from a well-formed state ends in a well-formed state. The clauses of `State.Inv` name the rules they hold
by; those on counters and on the log of the line are the model's (log entries 17 and 22). The model's too are `callerMode`
(log entry 1), the packet between steps in `rxPhase` (log entry 16) and the `pc` of `handedOver` (log entry 24). -/
def Obligations.StepKeepsInv : Prop :=
  ∀ s t : State, s.Inv → step s = .next t → t.Inv

/-- No step changes a byte of the protected region, nor a byte where there is no memory (20_memory.md R69, R73). -/
def Obligations.StepKeepsProtected : Prop :=
  ∀ s t : State, step s = .next t → SameProtected s t

/-- The branch is irreversible without a reset (70_reset_and_hazards.md R265): a step changes `mode` only from `BOOT_CHECK`,
or by taking a reset. -/
def Obligations.ModeIrreversible : Prop :=
  ∀ s t : State, s.mode ≠ .bootCheck → step s = .next t → t.mode = s.mode ∨ TookReset s t

/-- The power-up branch (R262, R263): if the first poll that reads 1 is at tick `p` of the window, `mode` is `UPDATE` and the
command loop starts at `p + 1`; if none does, `mode` is `USER_APP` and `boot_user` 1 at the end of the window and control goes
to `USER_ENTRY` (R266; that the hand-over is kept as `pc` is log entry 24). Resets to come, if any, fall later. -/
def Obligations.BootBranch : Prop :=
  ∀ s : State, s.env.par.assembly = .bootloader → s.mode = .bootCheck → s.now = 0 →
    (∀ p, s.FirstAsserted 0 (s.env.par.bootGrace * S) p → s.lossBefore (p + 2) = false →
      step s = .next { s with now := p + 1, mode := .update }) ∧
      (s.Idle 0 (s.env.par.bootGrace * S) → s.lossBefore (s.env.par.bootGrace * S + 1) = false →
        step s = .next { s with
          now := s.env.par.bootGrace * S, mode := .userApp, bootUser := true, pc := some 0x0000#16 })

/-- After the normal boot the block is inert (R266): a step lets a tick pass and changes nothing else, whatever the line
does, unless a reset is taken. How the model counts that time is its choice (log entry 20). -/
def Obligations.UserAppInert : Prop :=
  ∀ s : State, s.env.par.assembly = .bootloader → s.mode = .userApp →
    (s.lossDue = false → step s = .next { s with now := s.now + 1 }) ∧
      ∀ t, step s = .next t → TookReset s t ∨ t = { s with now := s.now + 1 }

/-! ## The caller interface -/

/-- `NOP` and the codes 0xC to 0xF complete at once with result 0 and change nothing else (10_state.md R42). -/
def Obligations.NopCompletes : Prop :=
  ∀ s : State, s.callerReady = true →
    exec .nop s = .next { s with result := 0 } ∧ ∀ code, exec (.opselReserved code) s = .next { s with result := 0 }

/-- A request presented while `busy = 1`, or where the Command Processor is the caller, is ignored (10_state.md R41). -/
def Obligations.BusyCallIgnored : Prop :=
  ∀ (c : Call) (s : State), s.callerReady = false → exec (decodeCall c) s = .next s

/-- A command or wire form that comes while the block does not serve has no effect (60_exceptions.md R250; how the model
answers there is its choice, log entries 13 and 21). -/
def Obligations.NotServedIgnored : Prop :=
  ∀ (i : Instr) (s : State), s.serving = false →
    ((∃ bs, encode i = .bytes bs) ∨ ∃ levels, encode i = .slots levels) → exec i s = .next s

/-! ## The byte-timing transport -/

/-- `SEND_BYTE(v)` (40_byte_transport.md R131): the frame of `v`, `10*S` ticks, `dev_out` 0 after it for as long as nothing
else is driven, result 0; no other change. -/
def Obligations.SendByteDrivesFrame : Prop :=
  ∀ (v : Byte) (s : State), s.callerReady = true → s.lossBefore (s.now + 10 * S + 1) = false →
    ∃ t, exec (.sendByte v) s = .next t ∧ t.result = 0 ∧ t.devOut = false ∧
      (∀ τ, t.clock ≤ τ → t.devOutAt τ = false) ∧
      Transmitted ([true, v.getLsbD 7, v.getLsbD 6, v.getLsbD 5, v.getLsbD 4, v.getLsbD 3, v.getLsbD 2, v.getLsbD 1,
        v.getLsbD 0, false]) { s with result := 0 } t

/-- The wire forms (30_encoding.md R91, R93, R95): BYTE_FRAME drives `1dddddddd0`; SYM_STOP, SYM_D0, SYM_D1, SYM_START
drive `00`, `01`, `10`, `11`; PACKET drives SYM_START, 8 data symbols a byte, SYM_STOP. That the block's own transmitter
drives them is log entry 13. That a reset at the very completion tick comes after the completion is log entry 26. -/
def Obligations.WireFormsDriven : Prop :=
  (∀ v : Byte, Drives (.byteFrame v) (true :: ((List.range 8).map fun k => v.getLsbD (7 - k)) ++ [false])) ∧
    Drives .symStop [false, false] ∧ Drives .symD0 [false, true] ∧ Drives .symD1 [true, false] ∧
    Drives .symStart [true, true] ∧
    ∀ bytes : List Byte, Drives (.packet bytes)
      (true :: true :: bytes.flatMap (fun v => (List.range 8).flatMap fun j => [v.getLsbD (7 - j), !v.getLsbD (7 - j)]) ++
        [false, false])

/-- `RECV_BYTE(timeout)` (40_byte_transport.md R134, R138): -1 after `timeout*S` ticks without an asserted poll; else, with the
first asserted poll at `t0`, -2 if the stop sample reads 1, and the value of the eight samples if it reads 0. -/
def Obligations.RecvByteOutcomes : Prop :=
  ∀ (timeout : BitVec 16) (s : State), s.callerReady = true →
    (s.Idle s.now (s.now + timeout.toNat * S) → s.lossBefore (s.now + timeout.toNat * S + 1) = false →
      ∃ t, exec (.recvByte timeout) s = .next t ∧ t.now = s.now + timeout.toNat * S ∧ t.result = 0xFFFF#16 ∧
        OnlyReceived s t) ∧
      ∀ t0, s.FirstAsserted s.now (s.now + timeout.toNat * S) t0 → s.lossBefore (t0 + 9 * S + PH + 2) = false →
        ∃ t, exec (.recvByte timeout) s = .next t ∧ t.now = t0 + 9 * S + PH + 1 ∧ OnlyReceived s t ∧
          (if s.line (t0 + 9 * S + PH) then t.result = 0xFFFE#16
           else t.result.toNat < 256 ∧ ∀ k, k < 8 → t.result.getLsbD (7 - k) = s.line (t0 + S + PH + k * S))

/-- The round-trip law (R139): a frame of `b` that begins while the search runs, on a line idle before it, is received as
`b`. That a reset at the very completion tick comes after the completion is log entry 26. -/
def Obligations.ByteRoundTrip : Prop :=
  ∀ (b : Byte) (timeout : BitVec 16) (e : Nat) (s : State), s.callerReady = true → s.now ≤ e →
    e < s.now + timeout.toNat * S → s.Idle s.now e → s.Carries e (frameSlots b) →
    s.lossBefore (e + 9 * S + PH + 1) = false →
    ∃ t, exec (.recvByte timeout) s = .next t ∧ t.now = e + 9 * S + PH + 1 ∧ t.result.toNat = b.toNat ∧ OnlyReceived s t

/-- A late start of the receiver (R141): up to `S - PH - 1` ticks late the byte is received; later, still inside the START
pulse, it is received shifted left, unless the stop sample, which then falls after the frame, reads 1. That a reset at the
very completion tick comes after the completion is log entry 26. -/
def Obligations.LateStart : Prop :=
  ∀ (b : Byte) (timeout : BitVec 16) (e d : Nat) (s : State), s.callerReady = true → s.now = e + d → 0 < d → d < S →
    0 < timeout.toNat → s.Carries e (frameSlots b) → s.lossBefore (e + d + 9 * S + PH + 1) = false →
    ∃ t, exec (.recvByte timeout) s = .next t ∧ t.now = e + d + 9 * S + PH + 1 ∧
      (if d + PH < S then t.result.toNat = b.toNat
       else if s.line (e + d + 9 * S + PH) then t.result = 0xFFFE#16
       else t.result.toNat = b.toNat * 2 % 256)

/-! ## The symbol transport -/

/-- `SEND_SYM` (41_symbol_transport.md R151): the two halves of the code, `2*S` ticks; `dev_out` keeps the level of the
second half; result 0. That a reset at the very completion tick comes after the completion is log entry 26. -/
def Obligations.SendSymDrivesHalves : Prop :=
  ∀ (code : BitVec 2) (s : State), s.callerReady = true → s.lossBefore (s.now + 2 * S) = false →
    ∃ t, exec (.sendSym code) s = .next t ∧ t.result = 0 ∧ t.devOut = code.getLsbD 0 ∧
      Transmitted [code.getLsbD 1, code.getLsbD 0] { s with result := 0 } t

/-- `SEND_PACKET(len)` (R153): the packet of `XB[0..len-1]`, `(4 + 16*len)*S` ticks; `dev_out` 0 after it; result 0. That
a reset at the very completion tick comes after the completion is log entry 26. -/
def Obligations.SendPacketDrivesPacket : Prop :=
  ∀ (len : Byte) (s : State), s.callerReady = true → s.lossBefore (s.now + (4 + 16 * len.toNat) * S) = false →
    ∃ t, exec (.sendPacket len) s = .next t ∧ t.result = 0 ∧ t.devOut = false ∧
      t.now = s.now + (4 + 16 * len.toNat) * S ∧
      Transmitted (packetSlots (s.xb.toList.take len.toNat)) { s with result := 0 } t

/-- `RECV_PACKET(max_size)` (R155 to R159): -1 after 1000 idle polls; else, `J` being the first symbol whose pair is `00` or
`11`, the count of whole bytes or -2, with the bytes stored as R158 says. A packet that has a result completes in one step;
one with more symbols may take more steps (`n`, log entry 16), and its count is left out (R24). That a reset at the very
completion tick comes after the completion is log entry 26. -/
def Obligations.RecvPacketOutcomes : Prop :=
  ∀ (maxSize : Byte) (s : State), s.callerReady = true →
    (s.Idle s.now (s.now + 1000) → s.lossBefore (s.now + 1000) = false →
      ∃ t, exec (.recvPacket maxSize) s = .next t ∧ t.now = s.now + 1000 ∧ t.result = 0xFFFF#16 ∧ t.xb = s.xb ∧
        OnlyReceivedPacket s t) ∧
      ∀ t0 J, s.FirstAsserted s.now (s.now + 1000) t0 → 1 ≤ J → (∀ j, 1 ≤ j → j < J → isData (s.pairAt t0 j) = true) →
        isData (s.pairAt t0 J) = false → s.lossBefore (t0 + 2 * S * J + S + PH + 1) = false →
        ∃ u n t, exec (.recvPacket maxSize) s = .next u ∧ Host.Core.run Sys2Proof.core n u = .next t ∧
          ((J - 1) / 8 ≤ 32767 ∨ s.env.wave.stream = none → n = 0) ∧
          t.now = t0 + 2 * S * J + S + PH + 1 ∧ OnlyReceivedPacket s t ∧ StoredPacket t0 ((J - 1) / 8) maxSize s t ∧
          (if (s.pairAt t0 J).1 then t.result = 0xFFFE#16
           else (J - 1) / 8 ≤ 32767 → t.result.toNat = (J - 1) / 8)

/-- The round trip of packets (R163). That a reset at the very completion tick comes after the completion is log entry 26.
-/
def Obligations.PacketRoundTrip : Prop :=
  ∀ (bytes : List Byte) (maxSize : Byte) (e : Nat) (s : State), s.callerReady = true → bytes.length ≤ 32767 → s.now ≤ e →
    e < s.now + 1000 → s.Idle s.now e → s.Carries e (packetSlots bytes) →
    s.lossBefore (e + 2 * S * (8 * bytes.length + 1) + S + PH + 1) = false →
    ∃ t, exec (.recvPacket maxSize) s = .next t ∧ t.result.toNat = bytes.length ∧
      t.now = e + 2 * S * (8 * bytes.length + 1) + S + PH + 1 ∧ OnlyReceivedPacket s t ∧
      ∀ i : Fin xbSize, t.xb[i] = if i.val < min bytes.length maxSize.toNat then bytes.getD i.val 0#8 else s.xb[i]

/-- An endless stream of data symbols keeps `RECV_PACKET` running for ever (R161): the block is busy, and is still busy after
any number of steps. That a step then takes one more symbol is log entry 16. -/
def Obligations.EndlessPacket : Prop :=
  ∀ (maxSize : Byte) (t0 : Nat) (s : State), s.callerReady = true → s.env.power = [] →
    s.FirstAsserted s.now (s.now + 1000) t0 → (∀ j, 1 ≤ j → isData (s.pairAt t0 j) = true) →
    ∃ t, exec (.recvPacket maxSize) s = .next t ∧
      ∀ n, ∃ u, Host.Core.run Sys2Proof.core n t = .next u ∧ u.busy = true ∧ u.inPacket = true ∧ u.now = t.now + 2 * S * n

/-! ## The hash -/

/-- `HASH` (42_hash_integrity.md R171): the rotate-and-XOR reduction of `XB[0..len-1]` or of `PB`, seeded at 0; no tick; only the
working register `h` and `result` are written. -/
def Obligations.HashReduces : Prop :=
  (∀ (bs : List Byte) (b : Byte), hashBytes [] = 0#8 ∧
      hashBytes (bs ++ [b]) = ((hashBytes bs <<< 1) ||| (hashBytes bs >>> 7)) ^^^ b) ∧
    ∀ (len : Byte) (s : State), s.callerReady = true →
      exec (.hash .xb len) s = .next { s with
        h := hashBytes (s.xb.toList.take len.toNat), result := (hashBytes (s.xb.toList.take len.toNat)).zeroExtend 16 } ∧
      exec (.hash .pb len) s = .next { s with
        h := hashBytes s.pb.toList, result := (hashBytes s.pb.toList).zeroExtend 16 }

/-- The closed form of the hash (R172): each byte is rotated left by the number of bytes after it, and the results are
XORed; so the hash is linear over XOR, for lists of equal length. -/
def Obligations.HashClosedForm : Prop :=
  (∀ bs : List Byte,
    hashBytes bs =
      (List.range bs.length).foldl (fun acc i => acc ^^^ (bs.getD i 0#8).rotateLeft ((bs.length - 1 - i) % 8)) 0#8) ∧
    ∀ xs ys : List Byte, xs.length = ys.length →
      hashBytes (List.zipWith (· ^^^ ·) xs ys) = hashBytes xs ^^^ hashBytes ys

/-- One flipped bit of the input changes exactly one bit of the hash (R173): the bit rotated by the number of bytes that
follow. -/
def Obligations.HashSingleBit : Prop :=
  ∀ (xs ys : List Byte) (b : Byte) (p : Nat), p < 8 →
    hashBytes (xs ++ (b ^^^ BitVec.twoPow 8 p) :: ys) =
      hashBytes (xs ++ b :: ys) ^^^ BitVec.twoPow 8 ((p + ys.length) % 8)

/-- The hash does not tell a two-byte list from its reverse exactly where the bytes are equal or complementary (R176). -/
def Obligations.HashReverse : Prop :=
  ∀ a b : Byte, hashBytes [a, b] = hashBytes [b, a] ↔ a ^^^ b = 0x00#8 ∨ a ^^^ b = 0xFF#8

/-- `PACKET_CHECK(n)` (R174): the last of `n` bytes is the hash of the others; it fails for `n = 0`. -/
def Obligations.PacketCheck : Prop :=
  ∀ xb : TransferBuffer, packetCheck xb 0 = false ∧
    ∀ n : Fin xbSize, packetCheck xb (n.val + 1) = true ↔ hashBytes (xb.toList.take n.val) = xb[n]

/-! ## The commands -/

/-- `RDBUF` (43_command_processor.md R187): with the right checksum and `idx < PAGE_SIZE` the response is `PB[idx]`; only
the line, time and working registers change. An index from `PAGE_SIZE` on is dropped: only the hash unit's working
register changes. The response starts at the tick of R185. That `result` stays as it was through the request is log entry
18, and what `h` keeps is log entry 17. That a reset at the very completion tick comes after the completion is log entry
26. -/
def Obligations.RdbufResponds : Prop :=
  ∀ (idx ck : Byte) (s : State), s.serving = true → ck = hashBytes [0x00#8, idx] →
    (∀ h : idx.toNat < pageSize, s.lossBefore (s.responseAt s.now + 10 * S) = false →
      ∃ t, exec (.rdbuf idx ck) s = .next t ∧ Responded s.pb[idx.toNat] (s.responseAt s.now) (s.setH ck) t) ∧
      (pageSize ≤ idx.toNat → exec (.rdbuf idx ck) s = .next (s.setH ck))

/-- `WRBUF` (R188): `PB[idx]` is written, no other byte of it, and the response is the value. An index from `PAGE_SIZE` on
is dropped. The response starts at the tick of R185. That `result` stays as it was through the request is log entry 18,
and what `h` keeps is log entry 17. That a reset at the very completion tick comes after the completion is log entry 26.
-/
def Obligations.WrbufResponds : Prop :=
  ∀ (idx val ck : Byte) (s : State), s.serving = true → ck = hashBytes [0x01#8, idx, val] →
    (∀ h : idx.toNat < pageSize, s.lossBefore (s.responseAt s.now + 10 * S) = false →
      ∃ t, exec (.wrbuf idx val ck) s = .next t ∧
        Responded val (s.responseAt s.now) ((s.setH ck).setPb (s.pb.set idx.toNat val)) t) ∧
      (pageSize ≤ idx.toNat → exec (.wrbuf idx val ck) s = .next (s.setH ck))

/-- `PWRSTAT` (R190): the response is a fresh ADC sample, a free value (log entry 8), taken in `T_ADC` ticks. The response
starts at the tick of R185. That `result` stays as it was through the request is log entry 18, and what `h` keeps is log
entry 17. That a reset at the very completion tick comes after the completion is log entry 26. -/
def Obligations.PwrstatResponds : Prop :=
  ∀ (ck : Byte) (s : State), s.serving = true → ck = hashBytes [0x02#8] →
    s.lossBefore (s.responseAt (s.now + s.env.par.tAdc) + 10 * S) = false →
    ∃ t, exec (.pwrstat ck) s = .next t ∧
      Responded (adcSample s.draws) (s.responseAt (s.now + s.env.par.tAdc)) ((s.setH ck).setDraws (s.draws + 1)) t

/-- `HASHBUF` (R191): the response is the hash of the whole of `PB`. The response starts at the tick of R185. That
`result` stays as it was through the request is log entry 18, and what `h` keeps is log entry 17. That a reset at the very
completion tick comes after the completion is log entry 26. -/
def Obligations.HashbufResponds : Prop :=
  ∀ (ck : Byte) (s : State), s.serving = true → ck = hashBytes [0x03#8] →
    s.lossBefore (s.responseAt s.now + 10 * S) = false →
    ∃ t, exec (.hashbuf ck) s = .next t ∧
      Responded (hashBytes s.pb.toList) (s.responseAt s.now) (s.setH (hashBytes s.pb.toList)) t

/-- `FILL` (R193, 44_flash_sequencer.md R217): an aligned page of program memory is copied into `PB` in `T_FILL` ticks,
and the response is `PAGE_SIZE`. Any other address is dropped. The response starts at the tick of R185. That `result`
stays as it was through the request is log entry 18, and what `h` keeps is log entry 17. That a reset at the very
completion tick comes after the completion is log entry 26. -/
def Obligations.FillResponds : Prop :=
  ∀ (addr : Addr) (ck : Byte) (s : State), s.serving = true →
    ck = hashBytes [0x04#8, addr.extractLsb' 8 8, addr.extractLsb' 0 8] →
    (addr.toNat % 128 = 0 ∧ addr.toNat + 128 ≤ s.env.par.progMemSize →
      s.lossBefore (s.responseAt (s.now + s.env.par.tFill) + 10 * S) = false →
      ∃ t, exec (.fill addr ck) s = .next t ∧
        Responded 0x80#8 (s.responseAt (s.now + s.env.par.tFill))
          ((s.setH ck).setPb (Vector.ofFn fun i => s.flash.read (addr.toNat + i))) t) ∧
      (¬ (addr.toNat % 128 = 0 ∧ addr.toNat + 128 ≤ s.env.par.progMemSize) →
        exec (.fill addr ck) s = .next (s.setH ck))

/-- `COMMIT` (R196): the page that contains `addr` is programmed from `PB`, and the response `PAGE_SIZE` follows. An
address from `USER_LIMIT` on is dropped, and nothing is touched. The response starts at the tick of R185. That `result`
stays as it was through the request is log entry 18, and what `h` keeps is log entry 17. That a reset at the very
completion tick comes after the completion is log entry 26. -/
def Obligations.CommitResponds : Prop :=
  ∀ (addr : Addr) (ck : Byte) (s : State), s.serving = true →
    ck = hashBytes [0x05#8, addr.extractLsb' 8 8, addr.extractLsb' 0 8] →
    (addr.toNat < 0x7000 → s.lossBefore (s.responseAt (s.now + s.commitTicks) + 10 * S) = false →
      ∃ u t, exec (.commit addr ck) s = .next t ∧ (pageBase addr).toNat = addr.toNat - addr.toNat % 128 ∧
        Committed (pageBase addr) (s.setH ck) u ∧ u.now = s.now + s.commitTicks ∧
        Responded 0x80#8 (s.responseAt (s.now + s.commitTicks)) u t) ∧
      (0x7000 ≤ addr.toNat → exec (.commit addr ck) s = .next (s.setH ck))

/-- A request whose checksum is not the hash of the bytes before it is dropped (R184): only the hash unit's working
register changes. The six commands. That `result` stays as it was through the request is log entry 18, and what `h` keeps
is log entry 17. -/
def Obligations.ChecksumMismatchDropped : Prop :=
  ∀ (i : Instr) (req : List Byte) (ck : Byte) (s : State), s.serving = true → encode i = .bytes (req ++ [ck]) →
    req ≠ [] → ck ≠ hashBytes req → exec i s = .next (s.setH (hashBytes req))

/-- Reserved opcodes (R197, 30_encoding.md R111): nothing changes, no tick passes. -/
def Obligations.ReservedDropped : Prop :=
  ∀ (op : Byte) (s : State), exec (.reserved0607 op) s = .next s ∧ exec (.reserved080F op) s = .next s ∧
    exec (.reserved101F op) s = .next s ∧ exec (.reserved203F op) s = .next s ∧ exec (.reserved407F op) s = .next s ∧
    exec (.reserved80FF op) s = .next s

/-- A request sent back to back is received as it was sent (R182, 40_byte_transport.md R139): frames of its bytes from tick `e`
on, on a line idle before, while the block waits for an opcode. That a reset at the very completion tick comes after the
completion is log entry 26. -/
def Obligations.RequestReceived : Prop :=
  ∀ (bs : List Byte) (i : Instr) (e : Nat) (s : State), decodeBytes bs = .ok i → s.now ≤ e →
    e < s.now + s.env.par.tOpcode * S → s.Idle s.now e → s.Carries e (bs.flatMap frameSlots) →
    s.lossBefore (e + 10 * S * (bs.length - 1) + 9 * S + PH + 1) = false →
    ∃ u, recvRequest s = .done (some bs) u ∧ ReceivedRequest bs e s u

/-- `CMD_STEP` (R182): a request on the line is received and executed, and the result is 0, whatever became of it; unless a reset
falls in the execution, which is then taken (R242). That a reset at the very completion tick comes after the completion is
log entry 26. -/
def Obligations.CmdStepExecutes : Prop :=
  ∀ (bs : List Byte) (i : Instr) (e : Nat) (s : State), s.callerReady = true → decodeBytes bs = .ok i → s.now ≤ e →
    e < s.now + s.env.par.tOpcode * S → s.Idle s.now e → s.Carries e (bs.flatMap frameSlots) →
    s.lossBefore (e + 10 * S * (bs.length - 1) + 9 * S + PH + 1) = false →
    ∃ u t, ReceivedRequest bs e { s with busy := true } u ∧ exec i u = .next t ∧
      (t.env = s.env → exec .cmdStep s = .next { t with result := 0, busy := false }) ∧
      (t.env ≠ s.env → TookReset u t ∧ exec .cmdStep s = .next t)

/-- `CMD_STEP` without a whole request (R182, R186, R243): no opcode within `T_OPCODE` units; an opcode byte with a framing error;
or a request that breaks off after the bytes `bs`, sent back to back from tick `e` on, because `T_OPERAND` units pass without
a START or the next byte has a framing error. It ends at the tick the reception ends, with result 0, and nothing else has
changed but the working registers of the reception: `PB`, `TWB`, `XB`, `FLASH`, `h` and the line are as they were. -/
def Obligations.CmdStepIncomplete : Prop :=
  ∀ s : State, s.callerReady = true →
    (s.Idle s.now (s.now + s.env.par.tOpcode * S) → s.lossBefore (s.now + s.env.par.tOpcode * S + 1) = false →
      ∃ t, exec .cmdStep s = .next t ∧ t.now = s.now + s.env.par.tOpcode * S ∧ t.result = 0 ∧ OnlyReceived s t) ∧
    (∀ t0, s.FirstAsserted s.now (s.now + s.env.par.tOpcode * S) t0 → s.line (t0 + 9 * S + PH) = true →
      s.lossBefore (t0 + 9 * S + PH + 2) = false →
      ∃ t, exec .cmdStep s = .next t ∧ t.now = t0 + 9 * S + PH + 1 ∧ t.result = 0 ∧ OnlyReceived s t) ∧
    ∀ (bs : List Byte) (op : Byte) (e c : Nat), decodeBytes bs = .error (.truncatedRequest op) → s.now ≤ e →
      e < s.now + s.env.par.tOpcode * S → s.Idle s.now e → s.Carries e (bs.flatMap frameSlots) →
      c = e + 10 * S * (bs.length - 1) + 9 * S + PH + 1 →
      (s.Idle c (c + s.env.par.tOperand * S) → s.lossBefore (c + s.env.par.tOperand * S + 1) = false →
        ∃ t, exec .cmdStep s = .next t ∧ t.now = c + s.env.par.tOperand * S ∧ t.result = 0 ∧ t.rx.phase = .idle ∧
          OnlyListened s t ∧ SameFlash s t) ∧
      ∀ t0, s.FirstAsserted c (c + s.env.par.tOperand * S) t0 → s.line (t0 + 9 * S + PH) = true →
        s.lossBefore (t0 + 9 * S + PH + 2) = false →
        ∃ t, exec .cmdStep s = .next t ∧ t.now = t0 + 9 * S + PH + 1 ∧ t.result = 0 ∧ t.rx.phase = .idle ∧
          OnlyListened s t ∧ SameFlash s t

/-- A whole exchange in update mode (R185, R188, 70_reset_and_hazards.md R280): the peer sends `WRBUF idx, val` from tick `e`; one
step later `PB[idx]` is `val` and the block has answered `val` in `[e + 400, e + 500)`. -/
def Obligations.WrbufExchange : Prop :=
  ∀ (idx : Fin pageSize) (val : Byte) (e : Nat) (s : State), s.Awaiting → s.now ≤ e →
    e < s.now + s.env.par.tOpcode * S → s.Idle s.now e →
    s.Carries e ([0x01#8, BitVec.ofNat 8 idx, val, hashBytes [0x01#8, BitVec.ofNat 8 idx, val]].flatMap frameSlots) →
    ∃ t, step s = .next t ∧ t.pb = s.pb.set idx val ∧ t.now = e + 500 ∧ t.devOut = false ∧
      t.Drove (s.env.epoch + (e + 400)) (frameSlots val) ∧ SameLineBefore (s.env.epoch + (e + 400)) s t ∧
      t.mode = .update ∧ t.xb = s.xb ∧ t.twb = s.twb ∧ SameFlash s t

/-! ## The flash sequencer -/

/-- `FILL_PAGE` (44_flash_sequencer.md R217): an aligned page inside program memory is copied to `PB` in `T_FILL` ticks
with result 128; any other address is rejected with -1, and nothing changes. That a reset at the very completion tick
comes after the completion is log entry 26. -/
def Obligations.FillPageCopies : Prop :=
  ∀ (addr : Addr) (s : State), s.callerReady = true →
    (addr.toNat % 128 = 0 ∧ addr.toNat + 128 ≤ s.env.par.progMemSize →
      s.lossBefore (s.now + s.env.par.tFill) = false →
      exec (.fillPage addr) s = .next { s with
        now := s.now + s.env.par.tFill, result := 128#16,
        pb := Vector.ofFn fun i => s.flash.read (addr.toNat + i) }) ∧
      (¬ (addr.toNat % 128 = 0 ∧ addr.toNat + 128 ≤ s.env.par.progMemSize) →
        exec (.fillPage addr) s = .next { s with result := 0xFFFF#16 })

/-- `COMMIT_PAGE` (R213, R216): `TWB` takes the little-endian words of `PB`, the page that contains `addr` takes the bytes of
`PB`, in `T_TWB + T_ERASE + T_WRITE` ticks, with result 128; every other byte of FLASH is unchanged. An address from
`USER_LIMIT` on is rejected with -1 and nothing changes. -/
def Obligations.CommitPagePrograms : Prop :=
  ∀ (addr : Addr) (s : State), s.callerReady = true →
    (addr.toNat < 0x7000 → s.lossBefore (s.now + s.commitTicks + 1) = false →
      ∃ t, exec (.commitPage addr) s = .next t ∧ t.now = s.now + s.commitTicks ∧ t.result = 128#16 ∧
        (pageBase addr).toNat = addr.toNat - addr.toNat % 128 ∧
        Committed (pageBase addr) { s with result := 128#16 } t ∧
        ∀ k : Fin twbSize, t.twb[k] = s.pb.toList.getD (2 * k + 1) 0#8 ++ s.pb.toList.getD (2 * k) 0#8) ∧
      (0x7000 ≤ addr.toNat → exec (.commitPage addr) s = .next { s with result := 0xFFFF#16 })

/-- `ERASE_PAGE` (R212, R214): every byte of the page that contains `addr` is 0xFF after `T_ERASE` ticks; a rejected address does
nothing; result 0. -/
def Obligations.ErasePageBlanks : Prop :=
  ∀ (addr : Addr) (s : State), s.callerReady = true →
    (addr.toNat < 0x7000 → s.lossBefore (s.now + s.env.par.tErase + 1) = false →
      ∃ t, exec (.erasePage addr) s = .next t ∧ t.PageErased (pageBase addr).toNat ∧
        SameFlashOutside (pageBase addr).toNat s t ∧
        t = { s with
          now := s.now + s.env.par.tErase, result := 0, flash := t.flash, fs := { s.fs with phase := .idle } }) ∧
      (0x7000 ≤ addr.toNat → exec (.erasePage addr) s = .next { s with result := 0 })

/-- `WRITE_PAGE` (R212, R215): onto an erased page it stores the bytes of `TWB`, low byte at the even address, in `T_WRITE` ticks;
onto a page that is not erased every byte is a free value (93_implementation_defined.md U4, log entry 10); a rejected
address does nothing; result 0. -/
def Obligations.WritePageStores : Prop :=
  ∀ (addr : Addr) (s : State), s.callerReady = true →
    (addr.toNat < 0x7000 → s.lossBefore (s.now + s.env.par.tWrite + 1) = false →
      ∃ t, exec (.writePage addr) s = .next t ∧ SameFlashOutside (pageBase addr).toNat s t ∧
        t = { s with
          now := s.now + s.env.par.tWrite, result := 0, flash := t.flash, draws := t.draws,
          fs := { s.fs with phase := .idle } } ∧
        (if s.flash.erased (pageBase addr).toNat pageSize then
          t.draws = s.draws ∧ ∀ k : Fin twbSize,
            t.flash.read ((pageBase addr).toNat + 2 * k) = s.twb[k].extractLsb' 0 8 ∧
              t.flash.read ((pageBase addr).toNat + 2 * k + 1) = s.twb[k].extractLsb' 8 8
         else
          ∀ i : Fin pageSize, t.flash.read ((pageBase addr).toNat + i) = freeByte (s.draws + i))) ∧
      (0x7000 ≤ addr.toNat → exec (.writePage addr) s = .next { s with result := 0 })

/-- A commit followed by a fill of the same page reloads exactly the committed bytes (20_memory.md R74), whatever `PB` holds
when the fill begins. -/
def Obligations.CommitThenFill : Prop :=
  ∀ (addr : Addr) (s : State), s.callerReady = true → s.env.power = [] → addr.toNat < 0x7000 →
    ∃ t, exec (.commitPage addr) s = .next t ∧
      ∀ pb : PageBuffer, ∃ u, exec (.fillPage (pageBase addr)) { t with pb := pb } = .next u ∧ u.pb = s.pb ∧
        u.flash = t.flash ∧ u.result = 128#16

/-- Who writes the buffers, also when the power is lost, a reset apart: `PB` only `WRBUF`, `FILL` and `FILL_PAGE`
(43_command_processor.md R189), `TWB` only `COMMIT` and `COMMIT_PAGE` (10_state.md R30), `XB` only `RECV_PACKET` (10_state.md
R31); and `CMD_STEP` through the command it executes. -/
def Obligations.BufferWriters : Prop :=
  ∀ (i : Instr) (s t : State), exec i s = .next t →
    TookReset s t ∨
      ((match i with
        | .wrbuf _ _ _ | .fill _ _ | .fillPage _ | .cmdStep => True
        | _ => t.pb = s.pb) ∧
        (match i with
        | .commit _ _ | .commitPage _ | .cmdStep => True
        | _ => t.twb = s.twb) ∧
        match i with
        | .recvPacket _ => True
        | _ => t.xb = s.xb)

/-- Only COMMIT, COMMIT_PAGE, ERASE_PAGE, WRITE_PAGE, and CMD_STEP through COMMIT, change program memory (R73, R211, 10_state.md
R44), also when the power is lost. -/
def Obligations.OnlyFlashOperationsWrite : Prop :=
  ∀ (i : Instr) (s t : State), exec i s = .next t →
    (match i with
      | .commit _ _ | .commitPage _ | .erasePage _ | .writePage _ | .cmdStep => False
      | _ => True) →
    SameFlash s t

/-- The operations that write program memory stay inside the page their address names, and touch nothing if the address is
rejected (R212), also when the power is lost. -/
def Obligations.FlashWritesStayInPage : Prop :=
  ∀ (i : Instr) (addr : Addr) (s t : State), exec i s = .next t →
    (match i with
      | .commit a _ => a = addr
      | .commitPage a => a = addr
      | .erasePage a => a = addr
      | .writePage a => a = addr
      | _ => False) →
    (addr.toNat < 0x7000 → SameFlashOutside (pageBase addr).toNat s t) ∧ (0x7000 ≤ addr.toNat → SameFlash s t)

/-- Loss of power at a commit (R218, R273), of the caller's `COMMIT_PAGE` and of the wire command `COMMIT`, whatever the durations
of fill, erase and write, one of them or more being zero: what the page holds by the tick and the position of the reset. A
reset before the commit completes is taken at its tick, and so is one before the end of the response; a later one leaves the
page programmed; in every case all other pages are unchanged. How a position is chosen at a step that takes no time is log
entry 12, the free bytes are log entry 9, the release at the tick of the loss is log entry 4, and that a reset at the very
completion tick comes after the completion is log entry 26. -/
def Obligations.CommitInterrupted : Prop :=
  ∀ (addr : Addr) (s : State) (p : PowerLoss) (ps : List PowerLoss), addr.toNat < 0x7000 →
    s.env.power = p :: ps → s.clock ≤ p.tick →
    (s.callerReady = true →
      ∃ t, exec (.commitPage addr) s = .next t ∧ SameFlashOutside (pageBase addr).toNat s t ∧
        PageAfterReset p (pageBase addr).toNat s t ∧
        (CompletesBefore p s.commitTicks s → t.result = 128#16 ∧ t.now = s.now + s.commitTicks ∧ t.env = s.env) ∧
        (¬ CompletesBefore p s.commitTicks s → TookResetAt p.tick s t)) ∧
      ∀ ck, s.serving = true → ck = hashBytes [0x05#8, addr.extractLsb' 8 8, addr.extractLsb' 0 8] →
        ∃ t, exec (.commit addr ck) s = .next t ∧ SameFlashOutside (pageBase addr).toNat s t ∧
          PageAfterReset p (pageBase addr).toNat s t ∧
          (p.tick < s.env.epoch + (s.responseAt (s.now + s.commitTicks) + 10 * S) → TookResetAt p.tick s t)

/-- Loss of power at the tick at which an erase and a write that take no time fall (R218): each of the five positions gives the
content its row of the table says, for the caller's `COMMIT_PAGE`, for the wire command `COMMIT`, and for the steps at whose
tick the caller presents `COMMIT_PAGE` and the reset falls. Requests of earlier ticks, sent while the block was busy, may still
stand before it in the list: each is dropped by a step of its own (10_state.md R41, log entry 19). How a position is chosen is
log entry 12, which of a request and a reset of one tick comes first is log entry 30, the free bytes are log entry 9, the
release at the tick of the loss is log entry 4. -/
def Obligations.CommitInterruptedZero : Prop :=
  ∀ (addr : Addr) (s : State) (p : PowerLoss) (ps : List PowerLoss), addr.toNat < 0x7000 →
    s.env.power = p :: ps → p.tick = s.clock + s.env.par.tTwb → s.env.par.tErase = 0 → s.env.par.tWrite = 0 →
    (s.callerReady = true →
      ∃ t, exec (.commitPage addr) s = .next t ∧ SameFlashOutside (pageBase addr).toNat s t ∧
        PageAfterCut p.cut (pageBase addr).toNat s t ∧
        (if p.cut = .afterWrite then t.result = 128#16 ∧ t.clock = p.tick ∧ t.lossDue = true
         else TookResetAt p.tick s t)) ∧
      (∀ ck, s.serving = true → ck = hashBytes [0x05#8, addr.extractLsb' 8 8, addr.extractLsb' 0 8] →
        ∃ t, exec (.commit addr ck) s = .next t ∧ SameFlashOutside (pageBase addr).toNat s t ∧
          PageAfterCut p.cut (pageBase addr).toNat s t ∧ TookResetAt p.tick s t) ∧
      ∀ stale c cs, s.callerReady = true → s.inPacket = false → s.tx.wire = [] → s.env.par.tTwb = 0 →
        s.env.calls = stale ++ c :: cs → (∀ d ∈ stale, d.tick < s.clock) → c.tick = s.clock →
        decodeCall c.call = .commitPage addr →
        ∃ t, Host.Core.run Sys2Proof.core (if p.cut = .beforeErase then 1 else stale.length + 1) s = .next t ∧
          SameFlashOutside (pageBase addr).toNat s t ∧ PageAfterCut p.cut (pageBase addr).toNat s t ∧
          (if p.cut = .afterWrite then t.result = 128#16 ∧ t.clock = p.tick ∧ t.lossDue = true
           else TookResetAt p.tick s t)

/-! ## The reference tick machines -/

/-- The tick machine of R140 and `RECV_BYTE` are the same operation: started with it and run for as many ticks as it takes, the
machine reaches the same state. -/
def Obligations.RecvByteTickMachine : Prop :=
  ∀ (timeout : BitVec 16) (s : State), s.callerReady = true → s.env.power = [] →
    ∃ t n, exec (.recvByte timeout) s = .next t ∧ t.now = s.now + n ∧
      runTicks rxByteTick n (rxByteStart timeout.toNat { s with busy := true }) = t

/-- The tick machine of R160 and `RECV_PACKET` are the same operation, whenever the operation completes. -/
def Obligations.RecvPacketTickMachine : Prop :=
  ∀ (maxSize : Byte) (s t : State), s.callerReady = true → s.env.power = [] → exec (.recvPacket maxSize) s = .next t →
    t.busy = false →
    ∃ n, t.now = s.now + n ∧ runTicks rxPacketTick n (rxPacketStart maxSize { s with busy := true }) = t

/-- The transmitter's counters (R140, 10_state.md R22) and the transmit operations are the same, but for `busy` and `result`, which
the counters do not hold: `SEND_BYTE`, `SEND_SYM` and `SEND_PACKET`. While a packet is sent, `tx_sub` and `tx_slot` count the
ticks and the slots of each symbol, and in the data symbols `tx_idx`, `tx_bit` and `tx_sr` name the byte and the bit. What the
registers hold at the end is log entry 17. -/
def Obligations.TransmitTickMachines : Prop :=
  ∀ s : State, s.callerReady = true → s.env.power = [] →
    (∀ v : Byte, ∃ t, exec (.sendByte v) s = .next t ∧
      runTicks txByteTick (10 * S) (txByteStart v s) = { t with result := s.result }) ∧
    (∀ code : BitVec 2, ∃ t, exec (.sendSym code) s = .next t ∧
      runTicks txSymbolTick (2 * S) (txSymbolsStart [{ code := code }] s) = ({ t with result := s.result }, [])) ∧
    ∀ len : Byte,
      (∃ t, exec (.sendPacket len) s = .next t ∧
        runTicks txSymbolTick ((4 + 16 * len.toNat) * S)
          (txSymbolsStart (symbolsOfPacket (s.xb.toList.take len.toNat)) s) = ({ t with result := s.result }, [])) ∧
      ∀ n, n < (4 + 16 * len.toNat) * S →
        let tx :=
          (runTicks txSymbolTick n (txSymbolsStart (symbolsOfPacket (s.xb.toList.take len.toNat)) s)).1.tx
        tx.active = true ∧ tx.sub = n % S ∧ tx.slot = n / S % 2 ∧
          (2 * S ≤ n → n < (2 + 16 * len.toNat) * S →
            tx.idx = (n / (2 * S) - 1) / 8 ∧ tx.bit = 7 - (n / (2 * S) - 1) % 8 ∧
              tx.sr = s.xb.toList.getD ((n / (2 * S) - 1) / 8) 0#8)
end

