-- ==== Sys2Proof/Laws/State.lean ====
section
/-! SUPPORT. Field by field, what each update of the state changes and what it leaves alone. -/
namespace Sys2Proof.Machine

open Sys2Proof.Config

/-! ## setEnv -/

@[simp] theorem setEnv_env (x : Env) (s : State) : (s.setEnv x).env = x := rfl
@[simp] theorem setEnv_devLog (x : Env) (s : State) : (s.setEnv x).devLog = s.devLog := rfl
@[simp] theorem setEnv_draws (x : Env) (s : State) : (s.setEnv x).draws = s.draws := rfl
@[simp] theorem setEnv_flash (x : Env) (s : State) : (s.setEnv x).flash = s.flash := rfl
@[simp] theorem setEnv_pb (x : Env) (s : State) : (s.setEnv x).pb = s.pb := rfl
@[simp] theorem setEnv_xb (x : Env) (s : State) : (s.setEnv x).xb = s.xb := rfl
@[simp] theorem setEnv_twb (x : Env) (s : State) : (s.setEnv x).twb = s.twb := rfl
@[simp] theorem setEnv_now (x : Env) (s : State) : (s.setEnv x).now = s.now := rfl
@[simp] theorem setEnv_mode (x : Env) (s : State) : (s.setEnv x).mode = s.mode := rfl
@[simp] theorem setEnv_devOut (x : Env) (s : State) : (s.setEnv x).devOut = s.devOut := rfl
@[simp] theorem setEnv_result (x : Env) (s : State) : (s.setEnv x).result = s.result := rfl
@[simp] theorem setEnv_busy (x : Env) (s : State) : (s.setEnv x).busy = s.busy := rfl
@[simp] theorem setEnv_bootUser (x : Env) (s : State) : (s.setEnv x).bootUser = s.bootUser := rfl
@[simp] theorem setEnv_pc (x : Env) (s : State) : (s.setEnv x).pc = s.pc := rfl
@[simp] theorem setEnv_tx (x : Env) (s : State) : (s.setEnv x).tx = s.tx := rfl
@[simp] theorem setEnv_rx (x : Env) (s : State) : (s.setEnv x).rx = s.rx := rfl
@[simp] theorem setEnv_h (x : Env) (s : State) : (s.setEnv x).h = s.h := rfl
@[simp] theorem setEnv_cp (x : Env) (s : State) : (s.setEnv x).cp = s.cp := rfl
@[simp] theorem setEnv_fs (x : Env) (s : State) : (s.setEnv x).fs = s.fs := rfl

/-! ## setDraws -/

@[simp] theorem setDraws_env (x : Nat) (s : State) : (s.setDraws x).env = s.env := rfl
@[simp] theorem setDraws_devLog (x : Nat) (s : State) : (s.setDraws x).devLog = s.devLog := rfl
@[simp] theorem setDraws_draws (x : Nat) (s : State) : (s.setDraws x).draws = x := rfl
@[simp] theorem setDraws_flash (x : Nat) (s : State) : (s.setDraws x).flash = s.flash := rfl
@[simp] theorem setDraws_pb (x : Nat) (s : State) : (s.setDraws x).pb = s.pb := rfl
@[simp] theorem setDraws_xb (x : Nat) (s : State) : (s.setDraws x).xb = s.xb := rfl
@[simp] theorem setDraws_twb (x : Nat) (s : State) : (s.setDraws x).twb = s.twb := rfl
@[simp] theorem setDraws_now (x : Nat) (s : State) : (s.setDraws x).now = s.now := rfl
@[simp] theorem setDraws_mode (x : Nat) (s : State) : (s.setDraws x).mode = s.mode := rfl
@[simp] theorem setDraws_devOut (x : Nat) (s : State) : (s.setDraws x).devOut = s.devOut := rfl
@[simp] theorem setDraws_result (x : Nat) (s : State) : (s.setDraws x).result = s.result := rfl
@[simp] theorem setDraws_busy (x : Nat) (s : State) : (s.setDraws x).busy = s.busy := rfl
@[simp] theorem setDraws_bootUser (x : Nat) (s : State) : (s.setDraws x).bootUser = s.bootUser := rfl
@[simp] theorem setDraws_pc (x : Nat) (s : State) : (s.setDraws x).pc = s.pc := rfl
@[simp] theorem setDraws_tx (x : Nat) (s : State) : (s.setDraws x).tx = s.tx := rfl
@[simp] theorem setDraws_rx (x : Nat) (s : State) : (s.setDraws x).rx = s.rx := rfl
@[simp] theorem setDraws_h (x : Nat) (s : State) : (s.setDraws x).h = s.h := rfl
@[simp] theorem setDraws_cp (x : Nat) (s : State) : (s.setDraws x).cp = s.cp := rfl
@[simp] theorem setDraws_fs (x : Nat) (s : State) : (s.setDraws x).fs = s.fs := rfl

/-! ## setFlash -/

@[simp] theorem setFlash_env (x : Memory) (s : State) : (s.setFlash x).env = s.env := rfl
@[simp] theorem setFlash_devLog (x : Memory) (s : State) : (s.setFlash x).devLog = s.devLog := rfl
@[simp] theorem setFlash_draws (x : Memory) (s : State) : (s.setFlash x).draws = s.draws := rfl
@[simp] theorem setFlash_flash (x : Memory) (s : State) : (s.setFlash x).flash = x := rfl
@[simp] theorem setFlash_pb (x : Memory) (s : State) : (s.setFlash x).pb = s.pb := rfl
@[simp] theorem setFlash_xb (x : Memory) (s : State) : (s.setFlash x).xb = s.xb := rfl
@[simp] theorem setFlash_twb (x : Memory) (s : State) : (s.setFlash x).twb = s.twb := rfl
@[simp] theorem setFlash_now (x : Memory) (s : State) : (s.setFlash x).now = s.now := rfl
@[simp] theorem setFlash_mode (x : Memory) (s : State) : (s.setFlash x).mode = s.mode := rfl
@[simp] theorem setFlash_devOut (x : Memory) (s : State) : (s.setFlash x).devOut = s.devOut := rfl
@[simp] theorem setFlash_result (x : Memory) (s : State) : (s.setFlash x).result = s.result := rfl
@[simp] theorem setFlash_busy (x : Memory) (s : State) : (s.setFlash x).busy = s.busy := rfl
@[simp] theorem setFlash_bootUser (x : Memory) (s : State) : (s.setFlash x).bootUser = s.bootUser := rfl
@[simp] theorem setFlash_pc (x : Memory) (s : State) : (s.setFlash x).pc = s.pc := rfl
@[simp] theorem setFlash_tx (x : Memory) (s : State) : (s.setFlash x).tx = s.tx := rfl
@[simp] theorem setFlash_rx (x : Memory) (s : State) : (s.setFlash x).rx = s.rx := rfl
@[simp] theorem setFlash_h (x : Memory) (s : State) : (s.setFlash x).h = s.h := rfl
@[simp] theorem setFlash_cp (x : Memory) (s : State) : (s.setFlash x).cp = s.cp := rfl
@[simp] theorem setFlash_fs (x : Memory) (s : State) : (s.setFlash x).fs = s.fs := rfl

/-! ## setPb -/

@[simp] theorem setPb_env (x : PageBuffer) (s : State) : (s.setPb x).env = s.env := rfl
@[simp] theorem setPb_devLog (x : PageBuffer) (s : State) : (s.setPb x).devLog = s.devLog := rfl
@[simp] theorem setPb_draws (x : PageBuffer) (s : State) : (s.setPb x).draws = s.draws := rfl
@[simp] theorem setPb_flash (x : PageBuffer) (s : State) : (s.setPb x).flash = s.flash := rfl
@[simp] theorem setPb_pb (x : PageBuffer) (s : State) : (s.setPb x).pb = x := rfl
@[simp] theorem setPb_xb (x : PageBuffer) (s : State) : (s.setPb x).xb = s.xb := rfl
@[simp] theorem setPb_twb (x : PageBuffer) (s : State) : (s.setPb x).twb = s.twb := rfl
@[simp] theorem setPb_now (x : PageBuffer) (s : State) : (s.setPb x).now = s.now := rfl
@[simp] theorem setPb_mode (x : PageBuffer) (s : State) : (s.setPb x).mode = s.mode := rfl
@[simp] theorem setPb_devOut (x : PageBuffer) (s : State) : (s.setPb x).devOut = s.devOut := rfl
@[simp] theorem setPb_result (x : PageBuffer) (s : State) : (s.setPb x).result = s.result := rfl
@[simp] theorem setPb_busy (x : PageBuffer) (s : State) : (s.setPb x).busy = s.busy := rfl
@[simp] theorem setPb_bootUser (x : PageBuffer) (s : State) : (s.setPb x).bootUser = s.bootUser := rfl
@[simp] theorem setPb_pc (x : PageBuffer) (s : State) : (s.setPb x).pc = s.pc := rfl
@[simp] theorem setPb_tx (x : PageBuffer) (s : State) : (s.setPb x).tx = s.tx := rfl
@[simp] theorem setPb_rx (x : PageBuffer) (s : State) : (s.setPb x).rx = s.rx := rfl
@[simp] theorem setPb_h (x : PageBuffer) (s : State) : (s.setPb x).h = s.h := rfl
@[simp] theorem setPb_cp (x : PageBuffer) (s : State) : (s.setPb x).cp = s.cp := rfl
@[simp] theorem setPb_fs (x : PageBuffer) (s : State) : (s.setPb x).fs = s.fs := rfl

/-! ## setXb -/

@[simp] theorem setXb_env (x : TransferBuffer) (s : State) : (s.setXb x).env = s.env := rfl
@[simp] theorem setXb_devLog (x : TransferBuffer) (s : State) : (s.setXb x).devLog = s.devLog := rfl
@[simp] theorem setXb_draws (x : TransferBuffer) (s : State) : (s.setXb x).draws = s.draws := rfl
@[simp] theorem setXb_flash (x : TransferBuffer) (s : State) : (s.setXb x).flash = s.flash := rfl
@[simp] theorem setXb_pb (x : TransferBuffer) (s : State) : (s.setXb x).pb = s.pb := rfl
@[simp] theorem setXb_xb (x : TransferBuffer) (s : State) : (s.setXb x).xb = x := rfl
@[simp] theorem setXb_twb (x : TransferBuffer) (s : State) : (s.setXb x).twb = s.twb := rfl
@[simp] theorem setXb_now (x : TransferBuffer) (s : State) : (s.setXb x).now = s.now := rfl
@[simp] theorem setXb_mode (x : TransferBuffer) (s : State) : (s.setXb x).mode = s.mode := rfl
@[simp] theorem setXb_devOut (x : TransferBuffer) (s : State) : (s.setXb x).devOut = s.devOut := rfl
@[simp] theorem setXb_result (x : TransferBuffer) (s : State) : (s.setXb x).result = s.result := rfl
@[simp] theorem setXb_busy (x : TransferBuffer) (s : State) : (s.setXb x).busy = s.busy := rfl
@[simp] theorem setXb_bootUser (x : TransferBuffer) (s : State) : (s.setXb x).bootUser = s.bootUser := rfl
@[simp] theorem setXb_pc (x : TransferBuffer) (s : State) : (s.setXb x).pc = s.pc := rfl
@[simp] theorem setXb_tx (x : TransferBuffer) (s : State) : (s.setXb x).tx = s.tx := rfl
@[simp] theorem setXb_rx (x : TransferBuffer) (s : State) : (s.setXb x).rx = s.rx := rfl
@[simp] theorem setXb_h (x : TransferBuffer) (s : State) : (s.setXb x).h = s.h := rfl
@[simp] theorem setXb_cp (x : TransferBuffer) (s : State) : (s.setXb x).cp = s.cp := rfl
@[simp] theorem setXb_fs (x : TransferBuffer) (s : State) : (s.setXb x).fs = s.fs := rfl

/-! ## setTwb -/

@[simp] theorem setTwb_env (x : WriteBuffer) (s : State) : (s.setTwb x).env = s.env := rfl
@[simp] theorem setTwb_devLog (x : WriteBuffer) (s : State) : (s.setTwb x).devLog = s.devLog := rfl
@[simp] theorem setTwb_draws (x : WriteBuffer) (s : State) : (s.setTwb x).draws = s.draws := rfl
@[simp] theorem setTwb_flash (x : WriteBuffer) (s : State) : (s.setTwb x).flash = s.flash := rfl
@[simp] theorem setTwb_pb (x : WriteBuffer) (s : State) : (s.setTwb x).pb = s.pb := rfl
@[simp] theorem setTwb_xb (x : WriteBuffer) (s : State) : (s.setTwb x).xb = s.xb := rfl
@[simp] theorem setTwb_twb (x : WriteBuffer) (s : State) : (s.setTwb x).twb = x := rfl
@[simp] theorem setTwb_now (x : WriteBuffer) (s : State) : (s.setTwb x).now = s.now := rfl
@[simp] theorem setTwb_mode (x : WriteBuffer) (s : State) : (s.setTwb x).mode = s.mode := rfl
@[simp] theorem setTwb_devOut (x : WriteBuffer) (s : State) : (s.setTwb x).devOut = s.devOut := rfl
@[simp] theorem setTwb_result (x : WriteBuffer) (s : State) : (s.setTwb x).result = s.result := rfl
@[simp] theorem setTwb_busy (x : WriteBuffer) (s : State) : (s.setTwb x).busy = s.busy := rfl
@[simp] theorem setTwb_bootUser (x : WriteBuffer) (s : State) : (s.setTwb x).bootUser = s.bootUser := rfl
@[simp] theorem setTwb_pc (x : WriteBuffer) (s : State) : (s.setTwb x).pc = s.pc := rfl
@[simp] theorem setTwb_tx (x : WriteBuffer) (s : State) : (s.setTwb x).tx = s.tx := rfl
@[simp] theorem setTwb_rx (x : WriteBuffer) (s : State) : (s.setTwb x).rx = s.rx := rfl
@[simp] theorem setTwb_h (x : WriteBuffer) (s : State) : (s.setTwb x).h = s.h := rfl
@[simp] theorem setTwb_cp (x : WriteBuffer) (s : State) : (s.setTwb x).cp = s.cp := rfl
@[simp] theorem setTwb_fs (x : WriteBuffer) (s : State) : (s.setTwb x).fs = s.fs := rfl

/-! ## setNow -/

@[simp] theorem setNow_env (x : Nat) (s : State) : (s.setNow x).env = s.env := rfl
@[simp] theorem setNow_devLog (x : Nat) (s : State) : (s.setNow x).devLog = s.devLog := rfl
@[simp] theorem setNow_draws (x : Nat) (s : State) : (s.setNow x).draws = s.draws := rfl
@[simp] theorem setNow_flash (x : Nat) (s : State) : (s.setNow x).flash = s.flash := rfl
@[simp] theorem setNow_pb (x : Nat) (s : State) : (s.setNow x).pb = s.pb := rfl
@[simp] theorem setNow_xb (x : Nat) (s : State) : (s.setNow x).xb = s.xb := rfl
@[simp] theorem setNow_twb (x : Nat) (s : State) : (s.setNow x).twb = s.twb := rfl
@[simp] theorem setNow_now (x : Nat) (s : State) : (s.setNow x).now = x := rfl
@[simp] theorem setNow_mode (x : Nat) (s : State) : (s.setNow x).mode = s.mode := rfl
@[simp] theorem setNow_devOut (x : Nat) (s : State) : (s.setNow x).devOut = s.devOut := rfl
@[simp] theorem setNow_result (x : Nat) (s : State) : (s.setNow x).result = s.result := rfl
@[simp] theorem setNow_busy (x : Nat) (s : State) : (s.setNow x).busy = s.busy := rfl
@[simp] theorem setNow_bootUser (x : Nat) (s : State) : (s.setNow x).bootUser = s.bootUser := rfl
@[simp] theorem setNow_pc (x : Nat) (s : State) : (s.setNow x).pc = s.pc := rfl
@[simp] theorem setNow_tx (x : Nat) (s : State) : (s.setNow x).tx = s.tx := rfl
@[simp] theorem setNow_rx (x : Nat) (s : State) : (s.setNow x).rx = s.rx := rfl
@[simp] theorem setNow_h (x : Nat) (s : State) : (s.setNow x).h = s.h := rfl
@[simp] theorem setNow_cp (x : Nat) (s : State) : (s.setNow x).cp = s.cp := rfl
@[simp] theorem setNow_fs (x : Nat) (s : State) : (s.setNow x).fs = s.fs := rfl

/-! ## setMode -/

@[simp] theorem setMode_env (x : Mode) (s : State) : (s.setMode x).env = s.env := rfl
@[simp] theorem setMode_devLog (x : Mode) (s : State) : (s.setMode x).devLog = s.devLog := rfl
@[simp] theorem setMode_draws (x : Mode) (s : State) : (s.setMode x).draws = s.draws := rfl
@[simp] theorem setMode_flash (x : Mode) (s : State) : (s.setMode x).flash = s.flash := rfl
@[simp] theorem setMode_pb (x : Mode) (s : State) : (s.setMode x).pb = s.pb := rfl
@[simp] theorem setMode_xb (x : Mode) (s : State) : (s.setMode x).xb = s.xb := rfl
@[simp] theorem setMode_twb (x : Mode) (s : State) : (s.setMode x).twb = s.twb := rfl
@[simp] theorem setMode_now (x : Mode) (s : State) : (s.setMode x).now = s.now := rfl
@[simp] theorem setMode_mode (x : Mode) (s : State) : (s.setMode x).mode = x := rfl
@[simp] theorem setMode_devOut (x : Mode) (s : State) : (s.setMode x).devOut = s.devOut := rfl
@[simp] theorem setMode_result (x : Mode) (s : State) : (s.setMode x).result = s.result := rfl
@[simp] theorem setMode_busy (x : Mode) (s : State) : (s.setMode x).busy = s.busy := rfl
@[simp] theorem setMode_bootUser (x : Mode) (s : State) : (s.setMode x).bootUser = s.bootUser := rfl
@[simp] theorem setMode_pc (x : Mode) (s : State) : (s.setMode x).pc = s.pc := rfl
@[simp] theorem setMode_tx (x : Mode) (s : State) : (s.setMode x).tx = s.tx := rfl
@[simp] theorem setMode_rx (x : Mode) (s : State) : (s.setMode x).rx = s.rx := rfl
@[simp] theorem setMode_h (x : Mode) (s : State) : (s.setMode x).h = s.h := rfl
@[simp] theorem setMode_cp (x : Mode) (s : State) : (s.setMode x).cp = s.cp := rfl
@[simp] theorem setMode_fs (x : Mode) (s : State) : (s.setMode x).fs = s.fs := rfl

/-! ## setResult -/

@[simp] theorem setResult_env (x : Result) (s : State) : (s.setResult x).env = s.env := rfl
@[simp] theorem setResult_devLog (x : Result) (s : State) : (s.setResult x).devLog = s.devLog := rfl
@[simp] theorem setResult_draws (x : Result) (s : State) : (s.setResult x).draws = s.draws := rfl
@[simp] theorem setResult_flash (x : Result) (s : State) : (s.setResult x).flash = s.flash := rfl
@[simp] theorem setResult_pb (x : Result) (s : State) : (s.setResult x).pb = s.pb := rfl
@[simp] theorem setResult_xb (x : Result) (s : State) : (s.setResult x).xb = s.xb := rfl
@[simp] theorem setResult_twb (x : Result) (s : State) : (s.setResult x).twb = s.twb := rfl
@[simp] theorem setResult_now (x : Result) (s : State) : (s.setResult x).now = s.now := rfl
@[simp] theorem setResult_mode (x : Result) (s : State) : (s.setResult x).mode = s.mode := rfl
@[simp] theorem setResult_devOut (x : Result) (s : State) : (s.setResult x).devOut = s.devOut := rfl
@[simp] theorem setResult_result (x : Result) (s : State) : (s.setResult x).result = x := rfl
@[simp] theorem setResult_busy (x : Result) (s : State) : (s.setResult x).busy = s.busy := rfl
@[simp] theorem setResult_bootUser (x : Result) (s : State) : (s.setResult x).bootUser = s.bootUser := rfl
@[simp] theorem setResult_pc (x : Result) (s : State) : (s.setResult x).pc = s.pc := rfl
@[simp] theorem setResult_tx (x : Result) (s : State) : (s.setResult x).tx = s.tx := rfl
@[simp] theorem setResult_rx (x : Result) (s : State) : (s.setResult x).rx = s.rx := rfl
@[simp] theorem setResult_h (x : Result) (s : State) : (s.setResult x).h = s.h := rfl
@[simp] theorem setResult_cp (x : Result) (s : State) : (s.setResult x).cp = s.cp := rfl
@[simp] theorem setResult_fs (x : Result) (s : State) : (s.setResult x).fs = s.fs := rfl

/-! ## setBusy -/

@[simp] theorem setBusy_env (x : Bool) (s : State) : (s.setBusy x).env = s.env := rfl
@[simp] theorem setBusy_devLog (x : Bool) (s : State) : (s.setBusy x).devLog = s.devLog := rfl
@[simp] theorem setBusy_draws (x : Bool) (s : State) : (s.setBusy x).draws = s.draws := rfl
@[simp] theorem setBusy_flash (x : Bool) (s : State) : (s.setBusy x).flash = s.flash := rfl
@[simp] theorem setBusy_pb (x : Bool) (s : State) : (s.setBusy x).pb = s.pb := rfl
@[simp] theorem setBusy_xb (x : Bool) (s : State) : (s.setBusy x).xb = s.xb := rfl
@[simp] theorem setBusy_twb (x : Bool) (s : State) : (s.setBusy x).twb = s.twb := rfl
@[simp] theorem setBusy_now (x : Bool) (s : State) : (s.setBusy x).now = s.now := rfl
@[simp] theorem setBusy_mode (x : Bool) (s : State) : (s.setBusy x).mode = s.mode := rfl
@[simp] theorem setBusy_devOut (x : Bool) (s : State) : (s.setBusy x).devOut = s.devOut := rfl
@[simp] theorem setBusy_result (x : Bool) (s : State) : (s.setBusy x).result = s.result := rfl
@[simp] theorem setBusy_busy (x : Bool) (s : State) : (s.setBusy x).busy = x := rfl
@[simp] theorem setBusy_bootUser (x : Bool) (s : State) : (s.setBusy x).bootUser = s.bootUser := rfl
@[simp] theorem setBusy_pc (x : Bool) (s : State) : (s.setBusy x).pc = s.pc := rfl
@[simp] theorem setBusy_tx (x : Bool) (s : State) : (s.setBusy x).tx = s.tx := rfl
@[simp] theorem setBusy_rx (x : Bool) (s : State) : (s.setBusy x).rx = s.rx := rfl
@[simp] theorem setBusy_h (x : Bool) (s : State) : (s.setBusy x).h = s.h := rfl
@[simp] theorem setBusy_cp (x : Bool) (s : State) : (s.setBusy x).cp = s.cp := rfl
@[simp] theorem setBusy_fs (x : Bool) (s : State) : (s.setBusy x).fs = s.fs := rfl

/-! ## setTx -/

@[simp] theorem setTx_env (x : TxRegs) (s : State) : (s.setTx x).env = s.env := rfl
@[simp] theorem setTx_devLog (x : TxRegs) (s : State) : (s.setTx x).devLog = s.devLog := rfl
@[simp] theorem setTx_draws (x : TxRegs) (s : State) : (s.setTx x).draws = s.draws := rfl
@[simp] theorem setTx_flash (x : TxRegs) (s : State) : (s.setTx x).flash = s.flash := rfl
@[simp] theorem setTx_pb (x : TxRegs) (s : State) : (s.setTx x).pb = s.pb := rfl
@[simp] theorem setTx_xb (x : TxRegs) (s : State) : (s.setTx x).xb = s.xb := rfl
@[simp] theorem setTx_twb (x : TxRegs) (s : State) : (s.setTx x).twb = s.twb := rfl
@[simp] theorem setTx_now (x : TxRegs) (s : State) : (s.setTx x).now = s.now := rfl
@[simp] theorem setTx_mode (x : TxRegs) (s : State) : (s.setTx x).mode = s.mode := rfl
@[simp] theorem setTx_devOut (x : TxRegs) (s : State) : (s.setTx x).devOut = s.devOut := rfl
@[simp] theorem setTx_result (x : TxRegs) (s : State) : (s.setTx x).result = s.result := rfl
@[simp] theorem setTx_busy (x : TxRegs) (s : State) : (s.setTx x).busy = s.busy := rfl
@[simp] theorem setTx_bootUser (x : TxRegs) (s : State) : (s.setTx x).bootUser = s.bootUser := rfl
@[simp] theorem setTx_pc (x : TxRegs) (s : State) : (s.setTx x).pc = s.pc := rfl
@[simp] theorem setTx_tx (x : TxRegs) (s : State) : (s.setTx x).tx = x := rfl
@[simp] theorem setTx_rx (x : TxRegs) (s : State) : (s.setTx x).rx = s.rx := rfl
@[simp] theorem setTx_h (x : TxRegs) (s : State) : (s.setTx x).h = s.h := rfl
@[simp] theorem setTx_cp (x : TxRegs) (s : State) : (s.setTx x).cp = s.cp := rfl
@[simp] theorem setTx_fs (x : TxRegs) (s : State) : (s.setTx x).fs = s.fs := rfl

/-! ## setRx -/

@[simp] theorem setRx_env (x : RxRegs) (s : State) : (s.setRx x).env = s.env := rfl
@[simp] theorem setRx_devLog (x : RxRegs) (s : State) : (s.setRx x).devLog = s.devLog := rfl
@[simp] theorem setRx_draws (x : RxRegs) (s : State) : (s.setRx x).draws = s.draws := rfl
@[simp] theorem setRx_flash (x : RxRegs) (s : State) : (s.setRx x).flash = s.flash := rfl
@[simp] theorem setRx_pb (x : RxRegs) (s : State) : (s.setRx x).pb = s.pb := rfl
@[simp] theorem setRx_xb (x : RxRegs) (s : State) : (s.setRx x).xb = s.xb := rfl
@[simp] theorem setRx_twb (x : RxRegs) (s : State) : (s.setRx x).twb = s.twb := rfl
@[simp] theorem setRx_now (x : RxRegs) (s : State) : (s.setRx x).now = s.now := rfl
@[simp] theorem setRx_mode (x : RxRegs) (s : State) : (s.setRx x).mode = s.mode := rfl
@[simp] theorem setRx_devOut (x : RxRegs) (s : State) : (s.setRx x).devOut = s.devOut := rfl
@[simp] theorem setRx_result (x : RxRegs) (s : State) : (s.setRx x).result = s.result := rfl
@[simp] theorem setRx_busy (x : RxRegs) (s : State) : (s.setRx x).busy = s.busy := rfl
@[simp] theorem setRx_bootUser (x : RxRegs) (s : State) : (s.setRx x).bootUser = s.bootUser := rfl
@[simp] theorem setRx_pc (x : RxRegs) (s : State) : (s.setRx x).pc = s.pc := rfl
@[simp] theorem setRx_tx (x : RxRegs) (s : State) : (s.setRx x).tx = s.tx := rfl
@[simp] theorem setRx_rx (x : RxRegs) (s : State) : (s.setRx x).rx = x := rfl
@[simp] theorem setRx_h (x : RxRegs) (s : State) : (s.setRx x).h = s.h := rfl
@[simp] theorem setRx_cp (x : RxRegs) (s : State) : (s.setRx x).cp = s.cp := rfl
@[simp] theorem setRx_fs (x : RxRegs) (s : State) : (s.setRx x).fs = s.fs := rfl

/-! ## setH -/

@[simp] theorem setH_env (x : Byte) (s : State) : (s.setH x).env = s.env := rfl
@[simp] theorem setH_devLog (x : Byte) (s : State) : (s.setH x).devLog = s.devLog := rfl
@[simp] theorem setH_draws (x : Byte) (s : State) : (s.setH x).draws = s.draws := rfl
@[simp] theorem setH_flash (x : Byte) (s : State) : (s.setH x).flash = s.flash := rfl
@[simp] theorem setH_pb (x : Byte) (s : State) : (s.setH x).pb = s.pb := rfl
@[simp] theorem setH_xb (x : Byte) (s : State) : (s.setH x).xb = s.xb := rfl
@[simp] theorem setH_twb (x : Byte) (s : State) : (s.setH x).twb = s.twb := rfl
@[simp] theorem setH_now (x : Byte) (s : State) : (s.setH x).now = s.now := rfl
@[simp] theorem setH_mode (x : Byte) (s : State) : (s.setH x).mode = s.mode := rfl
@[simp] theorem setH_devOut (x : Byte) (s : State) : (s.setH x).devOut = s.devOut := rfl
@[simp] theorem setH_result (x : Byte) (s : State) : (s.setH x).result = s.result := rfl
@[simp] theorem setH_busy (x : Byte) (s : State) : (s.setH x).busy = s.busy := rfl
@[simp] theorem setH_bootUser (x : Byte) (s : State) : (s.setH x).bootUser = s.bootUser := rfl
@[simp] theorem setH_pc (x : Byte) (s : State) : (s.setH x).pc = s.pc := rfl
@[simp] theorem setH_tx (x : Byte) (s : State) : (s.setH x).tx = s.tx := rfl
@[simp] theorem setH_rx (x : Byte) (s : State) : (s.setH x).rx = s.rx := rfl
@[simp] theorem setH_h (x : Byte) (s : State) : (s.setH x).h = x := rfl
@[simp] theorem setH_cp (x : Byte) (s : State) : (s.setH x).cp = s.cp := rfl
@[simp] theorem setH_fs (x : Byte) (s : State) : (s.setH x).fs = s.fs := rfl

/-! ## setCp -/

@[simp] theorem setCp_env (x : CpRegs) (s : State) : (s.setCp x).env = s.env := rfl
@[simp] theorem setCp_devLog (x : CpRegs) (s : State) : (s.setCp x).devLog = s.devLog := rfl
@[simp] theorem setCp_draws (x : CpRegs) (s : State) : (s.setCp x).draws = s.draws := rfl
@[simp] theorem setCp_flash (x : CpRegs) (s : State) : (s.setCp x).flash = s.flash := rfl
@[simp] theorem setCp_pb (x : CpRegs) (s : State) : (s.setCp x).pb = s.pb := rfl
@[simp] theorem setCp_xb (x : CpRegs) (s : State) : (s.setCp x).xb = s.xb := rfl
@[simp] theorem setCp_twb (x : CpRegs) (s : State) : (s.setCp x).twb = s.twb := rfl
@[simp] theorem setCp_now (x : CpRegs) (s : State) : (s.setCp x).now = s.now := rfl
@[simp] theorem setCp_mode (x : CpRegs) (s : State) : (s.setCp x).mode = s.mode := rfl
@[simp] theorem setCp_devOut (x : CpRegs) (s : State) : (s.setCp x).devOut = s.devOut := rfl
@[simp] theorem setCp_result (x : CpRegs) (s : State) : (s.setCp x).result = s.result := rfl
@[simp] theorem setCp_busy (x : CpRegs) (s : State) : (s.setCp x).busy = s.busy := rfl
@[simp] theorem setCp_bootUser (x : CpRegs) (s : State) : (s.setCp x).bootUser = s.bootUser := rfl
@[simp] theorem setCp_pc (x : CpRegs) (s : State) : (s.setCp x).pc = s.pc := rfl
@[simp] theorem setCp_tx (x : CpRegs) (s : State) : (s.setCp x).tx = s.tx := rfl
@[simp] theorem setCp_rx (x : CpRegs) (s : State) : (s.setCp x).rx = s.rx := rfl
@[simp] theorem setCp_h (x : CpRegs) (s : State) : (s.setCp x).h = s.h := rfl
@[simp] theorem setCp_cp (x : CpRegs) (s : State) : (s.setCp x).cp = x := rfl
@[simp] theorem setCp_fs (x : CpRegs) (s : State) : (s.setCp x).fs = s.fs := rfl

/-! ## setFs -/

@[simp] theorem setFs_env (x : FsRegs) (s : State) : (s.setFs x).env = s.env := rfl
@[simp] theorem setFs_devLog (x : FsRegs) (s : State) : (s.setFs x).devLog = s.devLog := rfl
@[simp] theorem setFs_draws (x : FsRegs) (s : State) : (s.setFs x).draws = s.draws := rfl
@[simp] theorem setFs_flash (x : FsRegs) (s : State) : (s.setFs x).flash = s.flash := rfl
@[simp] theorem setFs_pb (x : FsRegs) (s : State) : (s.setFs x).pb = s.pb := rfl
@[simp] theorem setFs_xb (x : FsRegs) (s : State) : (s.setFs x).xb = s.xb := rfl
@[simp] theorem setFs_twb (x : FsRegs) (s : State) : (s.setFs x).twb = s.twb := rfl
@[simp] theorem setFs_now (x : FsRegs) (s : State) : (s.setFs x).now = s.now := rfl
@[simp] theorem setFs_mode (x : FsRegs) (s : State) : (s.setFs x).mode = s.mode := rfl
@[simp] theorem setFs_devOut (x : FsRegs) (s : State) : (s.setFs x).devOut = s.devOut := rfl
@[simp] theorem setFs_result (x : FsRegs) (s : State) : (s.setFs x).result = s.result := rfl
@[simp] theorem setFs_busy (x : FsRegs) (s : State) : (s.setFs x).busy = s.busy := rfl
@[simp] theorem setFs_bootUser (x : FsRegs) (s : State) : (s.setFs x).bootUser = s.bootUser := rfl
@[simp] theorem setFs_pc (x : FsRegs) (s : State) : (s.setFs x).pc = s.pc := rfl
@[simp] theorem setFs_tx (x : FsRegs) (s : State) : (s.setFs x).tx = s.tx := rfl
@[simp] theorem setFs_rx (x : FsRegs) (s : State) : (s.setFs x).rx = s.rx := rfl
@[simp] theorem setFs_h (x : FsRegs) (s : State) : (s.setFs x).h = s.h := rfl
@[simp] theorem setFs_cp (x : FsRegs) (s : State) : (s.setFs x).cp = s.cp := rfl
@[simp] theorem setFs_fs (x : FsRegs) (s : State) : (s.setFs x).fs = x := rfl

/-! ## setLine -/

@[simp] theorem setLine_env (v : Bool) (s : State) : (s.setLine v).env = s.env := rfl
@[simp] theorem setLine_devLog (v : Bool) (s : State) : (s.setLine v).devLog = (s.clock, v) :: s.devLog := rfl
@[simp] theorem setLine_draws (v : Bool) (s : State) : (s.setLine v).draws = s.draws := rfl
@[simp] theorem setLine_flash (v : Bool) (s : State) : (s.setLine v).flash = s.flash := rfl
@[simp] theorem setLine_pb (v : Bool) (s : State) : (s.setLine v).pb = s.pb := rfl
@[simp] theorem setLine_xb (v : Bool) (s : State) : (s.setLine v).xb = s.xb := rfl
@[simp] theorem setLine_twb (v : Bool) (s : State) : (s.setLine v).twb = s.twb := rfl
@[simp] theorem setLine_now (v : Bool) (s : State) : (s.setLine v).now = s.now := rfl
@[simp] theorem setLine_mode (v : Bool) (s : State) : (s.setLine v).mode = s.mode := rfl
@[simp] theorem setLine_devOut (v : Bool) (s : State) : (s.setLine v).devOut = v := rfl
@[simp] theorem setLine_result (v : Bool) (s : State) : (s.setLine v).result = s.result := rfl
@[simp] theorem setLine_busy (v : Bool) (s : State) : (s.setLine v).busy = s.busy := rfl
@[simp] theorem setLine_bootUser (v : Bool) (s : State) : (s.setLine v).bootUser = s.bootUser := rfl
@[simp] theorem setLine_pc (v : Bool) (s : State) : (s.setLine v).pc = s.pc := rfl
@[simp] theorem setLine_tx (v : Bool) (s : State) : (s.setLine v).tx = s.tx := rfl
@[simp] theorem setLine_rx (v : Bool) (s : State) : (s.setLine v).rx = s.rx := rfl
@[simp] theorem setLine_h (v : Bool) (s : State) : (s.setLine v).h = s.h := rfl
@[simp] theorem setLine_cp (v : Bool) (s : State) : (s.setLine v).cp = s.cp := rfl
@[simp] theorem setLine_fs (v : Bool) (s : State) : (s.setLine v).fs = s.fs := rfl

/-! ## complete -/

@[simp] theorem complete_env (r : Result) (s : State) : (s.complete r).env = s.env := rfl
@[simp] theorem complete_devLog (r : Result) (s : State) : (s.complete r).devLog = s.devLog := rfl
@[simp] theorem complete_draws (r : Result) (s : State) : (s.complete r).draws = s.draws := rfl
@[simp] theorem complete_flash (r : Result) (s : State) : (s.complete r).flash = s.flash := rfl
@[simp] theorem complete_pb (r : Result) (s : State) : (s.complete r).pb = s.pb := rfl
@[simp] theorem complete_xb (r : Result) (s : State) : (s.complete r).xb = s.xb := rfl
@[simp] theorem complete_twb (r : Result) (s : State) : (s.complete r).twb = s.twb := rfl
@[simp] theorem complete_now (r : Result) (s : State) : (s.complete r).now = s.now := rfl
@[simp] theorem complete_mode (r : Result) (s : State) : (s.complete r).mode = s.mode := rfl
@[simp] theorem complete_devOut (r : Result) (s : State) : (s.complete r).devOut = s.devOut := rfl
@[simp] theorem complete_result (r : Result) (s : State) : (s.complete r).result = r := rfl
@[simp] theorem complete_busy (r : Result) (s : State) : (s.complete r).busy = false := rfl
@[simp] theorem complete_bootUser (r : Result) (s : State) : (s.complete r).bootUser = s.bootUser := rfl
@[simp] theorem complete_pc (r : Result) (s : State) : (s.complete r).pc = s.pc := rfl
@[simp] theorem complete_tx (r : Result) (s : State) : (s.complete r).tx = s.tx := rfl
@[simp] theorem complete_rx (r : Result) (s : State) : (s.complete r).rx = s.rx := rfl
@[simp] theorem complete_h (r : Result) (s : State) : (s.complete r).h = s.h := rfl
@[simp] theorem complete_cp (r : Result) (s : State) : (s.complete r).cp = s.cp := rfl
@[simp] theorem complete_fs (r : Result) (s : State) : (s.complete r).fs = s.fs := rfl

/-! ## runHash -/

@[simp] theorem runHash_env (bs : List Byte) (s : State) : (s.runHash bs).env = s.env := rfl
@[simp] theorem runHash_devLog (bs : List Byte) (s : State) : (s.runHash bs).devLog = s.devLog := rfl
@[simp] theorem runHash_draws (bs : List Byte) (s : State) : (s.runHash bs).draws = s.draws := rfl
@[simp] theorem runHash_flash (bs : List Byte) (s : State) : (s.runHash bs).flash = s.flash := rfl
@[simp] theorem runHash_pb (bs : List Byte) (s : State) : (s.runHash bs).pb = s.pb := rfl
@[simp] theorem runHash_xb (bs : List Byte) (s : State) : (s.runHash bs).xb = s.xb := rfl
@[simp] theorem runHash_twb (bs : List Byte) (s : State) : (s.runHash bs).twb = s.twb := rfl
@[simp] theorem runHash_now (bs : List Byte) (s : State) : (s.runHash bs).now = s.now := rfl
@[simp] theorem runHash_mode (bs : List Byte) (s : State) : (s.runHash bs).mode = s.mode := rfl
@[simp] theorem runHash_devOut (bs : List Byte) (s : State) : (s.runHash bs).devOut = s.devOut := rfl
@[simp] theorem runHash_result (bs : List Byte) (s : State) : (s.runHash bs).result = s.result := rfl
@[simp] theorem runHash_busy (bs : List Byte) (s : State) : (s.runHash bs).busy = s.busy := rfl
@[simp] theorem runHash_bootUser (bs : List Byte) (s : State) : (s.runHash bs).bootUser = s.bootUser := rfl
@[simp] theorem runHash_pc (bs : List Byte) (s : State) : (s.runHash bs).pc = s.pc := rfl
@[simp] theorem runHash_tx (bs : List Byte) (s : State) : (s.runHash bs).tx = s.tx := rfl
@[simp] theorem runHash_rx (bs : List Byte) (s : State) : (s.runHash bs).rx = s.rx := rfl
@[simp] theorem runHash_h (bs : List Byte) (s : State) : (s.runHash bs).h = hashBytes bs := rfl
@[simp] theorem runHash_cp (bs : List Byte) (s : State) : (s.runHash bs).cp = s.cp := rfl
@[simp] theorem runHash_fs (bs : List Byte) (s : State) : (s.runHash bs).fs = s.fs := rfl

/-! ## fsIdle -/

@[simp] theorem fsIdle_env (s : State) : (s.fsIdle).env = s.env := rfl
@[simp] theorem fsIdle_devLog (s : State) : (s.fsIdle).devLog = s.devLog := rfl
@[simp] theorem fsIdle_draws (s : State) : (s.fsIdle).draws = s.draws := rfl
@[simp] theorem fsIdle_flash (s : State) : (s.fsIdle).flash = s.flash := rfl
@[simp] theorem fsIdle_pb (s : State) : (s.fsIdle).pb = s.pb := rfl
@[simp] theorem fsIdle_xb (s : State) : (s.fsIdle).xb = s.xb := rfl
@[simp] theorem fsIdle_twb (s : State) : (s.fsIdle).twb = s.twb := rfl
@[simp] theorem fsIdle_now (s : State) : (s.fsIdle).now = s.now := rfl
@[simp] theorem fsIdle_mode (s : State) : (s.fsIdle).mode = s.mode := rfl
@[simp] theorem fsIdle_devOut (s : State) : (s.fsIdle).devOut = s.devOut := rfl
@[simp] theorem fsIdle_result (s : State) : (s.fsIdle).result = s.result := rfl
@[simp] theorem fsIdle_busy (s : State) : (s.fsIdle).busy = s.busy := rfl
@[simp] theorem fsIdle_bootUser (s : State) : (s.fsIdle).bootUser = s.bootUser := rfl
@[simp] theorem fsIdle_pc (s : State) : (s.fsIdle).pc = s.pc := rfl
@[simp] theorem fsIdle_tx (s : State) : (s.fsIdle).tx = s.tx := rfl
@[simp] theorem fsIdle_rx (s : State) : (s.fsIdle).rx = s.rx := rfl
@[simp] theorem fsIdle_h (s : State) : (s.fsIdle).h = s.h := rfl
@[simp] theorem fsIdle_cp (s : State) : (s.fsIdle).cp = s.cp := rfl
@[simp] theorem fsIdle_fs (s : State) : (s.fsIdle).fs = s.fs.setPhase .idle := rfl

/-! ## blankPage -/

@[simp] theorem blankPage_env (pa : Nat) (s : State) : (s.blankPage pa).env = s.env := rfl
@[simp] theorem blankPage_devLog (pa : Nat) (s : State) : (s.blankPage pa).devLog = s.devLog := rfl
@[simp] theorem blankPage_draws (pa : Nat) (s : State) : (s.blankPage pa).draws = s.draws := rfl
@[simp] theorem blankPage_flash (pa : Nat) (s : State) : (s.blankPage pa).flash = s.flash.writeRange pa pageSize fun _ => erasedByte := rfl
@[simp] theorem blankPage_pb (pa : Nat) (s : State) : (s.blankPage pa).pb = s.pb := rfl
@[simp] theorem blankPage_xb (pa : Nat) (s : State) : (s.blankPage pa).xb = s.xb := rfl
@[simp] theorem blankPage_twb (pa : Nat) (s : State) : (s.blankPage pa).twb = s.twb := rfl
@[simp] theorem blankPage_now (pa : Nat) (s : State) : (s.blankPage pa).now = s.now := rfl
@[simp] theorem blankPage_mode (pa : Nat) (s : State) : (s.blankPage pa).mode = s.mode := rfl
@[simp] theorem blankPage_devOut (pa : Nat) (s : State) : (s.blankPage pa).devOut = s.devOut := rfl
@[simp] theorem blankPage_result (pa : Nat) (s : State) : (s.blankPage pa).result = s.result := rfl
@[simp] theorem blankPage_busy (pa : Nat) (s : State) : (s.blankPage pa).busy = s.busy := rfl
@[simp] theorem blankPage_bootUser (pa : Nat) (s : State) : (s.blankPage pa).bootUser = s.bootUser := rfl
@[simp] theorem blankPage_pc (pa : Nat) (s : State) : (s.blankPage pa).pc = s.pc := rfl
@[simp] theorem blankPage_tx (pa : Nat) (s : State) : (s.blankPage pa).tx = s.tx := rfl
@[simp] theorem blankPage_rx (pa : Nat) (s : State) : (s.blankPage pa).rx = s.rx := rfl
@[simp] theorem blankPage_h (pa : Nat) (s : State) : (s.blankPage pa).h = s.h := rfl
@[simp] theorem blankPage_cp (pa : Nat) (s : State) : (s.blankPage pa).cp = s.cp := rfl
@[simp] theorem blankPage_fs (pa : Nat) (s : State) : (s.blankPage pa).fs = s.fs := rfl

/-! ## scramblePage -/

@[simp] theorem scramblePage_env (s : State) (pa : Nat) : (s.scramblePage pa).env = s.env := rfl
@[simp] theorem scramblePage_devLog (s : State) (pa : Nat) : (s.scramblePage pa).devLog = s.devLog := rfl
@[simp] theorem scramblePage_draws (s : State) (pa : Nat) : (s.scramblePage pa).draws = s.draws + pageSize := rfl
@[simp] theorem scramblePage_flash (s : State) (pa : Nat) : (s.scramblePage pa).flash = s.flash.writeRange pa pageSize fun i => freeByte (s.draws + i) := rfl
@[simp] theorem scramblePage_pb (s : State) (pa : Nat) : (s.scramblePage pa).pb = s.pb := rfl
@[simp] theorem scramblePage_xb (s : State) (pa : Nat) : (s.scramblePage pa).xb = s.xb := rfl
@[simp] theorem scramblePage_twb (s : State) (pa : Nat) : (s.scramblePage pa).twb = s.twb := rfl
@[simp] theorem scramblePage_now (s : State) (pa : Nat) : (s.scramblePage pa).now = s.now := rfl
@[simp] theorem scramblePage_mode (s : State) (pa : Nat) : (s.scramblePage pa).mode = s.mode := rfl
@[simp] theorem scramblePage_devOut (s : State) (pa : Nat) : (s.scramblePage pa).devOut = s.devOut := rfl
@[simp] theorem scramblePage_result (s : State) (pa : Nat) : (s.scramblePage pa).result = s.result := rfl
@[simp] theorem scramblePage_busy (s : State) (pa : Nat) : (s.scramblePage pa).busy = s.busy := rfl
@[simp] theorem scramblePage_bootUser (s : State) (pa : Nat) : (s.scramblePage pa).bootUser = s.bootUser := rfl
@[simp] theorem scramblePage_pc (s : State) (pa : Nat) : (s.scramblePage pa).pc = s.pc := rfl
@[simp] theorem scramblePage_tx (s : State) (pa : Nat) : (s.scramblePage pa).tx = s.tx := rfl
@[simp] theorem scramblePage_rx (s : State) (pa : Nat) : (s.scramblePage pa).rx = s.rx := rfl
@[simp] theorem scramblePage_h (s : State) (pa : Nat) : (s.scramblePage pa).h = s.h := rfl
@[simp] theorem scramblePage_cp (s : State) (pa : Nat) : (s.scramblePage pa).cp = s.cp := rfl
@[simp] theorem scramblePage_fs (s : State) (pa : Nat) : (s.scramblePage pa).fs = s.fs := rfl

/-! ## enterUpdate -/

@[simp] theorem enterUpdate_env (s : State) : (s.enterUpdate).env = s.env := rfl
@[simp] theorem enterUpdate_devLog (s : State) : (s.enterUpdate).devLog = s.devLog := rfl
@[simp] theorem enterUpdate_draws (s : State) : (s.enterUpdate).draws = s.draws := rfl
@[simp] theorem enterUpdate_flash (s : State) : (s.enterUpdate).flash = s.flash := rfl
@[simp] theorem enterUpdate_pb (s : State) : (s.enterUpdate).pb = s.pb := rfl
@[simp] theorem enterUpdate_xb (s : State) : (s.enterUpdate).xb = s.xb := rfl
@[simp] theorem enterUpdate_twb (s : State) : (s.enterUpdate).twb = s.twb := rfl
@[simp] theorem enterUpdate_now (s : State) : (s.enterUpdate).now = s.now := rfl
@[simp] theorem enterUpdate_mode (s : State) : (s.enterUpdate).mode = .update := rfl
@[simp] theorem enterUpdate_devOut (s : State) : (s.enterUpdate).devOut = s.devOut := rfl
@[simp] theorem enterUpdate_result (s : State) : (s.enterUpdate).result = s.result := rfl
@[simp] theorem enterUpdate_busy (s : State) : (s.enterUpdate).busy = s.busy := rfl
@[simp] theorem enterUpdate_bootUser (s : State) : (s.enterUpdate).bootUser = s.bootUser := rfl
@[simp] theorem enterUpdate_pc (s : State) : (s.enterUpdate).pc = s.pc := rfl
@[simp] theorem enterUpdate_tx (s : State) : (s.enterUpdate).tx = s.tx := rfl
@[simp] theorem enterUpdate_rx (s : State) : (s.enterUpdate).rx = s.rx := rfl
@[simp] theorem enterUpdate_h (s : State) : (s.enterUpdate).h = s.h := rfl
@[simp] theorem enterUpdate_cp (s : State) : (s.enterUpdate).cp = s.cp := rfl
@[simp] theorem enterUpdate_fs (s : State) : (s.enterUpdate).fs = s.fs := rfl

/-! ## enterUserApp -/

@[simp] theorem enterUserApp_env (s : State) : (s.enterUserApp).env = s.env := rfl
@[simp] theorem enterUserApp_devLog (s : State) : (s.enterUserApp).devLog = s.devLog := rfl
@[simp] theorem enterUserApp_draws (s : State) : (s.enterUserApp).draws = s.draws := rfl
@[simp] theorem enterUserApp_flash (s : State) : (s.enterUserApp).flash = s.flash := rfl
@[simp] theorem enterUserApp_pb (s : State) : (s.enterUserApp).pb = s.pb := rfl
@[simp] theorem enterUserApp_xb (s : State) : (s.enterUserApp).xb = s.xb := rfl
@[simp] theorem enterUserApp_twb (s : State) : (s.enterUserApp).twb = s.twb := rfl
@[simp] theorem enterUserApp_now (s : State) : (s.enterUserApp).now = s.now := rfl
@[simp] theorem enterUserApp_mode (s : State) : (s.enterUserApp).mode = .userApp := rfl
@[simp] theorem enterUserApp_devOut (s : State) : (s.enterUserApp).devOut = s.devOut := rfl
@[simp] theorem enterUserApp_result (s : State) : (s.enterUserApp).result = s.result := rfl
@[simp] theorem enterUserApp_busy (s : State) : (s.enterUserApp).busy = s.busy := rfl
@[simp] theorem enterUserApp_bootUser (s : State) : (s.enterUserApp).bootUser = true := rfl
@[simp] theorem enterUserApp_pc (s : State) : (s.enterUserApp).pc = some userEntry := rfl
@[simp] theorem enterUserApp_tx (s : State) : (s.enterUserApp).tx = s.tx := rfl
@[simp] theorem enterUserApp_rx (s : State) : (s.enterUserApp).rx = s.rx := rfl
@[simp] theorem enterUserApp_h (s : State) : (s.enterUserApp).h = s.h := rfl
@[simp] theorem enterUserApp_cp (s : State) : (s.enterUserApp).cp = s.cp := rfl
@[simp] theorem enterUserApp_fs (s : State) : (s.enterUserApp).fs = s.fs := rfl

/-! ## popCall -/

@[simp] theorem popCall_env (s : State) : (s.popCall).env = { s.env with calls := s.env.calls.tail } := rfl
@[simp] theorem popCall_devLog (s : State) : (s.popCall).devLog = s.devLog := rfl
@[simp] theorem popCall_draws (s : State) : (s.popCall).draws = s.draws := rfl
@[simp] theorem popCall_flash (s : State) : (s.popCall).flash = s.flash := rfl
@[simp] theorem popCall_pb (s : State) : (s.popCall).pb = s.pb := rfl
@[simp] theorem popCall_xb (s : State) : (s.popCall).xb = s.xb := rfl
@[simp] theorem popCall_twb (s : State) : (s.popCall).twb = s.twb := rfl
@[simp] theorem popCall_now (s : State) : (s.popCall).now = s.now := rfl
@[simp] theorem popCall_mode (s : State) : (s.popCall).mode = s.mode := rfl
@[simp] theorem popCall_devOut (s : State) : (s.popCall).devOut = s.devOut := rfl
@[simp] theorem popCall_result (s : State) : (s.popCall).result = s.result := rfl
@[simp] theorem popCall_busy (s : State) : (s.popCall).busy = s.busy := rfl
@[simp] theorem popCall_bootUser (s : State) : (s.popCall).bootUser = s.bootUser := rfl
@[simp] theorem popCall_pc (s : State) : (s.popCall).pc = s.pc := rfl
@[simp] theorem popCall_tx (s : State) : (s.popCall).tx = s.tx := rfl
@[simp] theorem popCall_rx (s : State) : (s.popCall).rx = s.rx := rfl
@[simp] theorem popCall_h (s : State) : (s.popCall).h = s.h := rfl
@[simp] theorem popCall_cp (s : State) : (s.popCall).cp = s.cp := rfl
@[simp] theorem popCall_fs (s : State) : (s.popCall).fs = s.fs := rfl

/-! ## storePage -/

@[simp] theorem storePage_env (pa : Nat) (s : State) : (s.storePage pa).env = s.env := by unfold State.storePage; split <;> rfl
@[simp] theorem storePage_devLog (pa : Nat) (s : State) : (s.storePage pa).devLog = s.devLog := by unfold State.storePage; split <;> rfl
@[simp] theorem storePage_pb (pa : Nat) (s : State) : (s.storePage pa).pb = s.pb := by unfold State.storePage; split <;> rfl
@[simp] theorem storePage_xb (pa : Nat) (s : State) : (s.storePage pa).xb = s.xb := by unfold State.storePage; split <;> rfl
@[simp] theorem storePage_twb (pa : Nat) (s : State) : (s.storePage pa).twb = s.twb := by unfold State.storePage; split <;> rfl
@[simp] theorem storePage_now (pa : Nat) (s : State) : (s.storePage pa).now = s.now := by unfold State.storePage; split <;> rfl
@[simp] theorem storePage_mode (pa : Nat) (s : State) : (s.storePage pa).mode = s.mode := by unfold State.storePage; split <;> rfl
@[simp] theorem storePage_devOut (pa : Nat) (s : State) : (s.storePage pa).devOut = s.devOut := by unfold State.storePage; split <;> rfl
@[simp] theorem storePage_result (pa : Nat) (s : State) : (s.storePage pa).result = s.result := by unfold State.storePage; split <;> rfl
@[simp] theorem storePage_busy (pa : Nat) (s : State) : (s.storePage pa).busy = s.busy := by unfold State.storePage; split <;> rfl
@[simp] theorem storePage_bootUser (pa : Nat) (s : State) : (s.storePage pa).bootUser = s.bootUser := by unfold State.storePage; split <;> rfl
@[simp] theorem storePage_pc (pa : Nat) (s : State) : (s.storePage pa).pc = s.pc := by unfold State.storePage; split <;> rfl
@[simp] theorem storePage_tx (pa : Nat) (s : State) : (s.storePage pa).tx = s.tx := by unfold State.storePage; split <;> rfl
@[simp] theorem storePage_rx (pa : Nat) (s : State) : (s.storePage pa).rx = s.rx := by unfold State.storePage; split <;> rfl
@[simp] theorem storePage_h (pa : Nat) (s : State) : (s.storePage pa).h = s.h := by unfold State.storePage; split <;> rfl
@[simp] theorem storePage_cp (pa : Nat) (s : State) : (s.storePage pa).cp = s.cp := by unfold State.storePage; split <;> rfl
@[simp] theorem storePage_fs (pa : Nat) (s : State) : (s.storePage pa).fs = s.fs := by unfold State.storePage; split <;> rfl

/-! ## storeByte -/

@[simp] theorem storeByte_env (v : Byte) (s : State) : (s.storeByte v).env = s.env := by unfold State.storeByte; split <;> rfl
@[simp] theorem storeByte_devLog (v : Byte) (s : State) : (s.storeByte v).devLog = s.devLog := by unfold State.storeByte; split <;> rfl
@[simp] theorem storeByte_draws (v : Byte) (s : State) : (s.storeByte v).draws = s.draws := by unfold State.storeByte; split <;> rfl
@[simp] theorem storeByte_flash (v : Byte) (s : State) : (s.storeByte v).flash = s.flash := by unfold State.storeByte; split <;> rfl
@[simp] theorem storeByte_pb (v : Byte) (s : State) : (s.storeByte v).pb = s.pb := by unfold State.storeByte; split <;> rfl
@[simp] theorem storeByte_twb (v : Byte) (s : State) : (s.storeByte v).twb = s.twb := by unfold State.storeByte; split <;> rfl
@[simp] theorem storeByte_now (v : Byte) (s : State) : (s.storeByte v).now = s.now := by unfold State.storeByte; split <;> rfl
@[simp] theorem storeByte_mode (v : Byte) (s : State) : (s.storeByte v).mode = s.mode := by unfold State.storeByte; split <;> rfl
@[simp] theorem storeByte_devOut (v : Byte) (s : State) : (s.storeByte v).devOut = s.devOut := by unfold State.storeByte; split <;> rfl
@[simp] theorem storeByte_result (v : Byte) (s : State) : (s.storeByte v).result = s.result := by unfold State.storeByte; split <;> rfl
@[simp] theorem storeByte_busy (v : Byte) (s : State) : (s.storeByte v).busy = s.busy := by unfold State.storeByte; split <;> rfl
@[simp] theorem storeByte_bootUser (v : Byte) (s : State) : (s.storeByte v).bootUser = s.bootUser := by unfold State.storeByte; split <;> rfl
@[simp] theorem storeByte_pc (v : Byte) (s : State) : (s.storeByte v).pc = s.pc := by unfold State.storeByte; split <;> rfl
@[simp] theorem storeByte_tx (v : Byte) (s : State) : (s.storeByte v).tx = s.tx := by unfold State.storeByte; split <;> rfl
@[simp] theorem storeByte_rx (v : Byte) (s : State) : (s.storeByte v).rx = s.rx := by unfold State.storeByte; split <;> rfl
@[simp] theorem storeByte_h (v : Byte) (s : State) : (s.storeByte v).h = s.h := by unfold State.storeByte; split <;> rfl
@[simp] theorem storeByte_cp (v : Byte) (s : State) : (s.storeByte v).cp = s.cp := by unfold State.storeByte; split <;> rfl
@[simp] theorem storeByte_fs (v : Byte) (s : State) : (s.storeByte v).fs = s.fs := by unfold State.storeByte; split <;> rfl

/-! ## takeDataBit -/

@[simp] theorem takeDataBit_env (a : Bool) (s : State) : (takeDataBit a s).env = s.env := by
  unfold takeDataBit; split <;> simp
@[simp] theorem takeDataBit_devLog (a : Bool) (s : State) : (takeDataBit a s).devLog = s.devLog := by
  unfold takeDataBit; split <;> simp
@[simp] theorem takeDataBit_draws (a : Bool) (s : State) : (takeDataBit a s).draws = s.draws := by
  unfold takeDataBit; split <;> simp
@[simp] theorem takeDataBit_flash (a : Bool) (s : State) : (takeDataBit a s).flash = s.flash := by
  unfold takeDataBit; split <;> simp
@[simp] theorem takeDataBit_pb (a : Bool) (s : State) : (takeDataBit a s).pb = s.pb := by
  unfold takeDataBit; split <;> simp
@[simp] theorem takeDataBit_twb (a : Bool) (s : State) : (takeDataBit a s).twb = s.twb := by
  unfold takeDataBit; split <;> simp
@[simp] theorem takeDataBit_now (a : Bool) (s : State) : (takeDataBit a s).now = s.now := by
  unfold takeDataBit; split <;> simp
@[simp] theorem takeDataBit_mode (a : Bool) (s : State) : (takeDataBit a s).mode = s.mode := by
  unfold takeDataBit; split <;> simp
@[simp] theorem takeDataBit_devOut (a : Bool) (s : State) : (takeDataBit a s).devOut = s.devOut := by
  unfold takeDataBit; split <;> simp
@[simp] theorem takeDataBit_result (a : Bool) (s : State) : (takeDataBit a s).result = s.result := by
  unfold takeDataBit; split <;> simp
@[simp] theorem takeDataBit_busy (a : Bool) (s : State) : (takeDataBit a s).busy = s.busy := by
  unfold takeDataBit; split <;> simp
@[simp] theorem takeDataBit_bootUser (a : Bool) (s : State) : (takeDataBit a s).bootUser = s.bootUser := by
  unfold takeDataBit; split <;> simp
@[simp] theorem takeDataBit_pc (a : Bool) (s : State) : (takeDataBit a s).pc = s.pc := by
  unfold takeDataBit; split <;> simp
@[simp] theorem takeDataBit_tx (a : Bool) (s : State) : (takeDataBit a s).tx = s.tx := by
  unfold takeDataBit; split <;> simp
@[simp] theorem takeDataBit_h (a : Bool) (s : State) : (takeDataBit a s).h = s.h := by
  unfold takeDataBit; split <;> simp
@[simp] theorem takeDataBit_cp (a : Bool) (s : State) : (takeDataBit a s).cp = s.cp := by
  unfold takeDataBit; split <;> simp
@[simp] theorem takeDataBit_fs (a : Bool) (s : State) : (takeDataBit a s).fs = s.fs := by
  unfold takeDataBit; split <;> simp

/-! ## Time and the absolute tick -/

@[simp] theorem setDraws_clock (x : Nat) (s : State) : (s.setDraws x).clock = s.clock := rfl
@[simp] theorem setFlash_clock (x : Memory) (s : State) : (s.setFlash x).clock = s.clock := rfl
@[simp] theorem setPb_clock (x : PageBuffer) (s : State) : (s.setPb x).clock = s.clock := rfl
@[simp] theorem setXb_clock (x : TransferBuffer) (s : State) : (s.setXb x).clock = s.clock := rfl
@[simp] theorem setTwb_clock (x : WriteBuffer) (s : State) : (s.setTwb x).clock = s.clock := rfl
@[simp] theorem setNow_clock (x : Nat) (s : State) : (s.setNow x).clock = s.env.epoch + x := rfl
@[simp] theorem setMode_clock (x : Mode) (s : State) : (s.setMode x).clock = s.clock := rfl
@[simp] theorem setResult_clock (x : Result) (s : State) : (s.setResult x).clock = s.clock := rfl
@[simp] theorem setBusy_clock (x : Bool) (s : State) : (s.setBusy x).clock = s.clock := rfl
@[simp] theorem setTx_clock (x : TxRegs) (s : State) : (s.setTx x).clock = s.clock := rfl
@[simp] theorem setRx_clock (x : RxRegs) (s : State) : (s.setRx x).clock = s.clock := rfl
@[simp] theorem setH_clock (x : Byte) (s : State) : (s.setH x).clock = s.clock := rfl
@[simp] theorem setCp_clock (x : CpRegs) (s : State) : (s.setCp x).clock = s.clock := rfl
@[simp] theorem setFs_clock (x : FsRegs) (s : State) : (s.setFs x).clock = s.clock := rfl
@[simp] theorem setLine_clock (v : Bool) (s : State) : (s.setLine v).clock = s.clock := rfl
@[simp] theorem complete_clock (r : Result) (s : State) : (s.complete r).clock = s.clock := rfl
@[simp] theorem runHash_clock (bs : List Byte) (s : State) : (s.runHash bs).clock = s.clock := rfl
@[simp] theorem fsIdle_clock (s : State) : (s.fsIdle).clock = s.clock := rfl
@[simp] theorem blankPage_clock (pa : Nat) (s : State) : (s.blankPage pa).clock = s.clock := rfl
@[simp] theorem scramblePage_clock (s : State) (pa : Nat) : (s.scramblePage pa).clock = s.clock := rfl
@[simp] theorem enterUpdate_clock (s : State) : (s.enterUpdate).clock = s.clock := rfl
@[simp] theorem enterUserApp_clock (s : State) : (s.enterUserApp).clock = s.clock := rfl
@[simp] theorem popCall_clock (s : State) : (s.popCall).clock = s.clock := rfl

/-! ## takeReset: what 10_state.md R38 says -/

@[simp] theorem takeReset_draws (s : State) : s.takeReset.draws = s.draws + powerUpDraws := rfl
@[simp] theorem takeReset_flash (s : State) : s.takeReset.flash = s.flash := rfl
@[simp] theorem takeReset_now (s : State) : s.takeReset.now = 0 := rfl
@[simp] theorem takeReset_mode (s : State) : s.takeReset.mode = .bootCheck := rfl
@[simp] theorem takeReset_devOut (s : State) : s.takeReset.devOut = false := rfl
@[simp] theorem takeReset_result (s : State) : s.takeReset.result = 0 := rfl
@[simp] theorem takeReset_busy (s : State) : s.takeReset.busy = (s.env.par.assembly == .bootloader) := rfl
@[simp] theorem takeReset_bootUser (s : State) : s.takeReset.bootUser = false := rfl
@[simp] theorem takeReset_pc (s : State) : s.takeReset.pc = none := rfl
@[simp] theorem takeReset_tx (s : State) : s.takeReset.tx = {} := rfl
@[simp] theorem takeReset_rx (s : State) : s.takeReset.rx = {} := rfl
@[simp] theorem takeReset_h (s : State) : s.takeReset.h = 0 := rfl
@[simp] theorem takeReset_cp (s : State) : s.takeReset.cp = {} := rfl
@[simp] theorem takeReset_fs (s : State) : s.takeReset.fs = {} := rfl
@[simp] theorem takeReset_par (s : State) : s.takeReset.env.par = s.env.par := rfl
@[simp] theorem takeReset_wave (s : State) : s.takeReset.env.wave = s.env.wave := rfl
@[simp] theorem takeReset_calls (s : State) :
    s.takeReset.env.calls = s.env.calls.dropWhile fun c => c.tick ≤ s.takeReset.env.epoch := rfl
@[simp] theorem takeReset_power (s : State) : s.takeReset.env.power = s.env.power.tail := rfl
@[simp] theorem takeReset_clock (s : State) : s.takeReset.clock = s.takeReset.env.epoch := rfl
theorem takeReset_devLog (s : State) : s.takeReset.devLog = (s.takeReset.env.epoch, false) :: s.devLog := rfl

/-- The release of a reset is not before the tick at which the state was cut. -/
theorem clock_le_takeReset_epoch (s : State) : s.clock ≤ s.takeReset.env.epoch := by
  unfold State.takeReset
  cases s.env.power with
  | nil => exact Nat.le_refl _
  | cons p ps => exact Nat.le_max_right _ _

/-- The release of a reset that was not overdue is at its tick. -/
theorem takeReset_epoch_cons {s : State} {p : PowerLoss} {ps : List PowerLoss} (h : s.env.power = p :: ps)
    (hp : s.clock ≤ p.tick) : s.takeReset.env.epoch = p.tick := by
  simp [State.takeReset, State.powerUp, h, Nat.max_eq_left hp]

end Sys2Proof.Machine
end

