-- ==== Sys2Proof/Laws/Run.lean ====
section
/-! SUPPORT. Runs, time and loss of power. -/
namespace Sys2Proof.Machine

open Sys2Proof.Config

section
variable {α β γ : Type}

@[simp] theorem Run.done_bind (a : α) (s : State) (f : α → State → Run β) : (Run.done a s).bind f = f a s := rfl
@[simp] theorem Run.lost_bind (s : State) (f : α → State → Run β) : (Run.lost s).bind f = .lost s := rfl
@[simp] theorem Run.fault_bind (r : Fault) (f : α → State → Run β) : (Run.fault r).bind f = .fault r := rfl

theorem Run.bind_assoc (r : Run α) (f : α → State → Run β) (g : β → State → Run γ) :
    (r.bind f).bind g = r.bind fun a s => (f a s).bind g := by
  cases r <;> rfl

@[simp] theorem Run.outcome_done (a : α) (s : State) : (Run.done a s).outcome = .next s := rfl
@[simp] theorem Run.outcome_lost (s : State) : (Run.lost s : Run α).outcome = .next s.takeReset := rfl
@[simp] theorem Run.outcome_fault (r : Fault) : (Run.fault r : Run α).outcome = .fault r := rfl

/-- A completed run came from a completed first part. -/
theorem Run.bind_eq_done {r : Run α} {f : α → State → Run β} {b : β} {t : State} :
    r.bind f = .done b t ↔ ∃ a s, r = .done a s ∧ f a s = .done b t := by
  cases r <;> simp [Run.bind]

/-- A run was cut short in one of its parts. -/
theorem Run.bind_eq_lost {r : Run α} {f : α → State → Run β} {t : State} :
    r.bind f = .lost t ↔ r = .lost t ∨ ∃ a s, r = .done a s ∧ f a s = .lost t := by
  cases r <;> simp [Run.bind]

/-- A run stopped in one of its parts. -/
theorem Run.bind_eq_fault {r : Run α} {f : α → State → Run β} {e : Fault} :
    r.bind f = .fault e ↔ r = .fault e ∨ ∃ a s, r = .done a s ∧ f a s = .fault e := by
  cases r <;> simp [Run.bind]

/-- What a run comes to, case by case. -/
theorem Run.outcome_eq_next {r : Run α} {t : State} :
    r.outcome = .next t ↔ (∃ a, r = .done a t) ∨ ∃ s, r = .lost s ∧ t = s.takeReset := by
  cases r <;> simp [Run.outcome, eq_comm]

theorem Run.outcome_ne_refused (r : Run α) (x : Refusal) : r.outcome ≠ .refused x := by
  cases r <;> simp [Run.outcome]
end

/-! ## Time -/

theorem lossBefore_eq_of_power {s t : State} (hp : t.env.power = s.env.power) (he : t.env.epoch = s.env.epoch) (c : Nat) :
    t.lossBefore c = s.lossBefore c := by
  simp [State.lossBefore, hp, he]

@[simp] theorem lossBefore_setNow (s : State) (d c : Nat) : (s.setNow d).lossBefore c = s.lossBefore c := rfl

@[simp] theorem lossBefore_setLine (s : State) (v : Bool) (c : Nat) : (s.setLine v).lossBefore c = s.lossBefore c := rfl

@[simp] theorem lossBefore_setDraws (x : Nat) (s : State) (c : Nat) : (s.setDraws x).lossBefore c = s.lossBefore c := rfl
@[simp] theorem lossBefore_setFlash (x : Memory) (s : State) (c : Nat) : (s.setFlash x).lossBefore c = s.lossBefore c := rfl
@[simp] theorem lossBefore_setPb (x : PageBuffer) (s : State) (c : Nat) : (s.setPb x).lossBefore c = s.lossBefore c := rfl
@[simp] theorem lossBefore_setXb (x : TransferBuffer) (s : State) (c : Nat) : (s.setXb x).lossBefore c = s.lossBefore c := rfl
@[simp] theorem lossBefore_setTwb (x : WriteBuffer) (s : State) (c : Nat) : (s.setTwb x).lossBefore c = s.lossBefore c := rfl
@[simp] theorem lossBefore_setMode (x : Mode) (s : State) (c : Nat) : (s.setMode x).lossBefore c = s.lossBefore c := rfl
@[simp] theorem lossBefore_setResult (x : Result) (s : State) (c : Nat) : (s.setResult x).lossBefore c = s.lossBefore c := rfl
@[simp] theorem lossBefore_setBusy (x : Bool) (s : State) (c : Nat) : (s.setBusy x).lossBefore c = s.lossBefore c := rfl
@[simp] theorem lossBefore_setTx (x : TxRegs) (s : State) (c : Nat) : (s.setTx x).lossBefore c = s.lossBefore c := rfl
@[simp] theorem lossBefore_setRx (x : RxRegs) (s : State) (c : Nat) : (s.setRx x).lossBefore c = s.lossBefore c := rfl
@[simp] theorem lossBefore_setH (x : Byte) (s : State) (c : Nat) : (s.setH x).lossBefore c = s.lossBefore c := rfl
@[simp] theorem lossBefore_setCp (x : CpRegs) (s : State) (c : Nat) : (s.setCp x).lossBefore c = s.lossBefore c := rfl
@[simp] theorem lossBefore_setFs (x : FsRegs) (s : State) (c : Nat) : (s.setFs x).lossBefore c = s.lossBefore c := rfl
@[simp] theorem lossBefore_complete (x : Result) (s : State) (c : Nat) : (s.complete x).lossBefore c = s.lossBefore c := rfl
@[simp] theorem lossBefore_runHash (x : List Byte) (s : State) (c : Nat) : (s.runHash x).lossBefore c = s.lossBefore c := rfl

@[simp] theorem line_setDraws (x : Nat) (s : State) (τ : Nat) : (s.setDraws x).line τ = s.line τ := rfl
@[simp] theorem line_setFlash (x : Memory) (s : State) (τ : Nat) : (s.setFlash x).line τ = s.line τ := rfl
@[simp] theorem line_setPb (x : PageBuffer) (s : State) (τ : Nat) : (s.setPb x).line τ = s.line τ := rfl
@[simp] theorem line_setXb (x : TransferBuffer) (s : State) (τ : Nat) : (s.setXb x).line τ = s.line τ := rfl
@[simp] theorem line_setTwb (x : WriteBuffer) (s : State) (τ : Nat) : (s.setTwb x).line τ = s.line τ := rfl
@[simp] theorem line_setMode (x : Mode) (s : State) (τ : Nat) : (s.setMode x).line τ = s.line τ := rfl
@[simp] theorem line_setResult (x : Result) (s : State) (τ : Nat) : (s.setResult x).line τ = s.line τ := rfl
@[simp] theorem line_setBusy (x : Bool) (s : State) (τ : Nat) : (s.setBusy x).line τ = s.line τ := rfl
@[simp] theorem line_setTx (x : TxRegs) (s : State) (τ : Nat) : (s.setTx x).line τ = s.line τ := rfl
@[simp] theorem line_setRx (x : RxRegs) (s : State) (τ : Nat) : (s.setRx x).line τ = s.line τ := rfl
@[simp] theorem line_setH (x : Byte) (s : State) (τ : Nat) : (s.setH x).line τ = s.line τ := rfl
@[simp] theorem line_setCp (x : CpRegs) (s : State) (τ : Nat) : (s.setCp x).line τ = s.line τ := rfl
@[simp] theorem line_setFs (x : FsRegs) (s : State) (τ : Nat) : (s.setFs x).line τ = s.line τ := rfl
@[simp] theorem line_complete (x : Result) (s : State) (τ : Nat) : (s.complete x).line τ = s.line τ := rfl
@[simp] theorem line_runHash (x : List Byte) (s : State) (τ : Nat) : (s.runHash x).line τ = s.line τ := rfl
@[simp] theorem line_setNow (x : Nat) (s : State) (τ : Nat) : (s.setNow x).line τ = s.line τ := rfl

/-- A loss before an earlier tick is a loss before a later one. -/
theorem lossBefore_mono {s : State} {c d : Nat} (h : c ≤ d) (hd : s.lossBefore d = false) : s.lossBefore c = false := by
  unfold State.lossBefore at *
  split <;> simp_all
  omega

@[simp] theorem lossBefore_nil {s : State} (h : s.env.power = []) (c : Nat) : s.lossBefore c = false := by
  simp [State.lossBefore, h]

/-- Everything `advanceTo` can do. -/
theorem advanceTo_spec (c : Nat) (s : State) :
    (s.lossBefore c = true ∧ advanceTo c s = .lost s) ∨
      (s.lossBefore c = false ∧ advanceTo c s = .done () (s.setNow c)) := by
  unfold advanceTo
  cases s.lossBefore c <;> simp

@[simp] theorem advanceTo_ok {c : Nat} {s : State} (h : s.lossBefore c = false) :
    advanceTo c s = .done () (s.setNow c) := by
  simp [advanceTo, h]

theorem advanceTo_lost {c : Nat} {s : State} (h : s.lossBefore c = true) : advanceTo c s = .lost s := by
  simp [advanceTo, h]

@[simp] theorem delay_ok {n : Nat} {s : State} (h : s.lossBefore (s.now + n) = false) :
    delay n s = .done () (s.setNow (s.now + n)) :=
  advanceTo_ok h

theorem lossDue_false {s : State} : s.lossDue = false ↔ s.lossBefore (s.now + 1) = false := Iff.rfl

end Sys2Proof.Machine
end

