-- ==== Sys2Proof/Laws/Line.lean ====
section
/-! SUPPORT. The line: the peer's waveform, the search for an asserted level, what driving slots does. -/
namespace Sys2Proof.Machine

open Sys2Proof.Config

/-! ## The peer's waveform -/

theorem segLevel_eq_none {gs : List Seg} {n : Nat} : segLevel gs n = none ↔ segTicks gs ≤ n := by
  induction gs generalizing n with
  | nil => simp [segLevel, segTicks]
  | cons g gs ih =>
    unfold segLevel segTicks
    by_cases h : n < g.ticks
    · simp [h]; omega
    · rw [if_neg h, ih]; omega

/-- Past its lead a waveform without a stream repeats. -/
theorem Wave.level_add_loop (w : Wave) (hs : w.stream = none) {n : Nat} (h : segTicks w.lead ≤ n) (k : Nat) :
    w.level (n + segTicks w.loop * k) = w.level n := by
  have h1 : segLevel w.lead (n + segTicks w.loop * k) = none := segLevel_eq_none.mpr (by omega)
  have h2 : segLevel w.lead n = none := segLevel_eq_none.mpr h
  have h3 : n + segTicks w.loop * k - segTicks w.lead = n - segTicks w.lead + segTicks w.loop * k := by omega
  simp only [Wave.level, hs, h1, h2, h3, Nat.add_mul_mod_self_left]

/-- A waveform without a stream or a loop is idle past its lead. -/
theorem Wave.level_of_no_loop (w : Wave) (hs : w.stream = none) {n : Nat} (h : segTicks w.lead ≤ n) (hl : segTicks w.loop = 0) :
    w.level n = false := by
  have h2 : segLevel w.lead n = none := segLevel_eq_none.mpr h
  have h3 : segLevel w.loop ((n - segTicks w.lead) % segTicks w.loop) = none := segLevel_eq_none.mpr (by omega)
  simp [Wave.level, hs, h2, h3]

/-- The line depends on the block's own level and the peer's waveform only. -/
theorem line_congr {s t : State} (hd : t.devOut = s.devOut) (hw : t.env.wave = s.env.wave)
    (he : t.env.epoch = s.env.epoch) : t.line = s.line := by
  funext τ; simp [State.line, hd, hw, he]

/-! ## The search -/

/-- The search finds the first asserted poll. -/
theorem firstAsserted_eq_some {f : Nat → Bool} {t n t0 : Nat} :
    firstAsserted f t n = some t0 ↔ t ≤ t0 ∧ t0 < t + n ∧ f t0 = true ∧ ∀ τ, t ≤ τ → τ < t0 → f τ = false := by
  induction n generalizing t with
  | zero => simp [firstAsserted]; omega
  | succ n ih =>
    unfold firstAsserted
    cases hf : f t with
    | true =>
      simp only [if_true, Option.some.injEq]
      constructor
      · rintro rfl; exact ⟨Nat.le_refl _, by omega, hf, fun τ h1 h2 => by omega⟩
      · rintro ⟨h1, -, -, h4⟩
        by_contra hne
        have := h4 t (Nat.le_refl _) (by omega)
        simp [hf] at this
    | false =>
      simp only [Bool.false_eq_true, if_false]
      rw [ih]
      constructor
      · rintro ⟨h1, h2, h3, h4⟩
        refine ⟨by omega, by omega, h3, fun τ ha hb => ?_⟩
        by_cases hτ : τ = t
        · exact hτ ▸ hf
        · exact h4 τ (by omega) hb
      · rintro ⟨h1, h2, h3, h4⟩
        have hne : t ≠ t0 := by rintro rfl; simp [hf] at h3
        exact ⟨by omega, by omega, h3, fun τ ha hb => h4 τ (by omega) hb⟩

/-- The search fails when every poll reads 0. -/
theorem firstAsserted_eq_none {f : Nat → Bool} {t n : Nat} :
    firstAsserted f t n = none ↔ ∀ τ, t ≤ τ → τ < t + n → f τ = false := by
  induction n generalizing t with
  | zero => simp [firstAsserted]; omega
  | succ n ih =>
    unfold firstAsserted
    cases hf : f t with
    | true =>
      simp only [if_true, reduceCtorEq, false_iff]
      intro h
      have := h t (Nat.le_refl _) (by omega)
      simp [hf] at this
    | false =>
      simp only [Bool.false_eq_true, if_false]
      rw [ih]
      constructor
      · intro h τ ha hb
        by_cases hτ : τ = t
        · exact hτ ▸ hf
        · exact h τ (by omega) (by omega)
      · intro h τ ha hb; exact h τ (by omega) (by omega)

theorem firstAsserted_of_FirstAsserted {s : State} {n t0 : Nat} (h : s.FirstAsserted s.now (s.now + n) t0) :
    firstAsserted s.line s.now n = some t0 :=
  firstAsserted_eq_some.mpr ⟨h.1, h.2.1, h.2.2.1, h.2.2.2⟩

theorem firstAsserted_of_Idle {s : State} {n : Nat} (h : s.Idle s.now (s.now + n)) :
    firstAsserted s.line s.now n = none :=
  firstAsserted_eq_none.mpr h

/-! ## Driving slots -/

/-- The block after it has driven slots. -/
def State.afterSlots : List Bool → State → State
  | [], s => s
  | v :: vs, s => ((s.setLine v).setNow (s.now + S)).afterSlots vs

/-- Only time and the line change. -/
theorem afterSlots_eq (ls : List Bool) (s : State) :
    s.afterSlots ls = { s with
      now := s.now + S * ls.length
      devOut := (s.afterSlots ls).devOut
      devLog := (s.afterSlots ls).devLog } := by
  induction ls generalizing s with
  | nil => rfl
  | cons v vs ih =>
    have h := ih ((s.setLine v).setNow (s.now + S))
    have hlen : s.now + S + S * vs.length = s.now + S * (v :: vs).length := by
      simp only [S, List.length_cons]; omega
    simp only [State.afterSlots] at h ⊢
    rw [h, setNow_now, hlen]
    rfl

@[simp] theorem afterSlots_now (ls : List Bool) (s : State) : (s.afterSlots ls).now = s.now + S * ls.length := by
  rw [afterSlots_eq]

@[simp] theorem afterSlots_env (ls : List Bool) (s : State) : (s.afterSlots ls).env = s.env := by
  rw [afterSlots_eq]

/-- The transmit registers play no part. -/
theorem afterSlots_setTx (ls : List Bool) (s : State) (x : TxRegs) :
    (s.setTx x).afterSlots ls = (s.afterSlots ls).setTx x := by
  induction ls generalizing s with
  | nil => rfl
  | cons v vs ih => exact ih ((s.setLine v).setNow (s.now + S))

/-- The block is left at the level of the last slot. -/
theorem afterSlots_devOut (ls : List Bool) (s : State) : (s.afterSlots ls).devOut = ls.getLastD s.devOut := by
  induction ls generalizing s with
  | nil => rfl
  | cons v vs ih =>
    simp only [State.afterSlots, ih]
    cases vs <;> rfl

/-- An entry that is not yet due does not answer. -/
theorem devOutAt_cons {s t : State} {e : Nat × Bool} (h : t.devLog = e :: s.devLog) (τ : Nat) :
    t.devOutAt τ = if e.1 ≤ τ then e.2 else s.devOutAt τ := by
  unfold State.devOutAt
  rw [h, List.find?_cons]
  by_cases he : e.1 ≤ τ <;> simp [he]

theorem devOutAt_congr {s t : State} (h : t.devLog = s.devLog) (τ : Nat) : t.devOutAt τ = s.devOutAt τ := by
  simp [State.devOutAt, h]

/-- Everything driving slots does to the line, tick by tick. -/
theorem afterSlots_devOutAt (ls : List Bool) (s : State) (τ : Nat) :
    (s.afterSlots ls).devOutAt τ =
      if τ < s.clock then s.devOutAt τ
      else if τ < s.clock + S * ls.length then ls.getD ((τ - s.clock) / S) false
      else if ls = [] then s.devOutAt τ else ls.getLastD false := by
  induction ls generalizing s with
  | nil =>
    by_cases h : τ < s.clock
    · rw [if_pos h]; rfl
    · rw [if_neg h, if_neg (by simpa using h), if_pos rfl]; rfl
  | cons v vs ih =>
    have hclock : ((s.setLine v).setNow (s.now + S)).clock = s.clock + S := by
      simp only [State.clock, setNow_env, setLine_env, setNow_now]; omega
    have hcons : ((s.setLine v).setNow (s.now + S)).devOutAt τ = if s.clock ≤ τ then v else s.devOutAt τ :=
      devOutAt_cons (e := (s.clock, v)) rfl τ
    have hlen : s.clock + S * (v :: vs).length = s.clock + S + S * vs.length := by
      simp only [S, List.length_cons]; omega
    rw [State.afterSlots, ih, hclock, hcons, hlen, if_neg (List.cons_ne_nil v vs)]
    by_cases h1 : τ < s.clock
    · rw [if_pos (by omega), if_neg (by omega), if_pos h1]
    · have h1' : s.clock ≤ τ := by omega
      rw [if_neg h1, if_pos h1']
      by_cases h2 : τ < s.clock + S
      · have h0 : (τ - s.clock) / S = 0 := by simp only [S] at *; omega
        rw [if_pos h2, if_pos (by omega), h0]; rfl
      · have h3 : (τ - s.clock) / S = (τ - (s.clock + S)) / S + 1 := by simp only [S] at *; omega
        rw [if_neg h2, h3, List.getD_cons_succ]
        congr 1
        cases vs <;> simp

/-- The block has driven the slots. -/
theorem afterSlots_Drove (ls : List Bool) (s : State) : (s.afterSlots ls).Drove s.clock ls := by
  intro τ hτ
  rw [afterSlots_devOutAt, if_neg (by omega), if_pos (by omega), Nat.add_sub_cancel_left]

/-- What was driven before is as it was. -/
theorem afterSlots_before (ls : List Bool) (s : State) : SameLineBefore s.clock s (s.afterSlots ls) := by
  intro τ hτ
  rw [afterSlots_devOutAt, if_pos hτ]

/-- A log that grows in time stays ordered. -/
theorem setLine_logOrdered {s : State} (h : s.LogOrdered) (v : Bool) : (s.setLine v).LogOrdered := by
  obtain ⟨h1, h2⟩ := h
  refine ⟨List.pairwise_cons.mpr ⟨fun e he => h2 e he, h1⟩, ?_⟩
  intro e he
  rcases List.mem_cons.mp he with rfl | he
  · exact Nat.le_refl _
  · exact h2 e he

/-- The log stays ordered while time passes. -/
theorem logOrdered_later {s t : State} (h : s.LogOrdered) (hl : t.devLog = s.devLog) (hc : s.clock ≤ t.clock) :
    t.LogOrdered := by
  obtain ⟨h1, h2⟩ := h
  exact ⟨hl ▸ h1, fun e he => Nat.le_trans (h2 e (hl ▸ he)) hc⟩

theorem afterSlots_logOrdered {ls : List Bool} {s : State} (h : s.LogOrdered) : (s.afterSlots ls).LogOrdered := by
  induction ls generalizing s with
  | nil => exact h
  | cons v vs ih =>
    exact ih (logOrdered_later (setLine_logOrdered h v) rfl (by rw [setNow_clock]; simp only [State.clock, setLine_env, setLine_now]; omega))

/-- Everything `driveSlots` can do: it drives all slots, or the power is lost in one of them, after the level of that slot
has been set. -/
theorem driveSlots_spec (ls : List Bool) (s : State) :
    (s.lossBefore (s.now + S * ls.length) = false ∧ driveSlots ls s = .done () (s.afterSlots ls)) ∨
      ls = [] ∨
      (s.lossBefore (s.now + S * ls.length) = true ∧
        ∃ k, k < ls.length ∧ driveSlots ls s = .lost ((s.afterSlots (ls.take k)).setLine (ls.getD k false))) := by
  induction ls generalizing s with
  | nil => exact Or.inr (Or.inl rfl)
  | cons v vs ih =>
    have hlen : s.now + S * (v :: vs).length = s.now + S + S * vs.length := by
      simp only [S, List.length_cons]; omega
    rcases hloss : s.lossBefore (s.now + S) with _ | _
    · have hdrive : driveSlots (v :: vs) s = driveSlots vs ((s.setLine v).setNow (s.now + S)) := by
        rw [driveSlots, delay_ok (s := s.setLine v) hloss]
        rfl
      have hl : ∀ c, (((s.setLine v).setNow (s.now + S)) : State).lossBefore c = s.lossBefore c := fun c => rfl
      rcases vs.eq_nil_or_concat with rfl | -
      · exact Or.inl ⟨hloss, hdrive⟩
      · rcases ih ((s.setLine v).setNow (s.now + S)) with ⟨h1, h2⟩ | h | ⟨h1, k, hk, h2⟩
        · refine Or.inl ⟨?_, hdrive.trans h2⟩
          rw [hlen]; exact h1
        · subst h
          exact Or.inl ⟨hloss, hdrive⟩
        · refine Or.inr (Or.inr ⟨?_, k + 1, by simpa using hk, hdrive.trans ?_⟩)
          · rw [hlen]; exact h1
          · rw [h2]; rfl
    · refine Or.inr (Or.inr ⟨?_, 0, by simp, ?_⟩)
      · by_contra h
        have := lossBefore_mono (c := s.now + S) (by rw [hlen]; omega) (Bool.eq_false_iff.mpr h)
        simp [hloss] at this
      · have : delay S (s.setLine v) = .lost (s.setLine v) :=
          advanceTo_lost hloss
        rw [driveSlots, this]
        rfl

/-- Driving slots with the power on. -/
theorem driveSlots_ok {ls : List Bool} {s : State} (h : s.lossBefore (s.now + S * ls.length) = false) :
    driveSlots ls s = .done () (s.afterSlots ls) := by
  rcases driveSlots_spec ls s with ⟨-, h2⟩ | rfl | ⟨h1, -⟩
  · exact h2
  · rfl
  · simp [h] at h1

end Sys2Proof.Machine
end

