-- ==== Sys2Proof/Laws/Bytes.lean ====
section
/-! SUPPORT. Bytes as bits in line order, frames on the line, the algebra of the hash. -/
namespace Sys2Proof.Machine

open Sys2Proof.Config

/-! ## Bits in line order -/

/-- Bit `7-k` of a byte is the `k`-th of its bits in line order (20_memory.md R60). -/
theorem byteOfBits_getLsbD (f : Nat → Bool) {k : Nat} (hk : k < 8) :
    (byteOfBits ((List.range 8).map f)).getLsbD (7 - k) = f k := by
  have h : ∀ b0 b1 b2 b3 b4 b5 b6 b7 : Bool, ∀ i : Fin 8,
      (byteOfBits [b0, b1, b2, b3, b4, b5, b6, b7]).getLsbD (7 - i) = [b0, b1, b2, b3, b4, b5, b6, b7][i] := by
    decide +kernel
  have := h (f 0) (f 1) (f 2) (f 3) (f 4) (f 5) (f 6) (f 7) ⟨k, hk⟩
  refine this.trans ?_
  interval_cases k <;> rfl

/-- Bytes whose bits in line order agree are equal. -/
theorem byte_ext {a b : Byte} (h : ∀ k, k < 8 → a.getLsbD (7 - k) = b.getLsbD (7 - k)) : a = b := by
  apply BitVec.eq_of_getLsbD_eq
  intro i hi
  have := h (7 - i) (by omega)
  rwa [show 7 - (7 - i) = i by omega] at this

/-- Reading the bits of a byte back. -/
@[simp] theorem byteOfBits_bitsOf (v : Byte) : byteOfBits (bitsOf v) = v :=
  byte_ext fun _ hk => byteOfBits_getLsbD _ hk

/-! ## Frames -/

@[simp] theorem frameSlots_start (b : Byte) : (frameSlots b).getD 0 false = true := rfl

@[simp] theorem frameSlots_stop (b : Byte) : (frameSlots b).getD 9 false = false := by
  simp [frameSlots, bitsOf, List.range_succ]

theorem frameSlots_data (b : Byte) {k : Nat} (hk : k < 8) : (frameSlots b).getD (k + 1) false = b.getLsbD (7 - k) := by
  simp only [frameSlots, bitsOf, List.range_succ, List.range_zero, List.nil_append, List.cons_append, List.map_cons,
    List.map_nil]
  interval_cases k <;> rfl

/-- The level inside slot `n` of what the line carries. -/
theorem Carries.level {s : State} {e : Nat} {ls : List Bool} (h : s.Carries e ls) {n τ : Nat} (hn : n < ls.length)
    (hτ : τ < S) : s.line (e + n * S + τ) = ls.getD n false := by
  have := h (n * S + τ) (by simp only [S] at *; omega)
  rw [show (n * S + τ) / S = n by simp only [S] at *; omega] at this
  rw [← this, Nat.add_assoc]

/-- What the line carries in its first part. -/
theorem Carries.left {s : State} {e : Nat} {ls ms : List Bool} (h : s.Carries e (ls ++ ms)) : s.Carries e ls := by
  intro τ hτ
  rw [h τ (by simp only [S, List.length_append] at *; omega), List.getD_append]
  simp only [S] at *; omega

/-- What the line carries in its second part. -/
theorem Carries.right {s : State} {e : Nat} {ls ms : List Bool} (h : s.Carries e (ls ++ ms)) :
    s.Carries (e + S * ls.length) ms := by
  intro τ hτ
  have := h (S * ls.length + τ) (by simp only [S, List.length_append] at *; omega)
  rw [show (S * ls.length + τ) / S = ls.length + τ / S by simp only [S] at *; omega,
    List.getD_append_right _ _ _ _ (Nat.le_add_right _ _), Nat.add_sub_cancel_left] at this
  rw [← this, Nat.add_assoc]

/-- A frame sampled up to `S - PH - 1` ticks late gives its byte (40_byte_transport.md R141). -/
theorem sampledFrame_of_Carries {s : State} {e d : Nat} {b : Byte} (h : s.Carries e (frameSlots b)) (hd : d + PH < S) :
    sampledFrame s.line (e + d) = .byte b := by
  have hlen : (frameSlots b).length = 10 := by simp [frameSlots, bitsOf]
  have hstop : s.line (e + d + 9 * S + PH) = false := by
    have := Carries.level h (n := 9) (τ := d + PH) (by omega) hd
    rw [frameSlots_stop] at this
    rw [← this]; congr 1; omega
  have : sampledByte s.line (e + d) = b := by
    apply byte_ext
    intro k hk
    rw [sampledByte, byteOfBits_getLsbD _ hk, ← frameSlots_data b hk,
      ← Carries.level h (n := k + 1) (τ := d + PH) (by omega) hd]
    congr 1
    simp only [S, PH] at *; omega
  simp [sampledFrame, hstop, this]

/-! ## The hash -/

/-- The hash of a list with one more byte (42_hash_integrity.md R172). -/
theorem hashBytes_snoc (bs : List Byte) (b : Byte) : hashBytes (bs ++ [b]) = rotl8 (hashBytes bs) ^^^ b := by
  simp [hashBytes, hashStep]

theorem rotl8_xor (a b : Byte) : rotl8 (a ^^^ b) = rotl8 a ^^^ rotl8 b := by
  unfold rotl8; ext i hi
  simp [BitVec.getElem_rotateLeft]; split <;> rfl

end Sys2Proof.Machine
end

