-- ==== Sys2Proof/Laws/Memory.lean ====
section
/-! SUPPORT. Program memory: reading after a write, and the canonical form. -/
namespace Sys2Proof.Machine

open Sys2Proof.Config

/-- A cell with another address does not answer. -/
theorem Memory.read_cons (b : Nat) (v : Byte) (m : Memory) (a : Nat) :
    Memory.read ((b, v) :: m) a = if b = a then v else Memory.read m a := rfl

@[simp] theorem Memory.read_nil (a : Nat) : Memory.read [] a = Memory.blank := rfl

/-- No cell listed at `a`: the byte is blank. -/
theorem Memory.read_of_not_mem {m : Memory} {a : Nat} (h : ∀ c ∈ m, c.1 ≠ a) : m.read a = Memory.blank := by
  induction m with
  | nil => rfl
  | cons c m ih =>
    obtain ⟨b, v⟩ := c
    have hb : b ≠ a := h (b, v) List.mem_cons_self
    rw [Memory.read_cons, if_neg hb]
    exact ih fun c hc => h c (List.mem_cons_of_mem _ hc)

/-- The first part of a memory answers for an address that only it lists. -/
theorem Memory.read_append_left {m n : Memory} {a : Nat} (h : ∀ c ∈ n, c.1 ≠ a) : (m ++ n).read a = m.read a := by
  induction m with
  | nil => simpa using Memory.read_of_not_mem h
  | cons c m ih =>
    obtain ⟨b, v⟩ := c
    rw [List.cons_append, Memory.read_cons, Memory.read_cons, ih]

/-- The second part answers for an address the first does not list. -/
theorem Memory.read_append_right {m n : Memory} {a : Nat} (h : ∀ c ∈ m, c.1 ≠ a) : (m ++ n).read a = n.read a := by
  induction m with
  | nil => rfl
  | cons c m ih =>
    obtain ⟨b, v⟩ := c
    have hb : b ≠ a := h (b, v) List.mem_cons_self
    rw [List.cons_append, Memory.read_cons, if_neg hb]
    exact ih fun d hd => h d (List.mem_cons_of_mem _ hd)

/-- Leaving out cells of other addresses does not change what is read. -/
theorem Memory.read_filter {m : Memory} {a : Nat} {p : Host.Cell → Bool} (h : ∀ v, p (a, v) = true) :
    Memory.read (m.filter p) a = m.read a := by
  induction m with
  | nil => rfl
  | cons c m ih =>
    obtain ⟨b, v⟩ := c
    by_cases hb : b = a
    · subst hb; simp [h v, Memory.read_cons]
    · by_cases hp : p (b, v) = true
      · simp [hp, Memory.read_cons, hb, ih]
      · simp [hp, Memory.read_cons, hb, ih]

theorem Memory.mem_cellsOf {addr n : Nat} {f : Nat → Byte} {c : Host.Cell} :
    c ∈ Memory.cellsOf addr f n ↔ ∃ i, i < n ∧ f i ≠ Memory.blank ∧ c = (addr + i, f i) := by
  simp only [Memory.cellsOf, List.mem_filterMap, List.mem_range]
  constructor
  · rintro ⟨i, hi, h⟩
    split at h
    · cases h
    · exact ⟨i, hi, ‹_›, by simpa [eq_comm] using h⟩
  · rintro ⟨i, hi, hf, rfl⟩
    exact ⟨i, hi, by simp [hf]⟩

theorem Memory.cellsOf_succ (addr n : Nat) (f : Nat → Byte) :
    Memory.cellsOf addr f (n + 1) =
      Memory.cellsOf addr f n ++ if f n = Memory.blank then [] else [(addr + n, f n)] := by
  simp only [Memory.cellsOf, List.range_succ, List.filterMap_append]
  congr 1
  by_cases h : f n = Memory.blank <;> simp [h]

/-- Reading back the cells of a range. -/
theorem Memory.read_cellsOf {addr n i : Nat} {f : Nat → Byte} (h : i < n) :
    (Memory.cellsOf addr f n).read (addr + i) = f i := by
  induction n with
  | zero => omega
  | succ n ih =>
    rw [Memory.cellsOf_succ]
    by_cases hi : i = n
    · subst hi
      rw [Memory.read_append_right]
      · by_cases hb : f i = Memory.blank <;> simp [hb, Memory.read_cons]
      · intro c hc
        obtain ⟨j, hj, -, rfl⟩ := Memory.mem_cellsOf.mp hc
        dsimp only
        omega
    · rw [Memory.read_append_left, ih (by omega)]
      intro c hc
      split at hc
      · cases hc
      · obtain rfl : c = (addr + n, f n) := by simpa using hc
        dsimp only
        omega

/-- Everything a write of a range does, inside the range. -/
theorem Memory.read_writeRange_inside {m : Memory} {addr n i : Nat} {f : Nat → Byte} (h : i < n) :
    (m.writeRange addr n f).read (addr + i) = f i := by
  unfold Memory.writeRange
  rw [Memory.read_append_right, Memory.read_append_left, Memory.read_cellsOf h]
  · intro c hc
    have := (List.mem_filter.mp hc).2
    simp only [decide_eq_true_eq] at this
    omega
  · intro c hc
    have := (List.mem_filter.mp hc).2
    simp only [decide_eq_true_eq] at this
    omega

/-- Everything a write of a range does, outside the range: nothing. -/
theorem Memory.read_writeRange_outside {m : Memory} {addr n a : Nat} {f : Nat → Byte} (h : a < addr ∨ addr + n ≤ a) :
    (m.writeRange addr n f).read a = m.read a := by
  unfold Memory.writeRange
  have hmid : ∀ c ∈ Memory.cellsOf addr f n, c.1 ≠ a := by
    intro c hc
    obtain ⟨i, hi, -, rfl⟩ := Memory.mem_cellsOf.mp hc
    dsimp only
    omega
  rcases h with h | h
  · rw [Memory.read_append_left, Memory.read_filter (by simp [h])]
    intro c hc
    rcases List.mem_append.mp hc with hc | hc
    · exact hmid c hc
    · have := (List.mem_filter.mp hc).2
      simp only [decide_eq_true_eq] at this
      omega
  · rw [Memory.read_append_right, Memory.read_append_right hmid, Memory.read_filter (by simp [h])]
    intro c hc
    have := (List.mem_filter.mp hc).2
    simp only [decide_eq_true_eq] at this
    omega

/-! ## The canonical form -/

theorem Memory.wf_iff {m : Memory} :
    m.wf = true ↔ m.Pairwise (fun c d => c.1 < d.1) ∧ ∀ c ∈ m, c.2 ≠ Memory.blank := by
  simp [Memory.wf]

theorem Memory.cellsOf_pairwise (addr n : Nat) (f : Nat → Byte) :
    (Memory.cellsOf addr f n).Pairwise (fun c d => c.1 < d.1) := by
  induction n with
  | zero => simp [Memory.cellsOf]
  | succ n ih =>
    rw [Memory.cellsOf_succ, List.pairwise_append]
    refine ⟨ih, by split <;> simp, ?_⟩
    intro c hc d hd
    obtain ⟨i, hi, -, rfl⟩ := Memory.mem_cellsOf.mp hc
    split at hd
    · cases hd
    · obtain rfl : d = (addr + n, f n) := by simpa using hd
      dsimp only
      omega

/-- Writing a range keeps the canonical form. -/
theorem Memory.writeRange_wf {m : Memory} (h : m.wf = true) (addr n : Nat) (f : Nat → Byte) :
    (m.writeRange addr n f).wf = true := by
  rw [Memory.wf_iff] at h ⊢
  obtain ⟨hp, hb⟩ := h
  unfold Memory.writeRange
  constructor
  · rw [List.pairwise_append, List.pairwise_append]
    refine ⟨hp.sublist List.filter_sublist, ⟨Memory.cellsOf_pairwise _ _ _, hp.sublist List.filter_sublist, ?_⟩, ?_⟩
    · intro c hc d hd
      obtain ⟨i, hi, -, rfl⟩ := Memory.mem_cellsOf.mp hc
      have hd' := (List.mem_filter.mp hd).2
      simp only [decide_eq_true_eq] at hd'
      dsimp only
      omega
    · intro c hc d hd
      have hc' := (List.mem_filter.mp hc).2
      simp only [decide_eq_true_eq] at hc'
      rcases List.mem_append.mp hd with hd | hd
      · obtain ⟨i, hi, -, rfl⟩ := Memory.mem_cellsOf.mp hd
        dsimp only
        omega
      · have hd' := (List.mem_filter.mp hd).2
        simp only [decide_eq_true_eq] at hd'
        omega
  · intro c hc
    rcases List.mem_append.mp hc with hc | hc
    · exact hb c (List.mem_filter.mp hc).1
    · rcases List.mem_append.mp hc with hc | hc
      · obtain ⟨i, hi, hf, rfl⟩ := Memory.mem_cellsOf.mp hc
        exact hf
      · exact hb c (List.mem_filter.mp hc).1

/-- Writing a range inside program memory leaves every cell inside it. -/
theorem Memory.writeRange_extent {m : Memory} {addr n size : Nat} {f : Nat → Byte} (h : ∀ c ∈ m, c.1 < size)
    (hr : addr + n ≤ size) : ∀ c ∈ m.writeRange addr n f, c.1 < size := by
  intro c hc
  rcases List.mem_append.mp hc with hc | hc
  · exact h c (List.mem_filter.mp hc).1
  · rcases List.mem_append.mp hc with hc | hc
    · obtain ⟨i, hi, -, rfl⟩ := Memory.mem_cellsOf.mp hc
      dsimp only
      omega
    · exact h c (List.mem_filter.mp hc).1

/-- Canonical memories that read alike are alike. -/
theorem Memory.ext_of_wf {m n : Memory} (hm : m.wf = true) (hn : n.wf = true) (h : ∀ a, m.read a = n.read a) : m = n := by
  rw [Memory.wf_iff] at hm hn
  obtain ⟨hmp, hmb⟩ := hm
  obtain ⟨hnp, hnb⟩ := hn
  induction m generalizing n with
  | nil =>
    cases n with
    | nil => rfl
    | cons d n =>
      obtain ⟨b, v⟩ := d
      have := h b
      rw [Memory.read_nil, Memory.read_cons, if_pos rfl] at this
      exact absurd this.symm (hnb (b, v) List.mem_cons_self)
  | cons c m ih =>
    obtain ⟨b, v⟩ := c
    have hbm : ∀ x ∈ m, b < x.1 := (List.pairwise_cons.mp hmp).1
    have hv := hmb (b, v) List.mem_cons_self
    cases n with
    | nil =>
      have := h b
      rw [Memory.read_nil, Memory.read_cons, if_pos rfl] at this
      exact absurd this hv
    | cons d n =>
      obtain ⟨b', v'⟩ := d
      have hbn : ∀ x ∈ n, b' < x.1 := (List.pairwise_cons.mp hnp).1
      have hv' := hnb (b', v') List.mem_cons_self
      have hbb : b = b' := by
        rcases Nat.lt_trichotomy b b' with hlt | heq | hlt
        · have := h b
          rw [Memory.read_cons, if_pos rfl, Memory.read_of_not_mem] at this
          · exact absurd this hv
          · intro x hx
            rcases List.mem_cons.mp hx with rfl | hx
            · dsimp only; omega
            · have := hbn x hx; omega
        · exact heq
        · have := h b'
          rw [Memory.read_cons (a := b') b' v' n, if_pos rfl, Memory.read_of_not_mem] at this
          · exact absurd this.symm hv'
          · intro x hx
            rcases List.mem_cons.mp hx with rfl | hx
            · dsimp only; omega
            · have := hbm x hx; omega
      subst hbb
      have hvv : v = v' := by simpa [Memory.read_cons] using h b
      subst hvv
      congr 1
      refine ih ?_ (List.pairwise_cons.mp hmp).2 (fun x hx => hmb x (List.mem_cons_of_mem _ hx))
        (List.pairwise_cons.mp hnp).2 (fun x hx => hnb x (List.mem_cons_of_mem _ hx))
      intro a
      by_cases ha : b = a
      · subst ha
        rw [Memory.read_of_not_mem (fun x hx => (hbm x hx).ne'), Memory.read_of_not_mem (fun x hx => (hbn x hx).ne')]
      · simpa [Memory.read_cons, ha] using h a

/-- An erased range reads erased. -/
theorem Memory.erased_iff {m : Memory} {addr n : Nat} :
    m.erased addr n = true ↔ ∀ i, i < n → m.read (addr + i) = erasedByte := by
  simp [Memory.erased]

/-- A page that has just been erased is erased. -/
@[simp] theorem Memory.erased_writeRange {m : Memory} {addr n : Nat} :
    (m.writeRange addr n fun _ => erasedByte).erased addr n = true :=
  Memory.erased_iff.mpr fun _ hi => Memory.read_writeRange_inside hi

end Sys2Proof.Machine
end

