-- ==== Sys2Proof/Laws/Ops.lean ====
section
/-! SUPPORT. One lemma per shared operation: everything it can do. -/
namespace Sys2Proof.Machine

open Sys2Proof.Config

/-! ## Judging a run -/

section
variable {α β : Type}

/-- A run that never stops with a fault, completes only as `D` says and is cut short only as `L` says. -/
def Run.Sat (D : α → State → Prop) (L : State → Prop) : Run α → Prop
  | .done a s => D a s
  | .lost s => L s
  | .fault _ => False

@[simp] theorem Run.sat_done {D : α → State → Prop} {L : State → Prop} {a : α} {s : State} :
    (Run.done a s).Sat D L ↔ D a s := Iff.rfl
@[simp] theorem Run.sat_lost {D : α → State → Prop} {L : State → Prop} {s : State} :
    (Run.lost s : Run α).Sat D L ↔ L s := Iff.rfl
@[simp] theorem Run.sat_fault {D : α → State → Prop} {L : State → Prop} {r : Fault} :
    (Run.fault r : Run α).Sat D L ↔ False := Iff.rfl

/-- Judging one operation after another. -/
theorem Run.Sat.bind {r : Run α} {f : α → State → Run β} {D : α → State → Prop} {E : β → State → Prop}
    {L : State → Prop} (h : r.Sat D L) (hf : ∀ a s, D a s → (f a s).Sat E L) : (r.bind f).Sat E L := by
  cases r with
  | done a s => exact hf a s h
  | lost s => exact h
  | fault r => exact h

theorem Run.Sat.mono {r : Run α} {D D' : α → State → Prop} {L L' : State → Prop} (h : r.Sat D L)
    (hd : ∀ a s, D a s → D' a s) (hl : ∀ s, L s → L' s) : r.Sat D' L' := by
  cases r with
  | done a s => exact hd a s h
  | lost s => exact hl s h
  | fault r => exact h

/-- What a judged run comes to. -/
theorem Run.Sat.outcome {r : Run α} {D : α → State → Prop} {L : State → Prop} (h : r.Sat D L) :
    ∃ t, r.outcome = .next t ∧ ((∃ a, r = .done a t ∧ D a t) ∨ ∃ s, r = .lost s ∧ L s ∧ t = s.takeReset) := by
  cases r with
  | done a s => exact ⟨s, rfl, Or.inl ⟨a, rfl, h⟩⟩
  | lost s => exact ⟨s.takeReset, rfl, Or.inr ⟨s, rfl, h, rfl⟩⟩
  | fault r => exact h.elim
end

/-! ## Time -/

theorem advanceTo_sat {c : Nat} {s : State} {D : Unit → State → Prop} {L : State → Prop}
    (hd : s.lossBefore c = false → D () (s.setNow c)) (hl : s.lossBefore c = true → L s) :
    (advanceTo c s).Sat D L := by
  rcases advanceTo_spec c s with ⟨h, e⟩ | ⟨h, e⟩ <;> rw [e]
  · exact hl h
  · exact hd h

/-! ## Transmit bodies -/

@[simp] theorem length_bitsOf (v : Byte) : (bitsOf v).length = 8 := by simp [bitsOf]
@[simp] theorem length_frameSlots (v : Byte) : (frameSlots v).length = 10 := by simp [frameSlots]
@[simp] theorem length_symSlots (c : BitVec 2) : (symSlots c).length = 2 := rfl
@[simp] theorem length_byteSymSlots (v : Byte) : (byteSymSlots v).length = 16 := by
  simp [byteSymSlots, bitsOf, List.range_succ]
@[simp] theorem length_packetSlots (bs : List Byte) : (packetSlots bs).length = 4 + 16 * bs.length := by
  induction bs with
  | nil => rfl
  | cons b bs ih =>
    simp only [packetSlots, List.flatMap_cons, List.length_append, length_symSlots, length_byteSymSlots,
      List.length_cons] at ih ⊢
    omega

/-- `SEND_BYTE` with the power on. -/
theorem sendByte_ok {v : Byte} {s : State} (h : s.lossBefore (s.now + 10 * S) = false) :
    sendByte v s = .done () ((s.afterSlots (frameSlots v)).setTx ((s.tx.setSr v).start.stop 9)) := by
  unfold sendByte
  rw [driveSlots_ok (by rw [length_frameSlots]; exact h), Run.done_bind, afterSlots_setTx]
  rfl

/-- `SEND_SYM` with the power on. -/
theorem sendSymbol_ok {c : BitVec 2} {s : State} (h : s.lossBefore (s.now + 2 * S) = false) :
    sendSymbol c s = .done () ((s.afterSlots (symSlots c)).setTx (s.tx.start.stop 1)) := by
  unfold sendSymbol
  rw [driveSlots_ok (by rw [length_symSlots]; exact h), Run.done_bind, afterSlots_setTx]
  rfl

/-- A packet with the power on. -/
theorem sendPacket_ok {bs : List Byte} {s : State} (h : s.lossBefore (s.now + (4 + 16 * bs.length) * S) = false) :
    sendPacket bs s = .done () ((s.afterSlots (packetSlots bs)).setTx ((s.tx.start.stop 1).packetSent bs)) := by
  unfold sendPacket
  rw [driveSlots_ok (by rw [length_packetSlots, Nat.mul_comm]; exact h), Run.done_bind, afterSlots_setTx]
  rfl

/-! ## Transmissions -/

/-- Driving slots is a transmission. -/
theorem afterSlots_transmitted (ls : List Bool) (s : State) {x : TxRegs} (hx : x.wire = s.tx.wire) :
    Transmitted ls s ((s.afterSlots ls).setTx x) := by
  refine ⟨by simp, afterSlots_devOut ls s, ?_, ?_, ⟨?_, hx⟩, fun a => ?_⟩
  · intro τ hτ; exact afterSlots_Drove ls s τ hτ
  · intro τ hτ; exact afterSlots_before ls s τ hτ
  · rw [afterSlots_eq]; rfl
  · rw [afterSlots_eq]; rfl

@[simp] theorem TxRegs.start_wire (tx : TxRegs) : tx.start.wire = tx.wire := rfl
@[simp] theorem TxRegs.stop_wire (n : Nat) (tx : TxRegs) : (tx.stop n).wire = tx.wire := rfl
@[simp] theorem TxRegs.setSr_wire (v : Byte) (tx : TxRegs) : (tx.setSr v).wire = tx.wire := rfl
@[simp] theorem TxRegs.packetSent_wire (bs : List Byte) (tx : TxRegs) : (tx.packetSent bs).wire = tx.wire := by
  unfold TxRegs.packetSent; split <;> rfl

/-- `SEND_BYTE` with the power on, as a transmission. -/
theorem sendByte_transmitted {v : Byte} {s : State} (h : s.lossBefore (s.now + 10 * S) = false) :
    ∃ t, sendByte v s = .done () t ∧ Transmitted (frameSlots v) s t :=
  ⟨_, sendByte_ok h, afterSlots_transmitted _ s rfl⟩

/-- `SEND_SYM` with the power on, as a transmission. -/
theorem sendSymbol_transmitted {c : BitVec 2} {s : State} (h : s.lossBefore (s.now + 2 * S) = false) :
    ∃ t, sendSymbol c s = .done () t ∧ Transmitted (symSlots c) s t :=
  ⟨_, sendSymbol_ok h, afterSlots_transmitted _ s rfl⟩

/-- A packet with the power on, as a transmission. -/
theorem sendPacket_transmitted {bs : List Byte} {s : State}
    (h : s.lossBefore (s.now + (4 + 16 * bs.length) * S) = false) :
    ∃ t, sendPacket bs s = .done () t ∧ Transmitted (packetSlots bs) s t :=
  ⟨_, sendPacket_ok h, afterSlots_transmitted _ s (by simp)⟩

/-- A response with the power on (43_command_processor.md R185). -/
theorem respond_ok {v : Byte} {s : State} (h : s.lossBefore (s.responseTick + 10 * S) = false) :
    ∃ t, respond v s = .done () t ∧ Responded v s.responseTick s t := by
  have h1 : s.lossBefore s.responseTick = false := lossBefore_mono (by omega) h
  obtain ⟨t, ht, hn, hd, hdr, hb, ho, hf⟩ := sendByte_transmitted (v := v) (s := s.setNow s.responseTick) h
  refine ⟨t, by rw [respond, advanceTo_ok h1, Run.done_bind, ht], ?_, hd, hdr, ?_, ?_, hf⟩
  · rw [hn, length_frameSlots]; simp
  · intro τ hτ; exact hb τ hτ
  · exact ho

/-! ## Reception of a byte -/

/-- `RECV_BYTE` on an idle line. -/
theorem recvByte_timeout {n : Nat} {s : State} (hi : s.Idle s.now (s.now + n * S))
    (h : s.lossBefore (s.now + n * S) = false) :
    recvByte n s = .done .timeout
      (((s.setNow (s.now + n * S)).setRx (s.rx.noStart n)).setResult resultTimeout) := by
  unfold recvByte
  rw [firstAsserted_of_Idle hi]
  simp only [advanceTo_ok h, Run.done_bind]
  rfl

/-- `RECV_BYTE` synchronised at `t0`. -/
theorem recvByte_synced {n t0 : Nat} {s : State} (hi : s.FirstAsserted s.now (s.now + n * S) t0)
    (h : s.lossBefore (t0 + 9 * S + PH + 1) = false) :
    recvByte n s = .done (sampledFrame s.line t0)
      (((s.setNow (t0 + 9 * S + PH + 1)).setRx
        (s.rx.frameTaken t0 (n * S - (t0 - s.now)) (sampledByte s.line t0))).setResult (sampledFrame s.line t0).result) := by
  unfold recvByte
  rw [firstAsserted_of_FirstAsserted hi]
  simp only [advanceTo_ok h, Run.done_bind]
  rfl

/-- A window is idle, or it has a first asserted poll. -/
theorem idle_or_firstAsserted (s : State) (n : Nat) :
    s.Idle s.now (s.now + n) ∨ ∃ t0, s.FirstAsserted s.now (s.now + n) t0 := by
  rcases h : firstAsserted s.line s.now n with _ | t0
  · exact Or.inl (firstAsserted_eq_none.mp h)
  · exact Or.inr ⟨t0, firstAsserted_eq_some.mp h⟩

/-- Everything `RECV_BYTE` can do. -/
theorem recvByte_spec (n : Nat) (s : State) :
    (s.Idle s.now (s.now + n * S) ∧ s.lossBefore (s.now + n * S) = false ∧
      recvByte n s = .done .timeout
        (((s.setNow (s.now + n * S)).setRx (s.rx.noStart n)).setResult resultTimeout)) ∨
    (∃ t0, s.FirstAsserted s.now (s.now + n * S) t0 ∧ s.lossBefore (t0 + 9 * S + PH + 1) = false ∧
      recvByte n s = .done (sampledFrame s.line t0)
        (((s.setNow (t0 + 9 * S + PH + 1)).setRx
          (s.rx.frameTaken t0 (n * S - (t0 - s.now)) (sampledByte s.line t0))).setResult
            (sampledFrame s.line t0).result)) ∨
    recvByte n s = .lost s := by
  rcases idle_or_firstAsserted s (n * S) with hi | ⟨t0, hf⟩
  · cases h : s.lossBefore (s.now + n * S)
    · exact Or.inl ⟨hi, rfl, recvByte_timeout hi h⟩
    · refine Or.inr (Or.inr ?_)
      unfold recvByte
      rw [firstAsserted_of_Idle hi]
      simp only [advanceTo_lost h, Run.lost_bind]
  · cases h : s.lossBefore (t0 + 9 * S + PH + 1)
    · exact Or.inr (Or.inl ⟨t0, hf, h, recvByte_synced hf h⟩)
    · refine Or.inr (Or.inr ?_)
      unfold recvByte
      rw [firstAsserted_of_FirstAsserted hf]
      simp only [advanceTo_lost h, Run.lost_bind]

/-! ## The caller interface -/

theorem callerReady_iff {s : State} : s.callerReady = true ↔ s.env.par.assembly = .caller ∧ s.busy = false := by
  simp [State.callerReady]

/-- A request that is not accepted is ignored. -/
theorem callerOp_ignored {body : State → Run (Option Result)} {s : State} (h : s.callerReady = false) :
    callerOp body s = .next s := by
  simp [callerOp, h]

/-- An accepted operation whose body completes. -/
theorem callerOp_done {body : State → Run (Option Result)} {s t : State} {r : Result} (h : s.callerReady = true)
    (hb : body (s.setBusy true) = .done (some r) t) : callerOp body s = .next (t.complete r) := by
  simp [callerOp, h, hb]

/-- An accepted operation whose body is still running. -/
theorem callerOp_running {body : State → Run (Option Result)} {s t : State} (h : s.callerReady = true)
    (hb : body (s.setBusy true) = .done none t) : callerOp body s = .next t := by
  simp [callerOp, h, hb]

/-- Everything an operation of the caller interface can do. -/
theorem callerOp_spec (body : State → Run (Option Result)) (s : State) :
    (s.callerReady = false ∧ callerOp body s = .next s) ∨
    (s.callerReady = true ∧
      ((∃ r t, body (s.setBusy true) = .done (some r) t ∧ callerOp body s = .next (t.complete r)) ∨
        (∃ t, body (s.setBusy true) = .done none t ∧ callerOp body s = .next t) ∨
        (∃ t, body (s.setBusy true) = .lost t ∧ callerOp body s = .next t.takeReset) ∨
        ∃ e, body (s.setBusy true) = .fault e ∧ callerOp body s = .fault e)) := by
  cases h : s.callerReady
  · exact Or.inl ⟨rfl, callerOp_ignored h⟩
  · refine Or.inr ⟨rfl, ?_⟩
    rcases hb : body (s.setBusy true) with ⟨_ | r, t⟩ | t | e
    · exact Or.inr (Or.inl ⟨t, rfl, callerOp_running h hb⟩)
    · exact Or.inl ⟨r, t, rfl, callerOp_done h hb⟩
    · exact Or.inr (Or.inr (Or.inl ⟨t, rfl, by simp [callerOp, h, hb]⟩))
    · exact Or.inr (Or.inr (Or.inr ⟨e, rfl, by simp [callerOp, h, hb]⟩))

@[simp] theorem Run.withResult_done {α : Type} (a : α) (s : State) (f : α → Result) :
    (Run.done a s).withResult f = .done (some (f a)) s := rfl
@[simp] theorem Run.withResult_lost {α : Type} (s : State) (f : α → Result) :
    (Run.lost s : Run α).withResult f = .lost s := rfl
@[simp] theorem Run.withResult_fault {α : Type} (e : Fault) (f : α → Result) :
    (Run.fault e : Run α).withResult f = .fault e := rfl

/-- Everything an operation the Command Processor or the transmitter runs can do. -/
theorem whileServing_spec (body : State → Run Unit) (s : State) :
    (s.serving = false ∧ whileServing body s = .next s) ∨
      (s.serving = true ∧ whileServing body s = (body s).outcome) := by
  cases h : s.serving <;> simp [whileServing, h]

/-- An operation while the block serves. -/
theorem whileServing_on {body : State → Run Unit} {s : State} (h : s.serving = true) :
    whileServing body s = (body s).outcome := by
  simp [whileServing, h]

/-- An operation while the block does not serve. -/
theorem whileServing_off {body : State → Run Unit} {s : State} (h : s.serving = false) :
    whileServing body s = .next s := by
  simp [whileServing, h]

/-- A request with the right checksum. -/
theorem withChecksum_ok {req : List Byte} {ck : Byte} {body : State → Run Unit} {s : State} (h : ck = hashBytes req) :
    withChecksum req ck body s = body (s.setH ck) := by
  subst h; simp [withChecksum, State.runHash]

/-- A request with a wrong checksum. -/
theorem withChecksum_bad {req : List Byte} {ck : Byte} {body : State → Run Unit} {s : State} (h : ck ≠ hashBytes req) :
    withChecksum req ck body s = .done () (s.setH (hashBytes req)) := by
  simp [withChecksum, State.runHash, h]

/-! ## Flash primitives -/

/-- Everything a flash step can do. -/
theorem flashStep_spec (phase : FsPhase) (pa dur : Nat) (effect : State → State) (s : State) :
    (s.pageExists pa = false ∧ flashStep phase pa dur effect s = .fault (.noProgramMemory pa)) ∨
    (s.pageExists pa = true ∧
      ((s.flashCut phase dur = .completes ∧
          flashStep phase pa dur effect s =
            .done () (((effect s).setNow (s.now + dur)).setFs (s.fs.setPhase phase))) ∨
        (s.flashCut phase dur = .untouched ∧ flashStep phase pa dur effect s = .lost s) ∨
        (s.flashCut phase dur = .scrambled ∧ flashStep phase pa dur effect s = .lost (s.scramblePage pa)))) := by
  unfold flashStep
  cases s.pageExists pa
  · simp
  · cases h : s.flashCut phase dur <;> simp

/-- A step during which the power lasts completes. -/
theorem flashCut_completes {s : State} {phase : FsPhase} {dur : Nat} (h : s.env.power = []) :
    s.flashCut phase dur = .completes := by
  simp [State.flashCut, h]

/-- The page of an address in the user region exists, whatever the size of program memory (00_scope.md R13). -/
theorem userPage_exists {s : State} {pa : Nat} (h : pa + pageSize ≤ userLimit) : s.pageExists pa = true := by
  have := s.env.par.admissible.2.1
  simp only [State.pageExists, decide_eq_true_eq]
  omega

/-- Masking to the page boundary clears the low 7 bits (20_memory.md R63). -/
theorem pageBase_eq_shift (addr : Addr) : pageBase addr = (addr >>> 7) <<< 7 := by
  ext i hi
  simp only [pageBase, pageSize, BitVec.getElem_and, BitVec.getElem_not, BitVec.getElem_shiftLeft]
  interval_cases i <;> simp

/-- The page of an address. -/
theorem pageBase_toNat (addr : Addr) : (pageBase addr).toNat = addr.toNat - addr.toNat % 128 := by
  have := addr.isLt
  rw [pageBase_eq_shift]
  simp only [BitVec.toNat_shiftLeft, BitVec.toNat_ushiftRight, Nat.shiftRight_eq_div_pow, Nat.shiftLeft_eq]
  omega

/-- A page base is its own base. -/
@[simp] theorem pageBase_pageBase (addr : Addr) : pageBase (pageBase addr) = pageBase addr := by
  apply BitVec.eq_of_toNat_eq
  rw [pageBase_toNat, pageBase_toNat]
  omega

/-- The page of an address in the user region lies inside the user region (44_flash_sequencer.md R212). -/
theorem userPage_inside {addr : Addr} (h : inUserRegion addr = true) : (pageBase addr).toNat + pageSize ≤ userLimit := by
  have hlt : addr.toNat < userLimit := by simpa [inUserRegion] using h
  rw [pageBase_toNat]
  simp only [pageSize, userLimit] at *
  omega

/-- Alignment, as a remainder. -/
theorem pageAligned_iff (addr : Addr) : pageAligned addr = true ↔ addr.toNat % 128 = 0 := by
  have h : addr &&& BitVec.ofNat 16 (pageSize - 1) = addr - pageBase addr := by
    apply BitVec.eq_of_toNat_eq
    rw [BitVec.toNat_sub, pageBase_toNat, BitVec.toNat_and]
    have h1 : addr.toNat &&& (BitVec.ofNat 16 (pageSize - 1)).toNat = addr.toNat % 128 := Nat.and_two_pow_sub_one_eq_mod _ 7
    have := addr.isLt
    omega
  have h2 : pageAligned addr = true ↔ addr - pageBase addr = 0#16 := by
    unfold pageAligned; rw [h]; exact beq_iff_eq
  rw [h2, ← BitVec.toNat_inj, BitVec.toNat_sub, pageBase_toNat]
  have := addr.isLt
  simp only [BitVec.toNat_ofNat]
  omega

/-- The check of a fill (20_memory.md R64, R72). -/
theorem fillAccepts_iff (size : Nat) (addr : Addr) :
    fillAccepts size addr = true ↔ addr.toNat % 128 = 0 ∧ addr.toNat + 128 ≤ size := by
  simp [fillAccepts, pageAligned_iff]

end Sys2Proof.Machine
end

