-- ==== Sys2Proof/Laws/Exec.lean ====
section
/-! SUPPORT. What each arm of `exec` calls. -/
namespace Sys2Proof.Machine

section
variable (s : State)

theorem exec_rdbuf (idx ck : Byte) : exec (.rdbuf idx ck) s = whileServing (runRdbuf idx ck) s := rfl
theorem exec_wrbuf (idx val ck : Byte) : exec (.wrbuf idx val ck) s = whileServing (runWrbuf idx val ck) s := rfl
theorem exec_pwrstat (ck : Byte) : exec (.pwrstat ck) s = whileServing (runPwrstat ck) s := rfl
theorem exec_hashbuf (ck : Byte) : exec (.hashbuf ck) s = whileServing (runHashbuf ck) s := rfl
theorem exec_fill (addr : Addr) (ck : Byte) : exec (.fill addr ck) s = whileServing (runFill addr ck) s := rfl
theorem exec_commit (addr : Addr) (ck : Byte) : exec (.commit addr ck) s = whileServing (runCommit addr ck) s := rfl
theorem exec_reserved0607 (op : Byte) : exec (.reserved0607 op) s = whileServing dropReserved s := rfl
theorem exec_reserved080F (op : Byte) : exec (.reserved080F op) s = whileServing dropReserved s := rfl
theorem exec_reserved101F (op : Byte) : exec (.reserved101F op) s = whileServing dropReserved s := rfl
theorem exec_reserved203F (op : Byte) : exec (.reserved203F op) s = whileServing dropReserved s := rfl
theorem exec_reserved407F (op : Byte) : exec (.reserved407F op) s = whileServing dropReserved s := rfl
theorem exec_reserved80FF (op : Byte) : exec (.reserved80FF op) s = whileServing dropReserved s := rfl
theorem exec_byteFrame (v : Byte) : exec (.byteFrame v) s = whileServing (sendByte v) s := rfl
theorem exec_symStop : exec .symStop s = whileServing (sendSymbol stopCode) s := rfl
theorem exec_symD0 : exec .symD0 s = whileServing (sendSymbol d0Code) s := rfl
theorem exec_symD1 : exec .symD1 s = whileServing (sendSymbol d1Code) s := rfl
theorem exec_symStart : exec .symStart s = whileServing (sendSymbol startCode) s := rfl
theorem exec_packet (bs : List Byte) : exec (.packet bs) s = whileServing (sendPacket bs) s := rfl
theorem exec_nop : exec .nop s = callerOp (fun s' => .done (some 0#16) s') s := rfl
theorem exec_opselReserved (code : BitVec 4) :
    exec (.opselReserved code) s = callerOp (fun s' => .done (some 0#16) s') s := rfl
theorem exec_sendByte (v : Byte) :
    exec (.sendByte v) s = callerOp (fun s' => (sendByte v s').withResult fun _ => 0#16) s := rfl
theorem exec_recvByte (timeout : BitVec 16) :
    exec (.recvByte timeout) s = callerOp (fun s' => (recvByte timeout.toNat s').withResult RxByte.result) s := rfl
theorem exec_sendSym (code : BitVec 2) :
    exec (.sendSym code) s = callerOp (fun s' => (sendSymbol code s').withResult fun _ => 0#16) s := rfl
theorem exec_sendPacket (len : Byte) :
    exec (.sendPacket len) s =
      callerOp (fun s' => (sendPacket (packetInput len s'.xb) s').withResult fun _ => 0#16) s := rfl
theorem exec_recvPacket (maxSize : Byte) : exec (.recvPacket maxSize) s = callerOp (recvPacket maxSize) s := rfl
theorem exec_hash (src : HashSource) (len : Byte) :
    exec (.hash src len) s =
      callerOp (fun s' =>
        .done (some (resultOfByte (hashBytes (hashInput src len s'.pb s'.xb))))
          (s'.runHash (hashInput src len s'.pb s'.xb))) s := rfl
theorem exec_cmdStep : exec .cmdStep s = callerOp (fun s' => (cmdStep s').withResult fun _ => 0#16) s := rfl
theorem exec_fillPage (addr : Addr) :
    exec (.fillPage addr) s = callerOp (fun s' => (fillPage addr s').withResult resultOfPage) s := rfl
theorem exec_commitPage (addr : Addr) :
    exec (.commitPage addr) s = callerOp (fun s' => (commitPage addr s').withResult resultOfPage) s := rfl
theorem exec_erasePage (addr : Addr) :
    exec (.erasePage addr) s = callerOp (fun s' => (erasePage addr s').withResult fun _ => 0#16) s := rfl
theorem exec_writePage (addr : Addr) :
    exec (.writePage addr) s = callerOp (fun s' => (writePage addr s').withResult fun _ => 0#16) s := rfl
end

end Sys2Proof.Machine
end

