-- ==== Sys2Proof/Laws/Command.lean ====
section
/-! SUPPORT. The reception of a request, byte by byte. -/
namespace Sys2Proof.Machine

open Sys2Proof.Config

/-- Without a reset to come no power is lost. -/
theorem lossBefore_of_power {s : State} (h : s.env.power = []) (c : Nat) : s.lossBefore c = false := by
  simp [State.lossBefore, h]

/-- `T_OPERAND` is at least 1 (00_scope.md R13). -/
theorem one_le_tOperand (s : State) : 1 ≤ s.env.par.tOperand := s.env.par.admissible.2.2.2.2.2

/-! ## What receiving changes -/

theorem OnlyListened.refl (s : State) : OnlyListened s s := rfl

theorem OnlyListened.trans {s t u : State} (h : OnlyListened s t) (h' : OnlyListened t u) : OnlyListened s u := by
  unfold OnlyListened at *
  rw [h] at h'
  exact h'

theorem OnlyListened.setCp (x : CpRegs) (s : State) : OnlyListened s (s.setCp x) := rfl

section
variable {s u : State} (h : OnlyListened s u)
include h

theorem OnlyListened.env : u.env = s.env := by rw [h]
theorem OnlyListened.devOut : u.devOut = s.devOut := by rw [h]
theorem OnlyListened.mode : u.mode = s.mode := by rw [h]
theorem OnlyListened.busy : u.busy = s.busy := by rw [h]
theorem OnlyListened.tx : u.tx = s.tx := by rw [h]
theorem OnlyListened.flash : u.flash = s.flash := by rw [h]
theorem OnlyListened.line : u.line = s.line := line_congr h.devOut (by rw [h.env]) (by rw [h.env])
end

/-- The block after it has received the byte `v`, synchronised at `e`, with `n` units to wait. -/
def State.heard (n e : Nat) (v : Byte) (s : State) : State :=
  ((s.setNow (e + 9 * S + PH + 1)).setRx (s.rx.frameTaken e (n * S - (e - s.now)) v)).setResult (resultOfByte v)

section
variable (n e : Nat) (v : Byte) (s : State)

@[simp] theorem heard_env : (s.heard n e v).env = s.env := by simp [State.heard]
@[simp] theorem heard_now : (s.heard n e v).now = e + 9 * S + PH + 1 := by simp [State.heard]
@[simp] theorem heard_cp : (s.heard n e v).cp = s.cp := by simp [State.heard]
@[simp] theorem heard_phase : (s.heard n e v).rx.phase = .idle := by simp [State.heard, RxRegs.frameTaken]
@[simp] theorem heard_t0 : (s.heard n e v).rx.t0 = e := by simp [State.heard, RxRegs.frameTaken]

theorem heard_onlyListened : OnlyListened s (s.heard n e v) := rfl
end

/-- A frame that begins while the search runs, on a line idle before it, is received (40_byte_transport.md R139). -/
theorem recvByte_frame {n e : Nat} {v : Byte} {s : State} (hp : s.lossBefore (e + 9 * S + PH + 1) = false) (h1 : s.now ≤ e)
    (h2 : e < s.now + n * S) (hi : s.Idle s.now e) (hc : s.Carries e (frameSlots v)) :
    recvByte n s = .done (.byte v) (s.heard n e v) := by
  have hf : s.FirstAsserted s.now (s.now + n * S) e := by
    refine ⟨h1, h2, ?_, hi⟩
    have := Carries.level hc (n := 0) (τ := 0) (by simp) (by decide)
    rw [frameSlots_start] at this; simpa using this
  have hs : sampledFrame s.line e = .byte v := sampledFrame_of_Carries (d := 0) hc (by decide)
  have hb : sampledByte s.line e = v := by
    unfold sampledFrame at hs
    split at hs
    · simp at hs
    · simpa using hs
  rw [recvByte_synced hf hp, hs, hb]
  rfl

/-- After a frame the line is idle up to the next one, which then follows. -/
theorem carries_next {s u : State} {e : Nat} {v : Byte} {rest : List Byte}
    (hc : s.Carries e ((v :: rest).flatMap frameSlots)) (hl : u.line = s.line) (hn : u.now = e + 9 * S + PH + 1) :
    u.Idle u.now (e + 10 * S) ∧ u.Carries (e + 10 * S) (rest.flatMap frameSlots) := by
  rw [List.flatMap_cons] at hc
  constructor
  · intro τ h1 h2
    have := Carries.level (Carries.left hc) (n := 9) (τ := τ - (e + 9 * S)) (by simp) (by simp only [S, PH] at *; omega)
    rw [frameSlots_stop] at this
    rw [hl, ← this]; congr 1; simp only [S, PH] at *; omega
  · intro τ hτ
    have := Carries.right hc τ hτ
    rw [length_frameSlots] at this
    rw [hl, ← this]

/-- The next byte of a request sent back to back is received. -/
theorem recvByte_next {s u : State} {e : Nat} {v w : Byte} {rest : List Byte}
    (hp : u.lossBefore (e + 10 * S + 9 * S + PH + 1) = false) (hc : s.Carries e ((v :: w :: rest).flatMap frameSlots)) (hl : u.line = s.line)
    (hn : u.now = e + 9 * S + PH + 1) :
    recvByte u.env.par.tOperand u = .done (.byte w) (u.heard u.env.par.tOperand (e + 10 * S) w) := by
  obtain ⟨h1, h2⟩ := carries_next hc hl hn
  have := one_le_tOperand u
  refine recvByte_frame hp (by rw [hn]; simp only [S, PH]; omega) ?_ h1 (Carries.left (by rwa [List.flatMap_cons] at h2))
  rw [hn]; simp only [S, PH]; omega

/-- The forms of a request that decodes (30_encoding.md R101, R104). -/
theorem decodeBytes_shape {op : Byte} {rest : List Byte} {i : Instr} (h : decodeBytes (op :: rest) = .ok i) :
    (nops op = none ∧ rest = []) ∨ (nops op = some 0 ∧ ∃ ck, rest = [ck]) ∨
      (nops op = some 1 ∧ ∃ a ck, rest = [a, ck]) ∨ (nops op = some 2 ∧ ∃ a b ck, rest = [a, b, ck]) := by
  unfold decodeBytes at h
  simp only [decodeRequest] at h
  unfold nops
  generalize hn : op.toNat = n at h
  match n, rest, h with
  | 0, [], h | 0, [_], h | 0, _ :: _ :: _ :: _, h => simp at h
  | 0, [a, ck], _ => exact Or.inr (Or.inr (Or.inl ⟨rfl, a, ck, rfl⟩))
  | 1, [], h | 1, [_], h | 1, [_, _], h | 1, _ :: _ :: _ :: _ :: _, h => simp at h
  | 1, [a, b, ck], _ => exact Or.inr (Or.inr (Or.inr ⟨rfl, a, b, ck, rfl⟩))
  | 2, [], h | 2, _ :: _ :: _, h => simp at h
  | 2, [ck], _ => exact Or.inr (Or.inl ⟨rfl, ck, rfl⟩)
  | 3, [], h | 3, _ :: _ :: _, h => simp at h
  | 3, [ck], _ => exact Or.inr (Or.inl ⟨rfl, ck, rfl⟩)
  | 4, [], h | 4, [_], h | 4, [_, _], h | 4, _ :: _ :: _ :: _ :: _, h => simp at h
  | 4, [a, b, ck], _ => exact Or.inr (Or.inr (Or.inr ⟨rfl, a, b, ck, rfl⟩))
  | 5, [], h | 5, [_], h | 5, [_, _], h | 5, _ :: _ :: _ :: _ :: _, h => simp at h
  | 5, [a, b, ck], _ => exact Or.inr (Or.inr (Or.inr ⟨rfl, a, b, ck, rfl⟩))
  | n + 6, [], _ => exact Or.inl ⟨rfl, rfl⟩
  | n + 6, _ :: _, h => simp at h

end Sys2Proof.Machine
end

