-- ==== Sys2Proof/Laws/Flash.lean ====
section
/-! SUPPORT. The flash sequencer, operation by operation. -/
namespace Sys2Proof.Machine

open Sys2Proof.Config

/-! ## FILL_PAGE -/

/-- `PB` as a fill from `addr` makes it. -/
def State.pageAt (s : State) (addr : Nat) : PageBuffer := Vector.ofFn fun i => s.flash.read (addr + i)

theorem pageExists_iff {s : State} {pa : Nat} : s.pageExists pa = true ↔ pa + pageSize ≤ s.env.par.progMemSize := by
  simp [State.pageExists]

/-- Everything a fill can do. -/
theorem fillPage_spec (addr : Addr) (s : State) :
    (fillAccepts s.env.par.progMemSize addr = false ∧ fillPage addr s = .done false s) ∨
      (fillAccepts s.env.par.progMemSize addr = true ∧
        ((s.lossBefore (s.now + s.env.par.tFill) = false ∧
            fillPage addr s = .done true ((s.setPb (s.pageAt addr.toNat)).setNow (s.now + s.env.par.tFill))) ∨
          (s.lossBefore (s.now + s.env.par.tFill) = true ∧
            fillPage addr s = .lost (s.setPb (s.pageAt addr.toNat))))) := by
  cases ha : fillAccepts s.env.par.progMemSize addr
  · exact Or.inl ⟨rfl, by simp [fillPage, ha]⟩
  · refine Or.inr ⟨rfl, ?_⟩
    have hex : s.pageExists addr.toNat = true := pageExists_iff.mpr ((fillAccepts_iff _ _).mp ha).2
    have he : fillPage addr s =
        (delay s.env.par.tFill (s.setPb (s.pageAt addr.toNat))).bind fun _ s' => .done true s' := by
      simp only [fillPage, ha, if_true, loadPage, hex]
      rfl
    rw [he]
    cases hl : s.lossBefore (s.now + s.env.par.tFill)
    · exact Or.inl ⟨rfl, by
        rw [delay_ok (s := s.setPb (s.pageAt addr.toNat)) (by simpa using hl)]; simp⟩
    · exact Or.inr ⟨rfl, by
        have : delay s.env.par.tFill (s.setPb (s.pageAt addr.toNat)) = .lost (s.setPb (s.pageAt addr.toNat)) :=
          advanceTo_lost (by simpa using hl)
        rw [this]; rfl⟩

theorem fillPage_ok {addr : Addr} {s : State} (ha : fillAccepts s.env.par.progMemSize addr = true)
    (hl : s.lossBefore (s.now + s.env.par.tFill) = false) :
    fillPage addr s = .done true ((s.setPb (s.pageAt addr.toNat)).setNow (s.now + s.env.par.tFill)) := by
  rcases fillPage_spec addr s with ⟨h, -⟩ | ⟨-, ⟨-, h⟩ | ⟨h, -⟩⟩
  · simp [h] at ha
  · exact h
  · simp [h] at hl

theorem fillPage_rejected {addr : Addr} {s : State} (ha : fillAccepts s.env.par.progMemSize addr = false) :
    fillPage addr s = .done false s := by
  simp [fillPage, ha]

/-! ## Steps of a commit -/

/-- How a reset to come meets a step that lasts (44_flash_sequencer.md R218). -/
theorem flashCut_of_pos {s : State} {phase : FsPhase} {dur : Nat} {p : PowerLoss} {ps : List PowerLoss}
    (hp : s.env.power = p :: ps) (hd : 0 < dur) :
    s.flashCut phase dur =
      if p.tick ≤ s.clock then .untouched else if p.tick < s.clock + dur then .scrambled else .completes := by
  unfold State.flashCut
  rw [hp]
  have : ¬ dur = 0 := by omega
  simp only [this, if_false]
  by_cases h1 : p.tick < s.clock
  · rw [if_pos h1, if_pos (by omega)]
  · rw [if_neg h1]
    by_cases h2 : p.tick = s.clock
    · rw [if_pos h2, if_pos (by omega)]
    · rw [if_neg h2, if_neg (show ¬ p.tick ≤ s.clock by omega)]

/-- A step that ends before the next reset completes. -/
theorem flashCut_completes_of_loss {s : State} {phase : FsPhase} {dur : Nat} (hl : s.lossBefore (s.now + dur) = false)
    (hd : dur = 0 → ∀ p ∈ s.env.power.head?, p.tick ≠ s.clock ∨ zeroCut phase p.cut = .completes) :
    s.flashCut phase dur = .completes := by
  unfold State.flashCut
  unfold State.lossBefore at hl
  cases hp : s.env.power with
  | nil => rfl
  | cons p ps =>
    rw [hp] at hl hd
    simp only [decide_eq_false_iff_not] at hl
    simp only [List.head?_cons, Option.mem_def, Option.some.injEq, forall_eq'] at hd
    have hc : s.clock = s.env.epoch + s.now := rfl
    dsimp only
    rw [if_neg (by omega)]
    by_cases h0 : dur = 0
    · rw [if_pos h0]
      split
      · rcases hd h0 with h | h
        · contradiction
        · exact h
      · rfl
    · rw [if_neg h0, if_neg (by omega), if_neg (by omega)]

@[simp] theorem blankPage_read_inside {s : State} {pa i : Nat} (hi : i < pageSize) :
    (s.blankPage pa).flash.read (pa + i) = erasedByte :=
  Memory.read_writeRange_inside hi

theorem blankPage_outside (pa : Nat) (s : State) : SameFlashOutside pa s (s.blankPage pa) :=
  fun _ h => Memory.read_writeRange_outside h

theorem scramblePage_outside (pa : Nat) (s : State) : SameFlashOutside pa s (s.scramblePage pa) :=
  fun _ h => Memory.read_writeRange_outside h

theorem storePage_outside (pa : Nat) (s : State) : SameFlashOutside pa s (s.storePage pa) := by
  intro a h
  unfold State.storePage
  split
  · exact Memory.read_writeRange_outside h
  · exact scramblePage_outside pa s a h

/-- Writing an erased page stores the bytes of `TWB` (R215). -/
theorem storePage_read {s : State} {pa i : Nat} (he : s.flash.erased pa pageSize = true) (hi : i < pageSize) :
    (s.storePage pa).flash.read (pa + i) = twbByte s.twb i := by
  simp only [State.storePage, he, if_true, setFlash_flash]
  exact Memory.read_writeRange_inside hi

theorem lowByte_append (a b : Byte) : BitVec.extractLsb' 0 8 (a ++ b : FlashWord) = b := by
  apply BitVec.eq_of_getLsbD_eq
  intro j hj
  refine (BitVec.getLsbD_extractLsb' ..).trans ?_
  rw [Nat.zero_add, (BitVec.getLsbD_append : (a ++ b : BitVec (8 + 8)).getLsbD j = _)]
  simp [hj]

theorem highByte_append (a b : Byte) : BitVec.extractLsb' 8 8 (a ++ b : FlashWord) = a := by
  apply BitVec.eq_of_getLsbD_eq
  intro j hj
  refine (BitVec.getLsbD_extractLsb' ..).trans ?_
  rw [(BitVec.getLsbD_append : (a ++ b : BitVec (8 + 8)).getLsbD (8 + j) = _)]
  simp [hj]

/-- The bytes of the words of a page are the bytes of the page (20_memory.md R62). -/
theorem twbByte_wordsOfPage (pb : PageBuffer) {i : Nat} (hi : i < pageSize) :
    twbByte (wordsOfPage pb) i = pb[i] := by
  have hk : i / 2 < twbSize := by simp only [pageSize, twbSize] at *; omega
  have hw : (wordsOfPage pb).toList.getD (i / 2) 0#16 =
      pb[2 * (i / 2) + 1]'(by simp only [pageSize, twbSize] at *; omega) ++
        pb[2 * (i / 2)]'(by simp only [pageSize, twbSize] at *; omega) := by
    rw [List.getD_eq_getElem _ _ (by simpa using hk)]
    simp [wordsOfPage]
  unfold twbByte
  simp only [hw]
  by_cases hpar : i % 2 = 0
  · have : 2 * (i / 2) = i := by omega
    rw [if_pos hpar]
    simp only [this]
    exact lowByte_append _ _
  · have : 2 * (i / 2) + 1 = i := by omega
    rw [if_neg hpar]
    simp only [this]
    exact highByte_append _ _

/-! ## COMMIT_PAGE, ERASE_PAGE, WRITE_PAGE -/

/-- The block after step 1 of a commit (R213). -/
def State.twbFilled (s : State) : State :=
  ((s.setTwb (wordsOfPage s.pb)).setFs (s.fs.setPhase .fill)).setNow (s.now + s.env.par.tTwb)

/-- The block after a step that erases the page (R214). -/
def State.pageBlanked (pa : Nat) (s : State) : State :=
  ((s.blankPage pa).setNow (s.now + s.env.par.tErase)).setFs (s.fs.setPhase .erase)

/-- The block after a step that writes the page (R215). -/
def State.pageStored (pa : Nat) (s : State) : State :=
  ((s.storePage pa).setNow (s.now + s.env.par.tWrite)).setFs (s.fs.setPhase .write)

/-- Everything the first step can do. -/
theorem fillWriteBuffer_spec (s : State) :
    (s.lossBefore (s.now + s.env.par.tTwb) = false ∧ fillWriteBuffer s = .done () s.twbFilled) ∨
      (s.lossBefore (s.now + s.env.par.tTwb) = true ∧
        fillWriteBuffer s = .lost ((s.setTwb (wordsOfPage s.pb)).setFs (s.fs.setPhase .fill))) := by
  cases hl : s.lossBefore (s.now + s.env.par.tTwb)
  · exact Or.inl ⟨rfl, by
      rw [fillWriteBuffer, delay_ok (s := (s.setTwb (wordsOfPage s.pb)).setFs (s.fs.setPhase .fill)) (by simpa using hl)]
      simp [State.twbFilled]⟩
  · exact Or.inr ⟨rfl, advanceTo_lost (by simpa using hl)⟩

/-- Everything an erase in the user region can do. -/
theorem eraseStep_spec {pa : Addr} {s : State} (h : pa.toNat + pageSize ≤ userLimit) :
    (s.flashCut .erase s.env.par.tErase = .completes ∧ eraseStep pa s = .done () (s.pageBlanked pa.toNat)) ∨
      (s.flashCut .erase s.env.par.tErase = .untouched ∧ eraseStep pa s = .lost s) ∨
      (s.flashCut .erase s.env.par.tErase = .scrambled ∧ eraseStep pa s = .lost (s.scramblePage pa.toNat)) := by
  rcases flashStep_spec .erase pa.toNat s.env.par.tErase (State.blankPage pa.toNat) s with ⟨h', -⟩ | ⟨-, h'⟩
  · simp [userPage_exists h] at h'
  · exact h'

/-- Everything a write in the user region can do. -/
theorem writeStep_spec {pa : Addr} {s : State} (h : pa.toNat + pageSize ≤ userLimit) :
    (s.flashCut .write s.env.par.tWrite = .completes ∧ writeStep pa s = .done () (s.pageStored pa.toNat)) ∨
      (s.flashCut .write s.env.par.tWrite = .untouched ∧ writeStep pa s = .lost s) ∨
      (s.flashCut .write s.env.par.tWrite = .scrambled ∧ writeStep pa s = .lost (s.scramblePage pa.toNat)) := by
  rcases flashStep_spec .write pa.toNat s.env.par.tWrite (State.storePage pa.toNat) s with ⟨h', -⟩ | ⟨-, h'⟩
  · simp [userPage_exists h] at h'
  · exact h'

/-- A commit of an accepted address is its three steps. -/
theorem commitPage_accepted {addr : Addr} {s : State} (h : inUserRegion addr = true) :
    commitPage addr s =
      (fillWriteBuffer (s.setFs (s.fs.setAddr (pageBase addr)))).bind fun _ s1 =>
        (eraseStep (pageBase addr) s1).bind fun _ s2 =>
          (writeStep (pageBase addr) s2).bind fun _ s3 => .done true s3.fsIdle := by
  simp [commitPage, h]

theorem commitPage_rejected {addr : Addr} {s : State} (h : inUserRegion addr = false) :
    commitPage addr s = .done false s := by
  simp [commitPage, h]

/-- A page that has just been erased takes the bytes of `TWB`, and no free value is drawn. -/
theorem storePage_blankPage (pa : Nat) (s : State) :
    (s.blankPage pa).storePage pa = s.setFlash ((s.blankPage pa).flash.writeRange pa pageSize (twbByte s.twb)) := by
  have : (s.blankPage pa).flash.erased pa pageSize = true := Memory.erased_writeRange
  simp only [State.storePage, this, if_true]
  rfl

/-- A step completes that ends within a stretch free of resets. -/
theorem flashCut_within {s u : State} {phase : FsPhase} {dur n : Nat} (he : u.env = s.env)
    (hc : u.clock + dur ≤ s.clock + n) (hl : s.lossBefore (s.now + n + 1) = false) : u.flashCut phase dur = .completes := by
  have hcs : s.clock = s.env.epoch + s.now := rfl
  have hcu : u.clock = u.env.epoch + u.now := rfl
  rw [he] at hcu
  unfold State.lossBefore at hl
  apply flashCut_completes_of_loss
  · unfold State.lossBefore
    rw [he]
    cases hp : s.env.power with
    | nil => rfl
    | cons q qs =>
      rw [hp] at hl
      simp only [decide_eq_false_iff_not] at hl ⊢
      omega
  · intro _ p hp
    rw [he] at hp
    cases hpw : s.env.power with
    | nil => simp [hpw] at hp
    | cons q qs =>
      rw [hpw] at hl hp
      simp only [List.head?_cons, Option.mem_def, Option.some.injEq] at hp
      subst hp
      simp only [decide_eq_false_iff_not] at hl
      left; omega

section
variable (pa : Nat) (s : State)

@[simp] theorem twbFilled_env : s.twbFilled.env = s.env := by simp [State.twbFilled]
@[simp] theorem twbFilled_now : s.twbFilled.now = s.now + s.env.par.tTwb := by simp [State.twbFilled]
@[simp] theorem twbFilled_flash : s.twbFilled.flash = s.flash := by simp [State.twbFilled]
@[simp] theorem twbFilled_draws : s.twbFilled.draws = s.draws := by simp [State.twbFilled]
@[simp] theorem twbFilled_twb : s.twbFilled.twb = wordsOfPage s.pb := by simp [State.twbFilled]
@[simp] theorem twbFilled_fs : s.twbFilled.fs = s.fs.setPhase .fill := by simp [State.twbFilled]
@[simp] theorem twbFilled_clock : s.twbFilled.clock = s.clock + s.env.par.tTwb := by
  simp [State.clock, Nat.add_assoc]
@[simp] theorem pageBlanked_env : (s.pageBlanked pa).env = s.env := by simp [State.pageBlanked]
@[simp] theorem pageBlanked_now : (s.pageBlanked pa).now = s.now + s.env.par.tErase := by simp [State.pageBlanked]
@[simp] theorem pageBlanked_flash : (s.pageBlanked pa).flash = (s.blankPage pa).flash := by simp [State.pageBlanked]
@[simp] theorem pageBlanked_draws : (s.pageBlanked pa).draws = s.draws := by simp [State.pageBlanked]
@[simp] theorem pageBlanked_twb : (s.pageBlanked pa).twb = s.twb := by simp [State.pageBlanked]
@[simp] theorem pageBlanked_fs : (s.pageBlanked pa).fs = s.fs.setPhase .erase := by simp [State.pageBlanked]
@[simp] theorem pageBlanked_clock : (s.pageBlanked pa).clock = s.clock + s.env.par.tErase := by
  simp [State.clock, Nat.add_assoc]
@[simp] theorem pageStored_env : (s.pageStored pa).env = s.env := by simp [State.pageStored]
@[simp] theorem pageStored_now : (s.pageStored pa).now = s.now + s.env.par.tWrite := by simp [State.pageStored]
@[simp] theorem pageStored_flash : (s.pageStored pa).flash = (s.storePage pa).flash := by simp [State.pageStored]
@[simp] theorem pageStored_draws : (s.pageStored pa).draws = (s.storePage pa).draws := by simp [State.pageStored]
@[simp] theorem pageStored_fs : (s.pageStored pa).fs = s.fs.setPhase .write := by simp [State.pageStored]
end

/-- The block after a whole commit of the page at `pa` (44_flash_sequencer.md R216). -/
def State.afterCommit (pa : Addr) (s : State) : State :=
  { s with
    now := s.now + s.commitTicks
    flash := (s.blankPage pa.toNat).flash.writeRange pa.toNat pageSize (twbByte (wordsOfPage s.pb))
    twb := wordsOfPage s.pb
    fs := ⟨.idle, pa⟩ }

/-- The steps of a commit come to the whole. -/
theorem steps_afterCommit (pa : Addr) (s : State) :
    ((((s.setFs (s.fs.setAddr pa)).twbFilled.pageBlanked pa.toNat).pageStored pa.toNat)).fsIdle = s.afterCommit pa := by
  have he : ((s.setFs (s.fs.setAddr pa)).twbFilled.pageBlanked pa.toNat).flash.erased pa.toNat pageSize = true := by
    rw [pageBlanked_flash]
    exact Memory.erased_writeRange
  simp only [State.pageStored, State.storePage, he, if_true, pageBlanked_twb, twbFilled_twb, setFs_pb]
  simp only [State.fsIdle, State.setFs, State.setNow, State.setFlash, State.pageBlanked, State.twbFilled,
    State.blankPage, State.setTwb, State.afterCommit, State.commitTicks, FsRegs.setPhase, FsRegs.setAddr, Nat.add_assoc]

/-- A commit with the power on. -/
theorem commitPage_ok {addr : Addr} {s : State} (h : inUserRegion addr = true)
    (hl : s.lossBefore (s.now + s.commitTicks + 1) = false) :
    commitPage addr s = .done true (s.afterCommit (pageBase addr)) := by
  have hu := userPage_inside h
  have hct : s.commitTicks = s.env.par.tTwb + s.env.par.tErase + s.env.par.tWrite := rfl
  rw [commitPage_accepted h, ← steps_afterCommit]
  rcases fillWriteBuffer_spec (s.setFs (s.fs.setAddr (pageBase addr))) with ⟨-, e⟩ | ⟨h', -⟩
  · rw [e, Run.done_bind]
    rcases eraseStep_spec (pa := pageBase addr) (s := (s.setFs (s.fs.setAddr (pageBase addr))).twbFilled) hu with
      ⟨-, e2⟩ | ⟨h2, -⟩ | ⟨h2, -⟩
    · rw [e2, Run.done_bind]
      rcases writeStep_spec (pa := pageBase addr)
          (s := (s.setFs (s.fs.setAddr (pageBase addr))).twbFilled.pageBlanked (pageBase addr).toNat) hu with
        ⟨-, e3⟩ | ⟨h2, -⟩ | ⟨h2, -⟩
      · rw [e3, Run.done_bind]
      all_goals
        rw [flashCut_within (s := s) (n := s.commitTicks) (by simp) (by simp; omega) hl] at h2
        simp at h2
    all_goals
      rw [flashCut_within (s := s) (n := s.commitTicks) (by simp) (by simp; omega) hl] at h2
      simp at h2
  · have : s.lossBefore (s.now + s.env.par.tTwb) = false := lossBefore_mono (by omega) hl
    simp [this] at h'

/-- What a whole commit does. -/
theorem afterCommit_committed (pa : Addr) (s : State) : Committed pa s (s.afterCommit pa) := by
  refine ⟨rfl, fun i => ?_, fun a ha => ?_⟩
  · exact (Memory.read_writeRange_inside i.isLt).trans (twbByte_wordsOfPage _ i.isLt)
  · exact (Memory.read_writeRange_outside ha).trans (blankPage_outside _ s a ha)

/-- An erase with the power on. -/
theorem erasePage_ok {addr : Addr} {s : State} (h : inUserRegion addr = true)
    (hl : s.lossBefore (s.now + s.env.par.tErase + 1) = false) :
    erasePage addr s = .done () (s.pageBlanked (pageBase addr).toNat).fsIdle := by
  simp only [erasePage, h, if_true]
  rcases eraseStep_spec (pa := pageBase addr) (s := s) (userPage_inside h) with ⟨-, e2⟩ | ⟨h2, -⟩ | ⟨h2, -⟩
  · rw [e2, Run.done_bind]
  all_goals
    rw [flashCut_within (s := s) (n := s.env.par.tErase) rfl (Nat.le_refl _) hl] at h2
    simp at h2

/-- A write with the power on. -/
theorem writePage_ok {addr : Addr} {s : State} (h : inUserRegion addr = true)
    (hl : s.lossBefore (s.now + s.env.par.tWrite + 1) = false) :
    writePage addr s = .done () (s.pageStored (pageBase addr).toNat).fsIdle := by
  simp only [writePage, h, if_true]
  rcases writeStep_spec (pa := pageBase addr) (s := s) (userPage_inside h) with ⟨-, e2⟩ | ⟨h2, -⟩ | ⟨h2, -⟩
  · rw [e2, Run.done_bind]
  all_goals
    rw [flashCut_within (s := s) (n := s.env.par.tWrite) rfl (Nat.le_refl _) hl] at h2
    simp at h2

theorem erasePage_rejected {addr : Addr} {s : State} (h : inUserRegion addr = false) : erasePage addr s = .done () s := by
  simp [erasePage, h]

theorem writePage_rejected {addr : Addr} {s : State} (h : inUserRegion addr = false) : writePage addr s = .done () s := by
  simp [writePage, h]

end Sys2Proof.Machine
end

