-- ==== Sys2Proof/Laws/Packet.lean ====
section
/-! SUPPORT. The reception of a packet, symbol by symbol. -/
namespace Sys2Proof.Machine

open Sys2Proof.Config

/-- Everything the reception of one symbol can do. -/
theorem recvSymbol_spec (s : State) :
    (s.lossBefore (s.now + s.rx.wait + S + 1) = true ∧ recvSymbol s = .lost s) ∨
    (s.lossBefore (s.now + s.rx.wait + S + 1) = false ∧
      ((s.line (s.now + s.rx.wait) = false ∧ s.line (s.now + s.rx.wait + S) = false ∧
          recvSymbol s = .done (some (resultOfCount s.rx.count (s.env.epoch + (s.now + s.rx.wait + S + 1))))
            ((s.setNow (s.now + s.rx.wait + S + 1)).setRx (s.rx.packetEnded false))) ∨
        (s.line (s.now + s.rx.wait) = true ∧ s.line (s.now + s.rx.wait + S) = true ∧
          recvSymbol s = .done (some resultFraming)
            ((s.setNow (s.now + s.rx.wait + S + 1)).setRx (s.rx.packetEnded true))) ∨
        (s.line (s.now + s.rx.wait) ≠ s.line (s.now + s.rx.wait + S) ∧
          recvSymbol s = .done none
            (takeDataBit (s.line (s.now + s.rx.wait)) (s.setNow (s.now + s.rx.wait + S + 1)))))) := by
  unfold recvSymbol
  rcases advanceTo_spec (s.now + s.rx.wait + S + 1) s with ⟨hl, e⟩ | ⟨hl, e⟩
  · exact Or.inl ⟨hl, by simp only [e, Run.lost_bind]⟩
  · refine Or.inr ⟨hl, ?_⟩
    simp only [e, Run.done_bind]
    unfold State.clock
    cases ha : s.line (s.now + s.rx.wait) <;> cases hb : s.line (s.now + s.rx.wait + S) <;> simp

/-! ## Data bits -/

section
variable (a : Bool) (s : State)

@[simp] theorem takeDataBit_phase : (takeDataBit a s).rx.phase = .h1 := by
  unfold takeDataBit; split <;> rfl

@[simp] theorem takeDataBit_wait : (takeDataBit a s).rx.wait = S - 1 := by
  unfold takeDataBit; split <;> rfl

@[simp] theorem takeDataBit_max : (takeDataBit a s).rx.max = s.rx.max := by
  unfold takeDataBit; split <;> rfl

theorem takeDataBit_count : (takeDataBit a s).rx.count = if s.rx.k + 1 = 8 then s.rx.count + 1 else s.rx.count := by
  unfold takeDataBit; split <;> rfl

theorem takeDataBit_k : (takeDataBit a s).rx.k = if s.rx.k + 1 = 8 then 0 else s.rx.k + 1 := by
  unfold takeDataBit; split <;> rfl

theorem takeDataBit_sr : (takeDataBit a s).rx.sr = if s.rx.k + 1 = 8 then 0#8 else shiftIn s.rx.sr a := by
  unfold takeDataBit; split <;> rfl

theorem takeDataBit_xb :
    (takeDataBit a s).xb =
      if s.rx.k + 1 = 8 ∧ s.rx.count < s.rx.max.toNat then s.xb.setIfInBounds s.rx.count (shiftIn s.rx.sr a)
      else s.xb := by
  unfold takeDataBit State.storeByte
  by_cases h1 : s.rx.k + 1 = 8
  · by_cases h2 : s.rx.count < s.rx.max.toNat
    · rw [if_pos h1, if_pos h2, if_pos ⟨h1, h2⟩]; simp
    · rw [if_pos h1, if_neg h2, if_neg (fun h => h2 h.2)]; simp
  · rw [if_neg h1, if_neg (fun h => h1 h.1)]; simp

/-- Only `XB` and the receive engine change. -/
theorem takeDataBit_eq : takeDataBit a s = { s with xb := (takeDataBit a s).xb, rx := (takeDataBit a s).rx } := by
  unfold takeDataBit State.storeByte
  split
  · split <;> rfl
  · rfl
end

/-! ## A packet -/

/-- The block `m` data symbols after the synchronisation at `t0`, `base` being the block right after it and `f j` the bit of
symbol `j`. -/
def afterSymbols (f : Nat → Bool) (t0 : Nat) (base : State) : Nat → State
  | 0 => base
  | m + 1 => takeDataBit (f (m + 1)) ((afterSymbols f t0 base m).setNow (t0 + 2 * S * (m + 1) + S + PH + 1))

/-- The bits of the byte in progress after `m` data symbols. -/
def partialByte (f : Nat → Bool) (m : Nat) : Byte :=
  byteOfBits ((List.range (m % 8)).map fun i => f (8 * (m / 8) + i + 1))

/-- The byte made of symbols `8*i + 1` to `8*i + 8`. -/
def wholeByte (f : Nat → Bool) (i : Nat) : Byte :=
  byteOfBits ((List.range 8).map fun m => f (8 * i + m + 1))

/-- Right after a synchronisation at `t0`. -/
structure Synced (t0 : Nat) (s : State) : Prop where
  now : s.now = t0 + 1
  wait : s.rx.wait = 2 * S + PH - 1
  phase : s.rx.phase = .h1
  k : s.rx.k = 0
  sr : s.rx.sr = 0#8
  count : s.rx.count = 0

section
variable {f : Nat → Bool} {t0 : Nat} {base : State}

/-- Only time, `XB` and the receive engine change. -/
theorem afterSymbols_eq (m : Nat) :
    afterSymbols f t0 base m = { base with
      now := (afterSymbols f t0 base m).now
      xb := (afterSymbols f t0 base m).xb
      rx := (afterSymbols f t0 base m).rx } := by
  induction m with
  | zero => rfl
  | succ m ih =>
    rw [afterSymbols, takeDataBit_eq]
    generalize takeDataBit (f (m + 1)) ((afterSymbols f t0 base m).setNow (t0 + 2 * S * (m + 1) + S + PH + 1)) = u
    rw [ih]
    rfl

theorem afterSymbols_now_succ (m : Nat) :
    (afterSymbols f t0 base (m + 1)).now = t0 + 2 * S * (m + 1) + S + PH + 1 := by
  rw [afterSymbols, takeDataBit_eq]; rfl

@[simp] theorem afterSymbols_env (m : Nat) : (afterSymbols f t0 base m).env = base.env := by rw [afterSymbols_eq]
@[simp] theorem afterSymbols_devOut (m : Nat) : (afterSymbols f t0 base m).devOut = base.devOut := by rw [afterSymbols_eq]
@[simp] theorem afterSymbols_draws (m : Nat) : (afterSymbols f t0 base m).draws = base.draws := by rw [afterSymbols_eq]
@[simp] theorem afterSymbols_line (m : Nat) : (afterSymbols f t0 base m).line = base.line :=
  line_congr (by simp) (by simp) (by simp)
@[simp] theorem afterSymbols_lossBefore (m c : Nat) : (afterSymbols f t0 base m).lossBefore c = base.lossBefore c :=
  lossBefore_eq_of_power (by simp) (by simp) c

theorem afterSymbols_max (m : Nat) : (afterSymbols f t0 base m).rx.max = base.rx.max := by
  induction m with
  | zero => rfl
  | succ m ih => rw [afterSymbols, takeDataBit_max, setNow_rx, ih]

theorem afterSymbols_phase (h : Synced t0 base) (m : Nat) : (afterSymbols f t0 base m).rx.phase = .h1 := by
  cases m with
  | zero => exact h.phase
  | succ m => exact takeDataBit_phase ..

/-- The next symbol is sampled where 41_symbol_transport.md R157 says. -/
theorem afterSymbols_sample (h : Synced t0 base) (m : Nat) :
    (afterSymbols f t0 base m).now + (afterSymbols f t0 base m).rx.wait = t0 + 2 * S * (m + 1) + PH := by
  cases m with
  | zero => simp only [afterSymbols, h.now, h.wait, S, PH]
  | succ m =>
    rw [afterSymbols_now_succ, afterSymbols, takeDataBit_wait]
    simp only [S, PH]; omega

theorem afterSymbols_k (h : Synced t0 base) (m : Nat) : (afterSymbols f t0 base m).rx.k = m % 8 := by
  induction m with
  | zero => exact h.k
  | succ m ih =>
    rw [afterSymbols, takeDataBit_k, setNow_rx, ih]
    split <;> omega

theorem afterSymbols_count (h : Synced t0 base) (m : Nat) : (afterSymbols f t0 base m).rx.count = m / 8 := by
  induction m with
  | zero => exact h.count
  | succ m ih =>
    rw [afterSymbols, takeDataBit_count, setNow_rx, ih, afterSymbols_k h]
    split <;> omega

theorem partialByte_succ (m : Nat) :
    partialByte f (m + 1) = if m % 8 + 1 = 8 then 0#8 else shiftIn (partialByte f m) (f (m + 1)) := by
  by_cases h : m % 8 + 1 = 8
  · rw [if_pos h, partialByte, show (m + 1) % 8 = 0 by omega]; rfl
  · rw [if_neg h, partialByte, partialByte, show (m + 1) % 8 = m % 8 + 1 by omega, show (m + 1) / 8 = m / 8 by omega,
      List.range_succ, List.map_append, byteOfBits, byteOfBits, List.foldl_append]
    simp only [List.map_cons, List.map_nil, List.foldl_cons, List.foldl_nil]
    rw [show 8 * (m / 8) + m % 8 + 1 = m + 1 by omega]

theorem wholeByte_eq {m : Nat} (h : m % 8 + 1 = 8) : wholeByte f (m / 8) = shiftIn (partialByte f m) (f (m + 1)) := by
  rw [wholeByte, partialByte, show m % 8 = 7 by omega, show (8 : Nat) = 7 + 1 from rfl, List.range_succ, List.map_append,
    byteOfBits, byteOfBits, List.foldl_append]
  simp only [List.map_cons, List.map_nil, List.foldl_cons, List.foldl_nil]
  rw [show (7 + 1) * (m / (7 + 1)) + 7 + 1 = m + 1 by omega]

theorem afterSymbols_sr (h : Synced t0 base) (m : Nat) : (afterSymbols f t0 base m).rx.sr = partialByte f m := by
  induction m with
  | zero => exact h.sr
  | succ m ih => rw [afterSymbols, takeDataBit_sr, setNow_rx, ih, afterSymbols_k h, partialByte_succ]

/-- The bytes stored after `m` data symbols (R158). -/
theorem afterSymbols_xb (h : Synced t0 base) (m : Nat) (i : Fin xbSize) :
    (afterSymbols f t0 base m).xb[i] = if i.val < min (m / 8) base.rx.max.toNat then wholeByte f i else base.xb[i] := by
  induction m with
  | zero => simp [afterSymbols]
  | succ m ih =>
    have hx : (afterSymbols f t0 base (m + 1)).xb =
        if m % 8 + 1 = 8 ∧ m / 8 < base.rx.max.toNat then
          (afterSymbols f t0 base m).xb.setIfInBounds (m / 8) (shiftIn (partialByte f m) (f (m + 1)))
        else (afterSymbols f t0 base m).xb := by
      rw [afterSymbols, takeDataBit_xb, setNow_rx, setNow_xb, afterSymbols_k h, afterSymbols_count h, afterSymbols_max,
        afterSymbols_sr h]
    by_cases hc : m % 8 + 1 = 8 ∧ m / 8 < base.rx.max.toNat
    · rw [if_pos hc] at hx
      rw [hx]
      by_cases hi : i.val = m / 8
      · have hlt : i.val < min ((m + 1) / 8) base.rx.max.toNat := by omega
        have hw : wholeByte f i.val = shiftIn (partialByte f m) (f (m + 1)) := hi ▸ wholeByte_eq hc.1
        rw [if_pos hlt, hw]
        simp [Fin.getElem_fin, hi]
      · have hset : ((afterSymbols f t0 base m).xb.setIfInBounds (m / 8) (shiftIn (partialByte f m) (f (m + 1))))[i] =
            (afterSymbols f t0 base m).xb[i] := by
          simp only [Fin.getElem_fin]
          rw [Vector.getElem_setIfInBounds_ne]
          omega
        rw [hset, ih]
        have : (i.val < min (m / 8) base.rx.max.toNat) ↔ (i.val < min ((m + 1) / 8) base.rx.max.toNat) := by omega
        simp only [this]
    · rw [if_neg hc] at hx
      rw [hx, ih]
      have : (i.val < min (m / 8) base.rx.max.toNat) ↔ (i.val < min ((m + 1) / 8) base.rx.max.toNat) := by omega
      simp only [this]

/-- A data symbol of a packet. -/
theorem recvSymbol_data (h : Synced t0 base) (hf : ∀ j, f j = (base.pairAt t0 j).1) {m : Nat}
    (hd : isData (base.pairAt t0 (m + 1)) = true)
    (hl : base.lossBefore (t0 + 2 * S * (m + 1) + S + PH + 1) = false) :
    recvSymbol (afterSymbols f t0 base m) = .done none (afterSymbols f t0 base (m + 1)) := by
  have hs := afterSymbols_sample (f := f) h m
  have he : t0 + 2 * S * (m + 1) + PH + S + 1 = t0 + 2 * S * (m + 1) + S + PH + 1 := by omega
  have hb : t0 + 2 * S * (m + 1) + PH + S = t0 + 2 * S * (m + 1) + S + PH := by omega
  have hne : (base.pairAt t0 (m + 1)).1 ≠ (base.pairAt t0 (m + 1)).2 := by simpa [isData] using hd
  rcases recvSymbol_spec (afterSymbols f t0 base m) with ⟨hl', -⟩ | ⟨-, ⟨h1, h2, -⟩ | ⟨h1, h2, -⟩ | ⟨-, e⟩⟩
  · rw [hs, he, afterSymbols_lossBefore, hl] at hl'; simp at hl'
  · rw [hs, afterSymbols_line] at h1 h2; rw [hb] at h2
    exact absurd (h1.trans h2.symm) hne
  · rw [hs, afterSymbols_line] at h1 h2; rw [hb] at h2
    exact absurd (h1.trans h2.symm) hne
  · rw [e, hs, he, afterSymbols_line, afterSymbols, hf (m + 1)]
    rfl

/-- The symbol that ends a packet. -/
theorem recvSymbol_end (h : Synced t0 base) {m : Nat} (hd : isData (base.pairAt t0 (m + 1)) = false)
    (hl : base.lossBefore (t0 + 2 * S * (m + 1) + S + PH + 1) = false) :
    recvSymbol (afterSymbols f t0 base m) =
      .done (some (if (base.pairAt t0 (m + 1)).1 then resultFraming else resultOfCount (m / 8) (base.env.epoch + (t0 + 2 * S * (m + 1) + S + PH + 1))))
        (((afterSymbols f t0 base m).setNow (t0 + 2 * S * (m + 1) + S + PH + 1)).setRx
          ((afterSymbols f t0 base m).rx.packetEnded (base.pairAt t0 (m + 1)).1)) := by
  have hs := afterSymbols_sample (f := f) h m
  have he : t0 + 2 * S * (m + 1) + PH + S + 1 = t0 + 2 * S * (m + 1) + S + PH + 1 := by omega
  have hb : t0 + 2 * S * (m + 1) + PH + S = t0 + 2 * S * (m + 1) + S + PH := by omega
  have heq : (base.pairAt t0 (m + 1)).1 = (base.pairAt t0 (m + 1)).2 := by simpa [isData] using hd
  rcases recvSymbol_spec (afterSymbols f t0 base m) with ⟨hl', -⟩ | ⟨-, ⟨h1, h2, e⟩ | ⟨h1, h2, e⟩ | ⟨hne, -⟩⟩
  · rw [hs, he, afterSymbols_lossBefore, hl] at hl'; simp at hl'
  · rw [e]
    rw [hs, afterSymbols_line] at h1
    rw [hs, he, show (base.pairAt t0 (m + 1)).1 = false from h1, afterSymbols_count h, afterSymbols_env]
    rfl
  · rw [e]
    rw [hs, afterSymbols_line] at h1
    rw [hs, he, show (base.pairAt t0 (m + 1)).1 = true from h1]
    rfl
  · rw [hs, afterSymbols_line, hb] at hne
    exact absurd heq hne

/-- Many data symbols. -/
theorem recvSymbols_data (h : Synced t0 base) (hf : ∀ j, f j = (base.pairAt t0 j).1) (n m : Nat)
    (hd : ∀ j, m < j → j ≤ m + n → isData (base.pairAt t0 j) = true)
    (hl : base.lossBefore (t0 + 2 * S * (m + n) + S + PH + 1) = false) :
    recvSymbols n (afterSymbols f t0 base m) = .done none (afterSymbols f t0 base (m + n)) := by
  induction n generalizing m with
  | zero => rfl
  | succ n ih =>
    rw [recvSymbols, recvSymbol_data h hf (hd (m + 1) (by omega) (by omega)) (lossBefore_mono (by simp only [S]; omega) hl),
      Run.done_bind]
    dsimp only
    rw [ih (m + 1) (fun j h1 h2 => hd j (by omega) (by omega)) (by rwa [show m + 1 + n = m + (n + 1) by omega]),
      show m + 1 + n = m + (n + 1) by omega]

/-- A packet up to the symbol that ends it. -/
theorem recvSymbols_end (h : Synced t0 base) (hf : ∀ j, f j = (base.pairAt t0 j).1) (n m M : Nat) (hM : m + n > M)
    (hmM : m ≤ M) (hd : ∀ j, m < j → j ≤ M → isData (base.pairAt t0 j) = true)
    (he : isData (base.pairAt t0 (M + 1)) = false)
    (hl : base.lossBefore (t0 + 2 * S * (M + 1) + S + PH + 1) = false) :
    recvSymbols n (afterSymbols f t0 base m) =
      .done (some (if (base.pairAt t0 (M + 1)).1 then resultFraming else resultOfCount (M / 8) (base.env.epoch + (t0 + 2 * S * (M + 1) + S + PH + 1))))
        (((afterSymbols f t0 base M).setNow (t0 + 2 * S * (M + 1) + S + PH + 1)).setRx
          ((afterSymbols f t0 base M).rx.packetEnded (base.pairAt t0 (M + 1)).1)) := by
  induction n generalizing m with
  | zero => omega
  | succ n ih =>
    rw [recvSymbols]
    by_cases hlast : m = M
    · subst hlast
      rw [recvSymbol_end h he hl, Run.done_bind]
    · rw [recvSymbol_data h hf (hd (m + 1) (by omega) (by omega)) (lossBefore_mono (by simp only [S]; omega) hl),
        Run.done_bind]
      exact ih (m + 1) (by omega) (by omega) (fun j h1 h2 => hd j (by omega) h2)
end

/-! ## The bound on the symbols of one step -/

/-- The pairs repeat with the peer's waveform (log entry 16). -/
theorem pairAt_periodic (s : State) (hs : s.env.wave.stream = none) (t0 : Nat) {j : Nat} (hj : segTicks s.env.wave.lead ≤ j) (n : Nat) :
    s.pairAt t0 (j + segTicks s.env.wave.loop * n) = s.pairAt t0 j := by
  have key : ∀ c, s.line (t0 + 2 * S * (j + segTicks s.env.wave.loop * n) + c) = s.line (t0 + 2 * S * j + c) := by
    intro c
    unfold State.line
    congr 1
    have h1 : s.env.epoch + (t0 + 2 * S * (j + segTicks s.env.wave.loop * n) + c) =
        s.env.epoch + (t0 + 2 * S * j + c) + segTicks s.env.wave.loop * (2 * S * n) := by
      rw [Nat.mul_add, Nat.mul_left_comm]; omega
    rw [h1, Wave.level_add_loop _ hs (by simp only [S]; omega)]
  unfold State.pairAt
  rw [key PH, Nat.add_assoc _ S PH, key (S + PH), Nat.add_assoc _ S PH]

/-- Without a stream: if the first symbols, as many as one step takes, are data, all are. -/
theorem isData_of_fuel {s : State} {t0 : Nat} (hs : s.env.wave.stream = none) (h : ∀ j, 1 ≤ j → j ≤ s.symbolFuel → isData (s.pairAt t0 j) = true) :
    ∀ j, 1 ≤ j → isData (s.pairAt t0 j) = true := by
  intro j hj
  have hfuel : s.symbolFuel = segTicks s.env.wave.lead + segTicks s.env.wave.loop + 2 := by simp [State.symbolFuel, hs]
  by_cases hle : j ≤ s.symbolFuel
  · exact h j hj hle
  · by_cases hL : segTicks s.env.wave.loop = 0
    · exfalso
      have hd := h (segTicks s.env.wave.lead + 1) (by omega) (by omega)
      have lev : ∀ c, s.line (t0 + 2 * S * (segTicks s.env.wave.lead + 1) + c) = s.devOut := by
        intro c
        unfold State.line
        rw [Wave.level_of_no_loop _ hs (by simp only [S]; omega) hL, Bool.or_false]
      have : isData (s.pairAt t0 (segTicks s.env.wave.lead + 1)) = false := by
        unfold State.pairAt
        rw [lev PH, Nat.add_assoc _ S PH, lev (S + PH)]
        simp [isData]
      simp [this] at hd
    · have hLpos : 0 < segTicks s.env.wave.loop := Nat.pos_of_ne_zero hL
      generalize hLl : segTicks s.env.wave.lead = l at *
      generalize hLL : segTicks s.env.wave.loop = L at *
      have e : j = (l + 1 + (j - (l + 1)) % L) + L * ((j - (l + 1)) / L) := by
        have := Nat.mod_add_div (j - (l + 1)) L
        omega
      have hlt : (j - (l + 1)) % L < L := Nat.mod_lt _ hLpos
      have hp := pairAt_periodic s hs t0 (j := l + 1 + (j - (l + 1)) % L) (by omega) ((j - (l + 1)) / L)
      rw [hLL] at hp
      rw [e, hp]
      exact h _ (by omega) (by omega)

/-! ## The search -/

/-- The search of `RECV_PACKET` on an idle line. -/
theorem searchPacket_timeout {maxSize : Byte} {s : State} (hi : s.Idle s.now (s.now + pktSyncRounds * pktSubpolls))
    (h : s.lossBefore (s.now + pktSyncRounds * pktSubpolls) = false) :
    searchPacket maxSize s = .done (some resultTimeout)
      ((s.setNow (s.now + pktSyncRounds * pktSubpolls)).setRx (s.rx.noPacket maxSize)) := by
  unfold searchPacket
  rw [firstAsserted_of_Idle hi]
  simp only [advanceTo_ok h, Run.done_bind]
  rfl

/-- The search of `RECV_PACKET` synchronised at `t0`. -/
theorem searchPacket_synced {maxSize : Byte} {s : State} {t0 : Nat}
    (hi : s.FirstAsserted s.now (s.now + pktSyncRounds * pktSubpolls) t0) (h : s.lossBefore (t0 + 1) = false) :
    searchPacket maxSize s = .done none
      ((s.setNow (t0 + 1)).setRx (s.rx.packetSynced maxSize t0 (pktSyncRounds * pktSubpolls - (t0 - s.now)))) := by
  unfold searchPacket
  rw [firstAsserted_of_FirstAsserted hi]
  simp only [advanceTo_ok h, Run.done_bind]
  rfl

theorem synced_packetSynced (maxSize : Byte) (t0 left : Nat) (s : State) :
    Synced t0 ((s.setNow (t0 + 1)).setRx (s.rx.packetSynced maxSize t0 left)) :=
  ⟨rfl, rfl, rfl, rfl, rfl, rfl⟩

end Sys2Proof.Machine
end

