-- ==== Sys2Proof/Laws/PerInstr.lean ====
section
/-! SUPPORT. A law of every instruction, one lemma per constructor: its encoding has the length its form announces. -/
namespace Sys2Proof.Laws.EncodingForm

/-- The bytes of a request are as many as its opcode says (30_encoding.md R101, R104); a wire form has the 2 slots of a
symbol, the 10 of a byte frame or the `4 + 16*n` of a packet (R91, R93, R95) and begins asserted unless it is a symbol; a
caller's code is reserved only for the reserved row (10_state.md R42). -/
def Statement (i : Instr) : Prop :=
  i.wf = true →
    match encode i with
    | .bytes bs => ∃ op rest, bs = op :: rest ∧ rest.length = match nops op with | none => 0 | some n => n + 1
    | .slots levels =>
      levels.length = 2 ∨ levels.head? = some true ∧ (levels.length = 10 ∨ ∃ n, levels.length = 4 + 16 * n)
    | .call c => (∃ code, i = .opselReserved code) ↔ 0xC ≤ c.opSel.toNat

theorem rdbuf (idx ck : Byte) : Statement (.rdbuf idx ck) := fun _ => ⟨_, _, rfl, rfl⟩
theorem wrbuf (idx val ck : Byte) : Statement (.wrbuf idx val ck) := fun _ => ⟨_, _, rfl, rfl⟩
theorem pwrstat (ck : Byte) : Statement (.pwrstat ck) := fun _ => ⟨_, _, rfl, rfl⟩
theorem hashbuf (ck : Byte) : Statement (.hashbuf ck) := fun _ => ⟨_, _, rfl, rfl⟩
theorem fill (addr : Addr) (ck : Byte) : Statement (.fill addr ck) := fun _ => ⟨_, _, rfl, rfl⟩
theorem commit (addr : Addr) (ck : Byte) : Statement (.commit addr ck) := fun _ => ⟨_, _, rfl, rfl⟩

theorem nops_reserved {op : Byte} (h : 6 ≤ op.toNat) : nops op = none := by
  unfold nops
  split <;> first | rfl | omega

theorem reserved0607 (op : Byte) : Statement (.reserved0607 op) := fun h =>
  ⟨op, [], rfl, by simp [Instr.wf] at h; rw [nops_reserved (by omega)]; rfl⟩
theorem reserved080F (op : Byte) : Statement (.reserved080F op) := fun h =>
  ⟨op, [], rfl, by simp [Instr.wf] at h; rw [nops_reserved (by omega)]; rfl⟩
theorem reserved101F (op : Byte) : Statement (.reserved101F op) := fun h =>
  ⟨op, [], rfl, by simp [Instr.wf] at h; rw [nops_reserved (by omega)]; rfl⟩
theorem reserved203F (op : Byte) : Statement (.reserved203F op) := fun h =>
  ⟨op, [], rfl, by simp [Instr.wf] at h; rw [nops_reserved (by omega)]; rfl⟩
theorem reserved407F (op : Byte) : Statement (.reserved407F op) := fun h =>
  ⟨op, [], rfl, by simp [Instr.wf] at h; rw [nops_reserved (by omega)]; rfl⟩
theorem reserved80FF (op : Byte) : Statement (.reserved80FF op) := fun h =>
  ⟨op, [], rfl, by simp [Instr.wf] at h; rw [nops_reserved (by omega)]; rfl⟩

theorem byteFrame (v : Byte) : Statement (.byteFrame v) := fun _ => .inr ⟨rfl, .inl (Machine.length_frameSlots v)⟩
theorem symStop : Statement .symStop := fun _ => .inl rfl
theorem symD0 : Statement .symD0 := fun _ => .inl rfl
theorem symD1 : Statement .symD1 := fun _ => .inl rfl
theorem symStart : Statement .symStart := fun _ => .inl rfl
theorem packet (bytes : List Byte) : Statement (.packet bytes) := fun _ =>
  .inr ⟨rfl, .inr ⟨bytes.length, Machine.length_packetSlots bytes⟩⟩

theorem nop : Statement .nop := fun _ => by simp [encode]
theorem sendByte (v : Byte) : Statement (.sendByte v) := fun _ => by simp [encode]
theorem recvByte (timeout : BitVec 16) : Statement (.recvByte timeout) := fun _ => by simp [encode]
theorem sendSym (code : BitVec 2) : Statement (.sendSym code) := fun _ => by simp [encode]
theorem sendPacket (len : Byte) : Statement (.sendPacket len) := fun _ => by simp [encode]
theorem recvPacket (maxSize : Byte) : Statement (.recvPacket maxSize) := fun _ => by simp [encode]
theorem hash (src : HashSource) (len : Byte) : Statement (.hash src len) := fun _ => by simp [encode]
theorem cmdStep : Statement .cmdStep := fun _ => by simp [encode]
theorem fillPage (addr : Addr) : Statement (.fillPage addr) := fun _ => by simp [encode]
theorem commitPage (addr : Addr) : Statement (.commitPage addr) := fun _ => by simp [encode]
theorem erasePage (addr : Addr) : Statement (.erasePage addr) := fun _ => by simp [encode]
theorem writePage (addr : Addr) : Statement (.writePage addr) := fun _ => by simp [encode]
theorem opselReserved (code : BitVec 4) : Statement (.opselReserved code) := fun h => by
  simp [Instr.wf] at h
  simp [encode, h.1]

end Sys2Proof.Laws.EncodingForm
end

