-- ==== Sys2Proof/Tests/Slice0.lean ====
section
/-! SUPPORT. Tests. Expected values are those of spec/95_test_vectors.md, named V<n>, or of the encoding tables of
30_encoding.md and 10_state.md. The last part gives each statement with hypotheses a state that meets them. -/
namespace Sys2Proof.Machine

open Sys2Proof.Config

set_option Elab.async false

/-! ## States to test on -/

/-- A block that stands alone, its caller waiting, the peer driving `wave`. -/
def bench (wave : Wave := {}) : State where
  env := { par := { assembly := .caller }, wave := wave }
  devLog := []
  draws := 0
  flash := []
  pb := Vector.replicate _ 0x00#8
  xb := Vector.replicate _ 0xEE#8
  twb := Vector.replicate _ 0x0000#16
  now := 0
  mode := .bootCheck
  devOut := false
  result := 0
  busy := false
  bootUser := false
  pc := none
  tx := {}
  rx := {}
  h := 0
  cp := {}
  fs := {}

/-- A block with its Command Processor, in update mode. -/
def updating (wave : Wave := {}) : State :=
  { bench wave with env := { wave := wave }, mode := .update, busy := true }

/-- The same at power-up. -/
def booting (wave : Wave := {}) : State := { updating wave with mode := .bootCheck }

/-- The state right after a request whose last frame began at tick 300: a response starts at tick 400. -/
def heard : State := { updating with now := 396, cp := { t0Last := 300 } }

/-- The durations of V55. -/
def slow (a : Assembly) : Params := { assembly := a, tTwb := 2, tErase := 40, tWrite := 40 }

/-- The peer drives the slots from tick `e` on. -/
def slotsAt (e : Nat) (levels : List Bool) : Wave := { lead := ⟨e, false⟩ :: levels.map fun l => ⟨S, l⟩ }

/-- The peer sends the bytes back to back from tick `e` on. -/
def framesAt (e : Nat) (bs : List Byte) : Wave := slotsAt e (bs.flatMap frameSlots)

/-- The state `s` with resets to come. -/
def State.withPower (s : State) (power : List PowerLoss) : State := { s with env := { s.env with power := power } }

/-- The state `s` with a page at 0x0180 that holds 0x55 in every byte. -/
def State.withOldPage (s : State) : State := { s with flash := s.flash.writeRange 0x180 128 fun _ => 0x55#8 }

/-- The outcome is a next state with the property. -/
def after (o : Host.Outcome State Fault Refusal) (p : State → Bool) : Bool :=
  match o with
  | .next t => p t
  | .fault _ => false
  | .refused _ => false

theorem next_of_after {o : Host.Outcome State Fault Refusal} {p : State → Bool} (h : after o p = true) :
    ∃ t, o = .next t ∧ p t = true := by
  cases o with
  | next t => exact ⟨t, rfl, h⟩
  | fault r => cases h
  | refused r => cases h

/-- What the block drove in the middle of `n` slots from tick `e` on. -/
def slotsSeen (t : State) (e n : Nat) : List Bool := (List.range n).map fun i => t.devOutAt (e + S * i + 5)

/-- Slot levels written as digits. -/
def levels (ds : List Nat) : List Bool := ds.map (· == 1)

/-- A commit at tick 5 whose erase and write take no time, with a reset at their tick; the caller presents `COMMIT_PAGE` at tick 5,
behind a request that was sent at tick 3 and not accepted. -/
def cutZero (tTwb : Nat) (c : CutPos) : State :=
  { bench.withOldPage with
    now := 5
    env := {
      par := { assembly := .caller, tTwb := tTwb }
      power := [⟨5 + tTwb, c⟩]
      calls := [⟨3, { opSel := 0x0#4 }⟩, ⟨5, { opSel := 0x9#4, argA := 0x0185#16 }⟩] } }

/-- A commit that begins at tick 0 with a fill step of 2 ticks and the given durations, and a reset at tick `r`. -/
def cutMixed (tErase tWrite r : Nat) (c : CutPos) : State :=
  { bench.withOldPage with
    env := { par := { assembly := .caller, tTwb := 2, tErase := tErase, tWrite := tWrite }, power := [⟨r, c⟩] } }

/-! ## Well-formedness: each check refuses an ill-formed term -/

theorem test_wf_reserved0607 : Instr.wf (.reserved0607 0x05#8) = false ∧ Instr.wf (.reserved0607 0x08#8) = false := by decide
theorem test_wf_reserved080F : Instr.wf (.reserved080F 0x07#8) = false ∧ Instr.wf (.reserved080F 0x10#8) = false := by decide
theorem test_wf_reserved101F : Instr.wf (.reserved101F 0x0F#8) = false ∧ Instr.wf (.reserved101F 0x20#8) = false := by decide
theorem test_wf_reserved203F : Instr.wf (.reserved203F 0x1F#8) = false ∧ Instr.wf (.reserved203F 0x40#8) = false := by decide
theorem test_wf_reserved407F : Instr.wf (.reserved407F 0x3F#8) = false ∧ Instr.wf (.reserved407F 0x80#8) = false := by decide
theorem test_wf_reserved80FF : Instr.wf (.reserved80FF 0x7F#8) = false ∧ Instr.wf (.reserved80FF 0xFF#8) = true := by decide
theorem test_wf_opselReserved : Instr.wf (.opselReserved 0xB#4) = false ∧ Instr.wf (.opselReserved 0xC#4) = true := by decide

/-! ## Decoding: a word of every row, written out from the spec's encoding -/

theorem test_decode_rdbuf : decode (.bytes [0x00#8, 0x05#8, 0x05#8]) = .ok (.rdbuf 0x05#8 0x05#8) := rfl
theorem test_decode_wrbuf : decode (.bytes [0x01#8, 0x02#8, 0xBE#8, 0xBF#8]) = .ok (.wrbuf 0x02#8 0xBE#8 0xBF#8) := rfl
theorem test_decode_pwrstat : decode (.bytes [0x02#8, 0x02#8]) = .ok (.pwrstat 0x02#8) := rfl
theorem test_decode_hashbuf : decode (.bytes [0x03#8, 0x03#8]) = .ok (.hashbuf 0x03#8) := rfl
theorem test_decode_fill : decode (.bytes [0x04#8, 0x12#8, 0x34#8, 0x56#8]) = .ok (.fill 0x1234#16 0x56#8) := rfl
theorem test_decode_commit : decode (.bytes [0x05#8, 0x6F#8, 0x80#8, 0x4A#8]) = .ok (.commit 0x6F80#16 0x4A#8) := rfl
theorem test_decode_reserved : decode (.bytes [0x06#8]) = .ok (.reserved0607 0x06#8) ∧
    decode (.bytes [0x0F#8]) = .ok (.reserved080F 0x0F#8) ∧ decode (.bytes [0x10#8]) = .ok (.reserved101F 0x10#8) ∧
    decode (.bytes [0x3F#8]) = .ok (.reserved203F 0x3F#8) ∧ decode (.bytes [0x40#8]) = .ok (.reserved407F 0x40#8) ∧
    decode (.bytes [0x80#8]) = .ok (.reserved80FF 0x80#8) := ⟨rfl, rfl, rfl, rfl, rfl, rfl⟩
/-- V1: the frames of 0xA5 and 0x01. -/
theorem test_decode_byteFrame : decode (.slots (levels [1, 1, 0, 1, 0, 0, 1, 0, 1, 0])) = .ok (.byteFrame 0xA5#8) ∧
    decode (.slots (levels [1, 0, 0, 0, 0, 0, 0, 0, 1, 0])) = .ok (.byteFrame 0x01#8) := ⟨rfl, rfl⟩
theorem test_decode_symbols : decode (.slots (levels [0, 0])) = .ok .symStop ∧
    decode (.slots (levels [0, 1])) = .ok .symD0 ∧ decode (.slots (levels [1, 0])) = .ok .symD1 ∧
    decode (.slots (levels [1, 1])) = .ok .symStart := ⟨rfl, rfl, rfl, rfl⟩
/-- V11: the packet of 0x42. -/
theorem test_decode_packet :
    decode (.slots (levels [1, 1, 0, 1, 1, 0, 0, 1, 0, 1, 0, 1, 0, 1, 1, 0, 0, 1, 0, 0])) = .ok (.packet [0x42#8]) := rfl
/-- 10_state.md R42. -/
theorem test_decode_caller :
    decodeCall { opSel := 0x0#4 } = .nop ∧ decodeCall { opSel := 0x1#4, argV := 0x42#8 } = .sendByte 0x42#8 ∧
    decodeCall { opSel := 0x2#4, argT := 0x0105#16 } = .recvByte 0x0105#16 ∧
    decodeCall { opSel := 0x3#4, argV := 0x02#8 } = .sendSym 0b10#2 ∧
    decodeCall { opSel := 0x4#4, argV := 0x03#8 } = .sendPacket 0x03#8 ∧
    decodeCall { opSel := 0x5#4, argV := 0xFF#8 } = .recvPacket 0xFF#8 ∧
    decodeCall { opSel := 0x6#4, argV := 0x03#8, argSrc := .pb } = .hash .pb 0x03#8 ∧
    decodeCall { opSel := 0x7#4 } = .cmdStep ∧ decodeCall { opSel := 0x8#4, argA := 0x7F80#16 } = .fillPage 0x7F80#16 ∧
    decodeCall { opSel := 0x9#4, argA := 0x1234#16 } = .commitPage 0x1234#16 ∧
    decodeCall { opSel := 0xA#4, argA := 0x0185#16 } = .erasePage 0x0185#16 ∧
    decodeCall { opSel := 0xB#4, argA := 0x0180#16 } = .writePage 0x0180#16 ∧
    decodeCall { opSel := 0xC#4 } = .opselReserved 0xC#4 ∧ decodeCall { opSel := 0xF#4 } = .opselReserved 0xF#4 := by decide

theorem test_decode_errors : decode (.bytes []) = .error .emptyRequest ∧
    decode (.bytes [0x01#8, 0x05#8]) = .error (.truncatedRequest 0x01#8) ∧
    decode (.bytes [0x06#8, 0x07#8]) = .error (.trailingBytes 0x07#8) ∧
    decode (.slots (levels [0, 0, 0, 0, 0, 0, 0, 0, 0, 0])) = .error .frameWithoutStart ∧
    decode (.slots (levels [1, 0, 1, 0, 0, 0, 0, 1, 0, 1])) = .error .frameStopAsserted ∧
    decode (.slots (levels [0, 1, 0, 0])) = .error .packetWithoutStart ∧
    decode (.slots (levels [1, 1, 1, 1, 0, 0])) = .error .packetDesync ∧
    decode (.slots (levels [1, 1, 1, 0, 0, 0])) = .error .packetIllFormed := ⟨rfl, rfl, rfl, rfl, rfl, rfl, rfl, rfl⟩

/-- V11: the slots of `[00, FF]`. -/
theorem test_encode_packet : packetSlots [0x00#8, 0xFF#8] = levels [1, 1, 0, 1, 0, 1, 0, 1, 0, 1, 0, 1, 0, 1, 0, 1, 0, 1,
    1, 0, 1, 0, 1, 0, 1, 0, 1, 0, 1, 0, 1, 0, 1, 0, 0, 0] := by decide

/-! ## Hash vectors -/

/-- V21, V22, V23, V25. -/
theorem test_hash_vectors :
    hashBytes [0x80#8, 0x00#8] = 0x01#8 ∧ hashBytes [0x01#8, 0x00#8, 0x42#8] = 0x46#8 ∧
    hashBytes [0x12#8, 0x34#8, 0x56#8, 0x78#8] = 0x94#8 ∧ hashBytes [0x34#8, 0x12#8] = 0x7A#8 ∧
    hashBytes [0x0F#8, 0xF0#8] = 0xEE#8 ∧ hashBytes (0x5A#8 :: List.replicate 3 0x00#8) = 0xD2#8 := by decide
/-- V24. -/
theorem test_hash_page :
    hashBytes ((List.range 128).map fun i => BitVec.ofNat 8 (3 * i + 1)) = 0xF3#8 ∧
    hashBytes ((List.range 128).map fun i => BitVec.ofNat 8 (5 * i + 3)) = 0x32#8 := by decide +kernel

/-! ## The commands -/

/-- V36: index 127 is answered, from tick 400 on. -/
theorem test_rdbuf_answers :
    after (exec (.rdbuf 0x7F#8 0x7F#8) { heard with pb := heard.pb.set 127 0xA5#8 }) (fun t =>
      t.now == 500 && slotsSeen t 400 10 == levels [1, 1, 0, 1, 0, 0, 1, 0, 1, 0]) = true := by decide +kernel
/-- V36: index 128 is not. -/
theorem test_rdbuf_bound : after (exec (.rdbuf 0x80#8 0x80#8) heard) (fun t => t.now == 396 && t.devLog == []) = true := by
  decide +kernel
/-- V30. -/
theorem test_wrbuf_stores :
    after (exec (.wrbuf 0x00#8 0x42#8 0x46#8) heard) (fun t =>
      t.pb == heard.pb.set 0 0x42#8 && slotsSeen t 400 10 == levels [1, 0, 1, 0, 0, 0, 0, 1, 0, 0]) = true := by decide +kernel
/-- V38. -/
theorem test_wrbuf_checksum :
    after (exec (.wrbuf 0x05#8 0x77#8 0x00#8) heard) (fun t => t.pb == heard.pb && t.devLog == []) = true := by decide +kernel
/-- V35: the start bit of the response. -/
theorem test_pwrstat_answers :
    after (exec (.pwrstat 0x02#8) heard) (fun t => t.now == 500 && t.devOutAt 405 && t.draws == 1) = true := by decide +kernel
/-- V32. -/
theorem test_hashbuf_zero :
    after (exec (.hashbuf 0x03#8) heard) (fun t =>
      slotsSeen t 400 10 == levels [1, 0, 0, 0, 0, 0, 0, 0, 0, 0]) = true := by decide +kernel
/-- V40: 0x7F80 is filled from. -/
theorem test_fill_last_page :
    after (exec (.fill 0x7F80#16 0x6E#8) heard) (fun t =>
      t.pb == Vector.replicate _ 0xFF#8 && slotsSeen t 400 10 == levels [1, 1, 0, 0, 0, 0, 0, 0, 0, 0]) = true := by decide +kernel
/-- V40: 0xFF80 is not. -/
theorem test_fill_no_wrap :
    after (exec (.fill 0xFF80#16 0x6F#8) heard) (fun t => t.pb == heard.pb && t.devLog == []) = true := by decide +kernel
/-- V41. -/
theorem test_commit_last_page :
    after (exec (.commit 0x6FFF#16 0x35#8) heard) (fun t =>
      t.flash.head? == some (0x6F80, 0x00#8) && t.flash.getLast? == some (0x6FFF, 0x00#8) && t.now == 500) = true := by
  decide +kernel
/-- V34. -/
theorem test_commit_protected :
    after (exec (.commit 0x7000#16 0xF4#8) heard) (fun t => t.flash == [] && t.twb == heard.twb && t.devLog == []) = true := by
  decide +kernel
/-- V39. -/
theorem test_reserved_dropped :
    (∀ op : Byte, after (exec (.reserved0607 op) heard) (· == heard) = true) ∧
      after (exec (.reserved80FF 0x80#8) heard) (· == heard) = true := by
  refine ⟨fun op => ?_, by decide +kernel⟩
  rw [show exec (.reserved0607 op) heard = exec (.reserved0607 0) heard from rfl]
  decide +kernel

/-! ## The wire forms -/

/-- V1. -/
theorem test_byteFrame :
    after (exec (.byteFrame 0x55#8) updating) (fun t =>
      t.now == 100 && slotsSeen t 0 10 == levels [1, 0, 1, 0, 1, 0, 1, 0, 1, 0]) = true := by decide +kernel
/-- V10. -/
theorem test_symbols :
    after (exec .symStop updating) (fun t => t.now == 20 && slotsSeen t 0 2 == levels [0, 0]) = true ∧
    after (exec .symD0 updating) (fun t => t.now == 20 && t.devOut && slotsSeen t 0 2 == levels [0, 1]) = true ∧
    after (exec .symD1 updating) (fun t => t.now == 20 && !t.devOut && slotsSeen t 0 2 == levels [1, 0]) = true ∧
    after (exec .symStart updating) (fun t => t.now == 20 && t.devOut && slotsSeen t 0 2 == levels [1, 1]) = true := by
  decide +kernel
/-- V11. -/
theorem test_packet_empty :
    after (exec (.packet []) updating) (fun t => t.now == 40 && slotsSeen t 0 4 == levels [1, 1, 0, 0]) = true := by
  decide +kernel

/-! ## The operations of the caller interface -/

theorem test_nop : after (exec .nop { bench with result := 7 }) (· == bench) = true := by decide +kernel
theorem test_opselReserved : after (exec (.opselReserved 0xF#4) { bench with result := 7 }) (· == bench) = true := by
  decide +kernel
/-- V1. -/
theorem test_sendByte :
    after (exec (.sendByte 0xAA#8) bench) (fun t =>
      t.now == 100 && t.result == 0 && slotsSeen t 0 10 == levels [1, 1, 0, 1, 0, 1, 0, 1, 0, 0]) = true := by decide +kernel
/-- V2, V4, V6. -/
theorem test_recvByte :
    after (exec (.recvByte 5) (bench (framesAt 7 [0x42#8]))) (fun t => t.result == 0x42#16 && t.now == 103) = true ∧
    after (exec (.recvByte 5) bench) (fun t => t.result == 0xFFFF#16 && t.now == 50) = true ∧
    after (exec (.recvByte 5) (bench (slotsAt 0 (levels [1, 0, 1, 0, 0, 0, 0, 1, 0, 1])))) (fun t =>
      t.result == 0xFFFE#16 && t.now == 96) = true := by decide +kernel
/-- V7: 5 ticks late. -/
theorem test_recvByte_late :
    after (exec (.recvByte 5) { bench (framesAt 0 [0xA5#8]) with now := 5 }) (fun t =>
      t.result == 0x4A#16 && t.now == 101) = true := by decide +kernel
/-- V10. -/
theorem test_sendSym :
    after (exec (.sendSym 0b01#2) bench) (fun t => t.devOut && t.now == 20 && t.result == 0) = true := by decide +kernel
/-- V11. -/
theorem test_sendPacket :
    after (exec (.sendPacket 1) { bench with xb := bench.xb.set 0 0xA5#8 }) (fun t =>
      t.now == 200 && slotsSeen t 0 20 == levels [1, 1, 1, 0, 0, 1, 1, 0, 0, 1, 0, 1, 1, 0, 0, 1, 1, 0, 0, 0]) = true := by
  decide +kernel
/-- V15: truncation; the true length is reported. -/
theorem test_recvPacket :
    after (exec (.recvPacket 2) (bench (slotsAt 7 (packetSlots [0xA5#8, 0x5A#8, 0x01#8])))) (fun t =>
      t.result == 3 && t.now == 523 && t.xb == (bench.xb.set 0 0xA5#8).set 1 0x5A#8) = true := by decide +kernel
/-- V17: `11` inside a packet. -/
theorem test_recvPacket_desync :
    after (exec (.recvPacket 2) (bench (slotsAt 7 (levels [1, 1, 1, 0, 0, 1, 1, 1, 0, 0])))) (fun t =>
      t.result == 0xFFFE#16 && t.now == 83) = true := by decide +kernel
/-- P4: the hash of the first three bytes. -/
theorem test_hash_xb :
    after (exec (.hash .xb 3) { bench with xb := ((bench.xb.set 0 0x01#8).set 1 0x00#8).set 2 0x42#8 }) (fun t =>
      t.result == 0x46#16 && t.h == 0x46#8 && t.now == 0) = true := by decide +kernel
/-- V42: a truncated request. -/
theorem test_cmdStep_truncated :
    after (exec .cmdStep (bench (framesAt 0 [0x01#8, 0x05#8]))) (fun t =>
      t.now == 246 && t.pb == bench.pb && t.devLog == [] && t.result == 0) = true := by decide +kernel
/-- V30, received and executed by one step. -/
theorem test_cmdStep_wrbuf :
    after (exec .cmdStep (bench (framesAt 0 [0x01#8, 0x00#8, 0x42#8, 0x46#8]))) (fun t =>
      t.now == 500 && t.pb == bench.pb.set 0 0x42#8) = true := by decide +kernel
/-- V53. -/
theorem test_fillPage :
    after (exec (.fillPage 0x0180#16) bench.withOldPage) (fun t =>
      t.pb == Vector.replicate _ 0x55#8 && t.result == 128) = true ∧
    after (exec (.fillPage 0x00FF#16) bench) (fun t => t.pb == bench.pb && t.result == 0xFFFF#16) = true := by decide +kernel
/-- V50. -/
theorem test_commitPage :
    after (exec (.commitPage 0x1234#16) { bench with pb := Vector.ofFn fun i => BitVec.ofNat 8 i }) (fun t =>
      t.twb[0] == 0x0100#16 && t.twb[63] == 0x7F7E#16 && t.flash.take 2 == [(0x1200, 0x00#8), (0x1201, 0x01#8)] &&
        t.flash.length == 128 && t.result == 128) = true := by decide +kernel
/-- V55: the reset falls when the page is erased and not yet written. -/
theorem test_commitPage_interrupted :
    after (exec (.commitPage 0x0180#16)
        ({ bench.withOldPage with env := { par := slow .caller } }.withPower [⟨42, .beforeErase⟩])) (fun t =>
      t.flash == [] && t.mode == .bootCheck && t.env.epoch == 42) = true := by decide +kernel
/-- 44_flash_sequencer.md R218, one step of zero duration: an erase that takes no time is past, the write has not begun; and a
write that takes no time has completed. -/
theorem test_commitPage_mixed :
    after (exec (.commitPage 0x0180#16) (cutMixed 0 40 2 .betweenSteps)) (fun t => t.flash == [] && t.env.epoch == 2) = true ∧
    after (exec (.commitPage 0x0180#16) (cutMixed 40 0 42 .afterWrite)) (fun t =>
      t.flash.length == 128 && t.result == 128 && t.now == 42) = true := by decide +kernel
/-- V52. -/
theorem test_erasePage :
    after (exec (.erasePage 0x0185#16) bench.withOldPage) (fun t => t.flash == [] && t.result == 0) = true ∧
    after (exec (.erasePage 0x7000#16) bench.withOldPage) (fun t => t.flash == bench.withOldPage.flash) = true := by
  decide +kernel
/-- 44_flash_sequencer.md R215: the low byte of a word stands at the even address. -/
theorem test_writePage :
    after (exec (.writePage 0x0185#16) { bench with twb := bench.twb.set 0 0xADDE#16 }) (fun t =>
      t.flash.take 3 == [(0x180, 0xDE#8), (0x181, 0xAD#8), (0x182, 0x00#8)]) = true := by decide +kernel

/-! ## The step -/

/-- V60, V61. -/
theorem test_boot :
    after (step booting) (fun t => t.mode == .userApp && t.now == 20 && t.bootUser && t.pc == some 0x0000#16) = true ∧
    after (step (booting { lead := [⟨19, false⟩, ⟨6, true⟩] })) (fun t => t.mode == .update && t.now == 20) = true ∧
    after (step (booting { lead := [⟨20, false⟩, ⟨5, true⟩] })) (fun t => t.mode == .userApp) = true := by decide +kernel
/-- V63: an attention pulse of 20 ticks is read as opcode 0x80 and dropped. -/
theorem test_attention_pulse :
    after (step { updating { lead := [⟨3, false⟩, ⟨20, true⟩] } with now := 4 }) (fun t =>
      t.now == 100 && t.cp.op == 0x80#8 && t.devLog == []) = true := by decide +kernel
/-- 44_flash_sequencer.md R218: a commit of no duration, presented at the tick of a reset that finds the page erased and not yet
written; one that the reset comes before; and one behind a request that was sent while the block was busy. -/
theorem test_step_commit_at_reset :
    let s := { bench.withOldPage with env := { bench.env with calls := [⟨0, { opSel := 0x9#4, argA := 0x0185#16 }⟩] } }
    after (step (s.withPower [⟨0, .betweenSteps⟩])) (fun t => t.flash == [] && t.env.power == []) = true ∧
    after (step (s.withPower [⟨0, .beforeErase⟩])) (fun t => t.flash == s.flash && t.env.power == [] && t.env.calls == []) =
      true ∧
    after (Host.Core.run Sys2Proof.core 2 (cutZero 0 .betweenSteps)) (fun t => t.flash == [] && t.env.power == []) =
      true := by decide +kernel
/-- 10_state.md R22: 45 ticks into the packet of 0x5A bit 6 is on the line, in its first half. -/
theorem test_txSymbolTick :
    ((runTicks txSymbolTick 45 (txSymbolsStart (symbolsOfPacket [0x5A#8]) bench)).1.tx ==
      { active := true, slot := 0, sub := 5, sr := 0x5A#8, idx := 0, bit := 6 }) = true := by decide +kernel
/-- A word of the table, placed and run from reset. -/
theorem test_fetch_wrbuf :
    after (step (State.reset.withFetchWord 32 0x01004246)) (fun t => t.pb[0] == 0x42#8 && t.now == 500) = true := by
  decide +kernel

/-! ## Witnesses: each statement with hypotheses has a state that meets them, for each of its clauses -/

theorem quiet (s : State) (hd : s.devOut = false) (hw : s.env.wave = {}) (a b : Nat) : s.Idle a b := fun τ _ _ => by
  simp [State.line, hd, hw, Wave.level, segLevel]

theorem witness_DecodeEncode : ([.reserved0607 0x06#8, .reserved0607 0x07#8, .reserved080F 0x08#8, .reserved080F 0x0F#8,
    .reserved101F 0x10#8, .reserved101F 0x1F#8, .reserved203F 0x20#8, .reserved203F 0x3F#8, .reserved407F 0x40#8,
    .reserved407F 0x7F#8, .reserved80FF 0x80#8, .reserved80FF 0xFF#8, .opselReserved 0xC#4, .opselReserved 0xF#4,
    .packet [], .rdbuf 0xFF#8 0x00#8] : List Instr).all Instr.wf = true := by decide
theorem witness_EncodingUnique : decodeBytes [0x02#8, 0x02#8] = .ok (.pwrstat 0x02#8) ∧
    decodeSlots [true, true, false, false] = .ok (.packet []) := ⟨rfl, rfl⟩
theorem witness_DecodedWellFormed : decode (.bytes [0xFF#8]) = .ok (.reserved80FF 0xFF#8) ∧
    decode (.call { opSel := 0xC#4 }) = .ok (.opselReserved 0xC#4) := ⟨rfl, rfl⟩
/-- The clauses of RequestLength at opcodes 5 and 6 and at one byte too few. -/
theorem witness_RequestLength : nops 0x05#8 = some 2 ∧ nops 0x06#8 = none ∧
    decodeRequest [0x05#8, 0x00#8, 0x00#8] = .error (.truncatedRequest 0x05#8) ∧
    decodeRequest [0x05#8, 0x00#8, 0x00#8, 0x14#8, 0xAA#8] = .ok (.commit 0x0000#16 0x14#8, [0xAA#8]) := ⟨rfl, rfl, rfl, rfl⟩

theorem awaiting_updating (w : Wave) : (updating w).Awaiting := ⟨rfl, rfl, rfl, rfl, rfl⟩

/-- The outcome is a completed reception of the bytes. -/
def received (r : Run (Option (List Byte))) (bs : List Byte) : Bool :=
  match r with
  | .done (some cs) _ => cs == bs
  | .done none _ => false
  | .lost _ => false
  | .fault _ => false

theorem done_of_received {r : Run (Option (List Byte))} {bs : List Byte} (h : received r bs = true) :
    ∃ u, r = .done (some bs) u := by
  unfold received at h
  split at h
  · exact ⟨_, by rw [beq_iff_eq.mp h]⟩
  all_goals cases h

theorem witness_StepRunsDecoded_request : (updating (framesAt 0 [0x02#8, 0x02#8])).Awaiting ∧
    (∃ u, recvRequest (updating (framesAt 0 [0x02#8, 0x02#8])) = .done (some [0x02#8, 0x02#8]) u) ∧
    decode (.bytes [0x02#8, 0x02#8]) = .ok (.pwrstat 0x02#8) :=
  ⟨awaiting_updating _, done_of_received (by decide +kernel), rfl⟩
/-- The caller asks for `SEND_BYTE(0x42)` at tick 0. -/
def called : State := { bench with env := { bench.env with calls := [⟨0, { opSel := 0x1#4, argV := 0x42#8 }⟩] } }
theorem witness_StepRunsDecoded_caller : called.env.par.assembly = .caller ∧ called.lossDue = false ∧
    called.inPacket = false ∧ called.tx.wire = [] ∧
    called.env.calls = [⟨0, { opSel := 0x1#4, argV := 0x42#8 }⟩] ∧ 0 = called.clock := ⟨rfl, rfl, rfl, rfl, rfl, rfl⟩
/-- `SYM_D1` is loaded into the transmitter. -/
def loaded : State := { updating with tx := { wire := [true, false] } }
theorem witness_StepRunsDecoded_wire : loaded.serving = true ∧ loaded.lossDue = false ∧ loaded.tx.wire ≠ [] ∧
    decode (.slots loaded.tx.wire) = .ok .symD1 := ⟨rfl, rfl, by decide, rfl⟩
theorem witness_UpdateStepIsCmdStep : updating.env.par.assembly = .bootloader ∧ updating.mode = .update ∧
    updating.inPacket = false ∧ updating.tx.wire = [] ∧ updating.lossDue = false := ⟨rfl, rfl, rfl, rfl, rfl⟩
theorem witness_StepAlwaysNext : updating.tx.wire = [] ∧ decode (.slots loaded.tx.wire) = .ok .symD1 := ⟨rfl, rfl⟩
theorem witness_ResetState : (bench.withPower [⟨0, .beforeErase⟩]).lossDue = true ∧
    (bench.withPower [⟨0, .beforeErase⟩]).requestFirst = false ∧ (updating.withPower [⟨0, .beforeErase⟩]).lossDue = true ∧
    (updating.withPower [⟨0, .beforeErase⟩]).env.par.assembly = .bootloader := by decide +kernel
/-- Both cases of LossOverrides: a transmission that ends at the tick of the reset, and one that is cut by it. -/
theorem witness_LossOverrides :
    (∃ t, exec (.sendByte 0x42#8) (bench.withPower [⟨100, .beforeErase⟩]) = .next t ∧ t.now = 100) ∧
    ∃ t, exec (.sendByte 0x42#8) (bench.withPower [⟨99, .beforeErase⟩]) = .next t ∧ t.env.epoch = 99 := by
  constructor
  · obtain ⟨t, h, ht⟩ := next_of_after (o := exec (.sendByte 0x42#8) (bench.withPower [⟨100, .beforeErase⟩]))
      (p := fun t => t.now == 100) (by decide +kernel)
    exact ⟨t, h, by simpa using ht⟩
  · obtain ⟨t, h, ht⟩ := next_of_after (o := exec (.sendByte 0x42#8) (bench.withPower [⟨99, .beforeErase⟩]))
      (p := fun t => t.env.epoch == 99) (by decide +kernel)
    exact ⟨t, h, by simpa using ht⟩

theorem bench_inv : bench.Inv where
  flashForm := by decide
  flashExtent := by decide
  bootUser := by decide
  handedOver := by decide
  busyThroughout := by decide
  lineReleased := by decide
  callerMode := by decide
  rxPhase := by decide
  rxCounters := by decide
  txAtRest := by decide
  fsAtRest := by decide
  lineLogged := by decide
  logOrdered := ⟨by decide, by decide⟩
/-- StepKeepsInv and StepKeepsProtected. -/
theorem witness_StepKeepsInv : bench.Inv ∧ ∃ t, step bench = .next t ∧ (t.now == 1) = true :=
  ⟨bench_inv, next_of_after (by decide +kernel)⟩
theorem witness_ModeIrreversible : updating.mode ≠ .bootCheck ∧ ∃ t, step updating = .next t ∧ (t.mode == .update) = true :=
  ⟨by decide, next_of_after (by decide +kernel)⟩
/-- The line is asserted from tick 19 to 24 (V61): the last poll of the window. -/
theorem witness_BootBranch_update :
    let s := (booting { lead := [⟨19, false⟩, ⟨6, true⟩] }).withPower [⟨21, .beforeErase⟩]
    s.env.par.assembly = .bootloader ∧ s.mode = .bootCheck ∧ s.now = 0 ∧ s.lossBefore (19 + 2) = false ∧
      s.FirstAsserted 0 (s.env.par.bootGrace * S) 19 :=
  ⟨rfl, rfl, rfl, rfl, by decide, by decide, by decide, by unfold State.Idle; decide⟩
theorem witness_BootBranch_idle :
    let s := booting.withPower [⟨21, .beforeErase⟩]
    s.env.par.assembly = .bootloader ∧ s.mode = .bootCheck ∧ s.now = 0 ∧
      s.lossBefore (s.env.par.bootGrace * S + 1) = false ∧ s.Idle 0 (s.env.par.bootGrace * S) :=
  ⟨rfl, rfl, rfl, rfl, quiet _ rfl rfl _ _⟩
/-- A block whose user application runs. -/
def userApp : State := { booting with mode := .userApp, bootUser := true, pc := some 0 }
theorem witness_UserAppInert : userApp.env.par.assembly = .bootloader ∧ userApp.mode = .userApp ∧ userApp.lossDue = false :=
  ⟨rfl, rfl, rfl⟩
theorem witness_NopCompletes : bench.callerReady = true := rfl
theorem witness_BusyCallIgnored : ({ bench with busy := true } : State).callerReady = false ∧ updating.callerReady = false :=
  ⟨rfl, rfl⟩
theorem witness_NotServedIgnored : userApp.serving = false ∧ encode (.pwrstat 0x02#8) = .bytes [0x02#8, 0x02#8] ∧
    encode .symD1 = .slots [true, false] := ⟨rfl, rfl, rfl⟩

/-- The power lasts one tick longer than the transmission. -/
theorem witness_SendByteDrivesFrame : (bench.withPower [⟨101, .beforeErase⟩]).callerReady = true ∧
    (bench.withPower [⟨101, .beforeErase⟩]).lossBefore (0 + 10 * S + 1) = false := ⟨rfl, rfl⟩
theorem witness_WireFormsDriven : updating.serving = true ∧ bench.serving = true ∧
    (updating.withPower [⟨100, .beforeErase⟩]).lossBefore (0 + S * 10) = false := ⟨rfl, rfl, rfl⟩
theorem witness_RecvByteOutcomes_timeout : bench.callerReady = true ∧
    bench.Idle bench.now (bench.now + (5#16).toNat * S) ∧ bench.Idle bench.now (bench.now + (0#16).toNat * S) ∧
    (bench.withPower [⟨51, .beforeErase⟩]).lossBefore (0 + (5#16).toNat * S + 1) = false :=
  ⟨rfl, quiet _ rfl rfl _ _, quiet _ rfl rfl _ _, rfl⟩
/-- The last poll of the search. -/
theorem witness_RecvByteOutcomes_synced :
    let s := bench (framesAt 49 [0x42#8])
    s.callerReady = true ∧ s.FirstAsserted s.now (s.now + (5#16).toNat * S) 49 ∧
      s.lossBefore (49 + 9 * S + PH + 2) = false ∧ s.line (49 + 9 * S + PH) = false :=
  ⟨rfl, ⟨by decide, by decide, by decide, by unfold State.Idle; decide⟩, rfl, by decide⟩
/-- V6: the stop slot is asserted. -/
theorem witness_RecvByteOutcomes_framing :
    let s := bench (slotsAt 0 (levels [1, 0, 1, 0, 0, 0, 0, 1, 0, 1]))
    s.callerReady = true ∧ s.FirstAsserted s.now (s.now + (5#16).toNat * S) 0 ∧ s.line (0 + 9 * S + PH) = true :=
  ⟨rfl, ⟨by decide, by decide, by decide, by unfold State.Idle; decide⟩, by decide⟩
theorem witness_ByteRoundTrip :
    let s := bench (framesAt 49 [0xA5#8])
    s.callerReady = true ∧ s.now ≤ 49 ∧ 49 < s.now + (5#16).toNat * S ∧ s.Idle s.now 49 ∧
      s.Carries 49 (frameSlots 0xA5#8) ∧ s.lossBefore (49 + 9 * S + PH + 1) = false :=
  ⟨rfl, by decide, by decide, by unfold State.Idle; decide, by unfold State.Carries; decide +kernel, rfl⟩
/-- The clauses of LateStart: 4 ticks late, 5 ticks late, and 9 ticks late with the line asserted after the frame. -/
theorem witness_LateStart :
    (let s := { bench (framesAt 0 [0xA5#8]) with now := 4 }
     s.callerReady = true ∧ s.now = 0 + 4 ∧ 4 + PH < S ∧ s.Carries 0 (frameSlots 0xA5#8) ∧
       s.lossBefore (0 + 4 + 9 * S + PH + 1) = false) ∧
    (let s := { bench (framesAt 0 [0xA5#8]) with now := 5 }
     s.callerReady = true ∧ s.now = 0 + 5 ∧ ¬ 5 + PH < S ∧ s.Carries 0 (frameSlots 0xA5#8) ∧
       s.line (0 + 5 + 9 * S + PH) = false) ∧
    (let s := { bench (slotsAt 0 (frameSlots 0xA5#8 ++ [true])) with now := 9 }
     s.callerReady = true ∧ s.now = 0 + 9 ∧ ¬ 9 + PH < S ∧ s.Carries 0 (frameSlots 0xA5#8) ∧
       s.line (0 + 9 + 9 * S + PH) = true) := by
  unfold State.Carries
  decide +kernel
theorem witness_SendSymDrivesHalves : (bench.withPower [⟨20, .beforeErase⟩]).callerReady = true ∧
    (bench.withPower [⟨20, .beforeErase⟩]).lossBefore (0 + 2 * S) = false := ⟨rfl, rfl⟩
theorem witness_SendPacketDrivesPacket : (bench.withPower [⟨40840, .beforeErase⟩]).callerReady = true ∧
    (bench.withPower [⟨40840, .beforeErase⟩]).lossBefore (0 + (4 + 16 * (255#8).toNat) * S) = false := ⟨rfl, by decide⟩
theorem witness_RecvPacketOutcomes_timeout : bench.callerReady = true ∧ bench.Idle bench.now (bench.now + 1000) ∧
    (bench.withPower [⟨1000, .beforeErase⟩]).lossBefore (0 + 1000) = false := ⟨rfl, quiet _ rfl rfl _ _, by decide⟩
/-- V12, V17: the empty packet, and `11` as the third symbol. -/
theorem witness_RecvPacketOutcomes_ended :
    (let s := bench (slotsAt 7 (packetSlots []))
     s.callerReady = true ∧ s.FirstAsserted s.now (s.now + 1000) 7 ∧ (∀ j, 1 ≤ j → j < 1 → isData (s.pairAt 7 j) = true) ∧
       s.pairAt 7 1 = (false, false) ∧ s.lossBefore (7 + 2 * S * 1 + S + PH + 1) = false) ∧
    (let s := bench (slotsAt 7 (levels [1, 1, 1, 0, 0, 1, 1, 1, 0, 0]))
     s.callerReady = true ∧ s.FirstAsserted s.now (s.now + 1000) 7 ∧ (∀ j, 1 ≤ j → j < 3 → isData (s.pairAt 7 j) = true) ∧
       s.pairAt 7 3 = (true, true)) := by
  unfold State.FirstAsserted State.Idle
  decide +kernel
theorem witness_PacketRoundTrip :
    let s := bench (slotsAt 7 (packetSlots [0xA5#8, 0x5A#8]))
    s.callerReady = true ∧ s.now ≤ 7 ∧ 7 < s.now + 1000 ∧ s.Idle s.now 7 ∧ s.Carries 7 (packetSlots [0xA5#8, 0x5A#8]) := by
  unfold State.Carries State.Idle
  decide +kernel
/-- A start symbol, then `10` for ever. -/
def endless : State := bench { lead := [⟨20, true⟩], loop := [⟨10, true⟩, ⟨10, false⟩] }
theorem witness_EndlessPacket : endless.callerReady = true ∧ endless.env.power = [] ∧
    endless.FirstAsserted endless.now (endless.now + 1000) 0 ∧ ∀ j, 1 ≤ j → isData (endless.pairAt 0 j) = true := by
  refine ⟨rfl, rfl, ⟨by decide, by decide, by decide, fun τ _ h => absurd h (by omega)⟩, fun j hj => ?_⟩
  obtain ⟨k, rfl⟩ : ∃ k, j = k + 1 := ⟨j - 1, by omega⟩
  have a : (20 * (k + 1) - 15) % 20 = 5 := by omega
  have b : (20 * (k + 1) - 5) % 20 = 15 := by omega
  simp [State.pairAt, State.line, endless, bench, Wave.level, segLevel, segTicks, isData, a, b, S, PH,
    show ¬ 20 * (k + 1) + 5 < 20 by omega, show ¬ 20 * (k + 1) + 10 + 5 < 20 by omega]
theorem witness_HashReduces : bench.callerReady = true ∧ [0x12#8, 0x34#8].length = [0xFF#8, 0x00#8].length := ⟨rfl, rfl⟩
theorem witness_HashSingleBit : 7 < 8 := by decide

/-- RdbufResponds, WrbufResponds, HashbufResponds: the request has been heard, its checksum is right, the power lasts as long
as the response. -/
theorem witness_responses :
    let s := heard.withPower [⟨500, .beforeErase⟩]
    s.serving = true ∧ 0x00#8 = hashBytes [0x00#8, 0x00#8] ∧ 0x7F#8 = hashBytes [0x00#8, 0x7F#8] ∧
      (0x7F#8).toNat < pageSize ∧ 0x50#8 = hashBytes [0x01#8, 0x7F#8, 0xAA#8] ∧ 0x03#8 = hashBytes [0x03#8] ∧
      s.lossBefore (s.responseAt s.now + 10 * S) = false := by decide +kernel
theorem witness_PwrstatResponds :
    let s := heard.withPower [⟨500, .beforeErase⟩]
    s.serving = true ∧ 0x02#8 = hashBytes [0x02#8] ∧ s.lossBefore (s.responseAt (s.now + s.env.par.tAdc) + 10 * S) = false := by
  decide +kernel
/-- The last page of program memory. -/
theorem witness_FillResponds :
    let s := heard.withPower [⟨500, .beforeErase⟩]
    s.serving = true ∧ 0x6E#8 = hashBytes [0x04#8, (0x7F80#16).extractLsb' 8 8, (0x7F80#16).extractLsb' 0 8] ∧
      (0x7F80#16).toNat % 128 = 0 ∧ (0x7F80#16).toNat + 128 ≤ s.env.par.progMemSize ∧
      s.lossBefore (s.responseAt (s.now + s.env.par.tFill) + 10 * S) = false := by decide +kernel
/-- The last address of the user region, with the durations of V44. -/
theorem witness_CommitResponds :
    let s := { heard with env := { par := slow .bootloader, power := [⟨578, .beforeErase⟩] } }
    s.serving = true ∧ 0x35#8 = hashBytes [0x05#8, (0x6FFF#16).extractLsb' 8 8, (0x6FFF#16).extractLsb' 0 8] ∧
      (0x6FFF#16).toNat < 0x7000 ∧ s.lossBefore (s.responseAt (s.now + s.commitTicks) + 10 * S) = false := by decide +kernel
theorem witness_ChecksumMismatchDropped : heard.serving = true ∧
    encode (.wrbuf 0x05#8 0x77#8 0x00#8) = .bytes ([0x01#8, 0x05#8, 0x77#8] ++ [0x00#8]) ∧
    ([0x01#8, 0x05#8, 0x77#8] : List Byte) ≠ [] ∧ 0x00#8 ≠ hashBytes [0x01#8, 0x05#8, 0x77#8] :=
  ⟨rfl, rfl, by decide, by decide⟩
/-- The second clauses of RdbufResponds, WrbufResponds, FillResponds and CommitResponds, each at the first value outside the range. -/
theorem witness_responses_dropped : heard.serving = true ∧
    0x80#8 = hashBytes [0x00#8, 0x80#8] ∧ pageSize ≤ (0x80#8).toNat ∧ 0x14#8 = hashBytes [0x01#8, 0x80#8, 0x11#8] ∧
    0x11#8 = hashBytes [0x04#8, (0x0001#16).extractLsb' 8 8, (0x0001#16).extractLsb' 0 8] ∧ (0x0001#16).toNat % 128 ≠ 0 ∧
    0x11#8 = hashBytes [0x04#8, (0x8000#16).extractLsb' 8 8, (0x8000#16).extractLsb' 0 8] ∧
    heard.env.par.progMemSize < (0x8000#16).toNat + 128 ∧
    0xF4#8 = hashBytes [0x05#8, (0x7000#16).extractLsb' 8 8, (0x7000#16).extractLsb' 0 8] ∧ 0x7000 ≤ (0x7000#16).toNat := by decide +kernel
/-- A request whose first START falls on the last poll of the wait for an opcode; a reset falls at the completion tick. -/
theorem witness_RequestReceived :
    let s := (updating (framesAt 499 [0x02#8, 0x02#8])).withPower [⟨695, .beforeErase⟩]
    decodeBytes [0x02#8, 0x02#8] = .ok (.pwrstat 0x02#8) ∧ s.now ≤ 499 ∧ 499 < s.now + s.env.par.tOpcode * S ∧
      s.Idle s.now 499 ∧ s.Carries 499 ([0x02#8, 0x02#8].flatMap frameSlots) ∧
      s.lossBefore (499 + 10 * S * ([0x02#8, 0x02#8].length - 1) + 9 * S + PH + 1) = false :=
  ⟨rfl, by decide, by decide, by unfold State.Idle; decide +kernel, by unfold State.Carries; decide +kernel, by decide +kernel⟩
/-- A request that is executed, and one in whose execution a reset falls: the response is cut. -/
theorem witness_CmdStepExecutes :
    (let s := bench (framesAt 499 [0x06#8])
     s.callerReady = true ∧ decodeBytes [0x06#8] = .ok (.reserved0607 0x06#8) ∧ s.now ≤ 499 ∧
       499 < s.now + s.env.par.tOpcode * S ∧ s.Idle s.now 499 ∧ s.Carries 499 ([0x06#8].flatMap frameSlots) ∧
       s.lossBefore (499 + 10 * S * ([0x06#8].length - 1) + 9 * S + PH + 1) = false) ∧
    (let s := (bench (framesAt 0 [0x03#8, 0x03#8])).withPower [⟨250, .beforeErase⟩]
     s.callerReady = true ∧ decodeBytes [0x03#8, 0x03#8] = .ok (.hashbuf 0x03#8) ∧ s.now ≤ 0 ∧
       s.Carries 0 ([0x03#8, 0x03#8].flatMap frameSlots) ∧
       s.lossBefore (0 + 10 * S * ([0x03#8, 0x03#8].length - 1) + 9 * S + PH + 1) = false) ∧
    after (exec .cmdStep ((bench (framesAt 0 [0x03#8, 0x03#8])).withPower [⟨250, .beforeErase⟩])) (fun t =>
      t.env.power == [] && t.env.epoch == 250) = true := by
  unfold State.Idle State.Carries
  decide +kernel
theorem witness_CmdStepIncomplete_idle : bench.callerReady = true ∧
    bench.Idle bench.now (bench.now + bench.env.par.tOpcode * S) ∧
    (bench.withPower [⟨501, .beforeErase⟩]).lossBefore (0 + bench.env.par.tOpcode * S + 1) = false :=
  ⟨rfl, quiet _ rfl rfl _ _, rfl⟩
/-- V6: the stop slot of the opcode is asserted; its START falls on the last poll. -/
theorem witness_CmdStepIncomplete_framing :
    let s := bench (slotsAt 499 (levels [1, 0, 1, 0, 0, 0, 0, 1, 0, 1]))
    s.callerReady = true ∧ s.FirstAsserted s.now (s.now + s.env.par.tOpcode * S) 499 ∧
      s.line (499 + 9 * S + PH) = true ∧ s.lossBefore (499 + 9 * S + PH + 2) = false := by
  unfold State.FirstAsserted State.Idle
  decide +kernel
/-- V42: `01 05` and then nothing; and `01` followed by a byte whose stop slot is asserted. -/
theorem witness_CmdStepIncomplete_broken :
    (let s := bench (framesAt 0 [0x01#8, 0x05#8])
     decodeBytes [0x01#8, 0x05#8] = .error (.truncatedRequest 0x01#8) ∧ s.callerReady = true ∧ s.Idle s.now 0 ∧
       s.Carries 0 ([0x01#8, 0x05#8].flatMap frameSlots) ∧
       196 = 0 + 10 * S * ([0x01#8, 0x05#8].length - 1) + 9 * S + PH + 1 ∧ s.Idle 196 (196 + s.env.par.tOperand * S)) ∧
    (let s := bench (slotsAt 0 (frameSlots 0x01#8 ++ levels [1, 0, 0, 0, 0, 0, 0, 1, 0, 1]))
     decodeBytes [0x01#8] = .error (.truncatedRequest 0x01#8) ∧ s.callerReady = true ∧
       s.Carries 0 ([0x01#8].flatMap frameSlots) ∧ 96 = 0 + 10 * S * ([0x01#8].length - 1) + 9 * S + PH + 1 ∧
       s.FirstAsserted 96 (96 + s.env.par.tOperand * S) 100 ∧ s.line (100 + 9 * S + PH) = true) := by
  unfold State.FirstAsserted State.Carries State.Idle
  decide +kernel
theorem witness_WrbufExchange :
    let s := updating (framesAt 100 [0x01#8, 0x7F#8, 0xAA#8, 0x50#8])
    s.Awaiting ∧ s.now ≤ 100 ∧ 100 < s.now + s.env.par.tOpcode * S ∧ s.Idle s.now 100 ∧
      s.Carries 100 ([0x01#8, BitVec.ofNat 8 127, 0xAA#8, hashBytes [0x01#8, BitVec.ofNat 8 127, 0xAA#8]].flatMap frameSlots) :=
  ⟨awaiting_updating _, by decide, by decide, by unfold State.Idle; decide +kernel, by unfold State.Carries; decide +kernel⟩

/-- The last page of program memory, the first address after it, and a misaligned address. -/
theorem witness_FillPageCopies : bench.callerReady = true ∧
    ((0x7F80#16).toNat % 128 = 0 ∧ (0x7F80#16).toNat + 128 ≤ bench.env.par.progMemSize) ∧
    bench.lossBefore (bench.now + bench.env.par.tFill) = false ∧
    ¬ ((0x8000#16).toNat % 128 = 0 ∧ (0x8000#16).toNat + 128 ≤ bench.env.par.progMemSize) ∧
    ¬ ((0x00FF#16).toNat % 128 = 0 ∧ (0x00FF#16).toNat + 128 ≤ bench.env.par.progMemSize) := by decide +kernel
/-- The clauses of CommitPagePrograms, ErasePageBlanks and WritePageStores, on both sides of the limit; the page is erased in
`bench` and not in `bench.withOldPage`. -/
theorem witness_pageOperations : bench.callerReady = true ∧ (0x6FFF#16).toNat < 0x7000 ∧ 0x7000 ≤ (0x7000#16).toNat ∧
    (bench.withPower [⟨1, .beforeErase⟩]).lossBefore (0 + bench.commitTicks + 1) = false ∧
    bench.lossBefore (bench.now + bench.env.par.tErase + 1) = false ∧
    bench.lossBefore (bench.now + bench.env.par.tWrite + 1) = false ∧
    bench.flash.erased (pageBase 0x0185#16).toNat pageSize = true ∧
    bench.withOldPage.flash.erased (pageBase 0x0185#16).toNat pageSize = false := by decide +kernel
theorem witness_CommitThenFill : bench.callerReady = true ∧ bench.env.power = [] ∧ (0x6FFF#16).toNat < 0x7000 :=
  ⟨rfl, rfl, by decide⟩
/-- BufferWriters and OnlyFlashOperationsWrite. -/
theorem witness_OnlyFlashOperationsWrite : ∃ t, exec (.fillPage 0x0180#16) bench = .next t ∧ (t.result == 128) = true :=
  next_of_after (by decide +kernel)
/-- An accepted and a rejected address. -/
theorem witness_FlashWritesStayInPage :
    (∃ t, exec (.erasePage 0x6FFF#16) bench = .next t ∧ (t.now == 0) = true) ∧ (0x6FFF#16).toNat < 0x7000 ∧
    (∃ t, exec (.erasePage 0x7000#16) bench = .next t ∧ (t.now == 0) = true) ∧ 0x7000 ≤ (0x7000#16).toNat :=
  ⟨next_of_after (by decide +kernel), by decide, next_of_after (by decide +kernel), by decide⟩
/-- CommitInterrupted, at the ticks where its clauses meet, in every position, with erase and write of zero and of non-zero
duration: before the erase, in it, after it, in the write, after it. -/
theorem witness_CommitInterrupted :
    [(40, 40), (0, 40), (40, 0), (0, 0)].all (fun d => [0, 1, 2, 3, 41, 42, 43, 81, 82, 83].all fun r =>
      [CutPos.beforeErase, .duringErase, .betweenSteps, .duringWrite, .afterWrite].all fun c =>
        let s := cutMixed d.1 d.2 r c
        s.callerReady && s.serving && s.env.power == [⟨r, c⟩] && decide (s.clock ≤ r)) = true ∧
    (0x0180#16).toNat < 0x7000 ∧
    0x96#8 = hashBytes [0x05#8, (0x0180#16).extractLsb' 8 8, (0x0180#16).extractLsb' 0 8] := by
  decide +kernel
/-- The five positions, with and without a fill step of non-zero duration. -/
theorem witness_CommitInterruptedZero :
    [CutPos.beforeErase, .duringErase, .betweenSteps, .duringWrite, .afterWrite].all (fun c => [0, 2].all fun n =>
      let s := cutZero n c
      s.callerReady && s.serving && s.env.power == [⟨5 + n, c⟩] && decide (5 + n = s.clock + s.env.par.tTwb) &&
        s.env.par.tErase == 0 && s.env.par.tWrite == 0 && !s.inPacket && s.tx.wire == [] &&
        s.env.calls == [⟨3, { opSel := 0x0#4 }⟩] ++ [⟨5, { opSel := 0x9#4, argA := 0x0185#16 }⟩] && decide (3 < s.clock) &&
        decide (5 = s.clock)) = true ∧
    decodeCall { opSel := 0x9#4, argA := 0x0185#16 } = .commitPage 0x0185#16 ∧ (0x0185#16).toNat < 0x7000 ∧
    0x93#8 = hashBytes [0x05#8, (0x0185#16).extractLsb' 8 8, (0x0185#16).extractLsb' 0 8] := by decide +kernel
/-- RecvByteTickMachine, RecvPacketTickMachine (a packet that completes), TransmitTickMachines. -/
theorem witness_tickMachines : bench.callerReady = true ∧ bench.env.power = [] ∧
    ∃ t, exec (.recvPacket 0) (bench (slotsAt 0 (packetSlots []))) = .next t ∧ (t.busy == false) = true :=
  ⟨rfl, rfl, next_of_after (by decide +kernel)⟩

end Sys2Proof.Machine
end

section
/-! PROOFS. Decoding what the encoder makes, layer by layer; and the words of the opcode table. -/
namespace Sys2Proof

/-! ## Requests -/

/-- An address is its high byte followed by its low byte (30_encoding.md R102). -/
theorem addrHigh_append_addrLow (addr : Addr) : (addrHigh addr ++ addrLow addr : BitVec (8 + 8)) = addr := by
  apply BitVec.eq_of_getLsbD_eq
  intro i hi
  rw [BitVec.getLsbD_append, addrHigh, addrLow, BitVec.getLsbD_extractLsb', BitVec.getLsbD_extractLsb']
  by_cases h : i < 8
  · simp [h]
  · have hle : 8 ≤ i := by omega
    have hlt : i - 8 < 8 := by omega
    simp [h, hlt, Nat.add_sub_cancel' hle]

/-- An opcode from 0x06 on is a request of its own (R104, R110). -/
theorem decodeBytes_reserved {op : Byte} (h : 6 ≤ op.toNat) :
    decodeBytes [op] = .ok (reservedRequest op).toInstr := by
  have hreq : decodeRequest [op] = .ok (reservedRequest op, []) := by
    unfold decodeRequest
    split <;> first | omega | simp_all
  rw [decodeBytes, hreq]

/-! ## Wire forms -/

/-- A byte frame gives its byte (R91). -/
theorem decodeSlots_frameSlots (v : Byte) : decodeSlots (frameSlots v) = .ok (.byteFrame v) :=
  congrArg (fun b => Except.ok (Instr.byteFrame b)) (Machine.byteOfBits_bitsOf v)

/-- The halves of a data symbol: the bit and its complement (41_symbol_transport.md R152). -/
theorem symSlots_dsym (b : Bool) : symSlots (dsym b) = [b, !b] := by
  cases b <;> rfl

/-- The body of a packet with a further data bit in front, inside a byte (R94). -/
theorem decodePacketBody_bit {b : Bool} {rest : List Bool} {done : List Byte} {cur : Byte} {k : Nat} (hk : k ≠ 7) :
    decodePacketBody (symSlots (dsym b) ++ rest) done cur k = decodePacketBody rest done (shiftIn cur b) (k + 1) := by
  cases b <;> simp [symSlots_dsym, decodePacketBody, hk]

/-- The body of a packet with the last bit of a byte in front. -/
theorem decodePacketBody_lastBit {b : Bool} {rest : List Bool} {done : List Byte} {cur : Byte} :
    decodePacketBody (symSlots (dsym b) ++ rest) done cur 7 = decodePacketBody rest (shiftIn cur b :: done) 0#8 0 := by
  cases b <;> simp [symSlots_dsym, decodePacketBody]

/-- The body of a packet with a whole byte in front. -/
theorem decodePacketBody_byte (v : Byte) (rest : List Bool) (done : List Byte) :
    decodePacketBody (byteSymSlots v ++ rest) done 0#8 0 = decodePacketBody rest (v :: done) 0#8 0 := by
  have hbits : bitsOf v = [v.getLsbD 7, v.getLsbD 6, v.getLsbD 5, v.getLsbD 4, v.getLsbD 3, v.getLsbD 2, v.getLsbD 1,
    v.getLsbD 0] := rfl
  have hv : [v.getLsbD 7, v.getLsbD 6, v.getLsbD 5, v.getLsbD 4, v.getLsbD 3, v.getLsbD 2, v.getLsbD 1,
    v.getLsbD 0].foldl shiftIn 0#8 = v := Machine.byteOfBits_bitsOf v
  simp only [List.foldl_cons, List.foldl_nil] at hv
  simp only [byteSymSlots, hbits, List.flatMap_cons, List.flatMap_nil, List.append_assoc, List.nil_append]
  simp only [decodePacketBody_bit, decodePacketBody_lastBit, hv, ne_eq, Nat.reduceEqDiff, Nat.reduceAdd,
    not_false_eq_true]

/-- The body of a packet gives its bytes (R95). -/
theorem decodePacketBody_bytes (bytes done : List Byte) :
    decodePacketBody (bytes.flatMap byteSymSlots ++ symSlots stopCode) done 0#8 0 = .ok (done.reverse ++ bytes) := by
  induction bytes generalizing done with
  | nil => simp [symSlots, decodePacketBody]
  | cons v bytes ih =>
    rw [List.flatMap_cons, List.append_assoc, decodePacketBody_byte, ih]
    simp

/-- Slots that begin with `SYM_START` and are neither a symbol nor a byte frame are read as a packet. -/
theorem decodeSlots_start {rest : List Bool} {bytes : List Byte} (h0 : rest.length ≠ 0) (h8 : rest.length ≠ 8)
    (hbody : decodePacketBody rest [] 0#8 0 = .ok bytes) :
    decodeSlots (true :: true :: rest) = .ok (.packet bytes) := by
  rw [decodeSlots]
  · rw [hbody]
  · intro hnil; simp [hnil] at h0
  · intro d6 d5 d4 d3 d2 d1 d0 p height; simp [height] at h8

/-- A packet gives its bytes (R95). -/
theorem decodeSlots_packetSlots (bytes : List Byte) : decodeSlots (packetSlots bytes) = .ok (.packet bytes) := by
  have hlen : (bytes.flatMap byteSymSlots ++ symSlots stopCode).length = 2 + 16 * bytes.length := by
    have := Machine.length_packetSlots bytes
    rw [packetSlots, List.length_append, Machine.length_symSlots] at this
    omega
  exact decodeSlots_start (rest := bytes.flatMap byteSymSlots ++ symSlots stopCode) (by omega) (by omega)
    (decodePacketBody_bytes bytes [])

/-! ## The statements -/

/-- Settles O1, layer by layer: requests, wire forms, requests at the caller interface. -/
theorem decodeEncode : Obligations.DecodeEncode := by
  unfold Obligations.DecodeEncode
  intro i hwf
  cases i with
  | rdbuf idx ck => rfl
  | wrbuf idx val ck => rfl
  | pwrstat ck => rfl
  | hashbuf ck => rfl
  | fill addr ck => exact congrArg (fun a => Except.ok (Instr.fill a ck)) (addrHigh_append_addrLow addr)
  | commit addr ck => exact congrArg (fun a => Except.ok (Instr.commit a ck)) (addrHigh_append_addrLow addr)
  | reserved0607 op | reserved080F op | reserved101F op | reserved203F op | reserved407F op | reserved80FF op =>
    simp only [Instr.wf, Bool.and_eq_true, decide_eq_true_eq] at hwf
    rw [encode, decode, decodeBytes_reserved (by omega), reservedRequest]
    split_ifs <;> first | omega | rfl
  | byteFrame v => exact decodeSlots_frameSlots v
  | symStop => rfl
  | symD0 => rfl
  | symD1 => rfl
  | symStart => rfl
  | packet bytes => exact decodeSlots_packetSlots bytes
  | sendSym code =>
    have hcode : (code.zeroExtend 8).extractLsb' 0 2 = code := by
      revert code; decide
    exact congrArg (fun c => Except.ok (Instr.sendSym c)) hcode
  | nop => rfl
  | sendByte v => rfl
  | recvByte timeout => rfl
  | sendPacket len => rfl
  | recvPacket maxSize => rfl
  | hash src len => rfl
  | cmdStep => rfl
  | fillPage addr => rfl
  | commitPage addr => rfl
  | erasePage addr => rfl
  | writePage addr => rfl
  | opselReserved code =>
    simp only [Instr.wf, Bool.and_eq_true, decide_eq_true_eq] at hwf
    simp only [encode, decode, decodeCall]
    split <;> first | omega | rfl

/-- Settles O5: seven words, evaluated. -/
theorem tableWordsDecode : Obligations.TableWordsDecode := by
  unfold Obligations.TableWordsDecode
  refine ⟨?_, ?_, ?_, ?_, ?_, ?_, ?_⟩ <;> decide

end Sys2Proof
end

section
/-! PROOFS. `State.Inv` at the reset and over every step. An operation is followed through states that meet
`State.Operating`; a loss of power needs no more of the state it cuts short than `State.Survives`. -/
namespace Sys2Proof.Machine

open Sys2Proof.Config

/-! ## What a loss of power needs -/

/-- What a reset asks of the state it cuts short: that what it retains is well formed. -/
structure State.Survives (s : State) : Prop where
  flashForm : s.flash.wf = true
  flashExtent : ∀ c ∈ s.flash, c.1 < s.env.par.progMemSize
  logOrdered : s.LogOrdered

section
variable {s t : State}

theorem State.Inv.survives (h : s.Inv) : s.Survives := ⟨h.flashForm, h.flashExtent, h.logOrdered⟩

/-- No more than FLASH, the environment, the log and the time plays a part. -/
theorem State.Survives.congr (h : s.Survives) (hf : t.flash = s.flash) (he : t.env = s.env) (hl : t.devLog = s.devLog)
    (hn : t.now = s.now) : t.Survives where
  flashForm := hf ▸ h.flashForm
  flashExtent := by rw [hf, he]; exact h.flashExtent
  logOrdered := logOrdered_later h.logOrdered hl (by rw [State.clock, State.clock, he, hn])

theorem State.Survives.setLine (h : s.Survives) (v : Bool) : (s.setLine v).Survives :=
  ⟨h.flashForm, h.flashExtent, setLine_logOrdered h.logOrdered v⟩

/-- The log of the line after a reset. -/
theorem State.LogOrdered.takeReset (h : s.LogOrdered) : s.takeReset.LogOrdered := by
  obtain ⟨hsorted, hpast⟩ := h
  have hlate : ∀ e ∈ s.devLog, e.1 ≤ s.takeReset.env.epoch := fun e he =>
    Nat.le_trans (hpast e he) (clock_le_takeReset_epoch s)
  rw [State.LogOrdered, takeReset_devLog, takeReset_clock]
  refine ⟨List.pairwise_cons.mpr ⟨hlate, hsorted⟩, fun e he => ?_⟩
  rcases List.mem_cons.mp he with rfl | he
  · exact Nat.le_refl _
  · exact hlate e he

/-- Taking a reset leaves a well-formed state (10_state.md R38). -/
theorem State.Survives.takeReset (h : s.Survives) : s.takeReset.Inv where
  flashForm := h.flashForm
  flashExtent := h.flashExtent
  bootUser := by simp
  handedOver := by simp
  busyThroughout := by simp
  lineReleased _ _ := rfl
  callerMode _ := rfl
  rxPhase := .inl rfl
  rxCounters := by simp
  txAtRest := by simp
  fsAtRest := rfl
  lineLogged := rfl
  logOrdered := h.logOrdered.takeReset

/-! ## Well-formed states under the named updates -/

/-- The transmitter at rest, its counters in range (10_state.md R22). -/
def TxRegs.AtRest (tx : TxRegs) : Prop :=
  tx.active = false ∧ tx.slot ≤ 9 ∧ tx.sub < S ∧ tx.bit ≤ 7 ∧ tx.idx ≤ 255

/-- The receive engine at rest, its counters in range (10_state.md R23). -/
def RxRegs.AtRest (rx : RxRegs) : Prop :=
  rx.phase = .idle ∧ rx.wait ≤ 2 * S + PH ∧ rx.k ≤ 8

theorem State.Inv.setNow (h : s.Inv) {n : Nat} (hn : s.now ≤ n) : (s.setNow n).Inv :=
  { h with logOrdered := logOrdered_later h.logOrdered rfl (Nat.add_le_add_left hn _) }

theorem State.Inv.setResult (h : s.Inv) (x : Result) : (s.setResult x).Inv := { h with }
theorem State.Inv.setDraws (h : s.Inv) (x : Nat) : (s.setDraws x).Inv := { h with }
theorem State.Inv.setPb (h : s.Inv) (x : PageBuffer) : (s.setPb x).Inv := { h with }
theorem State.Inv.setTwb (h : s.Inv) (x : WriteBuffer) : (s.setTwb x).Inv := { h with }
theorem State.Inv.setH (h : s.Inv) (x : Byte) : (s.setH x).Inv := { h with }
theorem State.Inv.setCp (h : s.Inv) (x : CpRegs) : (s.setCp x).Inv := { h with }
theorem State.Inv.popCall (h : s.Inv) : s.popCall.Inv := { h with }

theorem State.Inv.setTx (h : s.Inv) {x : TxRegs} (hx : x.AtRest) : (s.setTx x).Inv := { h with txAtRest := hx }

theorem State.Inv.setRx (h : s.Inv) {x : RxRegs} (hx : x.AtRest) : (s.setRx x).Inv := by
  obtain ⟨hidle, hwait, hk⟩ := hx
  exact { h with
    rxPhase := .inl hidle
    rxCounters := ⟨hwait, hk, fun hp => by rw [setRx_rx, hidle] at hp; cases hp⟩ }

theorem State.Inv.setFlash (h : s.Inv) {x : Memory} (hf : x.wf = true) (he : ∀ c ∈ x, c.1 < s.env.par.progMemSize) :
    (s.setFlash x).Inv :=
  { h with flashForm := hf, flashExtent := he }

theorem State.Inv.setFs (h : s.Inv) {x : FsRegs} (hx : x.phase = .idle) : (s.setFs x).Inv := { h with fsAtRest := hx }

/-- Only a block that may drive the line sets a level. -/
theorem State.Inv.setLine (h : s.Inv) (hd : s.env.par.assembly = .bootloader → s.mode = .update) (v : Bool) :
    (s.setLine v).Inv :=
  { h with
    lineReleased := fun ha hm => absurd (hd ha) hm
    lineLogged := rfl
    logOrdered := setLine_logOrdered h.logOrdered v }

theorem State.Inv.setBusy (h : s.Inv) : (s.setBusy true).Inv :=
  { h with
    busyThroughout := fun _ => rfl
    rxPhase := h.rxPhase.imp_right fun ⟨hp, ha, _⟩ => ⟨hp, ha, rfl⟩ }

/-- Outside a packet the receive engine is at rest. -/
theorem State.Inv.rx_idle (h : s.Inv) (hp : s.inPacket = false) : s.rx.phase = .idle :=
  h.rxPhase.resolve_right fun ⟨hh, _⟩ => by simp [State.inPacket, hh] at hp

/-! ## A block at work -/

/-- A well-formed block, built as `a`, that may run an operation of its own: in a boot sequence's assembly it is in update mode,
and no packet is being received (60_exceptions.md R250, 10_state.md R47). -/
structure State.Operating (a : Assembly) (s : State) : Prop where
  inv : s.Inv
  assembly : s.env.par.assembly = a
  updating : a = .bootloader → s.mode = .update
  rest : s.rx.phase = .idle

/-- The run completes in a block at work, and what a loss of power leaves of it survives. -/
def Run.Keeps {α : Type} (a : Assembly) (r : Run α) : Prop := r.Sat (fun _ t => t.Operating a) State.Survives

theorem Run.Keeps.bind {α β : Type} {a : Assembly} {r : Run α} {f : α → State → Run β} (h : r.Keeps a)
    (hf : ∀ x t, t.Operating a → (f x t).Keeps a) : (r.bind f).Keeps a :=
  Run.Sat.bind h hf

variable {a : Assembly}

theorem State.Operating.done {α : Type} {x : α} (h : s.Operating a) : (Run.done x s).Keeps a := h

theorem State.Operating.survives (h : s.Operating a) : s.Survives := h.inv.survives

theorem State.Operating.lost {α : Type} (h : s.Operating a) : (Run.lost s : Run α).Keeps a := h.survives

theorem State.Operating.setNow (h : s.Operating a) {n : Nat} (hn : s.now ≤ n) : (s.setNow n).Operating a :=
  { h with inv := h.inv.setNow hn }
theorem State.Operating.setResult (h : s.Operating a) (x : Result) : (s.setResult x).Operating a :=
  { h with inv := h.inv.setResult x }
theorem State.Operating.setDraws (h : s.Operating a) (x : Nat) : (s.setDraws x).Operating a :=
  { h with inv := h.inv.setDraws x }
theorem State.Operating.setPb (h : s.Operating a) (x : PageBuffer) : (s.setPb x).Operating a :=
  { h with inv := h.inv.setPb x }
theorem State.Operating.setTwb (h : s.Operating a) (x : WriteBuffer) : (s.setTwb x).Operating a :=
  { h with inv := h.inv.setTwb x }
theorem State.Operating.setH (h : s.Operating a) (x : Byte) : (s.setH x).Operating a :=
  { h with inv := h.inv.setH x }
theorem State.Operating.setCp (h : s.Operating a) (x : CpRegs) : (s.setCp x).Operating a :=
  { h with inv := h.inv.setCp x }
theorem State.Operating.setTx (h : s.Operating a) {x : TxRegs} (hx : x.AtRest) : (s.setTx x).Operating a :=
  { h with inv := h.inv.setTx hx }
theorem State.Operating.setRx (h : s.Operating a) {x : RxRegs} (hx : x.AtRest) : (s.setRx x).Operating a :=
  { h with inv := h.inv.setRx hx, rest := hx.1 }
theorem State.Operating.setFs (h : s.Operating a) {x : FsRegs} (hx : x.phase = .idle) : (s.setFs x).Operating a :=
  { h with inv := h.inv.setFs hx }
theorem State.Operating.setFlash (h : s.Operating a) {x : Memory} (hf : x.wf = true)
    (he : ∀ c ∈ x, c.1 < s.env.par.progMemSize) : (s.setFlash x).Operating a :=
  { h with inv := h.inv.setFlash hf he }
theorem State.Operating.setLine (h : s.Operating a) (v : Bool) : (s.setLine v).Operating a :=
  { h with inv := h.inv.setLine (fun ha => h.updating (h.assembly.symm.trans ha)) v }

/-- An operation of the caller interface completes in a well-formed state. -/
theorem State.Operating.complete (h : s.Operating .caller) (r : Result) : (s.complete r).Inv :=
  { h.inv with
    busyThroughout := fun ha => absurd (h.assembly.symm.trans ha) (by decide)
    rxPhase := .inl h.rest }

/-- What a block may be that serves. -/
theorem serving_iff :
    s.serving = true ↔ (s.env.par.assembly = .caller ∨ s.mode = .update) ∧ s.inPacket = false := by
  simp [State.serving]

/-- A well-formed block that serves is at work. -/
theorem State.Inv.operating_of_serving (h : s.Inv) (hs : s.serving = true) : s.Operating s.env.par.assembly := by
  obtain ⟨hmode, hpacket⟩ := serving_iff.mp hs
  exact ⟨h, rfl, fun ha => hmode.resolve_left (by rw [ha]; decide), h.rx_idle hpacket⟩

/-- A well-formed block that accepts a request is at work from its start on. -/
theorem State.Inv.operating_of_callerReady (h : s.Inv) (hr : s.callerReady = true) :
    (s.setBusy true).Operating .caller := by
  obtain ⟨ha, hb⟩ := callerReady_iff.mp hr
  refine ⟨h.setBusy, ha, nofun, h.rxPhase.resolve_right fun ⟨_, _, hbusy⟩ => ?_⟩
  rw [hb] at hbusy; cases hbusy

/-! ## Time and the line -/

theorem advanceTo_keeps (h : s.Operating a) {c : Nat} (hc : s.now ≤ c) : (advanceTo c s).Keeps a :=
  advanceTo_sat (fun _ => h.setNow hc) fun _ => h.survives

theorem delay_keeps (h : s.Operating a) (n : Nat) : (delay n s).Keeps a := advanceTo_keeps h (Nat.le_add_right _ _)

theorem State.Operating.afterSlots (h : s.Operating a) (ls : List Bool) : (s.afterSlots ls).Operating a := by
  induction ls generalizing s with
  | nil => exact h
  | cons v vs ih => exact ih ((h.setLine v).setNow (Nat.le_add_right _ _))

/-- A transmission: the transmit registers are loaded with `x`, the slots driven, and the registers put to rest by `f`. -/
theorem transmit_keeps (h : s.Operating a) (ls : List Bool) {x : TxRegs} {f : TxRegs → TxRegs} (hx : (f x).AtRest) :
    ((driveSlots ls (s.setTx x)).bind fun _ t => .done () (t.setTx (f t.tx))).Keeps a := by
  have hdone : (((s.setTx x).afterSlots ls).setTx (f ((s.setTx x).afterSlots ls).tx)).Operating a := by
    rw [afterSlots_setTx]
    exact (h.afterSlots ls).setTx hx
  rcases driveSlots_spec ls (s.setTx x) with ⟨-, e⟩ | rfl | ⟨-, k, -, e⟩
  · rw [e]; exact hdone
  · exact hdone
  · rw [e, Run.lost_bind, afterSlots_setTx]
    have hcut : (s.afterSlots (ls.take k)).Survives := (h.afterSlots _).survives
    exact (hcut.congr (t := (s.afterSlots (ls.take k)).setTx x) rfl rfl rfl rfl).setLine _

theorem State.Operating.tx_inRange (h : s.Operating a) : s.tx.bit ≤ 7 ∧ s.tx.idx ≤ 255 := by
  obtain ⟨-, -, -, hbit, hidx⟩ := h.inv.txAtRest
  exact ⟨hbit, hidx⟩

/-- The transmitter after its last slot. -/
theorem TxRegs.stop_atRest {tx : TxRegs} (h : tx.bit ≤ 7 ∧ tx.idx ≤ 255) {n : Nat} (hn : n ≤ 9) : (tx.stop n).AtRest :=
  ⟨rfl, hn, (by decide : 0 < S), h⟩

theorem sendByte_keeps (h : s.Operating a) (v : Byte) : (sendByte v s).Keeps a :=
  transmit_keeps h _ (f := TxRegs.stop 9) (TxRegs.stop_atRest h.tx_inRange (Nat.le_refl 9))

theorem sendSymbol_keeps (h : s.Operating a) (code : BitVec 2) : (sendSymbol code s).Keeps a :=
  transmit_keeps h _ (f := TxRegs.stop 1) (TxRegs.stop_atRest h.tx_inRange (by decide))

theorem TxRegs.AtRest.packetSent {tx : TxRegs} (h : tx.AtRest) (bytes : List Byte) : (tx.packetSent bytes).AtRest := by
  obtain ⟨ha, hslot, hsub, -, -⟩ := id h
  unfold TxRegs.packetSent
  split
  · exact h
  · exact ⟨ha, hslot, hsub, Nat.zero_le _, Nat.le_of_lt_succ (Nat.mod_lt _ (by decide))⟩

theorem sendPacket_keeps (h : s.Operating a) (bytes : List Byte) : (sendPacket bytes s).Keeps a :=
  transmit_keeps h _ (f := fun tx => (tx.stop 1).packetSent bytes)
    ((TxRegs.stop_atRest (tx := s.tx.start) h.tx_inRange (by decide)).packetSent bytes)

/-! ## Reception of a byte -/

theorem RxRegs.noStart_atRest {rx : RxRegs} (h : rx.AtRest) (n : Nat) : (rx.noStart n).AtRest := ⟨rfl, h.2⟩

theorem RxRegs.frameTaken_atRest (rx : RxRegs) (t0 left : Nat) (v : Byte) : (rx.frameTaken t0 left v).AtRest :=
  ⟨rfl, Nat.zero_le _, Nat.le_refl _⟩

theorem State.Operating.rx_atRest (h : s.Operating a) : s.rx.AtRest := by
  obtain ⟨hwait, hk, -⟩ := h.inv.rxCounters
  exact ⟨h.rest, hwait, hk⟩

theorem recvByte_keeps (h : s.Operating a) (n : Nat) : (recvByte n s).Keeps a := by
  rcases recvByte_spec n s with ⟨-, -, e⟩ | ⟨t0, ⟨hnow, -⟩, -, e⟩ | e <;> rw [e]
  · exact ((h.setNow (Nat.le_add_right _ _)).setRx (RxRegs.noStart_atRest h.rx_atRest n)).setResult _
  · exact ((h.setNow (by omega)).setRx (RxRegs.frameTaken_atRest ..)).setResult _
  · exact h.survives

/-! ## The flash sequencer

Inside a commit the sequencer is not at rest; the block is at work but for that. -/

theorem fillPage_keeps (h : s.Operating a) (addr : Addr) : (fillPage addr s).Keeps a := by
  rcases fillPage_spec addr s with ⟨-, e⟩ | ⟨-, ⟨-, e⟩ | ⟨-, e⟩⟩ <;> rw [e]
  · exact h
  · exact (h.setPb (s.pageAt addr.toNat)).setNow (by simp)
  · exact (h.setPb _).survives

/-- The run completes in a block at work but for the sequencer. -/
def Run.KeepsButFs {α : Type} (a : Assembly) (r : Run α) : Prop :=
  r.Sat (fun _ t => t.fsIdle.Operating a) State.Survives

/-- A page of the user region lies inside program memory, whatever its size (00_scope.md R13). -/
theorem userPage_le_progMemSize {pa : Nat} (hpa : pa + pageSize ≤ userLimit) (s : State) :
    pa + pageSize ≤ s.env.par.progMemSize :=
  Nat.le_trans hpa s.env.par.admissible.2.1

/-- Writing a page of the user region. -/
theorem State.Operating.writeRange (h : s.Operating a) {pa : Nat} (hpa : pa + pageSize ≤ userLimit) (f : Nat → Byte) :
    (s.setFlash (s.flash.writeRange pa pageSize f)).Operating a :=
  h.setFlash (Memory.writeRange_wf h.inv.flashForm ..)
    (Memory.writeRange_extent h.inv.flashExtent (userPage_le_progMemSize hpa s))

theorem State.Operating.blankPage (h : s.Operating a) {pa : Nat} (hpa : pa + pageSize ≤ userLimit) :
    (s.blankPage pa).Operating a :=
  h.writeRange hpa _

theorem State.Operating.scramblePage (h : s.Operating a) {pa : Nat} (hpa : pa + pageSize ≤ userLimit) :
    (s.scramblePage pa).Operating a :=
  (h.writeRange hpa _).setDraws _

theorem State.Operating.storePage (h : s.Operating a) {pa : Nat} (hpa : pa + pageSize ≤ userLimit) :
    (s.storePage pa).Operating a := by
  unfold State.storePage
  split
  · exact h.writeRange hpa _
  · exact h.scramblePage hpa

/-! The steps of a commit, the sequencer left out of account. -/

theorem twbFilled_fsIdle (s : State) :
    s.twbFilled.fsIdle = (s.fsIdle.setTwb (wordsOfPage s.pb)).setNow (s.now + s.env.par.tTwb) := by
  simp only [State.twbFilled, State.fsIdle, State.setFs, State.setNow, State.setTwb, FsRegs.setPhase]

theorem pageBlanked_fsIdle (pa : Nat) (s : State) :
    (s.pageBlanked pa).fsIdle = (s.fsIdle.blankPage pa).setNow (s.now + s.env.par.tErase) := by
  simp only [State.pageBlanked, State.blankPage, State.fsIdle, State.setFs, State.setNow, State.setFlash, FsRegs.setPhase]

theorem pageStored_fsIdle (pa : Nat) (s : State) :
    (s.pageStored pa).fsIdle = (s.fsIdle.storePage pa).setNow (s.now + s.env.par.tWrite) := by
  by_cases he : s.flash.erased pa pageSize = true <;>
    simp only [State.pageStored, State.storePage, State.scramblePage, he, if_true, if_false, State.fsIdle,
      State.setFs, State.setNow, State.setFlash, State.setDraws, FsRegs.setPhase, Bool.false_eq_true]

theorem fillWriteBuffer_keeps (h : s.fsIdle.Operating a) : (fillWriteBuffer s).KeepsButFs a := by
  rcases fillWriteBuffer_spec s with ⟨-, e⟩ | ⟨-, e⟩ <;> rw [e]
  · rw [Run.KeepsButFs, Run.sat_done, twbFilled_fsIdle]
    exact (h.setTwb (wordsOfPage s.pb)).setNow (by simp)
  · rw [Run.KeepsButFs, Run.sat_lost]
    exact h.survives.congr (by simp) (by simp) (by simp) (by simp)

/-- What survives does not depend on the sequencer. -/
theorem State.Survives.of_fsIdle (h : s.fsIdle.Survives) : s.Survives := h.congr rfl rfl rfl rfl

theorem eraseStep_keeps (h : s.fsIdle.Operating a) {pa : Addr} (hpa : pa.toNat + pageSize ≤ userLimit) :
    (eraseStep pa s).KeepsButFs a := by
  rcases eraseStep_spec hpa with ⟨-, e⟩ | ⟨-, e⟩ | ⟨-, e⟩ <;> rw [e]
  · rw [Run.KeepsButFs, Run.sat_done, pageBlanked_fsIdle]
    exact (h.blankPage hpa).setNow (by simp)
  · exact h.survives.of_fsIdle
  · exact State.Survives.of_fsIdle (h.scramblePage hpa).survives

theorem writeStep_keeps (h : s.fsIdle.Operating a) {pa : Addr} (hpa : pa.toNat + pageSize ≤ userLimit) :
    (writeStep pa s).KeepsButFs a := by
  rcases writeStep_spec hpa with ⟨-, e⟩ | ⟨-, e⟩ | ⟨-, e⟩ <;> rw [e]
  · rw [Run.KeepsButFs, Run.sat_done, pageStored_fsIdle]
    exact (h.storePage hpa).setNow (by simp)
  · exact h.survives.of_fsIdle
  · exact State.Survives.of_fsIdle (h.scramblePage hpa).survives

/-- The last step of a flash operation puts the sequencer to rest. -/
theorem Run.KeepsButFs.idle {α β : Type} {r : Run α} (h : r.KeepsButFs a) (x : β) :
    (r.bind fun _ t => .done x t.fsIdle).Keeps a :=
  Run.Sat.bind h fun _ _ ht => ht

theorem State.Operating.fsIdle (h : s.Operating a) : s.fsIdle.Operating a := h.setFs rfl

theorem commitPage_keeps (h : s.Operating a) (addr : Addr) : (commitPage addr s).Keeps a := by
  cases hu : inUserRegion addr
  · rw [commitPage_rejected hu]
    exact h
  · have hpa := userPage_inside hu
    rw [commitPage_accepted hu]
    refine Run.Sat.bind (fillWriteBuffer_keeps (h.setFs rfl)) fun _ s1 h1 => ?_
    exact Run.Sat.bind (eraseStep_keeps h1 hpa) fun _ s2 h2 => (writeStep_keeps h2 hpa).idle true

theorem erasePage_keeps (h : s.Operating a) (addr : Addr) : (erasePage addr s).Keeps a := by
  cases hu : inUserRegion addr
  · rw [erasePage_rejected hu]
    exact h
  · rw [erasePage, if_pos hu]
    exact (eraseStep_keeps h.fsIdle (userPage_inside hu)).idle ()

theorem writePage_keeps (h : s.Operating a) (addr : Addr) : (writePage addr s).Keeps a := by
  cases hu : inUserRegion addr
  · rw [writePage_rejected hu]
    exact h
  · rw [writePage, if_pos hu]
    exact (writeStep_keeps h.fsIdle (userPage_inside hu)).idle ()

/-! ## The Command Processor -/

theorem State.Operating.runHash (h : s.Operating a) (bs : List Byte) : (s.runHash bs).Operating a := h.setH _

theorem respond_keeps (h : s.Operating a) (v : Byte) : (respond v s).Keeps a :=
  (advanceTo_keeps h (Nat.le_max_left _ _)).bind fun _ _ ht => sendByte_keeps ht v

theorem withChecksum_keeps (h : s.Operating a) {body : State → Run Unit} (req : List Byte) (ck : Byte)
    (hbody : ∀ t, t.Operating a → (body t).Keeps a) : (withChecksum req ck body s).Keeps a := by
  by_cases hck : ck = hashBytes req
  · rw [withChecksum_ok hck]
    exact hbody _ (h.setH _)
  · rw [withChecksum_bad hck]
    exact h.setH _

theorem respondPage_keeps (h : s.Operating a) (accepted : Bool) : (respondPage accepted s).Keeps a := by
  cases accepted
  · exact h
  · exact respond_keeps h _

theorem runRdbuf_keeps (h : s.Operating a) (idx ck : Byte) : (runRdbuf idx ck s).Keeps a :=
  withChecksum_keeps h _ _ fun t ht => by
    split
    · exact respond_keeps ht _
    · exact ht

theorem runWrbuf_keeps (h : s.Operating a) (idx val ck : Byte) : (runWrbuf idx val ck s).Keeps a :=
  withChecksum_keeps h _ _ fun t ht => by
    split
    · exact respond_keeps (ht.setPb _) _
    · exact ht

theorem runPwrstat_keeps (h : s.Operating a) (ck : Byte) : (runPwrstat ck s).Keeps a :=
  withChecksum_keeps h _ _ fun _ ht => (delay_keeps ht _).bind fun _ _ hu => respond_keeps (hu.setDraws _) _

theorem runHashbuf_keeps (h : s.Operating a) (ck : Byte) : (runHashbuf ck s).Keeps a :=
  withChecksum_keeps h _ _ fun _ ht => respond_keeps (ht.runHash _) _

theorem runFill_keeps (h : s.Operating a) (addr : Addr) (ck : Byte) : (runFill addr ck s).Keeps a :=
  withChecksum_keeps h _ _ fun _ ht => (fillPage_keeps ht addr).bind fun accepted _ hu => respondPage_keeps hu accepted

theorem runCommit_keeps (h : s.Operating a) (addr : Addr) (ck : Byte) : (runCommit addr ck s).Keeps a :=
  withChecksum_keeps h _ _ fun _ ht => (commitPage_keeps ht addr).bind fun accepted _ hu => respondPage_keeps hu accepted

theorem runRequest_keeps (h : s.Operating a) (r : Request) : (runRequest r s).Keeps a := by
  cases r with
  | rdbuf idx ck => exact runRdbuf_keeps h idx ck
  | wrbuf idx val ck => exact runWrbuf_keeps h idx val ck
  | pwrstat ck => exact runPwrstat_keeps h ck
  | hashbuf ck => exact runHashbuf_keeps h ck
  | fill addr ck => exact runFill_keeps h addr ck
  | commit addr ck => exact runCommit_keeps h addr ck
  | reserved0607 | reserved080F | reserved101F | reserved203F | reserved407F | reserved80FF => exact h

theorem recvOperands_keeps (h : s.Operating a) (n i : Nat) : (recvOperands n i s).Keeps a := by
  induction n generalizing i s with
  | zero => exact h
  | succ n ih =>
    refine (recvByte_keeps h _).bind fun r t ht => ?_
    cases r with
    | byte v => exact (ih (ht.setCp _) (i + 1)).bind fun _ _ hu => hu
    | timeout => exact ht
    | framing => exact ht

theorem recvChecksum_keeps (h : s.Operating a) : (recvChecksum s).Keeps a :=
  (recvByte_keeps h _).bind fun r t ht => by
    cases r with
    | byte v => exact ht.setCp _
    | timeout => exact ht
    | framing => exact ht

theorem recvRest_keeps (h : s.Operating a) (op : Byte) (n : Nat) : (recvRest op n s).Keeps a :=
  (recvOperands_keeps h n 0).bind fun args t ht => by
    cases args with
    | none => exact ht
    | some vs => exact (recvChecksum_keeps ht).bind fun _ _ hu => hu

theorem recvRequest_keeps (h : s.Operating a) : (recvRequest s).Keeps a :=
  (recvByte_keeps h _).bind fun r t ht => by
    cases r with
    | byte op =>
      dsimp only
      split
      · exact ht.setCp _
      · exact recvRest_keeps (ht.setCp _) _ _
    | timeout => exact ht
    | framing => exact ht

theorem cmdStep_keeps (h : s.Operating a) : (cmdStep s).Keeps a :=
  (recvRequest_keeps h).bind fun bytes t ht => by
    cases bytes with
    | none => exact ht
    | some bs =>
      dsimp only
      split
      · exact runRequest_keeps ht _
      · exact ht

/-! ## Reception of a packet -/

/-- What an operation of the caller interface may leave: with an answer the block is at work as before, without one it goes on
receiving a packet. -/
def OperationLeaves (r : Option Result) (t : State) : Prop :=
  match r with
  | some _ => t.Operating .caller
  | none => t.Inv ∧ t.rx.phase = .h1

/-- A packet is received only by a block that stands alone, while it is busy. -/
theorem State.Inv.inPacket_caller (h : s.Inv) (hp : s.rx.phase = .h1) : s.env.par.assembly = .caller ∧ s.busy = true := by
  rcases h.rxPhase with hidle | ⟨-, hcaller⟩
  · rw [hp] at hidle; cases hidle
  · exact hcaller

/-- A packet goes on with fewer than 8 bits of its byte in progress. -/
theorem State.Inv.receiving (h : s.Inv) (ha : s.env.par.assembly = .caller ∧ s.busy = true) {x : RxRegs}
    (hp : x.phase = .h1) (hw : x.wait ≤ 2 * S + PH) (hk : x.k < 8) : (s.setRx x).Inv :=
  { h with rxPhase := .inr ⟨hp, ha⟩, rxCounters := ⟨hw, Nat.le_of_lt hk, fun _ => hk⟩ }

/-- A data bit of a packet. -/
theorem State.Inv.takeDataBit (h : s.Inv) (hp : s.rx.phase = .h1) (b : Bool) : (takeDataBit b s).Inv := by
  obtain ⟨-, -, hbits⟩ := h.rxCounters
  have hk : s.rx.k < 8 := hbits hp
  have hk' : (Machine.takeDataBit b s).rx.k < 8 := by
    rw [takeDataBit_k]; split <;> omega
  have heq := takeDataBit_eq b s
  have hinv : (({ s with xb := (Machine.takeDataBit b s).xb } : State).setRx (Machine.takeDataBit b s).rx).Inv :=
    State.Inv.receiving (s := { s with xb := (Machine.takeDataBit b s).xb }) { h with } (h.inPacket_caller hp)
      (takeDataBit_phase b s) (by rw [takeDataBit_wait]; decide) hk'
  rw [heq]
  exact hinv

/-- The symbol that ends a packet leaves the block at work. -/
theorem State.Inv.packetEnded (h : s.Inv) (hp : s.rx.phase = .h1) (b : Bool) :
    (s.setRx (s.rx.packetEnded b)).Operating .caller := by
  obtain ⟨-, hk, -⟩ := h.rxCounters
  obtain ⟨hcaller, -⟩ := h.inPacket_caller hp
  exact ⟨h.setRx ⟨rfl, Nat.zero_le _, hk⟩, hcaller, nofun, rfl⟩

theorem recvSymbol_leaves (h : s.Inv) (hp : s.rx.phase = .h1) : (recvSymbol s).Sat OperationLeaves State.Survives := by
  have hlater : (s.setNow (s.now + s.rx.wait + S + 1)).Inv := h.setNow (by omega)
  rcases recvSymbol_spec s with ⟨-, e⟩ | ⟨-, ⟨-, -, e⟩ | ⟨-, -, e⟩ | ⟨-, e⟩⟩ <;> rw [e]
  · exact h.survives
  · exact hlater.packetEnded hp false
  · exact hlater.packetEnded hp true
  · exact ⟨hlater.takeDataBit hp _, takeDataBit_phase ..⟩

theorem recvSymbols_leaves (n : Nat) (h : s.Inv) (hp : s.rx.phase = .h1) :
    (recvSymbols n s).Sat OperationLeaves State.Survives := by
  induction n generalizing s with
  | zero => exact ⟨h, hp⟩
  | succ n ih =>
    refine (recvSymbol_leaves h hp).bind fun r t ht => ?_
    cases r with
    | some r => exact ht
    | none =>
      obtain ⟨hinv, hphase⟩ := ht
      exact ih hinv hphase

theorem searchPacket_leaves (h : s.Operating .caller) (hb : s.busy = true) (maxSize : Byte) :
    (searchPacket maxSize s).Sat OperationLeaves State.Survives := by
  unfold searchPacket
  split
  · refine Run.Sat.bind (advanceTo_keeps h (Nat.le_add_right _ _)) fun _ t ht => ?_
    obtain ⟨-, hwait, -⟩ := ht.rx_atRest
    exact ht.setRx ⟨rfl, hwait, Nat.zero_le _⟩
  · next t0 hfound =>
    obtain ⟨hnow, -⟩ := firstAsserted_eq_some.mp hfound
    refine Run.Sat.bind (D := fun _ t => t.Inv ∧ t.env.par.assembly = .caller ∧ t.busy = true)
      (advanceTo_sat (fun _ => ⟨h.inv.setNow (by omega), h.assembly, hb⟩) fun _ => h.survives)
      fun _ t ⟨hinv, hcaller⟩ => ?_
    exact ⟨hinv.receiving hcaller rfl (Nat.sub_le _ _) (Nat.zero_lt_succ _), rfl⟩

theorem recvPacket_leaves (h : s.Operating .caller) (hb : s.busy = true) (maxSize : Byte) :
    (recvPacket maxSize s).Sat OperationLeaves State.Survives := by
  refine (searchPacket_leaves h hb maxSize).bind fun r t ht => ?_
  cases r with
  | some r => exact ht
  | none =>
    obtain ⟨hinv, hphase⟩ := ht
    exact recvSymbols_leaves _ hinv hphase

/-! ## Instructions -/

/-- A run that keeps the block at work comes to a well-formed state. -/
theorem Run.Keeps.inv_of_outcome {α : Type} {r : Run α} (h : r.Keeps a) (e : r.outcome = .next t) : t.Inv := by
  obtain ⟨u, hu, ⟨_, -, hdone⟩ | ⟨w, -, hlost, rfl⟩⟩ := Run.Sat.outcome h
  · obtain rfl : u = t := by simpa [hu] using e
    exact hdone.inv
  · obtain rfl : w.takeReset = t := by simpa [hu] using e
    exact hlost.takeReset

/-- An operation of the Command Processor or of the transmitter keeps the block well formed. -/
theorem whileServing_inv {body : State → Run Unit} (h : s.Inv) (e : whileServing body s = .next t)
    (hbody : s.Operating s.env.par.assembly → (body s).Keeps s.env.par.assembly) : t.Inv := by
  rcases whileServing_spec body s with ⟨-, e'⟩ | ⟨hs, e'⟩ <;> rw [e'] at e
  · obtain rfl : s = t := by simpa using e
    exact h
  · exact (hbody (h.operating_of_serving hs)).inv_of_outcome e

/-- An operation of the caller interface keeps the block well formed. -/
theorem callerOp_inv {body : State → Run (Option Result)} (h : s.Inv) (e : callerOp body s = .next t)
    (hbody : (s.setBusy true).Operating .caller → (body (s.setBusy true)).Sat OperationLeaves State.Survives) : t.Inv := by
  rcases callerOp_spec body s with ⟨-, e'⟩ | ⟨hr, hrun⟩
  · obtain rfl : s = t := by simpa [e'] using e
    exact h
  · have hsat := hbody (h.operating_of_callerReady hr)
    rcases hrun with ⟨r, u, hb, e'⟩ | ⟨u, hb, e'⟩ | ⟨u, hb, e'⟩ | ⟨_, hb, -⟩ <;> rw [hb] at hsat
    · obtain rfl : u.complete r = t := by simpa [e'] using e
      exact State.Operating.complete hsat r
    · obtain rfl : u = t := by simpa [e'] using e
      exact hsat.1
    · obtain rfl : u.takeReset = t := by simpa [e'] using e
      exact State.Survives.takeReset hsat
    · exact hsat.elim

/-- A body that keeps the block at work, with the result of the operation. -/
theorem Run.Keeps.withResult {α : Type} {r : Run α} (h : r.Keeps .caller) (f : α → Result) :
    (r.withResult f).Sat OperationLeaves State.Survives :=
  Run.Sat.bind h fun _ _ ht => ht

/-- Every instruction keeps the block well formed, also when the power is lost. -/
theorem exec_inv (i : Instr) (h : s.Inv) (e : exec i s = .next t) : t.Inv := by
  cases i with
  | rdbuf idx ck => exact whileServing_inv h e fun hs => runRdbuf_keeps hs idx ck
  | wrbuf idx val ck => exact whileServing_inv h e fun hs => runWrbuf_keeps hs idx val ck
  | pwrstat ck => exact whileServing_inv h e fun hs => runPwrstat_keeps hs ck
  | hashbuf ck => exact whileServing_inv h e fun hs => runHashbuf_keeps hs ck
  | fill addr ck => exact whileServing_inv h e fun hs => runFill_keeps hs addr ck
  | commit addr ck => exact whileServing_inv h e fun hs => runCommit_keeps hs addr ck
  | reserved0607 | reserved080F | reserved101F | reserved203F | reserved407F | reserved80FF =>
    exact whileServing_inv (body := dropReserved) h e fun hs => hs
  | byteFrame v => exact whileServing_inv h e fun hs => sendByte_keeps hs v
  | symStop => exact whileServing_inv h e fun hs => sendSymbol_keeps hs stopCode
  | symD0 => exact whileServing_inv h e fun hs => sendSymbol_keeps hs d0Code
  | symD1 => exact whileServing_inv h e fun hs => sendSymbol_keeps hs d1Code
  | symStart => exact whileServing_inv h e fun hs => sendSymbol_keeps hs startCode
  | packet bytes => exact whileServing_inv h e fun hs => sendPacket_keeps hs bytes
  | nop => exact callerOp_inv h e fun hs => hs
  | opselReserved code => exact callerOp_inv h e fun hs => hs
  | sendByte v => exact callerOp_inv h ((exec_sendByte s v).symm.trans e) fun hs => (sendByte_keeps hs v).withResult _
  | recvByte timeout =>
    exact callerOp_inv h ((exec_recvByte s timeout).symm.trans e) fun hs => (recvByte_keeps hs _).withResult _
  | sendSym code =>
    exact callerOp_inv h ((exec_sendSym s code).symm.trans e) fun hs => (sendSymbol_keeps hs code).withResult _
  | sendPacket len =>
    exact callerOp_inv h ((exec_sendPacket s len).symm.trans e) fun hs => (sendPacket_keeps hs _).withResult _
  | recvPacket maxSize => exact callerOp_inv h e fun hs => recvPacket_leaves hs rfl maxSize
  | hash src len => exact callerOp_inv h ((exec_hash s src len).symm.trans e) fun hs => hs.runHash _
  | cmdStep =>
    exact callerOp_inv h ((exec_cmdStep s).symm.trans e) fun hs => (cmdStep_keeps hs).withResult _
  | fillPage addr =>
    exact callerOp_inv h ((exec_fillPage s addr).symm.trans e) fun hs => (fillPage_keeps hs addr).withResult _
  | commitPage addr =>
    exact callerOp_inv h ((exec_commitPage s addr).symm.trans e) fun hs => (commitPage_keeps hs addr).withResult _
  | erasePage addr =>
    exact callerOp_inv h ((exec_erasePage s addr).symm.trans e) fun hs => (erasePage_keeps hs addr).withResult _
  | writePage addr =>
    exact callerOp_inv h ((exec_writePage s addr).symm.trans e) fun hs => (writePage_keeps hs addr).withResult _

/-! ## The step -/

/-- Time passes from a well-formed state, and then `f` happens; or the power is lost. -/
theorem advanceTo_inv (h : s.Inv) {c : Nat} {f : State → State} (hf : (f (s.setNow c)).Inv)
    (e : ((advanceTo c s).bind fun _ u => .done () (f u)).outcome = .next t) : t.Inv := by
  rcases advanceTo_spec c s with ⟨-, e'⟩ | ⟨-, e'⟩ <;> rw [e'] at e
  · obtain rfl : s.takeReset = t := by simpa using e
    exact h.survives.takeReset
  · obtain rfl : f (s.setNow c) = t := by simpa using e
    exact hf

/-- A tick in which the block does nothing, or a wait. -/
theorem advanceTo_outcome_inv (h : s.Inv) {c : Nat} (hc : s.now ≤ c) (e : (advanceTo c s).outcome = .next t) : t.Inv := by
  rcases advanceTo_spec c s with ⟨-, e'⟩ | ⟨-, e'⟩ <;> rw [e'] at e
  · obtain rfl : s.takeReset = t := by simpa using e
    exact h.survives.takeReset
  · obtain rfl : s.setNow c = t := by simpa using e
    exact h.setNow hc

theorem idleStep_inv (h : s.Inv) (e : idleStep s = .next t) : t.Inv :=
  advanceTo_outcome_inv h (Nat.le_add_right _ _) e

/-- The window was seen asserted (70_reset_and_hazards.md R263). -/
theorem State.Inv.enterUpdate (h : s.Inv) (ha : s.env.par.assembly = .bootloader) (hm : s.mode = .bootCheck) :
    s.enterUpdate.Inv :=
  { h with
    bootUser := by simp [h.bootUser, hm]
    handedOver := by simp [h.handedOver, hm]
    lineReleased := fun _ hu => absurd rfl hu
    callerMode := fun hc => absurd (ha.symm.trans hc) (by decide) }

/-- The window was not seen asserted (R266). -/
theorem State.Inv.enterUserApp (h : s.Inv) (ha : s.env.par.assembly = .bootloader) (hm : s.mode = .bootCheck) :
    s.enterUserApp.Inv :=
  { h with
    bootUser := by simp
    handedOver := by simp
    lineReleased := fun _ _ => h.lineReleased ha (by rw [hm]; decide)
    callerMode := fun hc => absurd (ha.symm.trans hc) (by decide) }

theorem bootStep_inv (h : s.Inv) (ha : s.env.par.assembly = .bootloader) (hm : s.mode = .bootCheck)
    (e : bootStep s = .next t) : t.Inv := by
  unfold bootStep at e
  split at e
  · next p hp =>
    obtain ⟨hnow, -⟩ := firstAsserted_eq_some.mp hp
    have hle : s.now ≤ p + 1 := by omega
    exact advanceTo_inv h ((h.setNow hle).enterUpdate ha hm) e
  · have hle : s.now ≤ s.now + s.gracePolls := Nat.le_add_right _ _
    exact advanceTo_inv h ((h.setNow hle).enterUserApp ha hm) e

theorem commandStep_inv (h : s.Operating .bootloader) (e : commandStep s = .next t) : t.Inv := by
  have hreq := recvRequest_keeps h
  unfold commandStep at e
  split at e
  · next bs u hu =>
    rw [hu] at hreq
    split at e
    · exact exec_inv _ (State.Operating.inv hreq) e
    · cases e
  · next u hu =>
    rw [hu] at hreq
    cases e
    exact State.Operating.inv hreq
  · next u hu =>
    rw [hu] at hreq
    cases e
    exact State.Survives.takeReset hreq
  · cases e

theorem wireStep_inv (h : s.Inv) (e : wireStep s = .next t) : t.Inv := by
  unfold wireStep at e
  split at e
  · exact exec_inv _ (h.setTx (x := s.tx.unloaded) h.txAtRest) e
  · cases e

theorem callerStep_inv (h : s.Inv) (e : callerStep s = .next t) : t.Inv := by
  unfold callerStep at e
  split at e
  · exact idleStep_inv h e
  · split_ifs at e with hpast hnow
    · cases e
      exact h.popCall
    · exact exec_inv _ h.popCall e
    · refine advanceTo_outcome_inv h ?_ e
      simp only [State.clock] at hpast
      omega

theorem continuePacket_inv (h : s.Inv) (hp : s.inPacket = true) (e : continuePacket s = .next t) : t.Inv := by
  have hh : s.rx.phase = .h1 := by simpa [State.inPacket] using hp
  have hsat := recvSymbol_leaves h hh
  unfold continuePacket at e
  rcases hr : recvSymbol s with ⟨_ | r, u⟩ | u | f <;> rw [hr] at e hsat
  · cases e
    exact hsat.1
  · cases e
    exact State.Operating.complete hsat r
  · cases e
    exact State.Survives.takeReset hsat
  · exact hsat.elim

theorem servingStep_inv {next : State → Host.Outcome State Fault Refusal} (h : s.Inv) (e : servingStep next s = .next t)
    (hnext : s.inPacket = false → next s = .next t → t.Inv) : t.Inv := by
  unfold servingStep at e
  split_ifs at e with hp hw
  · exact continuePacket_inv h hp e
  · exact hnext (by simpa using hp) e
  · exact wireStep_inv h e

theorem poweredStep_inv (h : s.Inv) (e : poweredStep s = .next t) : t.Inv := by
  unfold poweredStep at e
  split at e
  · exact servingStep_inv h e fun _ => callerStep_inv h
  · next ha =>
    split at e
    · next hm => exact bootStep_inv h ha hm e
    · next hm => exact servingStep_inv h e fun hp => commandStep_inv ⟨h, ha, fun _ => hm, h.rx_idle hp⟩
    · exact idleStep_inv h e

end

/-- Settles O13: a reset that is due leaves a well-formed state, and so does whatever the block does next. -/
theorem stepKeepsInv : Obligations.StepKeepsInv := by
  unfold Obligations.StepKeepsInv
  intro s t h e
  unfold step at e
  split_ifs at e
  · cases e
    exact h.survives.takeReset
  · exact poweredStep_inv h e

/-- Settles O12: the first reset finds nothing in program memory and nothing in the log. -/
theorem resetMeetsInv : Obligations.ResetMeetsInv := by
  unfold Obligations.ResetMeetsInv
  exact {
    flashForm := rfl
    flashExtent := by simp [State.reset, State.powerUp]
    bootUser := by decide
    handedOver := rfl
    busyThroughout := fun _ => rfl
    lineReleased := fun _ _ => rfl
    callerMode := fun _ => rfl
    rxPhase := .inl rfl
    rxCounters := by decide
    txAtRest := by decide
    fsAtRest := rfl
    lineLogged := rfl
    logOrdered := by simp [State.LogOrdered, State.reset, State.powerUp] }

end Sys2Proof.Machine
end

section
/-! PROOFS. What each operation may write of FLASH, `PB`, `TWB` and `XB`, up to its completion or to a loss of power. -/
namespace Sys2Proof.Machine

open Sys2Proof.Config

/-- Which of FLASH and the buffers an operation may write. -/
structure Writes where
  flash : Bool := false
  pb : Bool := false
  twb : Bool := false
  xb : Bool := false

/-- `t` has the environment of `s`, and FLASH and the buffers of `s` but for those that `w` names. -/
structure Touched (w : Writes) (s t : State) : Prop where
  env : t.env = s.env
  flash : w.flash = false → t.flash = s.flash
  pb : w.pb = false → t.pb = s.pb
  twb : w.twb = false → t.twb = s.twb
  xb : w.xb = false → t.xb = s.xb

/-- The run touches no more than `w` names, whether it completes or the power is lost, which takes a reset to come. -/
def Run.Touches {α : Type} (w : Writes) (s : State) (r : Run α) : Prop :=
  r.Sat (fun _ t => Touched w s t) fun t => Touched w s t ∧ s.env.power ≠ []

section
variable {α β : Type} {w : Writes} {s t u : State}

/-- An update of other parts of the state. -/
theorem Touched.other (he : t.env = s.env) (hf : t.flash = s.flash) (hp : t.pb = s.pb) (ht : t.twb = s.twb)
    (hx : t.xb = s.xb) : Touched w s t :=
  ⟨he, fun _ => hf, fun _ => hp, fun _ => ht, fun _ => hx⟩

theorem Touched.refl (w : Writes) (s : State) : Touched w s s := .other rfl rfl rfl rfl rfl

theorem Touched.trans (h : Touched w s t) (h' : Touched w t u) : Touched w s u where
  env := h'.env.trans h.env
  flash hw := (h'.flash hw).trans (h.flash hw)
  pb hw := (h'.pb hw).trans (h.pb hw)
  twb hw := (h'.twb hw).trans (h.twb hw)
  xb hw := (h'.xb hw).trans (h.xb hw)

theorem Run.touches_done {x : α} (h : Touched w s t) : (Run.done x t).Touches w s := h

theorem Run.touches_lost (h : Touched w s t) (hp : s.env.power ≠ []) : (Run.lost t : Run α).Touches w s := ⟨h, hp⟩

/-! Updates that touch none of them. -/

theorem touched_setNow (w : Writes) (x : Nat) (s : State) : Touched w s (s.setNow x) := .other rfl rfl rfl rfl rfl
theorem touched_setLine (w : Writes) (v : Bool) (s : State) : Touched w s (s.setLine v) := .other rfl rfl rfl rfl rfl
theorem touched_setTx (w : Writes) (x : TxRegs) (s : State) : Touched w s (s.setTx x) := .other rfl rfl rfl rfl rfl
theorem touched_setRx (w : Writes) (x : RxRegs) (s : State) : Touched w s (s.setRx x) := .other rfl rfl rfl rfl rfl
theorem touched_setCp (w : Writes) (x : CpRegs) (s : State) : Touched w s (s.setCp x) := .other rfl rfl rfl rfl rfl
theorem touched_setFs (w : Writes) (x : FsRegs) (s : State) : Touched w s (s.setFs x) := .other rfl rfl rfl rfl rfl
theorem touched_setH (w : Writes) (x : Byte) (s : State) : Touched w s (s.setH x) := .other rfl rfl rfl rfl rfl
theorem touched_setDraws (w : Writes) (x : Nat) (s : State) : Touched w s (s.setDraws x) := .other rfl rfl rfl rfl rfl
theorem touched_setResult (w : Writes) (x : Result) (s : State) : Touched w s (s.setResult x) := .other rfl rfl rfl rfl rfl
theorem touched_setBusy (w : Writes) (x : Bool) (s : State) : Touched w s (s.setBusy x) := .other rfl rfl rfl rfl rfl
theorem touched_complete (w : Writes) (r : Result) (s : State) : Touched w s (s.complete r) := .other rfl rfl rfl rfl rfl

/-- A run that begins after an update. -/
theorem Run.Touches.after {r : Run α} (h : r.Touches w t) (hst : Touched w s t) : r.Touches w s :=
  Run.Sat.mono h (fun _ _ hu => hst.trans hu) fun _ ⟨hu, hp⟩ => ⟨hst.trans hu, hst.env ▸ hp⟩

theorem Run.Touches.bind {r : Run α} {f : α → State → Run β} (h : r.Touches w s)
    (hf : ∀ x t, (f x t).Touches w t) : (r.bind f).Touches w s :=
  Run.Sat.bind h fun x t ht => (hf x t).after ht

/-- A loss of power takes a reset to come. -/
theorem power_ne_nil_of_lossBefore {c : Nat} (h : s.lossBefore c = true) : s.env.power ≠ [] := by
  intro hnil
  rw [lossBefore_of_power hnil] at h
  cases h

/-- A flash step that does not complete takes a reset to come. -/
theorem power_ne_nil_of_flashCut {phase : FsPhase} {dur : Nat} (h : s.flashCut phase dur ≠ .completes) :
    s.env.power ≠ [] :=
  fun hnil => h (flashCut_completes hnil)

/-! ## Time and the line -/

theorem advanceTo_touches (w : Writes) (c : Nat) (s : State) : (advanceTo c s).Touches w s :=
  advanceTo_sat (fun _ => touched_setNow w c s) fun h => ⟨.refl w s, power_ne_nil_of_lossBefore h⟩

theorem delay_touches (w : Writes) (n : Nat) (s : State) : (delay n s).Touches w s := advanceTo_touches w _ s

theorem driveSlots_touches (w : Writes) (ls : List Bool) (s : State) : (driveSlots ls s).Touches w s := by
  induction ls generalizing s with
  | nil => exact .refl w s
  | cons v vs ih => exact ((delay_touches w S (s.setLine v)).bind fun _ t => ih t).after (touched_setLine w v s)

/-- A transmission with the transmit registers set before and after it. -/
theorem transmit_touches (w : Writes) (ls : List Bool) (s : State) (x : TxRegs) (f : TxRegs → TxRegs) :
    ((driveSlots ls (s.setTx x)).bind fun _ t => .done () (t.setTx (f t.tx))).Touches w s :=
  ((driveSlots_touches w ls (s.setTx x)).bind fun _ t => Run.touches_done (touched_setTx w (f t.tx) t)).after
    (touched_setTx w x s)

theorem sendByte_touches (w : Writes) (v : Byte) (s : State) : (sendByte v s).Touches w s :=
  transmit_touches w _ s _ (TxRegs.stop 9)

theorem sendSymbol_touches (w : Writes) (code : BitVec 2) (s : State) : (sendSymbol code s).Touches w s :=
  transmit_touches w _ s _ (TxRegs.stop 1)

theorem sendPacket_touches (w : Writes) (bytes : List Byte) (s : State) : (sendPacket bytes s).Touches w s :=
  transmit_touches w _ s _ fun tx => (tx.stop 1).packetSent bytes

theorem recvByte_touches (w : Writes) (n : Nat) (s : State) : (recvByte n s).Touches w s := by
  unfold recvByte
  split
  · exact (advanceTo_touches w _ s).bind fun _ t => (touched_setRx w _ t).trans (touched_setResult w _ _)
  · exact (advanceTo_touches w _ s).bind fun _ t => (touched_setRx w _ t).trans (touched_setResult w _ _)

/-! ## The flash sequencer -/

theorem touched_setPb (hw : w.pb = true) (s : State) (x : PageBuffer) : Touched w s (s.setPb x) :=
  { Touched.refl w s with pb := fun h => by rw [hw] at h; cases h }

theorem touched_setTwb (hw : w.twb = true) (s : State) (x : WriteBuffer) : Touched w s (s.setTwb x) :=
  { Touched.refl w s with twb := fun h => by rw [hw] at h; cases h }

theorem touched_setFlash (hw : w.flash = true) (s : State) (x : Memory) : Touched w s (s.setFlash x) :=
  { Touched.refl w s with flash := fun h => by rw [hw] at h; cases h }

theorem touched_scramblePage (hw : w.flash = true) (s : State) (pa : Nat) : Touched w s (s.scramblePage pa) :=
  (touched_setFlash hw s _).trans (touched_setDraws w _ _)

theorem touched_storePage (hw : w.flash = true) (s : State) (pa : Nat) : Touched w s (s.storePage pa) := by
  unfold State.storePage
  split
  · exact touched_setFlash hw s _
  · exact touched_scramblePage hw s pa

theorem fillPage_touches (hw : w.pb = true) (addr : Addr) (s : State) : (fillPage addr s).Touches w s := by
  have hpb := touched_setPb hw s (s.pageAt addr.toNat)
  rcases fillPage_spec addr s with ⟨-, e⟩ | ⟨-, ⟨-, e⟩ | ⟨hl, e⟩⟩ <;> rw [e]
  · exact Run.touches_done (.refl w s)
  · exact hpb.trans (touched_setNow w _ _)
  · exact Run.touches_lost hpb (power_ne_nil_of_lossBefore hl)

theorem fillWriteBuffer_touches (hw : w.twb = true) (s : State) : (fillWriteBuffer s).Touches w s :=
  (delay_touches w s.env.par.tTwb ((s.setTwb (wordsOfPage s.pb)).setFs (s.fs.setPhase .fill))).after
    ((touched_setTwb hw s (wordsOfPage s.pb)).trans (touched_setFs w _ _))

theorem eraseStep_touches (hw : w.flash = true) {pa : Addr} (hpa : pa.toNat + pageSize ≤ userLimit) (s : State) :
    (eraseStep pa s).Touches w s := by
  rcases eraseStep_spec hpa with ⟨-, e⟩ | ⟨hc, e⟩ | ⟨hc, e⟩ <;> rw [e]
  · exact ((touched_setFlash hw s _).trans (touched_setNow w _ _)).trans (touched_setFs w _ _)
  · exact Run.touches_lost (.refl w s) (power_ne_nil_of_flashCut (by rw [hc]; decide))
  · exact Run.touches_lost (touched_scramblePage hw s _) (power_ne_nil_of_flashCut (by rw [hc]; decide))

theorem writeStep_touches (hw : w.flash = true) {pa : Addr} (hpa : pa.toNat + pageSize ≤ userLimit) (s : State) :
    (writeStep pa s).Touches w s := by
  rcases writeStep_spec hpa with ⟨-, e⟩ | ⟨hc, e⟩ | ⟨hc, e⟩ <;> rw [e]
  · exact ((touched_storePage hw s _).trans (touched_setNow w _ _)).trans (touched_setFs w _ _)
  · exact Run.touches_lost (.refl w s) (power_ne_nil_of_flashCut (by rw [hc]; decide))
  · exact Run.touches_lost (touched_scramblePage hw s _) (power_ne_nil_of_flashCut (by rw [hc]; decide))

/-- The sequencer comes to rest. -/
theorem fsIdle_touches {x : α} (w : Writes) (s : State) : (Run.done x s.fsIdle).Touches w s :=
  touched_setFs w _ s

theorem commitPage_touches (hf : w.flash = true) (ht : w.twb = true) (addr : Addr) (s : State) :
    (commitPage addr s).Touches w s := by
  cases hu : inUserRegion addr
  · rw [commitPage_rejected hu]
    exact Run.touches_done (.refl w s)
  · have hpa := userPage_inside hu
    rw [commitPage_accepted hu]
    refine ((fillWriteBuffer_touches ht _).bind fun _ s1 => ?_).after (touched_setFs w _ s)
    exact (eraseStep_touches hf hpa s1).bind fun _ s2 => (writeStep_touches hf hpa s2).bind fun _ s3 => fsIdle_touches w s3

theorem erasePage_touches (hf : w.flash = true) (addr : Addr) (s : State) : (erasePage addr s).Touches w s := by
  cases hu : inUserRegion addr
  · rw [erasePage_rejected hu]
    exact Run.touches_done (.refl w s)
  · rw [erasePage, if_pos hu]
    exact (eraseStep_touches hf (userPage_inside hu) s).bind fun _ t => fsIdle_touches w t

theorem writePage_touches (hf : w.flash = true) (addr : Addr) (s : State) : (writePage addr s).Touches w s := by
  cases hu : inUserRegion addr
  · rw [writePage_rejected hu]
    exact Run.touches_done (.refl w s)
  · rw [writePage, if_pos hu]
    exact (writeStep_touches hf (userPage_inside hu) s).bind fun _ t => fsIdle_touches w t

/-! ## The Command Processor -/

theorem respond_touches (w : Writes) (v : Byte) (s : State) : (respond v s).Touches w s :=
  (advanceTo_touches w _ s).bind fun _ t => sendByte_touches w v t

theorem respondPage_touches (w : Writes) (accepted : Bool) (s : State) : (respondPage accepted s).Touches w s := by
  cases accepted
  · exact Run.touches_done (.refl w s)
  · exact respond_touches w _ s

theorem withChecksum_touches {body : State → Run Unit} (hbody : ∀ t, (body t).Touches w t) (req : List Byte) (ck : Byte)
    (s : State) : (withChecksum req ck body s).Touches w s := by
  by_cases hck : ck = hashBytes req
  · rw [withChecksum_ok hck]
    exact (hbody _).after (touched_setH w ck s)
  · rw [withChecksum_bad hck]
    exact touched_setH w _ s

theorem runRdbuf_touches (w : Writes) (idx ck : Byte) (s : State) : (runRdbuf idx ck s).Touches w s :=
  withChecksum_touches (fun t => by
    split
    · exact respond_touches w _ t
    · exact Run.touches_done (.refl w t)) _ _ s

theorem runWrbuf_touches (hw : w.pb = true) (idx val ck : Byte) (s : State) : (runWrbuf idx val ck s).Touches w s :=
  withChecksum_touches (fun t => by
    split
    · exact (respond_touches w _ _).after (touched_setPb hw t _)
    · exact Run.touches_done (.refl w t)) _ _ s

theorem runPwrstat_touches (w : Writes) (ck : Byte) (s : State) : (runPwrstat ck s).Touches w s :=
  withChecksum_touches (fun t => (delay_touches w _ t).bind fun _ u =>
    (respond_touches w (adcSample u.draws) _).after (touched_setDraws w (u.draws + 1) u)) _ _ s

theorem runHashbuf_touches (w : Writes) (ck : Byte) (s : State) : (runHashbuf ck s).Touches w s :=
  withChecksum_touches (fun t => (respond_touches w (t.runHash t.pb.toList).h (t.runHash t.pb.toList)).after
    (touched_setH w _ t)) _ _ s

theorem runFill_touches (hw : w.pb = true) (addr : Addr) (ck : Byte) (s : State) : (runFill addr ck s).Touches w s :=
  withChecksum_touches (fun t => (fillPage_touches hw addr t).bind fun accepted u => respondPage_touches w accepted u) _ _ s

theorem runCommit_touches (hf : w.flash = true) (ht : w.twb = true) (addr : Addr) (ck : Byte) (s : State) :
    (runCommit addr ck s).Touches w s :=
  withChecksum_touches
    (fun t => (commitPage_touches hf ht addr t).bind fun accepted u => respondPage_touches w accepted u) _ _ s

theorem runRequest_touches (hf : w.flash = true) (hp : w.pb = true) (ht : w.twb = true) (r : Request) (s : State) :
    (runRequest r s).Touches w s := by
  cases r with
  | rdbuf idx ck => exact runRdbuf_touches w idx ck s
  | wrbuf idx val ck => exact runWrbuf_touches hp idx val ck s
  | pwrstat ck => exact runPwrstat_touches w ck s
  | hashbuf ck => exact runHashbuf_touches w ck s
  | fill addr ck => exact runFill_touches hp addr ck s
  | commit addr ck => exact runCommit_touches hf ht addr ck s
  | reserved0607 | reserved080F | reserved101F | reserved203F | reserved407F | reserved80FF =>
    exact Run.touches_done (.refl w s)

theorem recvOperands_touches (w : Writes) (n i : Nat) (s : State) : (recvOperands n i s).Touches w s := by
  induction n generalizing i s with
  | zero => exact Run.touches_done (.refl w s)
  | succ n ih =>
    refine (recvByte_touches w _ s).bind fun r t => ?_
    cases r with
    | byte v =>
      exact ((ih (i + 1) _).bind fun _ u => Run.touches_done (.refl w u)).after (touched_setCp w _ t)
    | timeout => exact Run.touches_done (.refl w t)
    | framing => exact Run.touches_done (.refl w t)

theorem recvChecksum_touches (w : Writes) (s : State) : (recvChecksum s).Touches w s :=
  (recvByte_touches w _ s).bind fun r t => by
    cases r with
    | byte v => exact touched_setCp w _ t
    | timeout => exact Run.touches_done (.refl w t)
    | framing => exact Run.touches_done (.refl w t)

theorem recvRest_touches (w : Writes) (op : Byte) (n : Nat) (s : State) : (recvRest op n s).Touches w s :=
  (recvOperands_touches w n 0 s).bind fun args t => by
    cases args with
    | none => exact Run.touches_done (.refl w t)
    | some vs => exact (recvChecksum_touches w t).bind fun _ u => Run.touches_done (.refl w u)

theorem recvRequest_touches (w : Writes) (s : State) : (recvRequest s).Touches w s :=
  (recvByte_touches w _ s).bind fun r t => by
    cases r with
    | byte op =>
      have hop := touched_setCp w (t.cp.setOp op) t
      dsimp only
      split
      · exact Run.touches_done hop
      · exact (recvRest_touches w op _ _).after hop
    | timeout => exact Run.touches_done (.refl w t)
    | framing => exact Run.touches_done (.refl w t)

theorem cmdStep_touches (hf : w.flash = true) (hp : w.pb = true) (ht : w.twb = true) (s : State) :
    (cmdStep s).Touches w s :=
  (recvRequest_touches w s).bind fun bytes t => by
    cases bytes with
    | none => exact Run.touches_done (.refl w t)
    | some bs =>
      dsimp only
      split
      · exact runRequest_touches hf hp ht _ t
      · exact Run.touches_done (.refl w t)

/-! ## Reception of a packet -/

theorem touched_takeDataBit (hw : w.xb = true) (b : Bool) (s : State) : Touched w s (takeDataBit b s) where
  env := takeDataBit_env b s
  flash _ := takeDataBit_flash b s
  pb _ := takeDataBit_pb b s
  twb _ := takeDataBit_twb b s
  xb h := by rw [hw] at h; cases h

theorem recvSymbol_touches (hw : w.xb = true) (s : State) : (recvSymbol s).Touches w s := by
  rcases recvSymbol_spec s with ⟨hl, e⟩ | ⟨-, ⟨-, -, e⟩ | ⟨-, -, e⟩ | ⟨-, e⟩⟩ <;> rw [e]
  · exact Run.touches_lost (.refl w s) (power_ne_nil_of_lossBefore hl)
  · exact (touched_setNow w _ s).trans (touched_setRx w _ _)
  · exact (touched_setNow w _ s).trans (touched_setRx w _ _)
  · exact (touched_setNow w _ s).trans (touched_takeDataBit hw _ _)

theorem recvSymbols_touches (hw : w.xb = true) (n : Nat) (s : State) : (recvSymbols n s).Touches w s := by
  induction n generalizing s with
  | zero => exact Run.touches_done (.refl w s)
  | succ n ih =>
    refine (recvSymbol_touches hw s).bind fun r t => ?_
    cases r with
    | some r => exact Run.touches_done (.refl w t)
    | none => exact ih t

theorem searchPacket_touches (w : Writes) (maxSize : Byte) (s : State) : (searchPacket maxSize s).Touches w s := by
  unfold searchPacket
  split
  · exact (advanceTo_touches w _ s).bind fun _ t => touched_setRx w _ t
  · exact (advanceTo_touches w _ s).bind fun _ t => touched_setRx w _ t

theorem recvPacket_touches (hw : w.xb = true) (maxSize : Byte) (s : State) : (recvPacket maxSize s).Touches w s :=
  (searchPacket_touches w maxSize s).bind fun r t => by
    cases r with
    | some r => exact Run.touches_done (.refl w t)
    | none => exact recvSymbols_touches hw _ t

/-! ## Instructions -/

theorem withResult_touches {r : Run α} (h : r.Touches w s) (f : α → Result) : (r.withResult f).Touches w s :=
  h.bind fun _ t => Run.touches_done (.refl w t)

/-- `t` is where an operation begun in `s` has come that touches no more than `w` names: its completion, or a reset that
found it at work. -/
def EndsTouched (w : Writes) (s t : State) : Prop :=
  Touched w s t ∨ ∃ u, Touched w s u ∧ s.env.power ≠ [] ∧ t = u.takeReset

theorem Run.Touches.endsTouched {r : Run α} (h : r.Touches w s) (e : r.outcome = .next t) : EndsTouched w s t := by
  obtain ⟨u, hu, ⟨_, -, hdone⟩ | ⟨v, -, ⟨hlost, hp⟩, rfl⟩⟩ := Run.Sat.outcome h
  · obtain rfl : u = t := by simpa [hu] using e
    exact .inl hdone
  · obtain rfl : v.takeReset = t := by simpa [hu] using e
    exact .inr ⟨v, hlost, hp, rfl⟩

theorem whileServing_endsTouched {body : State → Run Unit} (hbody : (body s).Touches w s)
    (e : whileServing body s = .next t) : EndsTouched w s t := by
  rcases whileServing_spec body s with ⟨-, e'⟩ | ⟨-, e'⟩ <;> rw [e'] at e
  · cases e
    exact .inl (.refl w s)
  · exact hbody.endsTouched e

theorem callerOp_endsTouched {body : State → Run (Option Result)} (hbody : ∀ u, (body u).Touches w u)
    (e : callerOp body s = .next t) : EndsTouched w s t := by
  unfold callerOp at e
  split at e
  · refine Run.Touches.endsTouched (((hbody _).bind fun r u => ?_).after (touched_setBusy w true s)) e
    cases r with
    | none => exact Run.touches_done (.refl w u)
    | some r => exact touched_complete w r u
  · cases e
    exact .inl (.refl w s)
end

/-- What an instruction may write of FLASH and the buffers: `PB` is written by `WRBUF`, `FILL` and `FILL_PAGE`
(43_command_processor.md R189), `TWB` and FLASH by a commit (10_state.md R30), FLASH by an erase and a write (R44), `XB` by
`RECV_PACKET` (R31); `CMD_STEP` executes a command. -/
def writesOf : Instr → Writes
  | .wrbuf _ _ _ | .fill _ _ | .fillPage _ => { pb := true }
  | .commit _ _ | .commitPage _ => { flash := true, twb := true }
  | .erasePage _ | .writePage _ => { flash := true }
  | .recvPacket _ => { xb := true }
  | .cmdStep => { flash := true, pb := true, twb := true }
  | _ => {}

/-- Every instruction touches no more than `writesOf` names. -/
theorem exec_endsTouched {i : Instr} {s t : State} (e : exec i s = .next t) : EndsTouched (writesOf i) s t := by
  cases i with
  | rdbuf idx ck => exact whileServing_endsTouched (runRdbuf_touches _ idx ck s) e
  | wrbuf idx val ck => exact whileServing_endsTouched (runWrbuf_touches rfl idx val ck s) e
  | pwrstat ck => exact whileServing_endsTouched (runPwrstat_touches _ ck s) e
  | hashbuf ck => exact whileServing_endsTouched (runHashbuf_touches _ ck s) e
  | fill addr ck => exact whileServing_endsTouched (runFill_touches rfl addr ck s) e
  | commit addr ck => exact whileServing_endsTouched (runCommit_touches rfl rfl addr ck s) e
  | reserved0607 | reserved080F | reserved101F | reserved203F | reserved407F | reserved80FF =>
    exact whileServing_endsTouched (body := dropReserved) (Run.touches_done (.refl _ s)) e
  | byteFrame v => exact whileServing_endsTouched (sendByte_touches _ v s) e
  | symStop => exact whileServing_endsTouched (sendSymbol_touches _ stopCode s) e
  | symD0 => exact whileServing_endsTouched (sendSymbol_touches _ d0Code s) e
  | symD1 => exact whileServing_endsTouched (sendSymbol_touches _ d1Code s) e
  | symStart => exact whileServing_endsTouched (sendSymbol_touches _ startCode s) e
  | packet bytes => exact whileServing_endsTouched (sendPacket_touches _ bytes s) e
  | nop => exact callerOp_endsTouched (fun u => Run.touches_done (.refl _ u)) ((exec_nop s).symm.trans e)
  | opselReserved code =>
    exact callerOp_endsTouched (fun u => Run.touches_done (.refl _ u)) ((exec_opselReserved s code).symm.trans e)
  | sendByte v =>
    exact callerOp_endsTouched (fun u => withResult_touches (sendByte_touches _ v u) _) ((exec_sendByte s v).symm.trans e)
  | recvByte timeout =>
    exact callerOp_endsTouched (fun u => withResult_touches (recvByte_touches _ _ u) _)
      ((exec_recvByte s timeout).symm.trans e)
  | sendSym code =>
    exact callerOp_endsTouched (fun u => withResult_touches (sendSymbol_touches _ code u) _)
      ((exec_sendSym s code).symm.trans e)
  | sendPacket len =>
    exact callerOp_endsTouched (fun u => withResult_touches (sendPacket_touches _ _ u) _)
      ((exec_sendPacket s len).symm.trans e)
  | recvPacket maxSize =>
    exact callerOp_endsTouched (fun u => recvPacket_touches rfl maxSize u) ((exec_recvPacket s maxSize).symm.trans e)
  | hash src len =>
    exact callerOp_endsTouched (fun u => Run.touches_done (touched_setH _ (hashBytes (hashInput src len u.pb u.xb)) u))
      ((exec_hash s src len).symm.trans e)
  | cmdStep =>
    exact callerOp_endsTouched (fun u => withResult_touches (cmdStep_touches rfl rfl rfl u) _)
      ((exec_cmdStep s).symm.trans e)
  | fillPage addr =>
    exact callerOp_endsTouched (fun u => withResult_touches (fillPage_touches rfl addr u) _)
      ((exec_fillPage s addr).symm.trans e)
  | commitPage addr =>
    exact callerOp_endsTouched (fun u => withResult_touches (commitPage_touches rfl rfl addr u) _)
      ((exec_commitPage s addr).symm.trans e)
  | erasePage addr =>
    exact callerOp_endsTouched (fun u => withResult_touches (erasePage_touches rfl addr u) _)
      ((exec_erasePage s addr).symm.trans e)
  | writePage addr =>
    exact callerOp_endsTouched (fun u => withResult_touches (writePage_touches rfl addr u) _)
      ((exec_writePage s addr).symm.trans e)

/-- A reset that found an operation at work is the next one. -/
theorem Touched.tookReset {w : Writes} {s u : State} (h : Touched w s u) (hp : s.env.power ≠ []) :
    TookReset s u.takeReset :=
  ⟨hp, by rw [takeReset_power, h.env], rfl, rfl⟩

/-- Settles O53: what `writesOf` does not name is as it was, or a reset was taken. -/
theorem bufferWriters : Obligations.BufferWriters := by
  unfold Obligations.BufferWriters
  intro i s t e
  rcases exec_endsTouched e with h | ⟨u, h, hp, rfl⟩
  · obtain ⟨-, -, hpb, htwb, hxb⟩ := h
    refine .inr ⟨?_, ?_, ?_⟩
    · cases i <;> first | trivial | exact hpb rfl
    · cases i <;> first | trivial | exact htwb rfl
    · cases i <;> first | trivial | exact hxb rfl
  · exact .inl (h.tookReset hp)

/-- Settles O54: FLASH is what it was at the completion or at the loss of power, and a reset retains it (10_state.md R38). -/
theorem onlyFlashOperationsWrite : Obligations.OnlyFlashOperationsWrite := by
  unfold Obligations.OnlyFlashOperationsWrite
  intro i s t e hi
  have hw : (writesOf i).flash = false := by
    cases i <;> first | rfl | exact hi.elim
  have hflash : t.flash = s.flash := by
    rcases exec_endsTouched e with h | ⟨u, h, -, rfl⟩
    · exact h.flash hw
    · exact h.flash hw
  intro a
  rw [hflash]

end Sys2Proof.Machine
end

section
/-! PROOFS. What a step runs, what a reset leaves, which requests are ignored, and the response of PWRSTAT. -/
namespace Sys2Proof.Machine

open Sys2Proof.Config

section
variable {s u : State} {i : Instr}

/-! ## What a step runs -/

/-- Where no reset is due a step is what the block does next. -/
theorem step_of_no_loss (h : s.lossDue = false) : step s = poweredStep s := by
  simp [step, h]

/-- A block that serves drives a loaded wire form. -/
theorem servingStep_wire {next : State → Host.Outcome State Fault Refusal} (hp : s.inPacket = false)
    (hw : s.tx.wire ≠ []) : servingStep next s = wireStep s := by
  simp [servingStep, hp, hw]

/-- A block that serves and has nothing loaded waits for what `next` brings. -/
theorem servingStep_next {next : State → Host.Outcome State Fault Refusal} (hp : s.inPacket = false)
    (hw : s.tx.wire = []) : servingStep next s = next s := by
  simp [servingStep, hp, hw]

theorem commandStep_received {bs : List Byte} (hr : recvRequest s = .done (some bs) u)
    (hd : decode (.bytes bs) = .ok i) : commandStep s = exec i u := by
  rw [commandStep, hr]
  dsimp only
  rw [hd]

theorem wireStep_loaded (hd : decode (.slots s.tx.wire) = .ok i) : wireStep s = exec i (s.setTx s.tx.unloaded) := by
  rw [wireStep, hd]

theorem callerStep_presented {c : TimedCall} {cs : List TimedCall} (hc : s.env.calls = c :: cs) (ht : c.tick = s.clock) :
    callerStep s = exec (decodeCall c.call) s.popCall := by
  simp [callerStep, hc, ht]

/-- In the assembly without a boot sequence the block serves the caller interface. -/
theorem poweredStep_caller (ha : s.env.par.assembly = .caller) : poweredStep s = servingStep callerStep s := by
  simp [poweredStep, ha]

/-- In update mode the block runs the command loop. -/
theorem poweredStep_update (ha : s.env.par.assembly = .bootloader) (hm : s.mode = .update) :
    poweredStep s = servingStep commandStep s := by
  simp [poweredStep, ha, hm]

/-- A block that serves and has a wire form loaded drives it, in either assembly. -/
theorem poweredStep_wire (hs : s.serving = true) (hw : s.tx.wire ≠ []) : poweredStep s = wireStep s := by
  obtain ⟨hmode, hp⟩ := serving_iff.mp hs
  cases ha : s.env.par.assembly with
  | caller => rw [poweredStep_caller ha, servingStep_wire hp hw]
  | bootloader =>
    have hm : s.mode = .update := hmode.resolve_left (by rw [ha]; decide)
    rw [poweredStep_update ha hm, servingStep_wire hp hw]

/-! ## A reset that is due -/

/-- Only where the caller interface is served a request comes before a reset of its tick (log entry 30). -/
theorem requestFirst_bootloader (ha : s.env.par.assembly = .bootloader) : s.requestFirst = false := by
  unfold State.requestFirst
  split
  · rfl
  · simp [State.callerReady, ha]

theorem step_of_loss (h : s.lossDue = true) (hr : s.requestFirst = false) : step s = .next s.takeReset := by
  simp [step, h, hr]
end

/-! ## The statements -/

/-- Settles O6, presentation by presentation. -/
theorem stepRunsDecoded : Obligations.StepRunsDecoded := by
  unfold Obligations.StepRunsDecoded
  refine ⟨fun s u bs i hs hr hd => ?_, fun s c cs ha hl hp hw hc ht => ⟨?_, rfl⟩, fun s i hs hl hw hd => ?_⟩
  · have hl : s.lossDue = false := lossBefore_of_power hs.power _
    rw [step_of_no_loss hl, poweredStep_update hs.assembly hs.mode, servingStep_next hs.packet hs.wire,
      commandStep_received hr hd]
  · rw [step_of_no_loss hl, poweredStep_caller ha, servingStep_next hp hw, callerStep_presented hc ht]
  · rw [step_of_no_loss hl, poweredStep_wire hs hw, wireStep_loaded hd]

/-- Settles O10: the step takes the reset, and `State.takeReset` says what it leaves. -/
theorem resetState : Obligations.ResetState := by
  unfold Obligations.ResetState
  intro s hl
  refine ⟨requestFirst_bootloader, fun hr => ⟨s.takeReset, step_of_loss hl hr, ?_, ?_⟩⟩
  · exact ⟨power_ne_nil_of_lossBefore hl, rfl, rfl, rfl⟩
  · exact ⟨rfl, rfl, rfl, fun ha => by rw [takeReset_busy, ha]; rfl, rfl, rfl, rfl, rfl, rfl, rfl⟩

/-- A request that is accepted and does nothing leaves its result. -/
theorem callerOp_at_once {s : State} (h : s.callerReady = true) (r : Result) :
    callerOp (fun t => .done (some r) t) s = .next { s with result := r } := by
  obtain ⟨-, hbusy⟩ := callerReady_iff.mp h
  have hend : (s.setBusy true).complete r = { s with result := r, busy := s.busy } := by rw [hbusy]; rfl
  exact hend ▸ callerOp_done h rfl

/-- Settles O18: NOP and the reserved codes have one meaning. -/
theorem nopCompletes : Obligations.NopCompletes := by
  unfold Obligations.NopCompletes
  intro s h
  exact ⟨callerOp_at_once h 0#16, fun _ => callerOp_at_once h 0#16⟩

/-- Whatever a request decodes to is an operation of the caller interface (10_state.md R42). -/
theorem exec_decodeCall (c : Call) (s : State) : ∃ body, exec (decodeCall c) s = callerOp body s := by
  unfold decodeCall
  split
  · exact ⟨_, exec_nop s⟩
  · exact ⟨_, exec_sendByte s _⟩
  · exact ⟨_, exec_recvByte s _⟩
  · exact ⟨_, exec_sendSym s _⟩
  · exact ⟨_, exec_sendPacket s _⟩
  · exact ⟨_, exec_recvPacket s _⟩
  · exact ⟨_, exec_hash s _ _⟩
  · exact ⟨_, exec_cmdStep s⟩
  · exact ⟨_, exec_fillPage s _⟩
  · exact ⟨_, exec_commitPage s _⟩
  · exact ⟨_, exec_erasePage s _⟩
  · exact ⟨_, exec_writePage s _⟩
  · exact ⟨_, exec_opselReserved s _⟩

/-- Settles O19: an operation of the caller interface that is not accepted is ignored. -/
theorem busyCallIgnored : Obligations.BusyCallIgnored := by
  unfold Obligations.BusyCallIgnored
  intro c s h
  obtain ⟨body, hexec⟩ := exec_decodeCall c s
  rw [hexec, callerOp_ignored h]

/-- The time a response has waited for is no part of what it changes. -/
theorem responded_setNow {v : Byte} {ts n : Nat} {s t : State} (h : Responded v ts (s.setNow n) t) : Responded v ts s t := h

/-- PWRSTAT with the right checksum and the power on: the sample is taken, then it is sent (43_command_processor.md R190). -/
theorem runPwrstat_ok {ck : Byte} {s : State} (hck : ck = hashBytes [0x02#8])
    (hl : s.lossBefore (s.now + s.env.par.tAdc) = false) :
    runPwrstat ck s =
      respond (adcSample s.draws) (((s.setH ck).setDraws (s.draws + 1)).setNow (s.now + s.env.par.tAdc)) := by
  rw [runPwrstat, withChecksum_ok hck, setH_env, delay_ok (s := s.setH ck) hl]
  rfl

/-- Settles O38: the sample ends before the response begins, which ends before the next reset. -/
theorem pwrstatResponds : Obligations.PwrstatResponds := by
  unfold Obligations.PwrstatResponds
  intro ck s hs hck hl
  have hsample : s.now + s.env.par.tAdc ≤ s.responseAt (s.now + s.env.par.tAdc) := Nat.le_max_left _ _
  have hrun := runPwrstat_ok hck (lossBefore_mono (Nat.le_add_right_of_le hsample) hl)
  obtain ⟨t, ht, hresp⟩ := respond_ok (v := adcSample s.draws)
    (s := ((s.setH ck).setDraws (s.draws + 1)).setNow (s.now + s.env.par.tAdc)) hl
  refine ⟨t, ?_, responded_setNow hresp⟩
  rw [exec_pwrstat, whileServing_on hs, hrun, ht, Run.outcome_done]

end Sys2Proof.Machine
end

section
/-! PROOFS. The tick machines of the transmitter, followed tick by tick: after `n` ticks the block is `n` ticks into driving
its slots, and the counters are functions of `n`. -/
namespace Sys2Proof.Machine

open Sys2Proof.Config

/-- The last tick of a run. -/
theorem runTicks_succ {α : Type} (tick : α → α) (n : Nat) (x : α) :
    runTicks tick (n + 1) x = tick (runTicks tick n x) := by
  induction n generalizing x with
  | zero => rfl
  | succ n ih => exact ih (tick x)

/-! ## Driving slots, tick by tick -/

/-- The block `n` ticks into driving slots: the level of a slot is set at its first tick. -/
def State.driving (ls : List Bool) (n : Nat) (s : State) : State :=
  (s.afterSlots (ls.take ((n + (S - 1)) / S))).setNow (s.now + n)

section
variable (ls : List Bool) (s : State)

/-- The last slot that is driven. -/
theorem afterSlots_concat (v : Bool) :
    s.afterSlots (ls ++ [v]) = ((s.afterSlots ls).setLine v).setNow ((s.afterSlots ls).now + S) := by
  induction ls generalizing s with
  | nil => rfl
  | cons w ws ih => exact ih _

/-- `busy` plays no part. -/
theorem afterSlots_setBusy (b : Bool) : (s.setBusy b).afterSlots ls = (s.afterSlots ls).setBusy b := by
  induction ls generalizing s with
  | nil => rfl
  | cons v vs ih => exact ih ((s.setLine v).setNow (s.now + S))

/-- All slots have been driven. -/
theorem driving_end : s.driving ls (S * ls.length) = s.afterSlots ls := by
  have htake : ls.take ((S * ls.length + (S - 1)) / S) = ls := List.take_of_length_le (by simp only [S]; omega)
  have hnow : s.now + S * ls.length = (s.afterSlots ls).now := (afterSlots_now ls s).symm
  rw [State.driving, htake, hnow]
  rfl

/-- The first tick of a slot. -/
theorem driving_succ_first {n : Nat} (hn : n < S * ls.length) (h0 : n % S = 0) :
    s.driving ls (n + 1) = ((s.driving ls n).setLine (ls.getD (n / S) false)).setNow (s.now + n + 1) := by
  have hlt : n / S < ls.length := by simp only [S] at *; omega
  have hk : (n + (S - 1)) / S = n / S := by simp only [S] at *; omega
  have hk' : (n + 1 + (S - 1)) / S = n / S + 1 := by simp only [S] at *; omega
  have htake : ls.take (n / S + 1) = ls.take (n / S) ++ [ls.getD (n / S) false] := by
    rw [List.take_succ_eq_append_getElem hlt, List.getD_eq_getElem _ _ hlt]
  have hnow : s.now + n = (s.afterSlots (ls.take (n / S))).now := by
    rw [afterSlots_now, List.length_take, Nat.min_eq_left (Nat.le_of_lt hlt)]
    simp only [S] at *; omega
  rw [State.driving, State.driving, hk, hk', htake, afterSlots_concat, ← Nat.add_assoc, hnow]
  rfl

/-- A later tick of a slot. -/
theorem driving_succ_later {n : Nat} (h0 : n % S ≠ 0) :
    s.driving ls (n + 1) = (s.driving ls n).setNow (s.now + n + 1) := by
  have hk : (n + 1 + (S - 1)) / S = (n + (S - 1)) / S := by simp only [S] at *; omega
  rw [State.driving, State.driving, hk]
  rfl

/-- One tick, as the machines make it. -/
theorem driving_succ {n : Nat} (hn : n < S * ls.length) :
    s.driving ls (n + 1) =
      (if n % S = 0 then (s.driving ls n).setLine (ls.getD (n / S) false) else s.driving ls n).setNow
        ((s.driving ls n).now + 1) := by
  by_cases h0 : n % S = 0
  · rw [if_pos h0, driving_succ_first ls s hn h0]; rfl
  · rw [if_neg h0, driving_succ_later ls s h0]; rfl
end

/-! ## SEND_BYTE -/

/-- The level of a slot is that of the frame (40_byte_transport.md R140). -/
theorem txLevel_eq (v : Byte) {k : Nat} (hk : k < 10) : txLevel v k = (frameSlots v).getD k false := by
  rcases Nat.eq_zero_or_pos k with rfl | hpos
  · rfl
  · by_cases h9 : k = 9
    · subst h9; rw [frameSlots_stop]; rfl
    · have hdata := frameSlots_data v (k := k - 1) (by omega)
      rw [show k - 1 + 1 = k by omega, show 7 - (k - 1) = 8 - k by omega] at hdata
      rw [hdata, txLevel, if_neg (by omega), if_neg h9]

/-- The counters `n` ticks into a byte. -/
def TxRegs.byteCounters (v : Byte) (n : Nat) (tx : TxRegs) : TxRegs :=
  { (tx.setSr v).start with slot := n / S, sub := n % S }

/-- One tick of the counters. -/
theorem byteCounters_tick (v : Byte) (tx : TxRegs) {n : Nat} (hn : n + 1 < 10 * S) :
    (tx.byteCounters v n).tick = tx.byteCounters v (n + 1) := by
  unfold TxRegs.byteCounters TxRegs.tick
  by_cases hwrap : n % S + 1 = S
  · have hslot : n / S ≠ 9 := by simp only [S] at *; omega
    have hdiv : (n + 1) / S = n / S + 1 := by simp only [S] at *; omega
    have hmod : (n + 1) % S = 0 := by simp only [S] at *; omega
    simp only [hwrap, hslot, hdiv, hmod, if_true, if_false]
  · have hdiv : (n + 1) / S = n / S := by simp only [S] at *; omega
    have hmod : (n + 1) % S = n % S + 1 := by simp only [S] at *; omega
    simp only [hwrap, hdiv, hmod, if_false]

/-- The last tick of the counters. -/
theorem byteCounters_last (v : Byte) (tx : TxRegs) : (tx.byteCounters v (10 * S - 1)).tick = (tx.setSr v).start.stop 9 := rfl

/-- One tick of the transmitter while it is active. -/
theorem txByteTick_active (u : State) {tx : TxRegs} (ha : tx.active = true) :
    txByteTick (u.setTx tx) =
      ((if tx.sub = 0 then u.setLine (txLevel tx.sr tx.slot) else u).setNow (u.now + 1)).setTx tx.tick := by
  unfold txByteTick
  rw [setTx_tx, if_pos ha]
  split <;> rfl

/-- One tick of the transmitter, `n` ticks into a byte. -/
theorem txByteTick_driving (v : Byte) (s : State) {n : Nat} (hn : n < 10 * S) :
    txByteTick ((s.driving (frameSlots v) n).setTx (s.tx.byteCounters v n)) =
      (s.driving (frameSlots v) (n + 1)).setTx (s.tx.byteCounters v n).tick := by
  have hlevel : txLevel v (n / S) = (frameSlots v).getD (n / S) false := txLevel_eq v (by simp only [S] at *; omega)
  rw [txByteTick_active _ rfl, driving_succ _ _ (by rw [length_frameSlots, Nat.mul_comm]; exact hn), ← hlevel]
  rfl

/-- The transmitter `n` ticks into a byte. -/
theorem txByte_after (v : Byte) (s : State) {n : Nat} (hn : n < 10 * S) :
    runTicks txByteTick n (txByteStart v s) = (s.driving (frameSlots v) n).setTx (s.tx.byteCounters v n) := by
  induction n with
  | zero => rfl
  | succ n ih => rw [runTicks_succ, ih (by omega), txByteTick_driving v s (by omega), byteCounters_tick v s.tx hn]

/-- The transmitter after a byte. -/
theorem txByte_end (v : Byte) (s : State) :
    runTicks txByteTick (10 * S) (txByteStart v s) =
      (s.afterSlots (frameSlots v)).setTx ((s.tx.setSr v).start.stop 9) := by
  have hlen : 10 * S - 1 + 1 = S * (frameSlots v).length := by rw [length_frameSlots]; rfl
  rw [show 10 * S = 10 * S - 1 + 1 from rfl, runTicks_succ, txByte_after v s (by decide), txByteTick_driving v s (by decide),
    byteCounters_last, hlen, driving_end]

/-! ## Symbols -/

/-- The slots of symbols (30_encoding.md R93). -/
def slotsOfSymbols (syms : List TxSymbol) : List Bool := syms.flatMap fun sym => symSlots sym.code

theorem length_slotsOfSymbols (syms : List TxSymbol) : (slotsOfSymbols syms).length = 2 * syms.length := by
  induction syms with
  | nil => rfl
  | cons sym syms ih =>
    rw [slotsOfSymbols, List.flatMap_cons, List.length_append, ← slotsOfSymbols, ih, length_symSlots, List.length_cons]
    omega

/-- The level of a slot is that of its symbol (41_symbol_transport.md R151). -/
theorem slotsOfSymbols_getD {syms rest : List TxSymbol} {sym : TxSymbol} {j h : Nat} (hj : syms.drop j = sym :: rest)
    (hh : h < 2) : (slotsOfSymbols syms).getD (2 * j + h) false = symbolLevel sym.code h := by
  induction j generalizing syms with
  | zero =>
    obtain rfl : syms = sym :: rest := hj
    interval_cases h <;> rfl
  | succ j ih =>
    cases syms with
    | nil => cases hj
    | cons first syms =>
      rw [← ih (by simpa using hj), show 2 * (j + 1) + h = 2 * j + h + 1 + 1 by omega]
      rfl

/-- The transmit registers when the symbols have been loaded one after another. -/
def TxRegs.loadAll (syms : List TxSymbol) (tx : TxRegs) : TxRegs := syms.foldl (fun tx sym => tx.load sym) tx

theorem loadAll_concat (syms : List TxSymbol) (sym : TxSymbol) (tx : TxRegs) :
    tx.loadAll (syms ++ [sym]) = (tx.loadAll syms).load sym := by
  simp [TxRegs.loadAll]

theorem loadAll_append (syms more : List TxSymbol) (tx : TxRegs) :
    tx.loadAll (syms ++ more) = (tx.loadAll syms).loadAll more := List.foldl_append ..

/-- A symbol is loaded whatever slot and tick the last one has come to. -/
theorem load_counters (sym : TxSymbol) (tx : TxRegs) (slot sub : Nat) :
    { tx with slot := slot, sub := sub }.load sym = tx.load sym := by
  unfold TxRegs.load
  split <;> rfl

theorem load_eq_counters (sym : TxSymbol) (tx : TxRegs) : { tx.load sym with slot := 0, sub := 0 } = tx.load sym := by
  unfold TxRegs.load
  split <;> rfl

/-- The registers `n` ticks into symbols. -/
def TxRegs.symbolCounters (syms : List TxSymbol) (n : Nat) (tx : TxRegs) : TxRegs :=
  { tx.start.loadAll (syms.take (n / (2 * S) + 1)) with slot := n / S % 2, sub := n % S }

/-- A tick within a slot. -/
theorem ticks_within {n : Nat} (h : n % S + 1 < S) :
    (n + 1) / (2 * S) = n / (2 * S) ∧ (n + 1) / S = n / S ∧ (n + 1) % S = n % S + 1 := by
  simp only [S] at *; omega

/-- The last tick of the first slot of a symbol. -/
theorem ticks_secondSlot {n : Nat} (h : ¬ n % S + 1 < S) (hslot : n / S % 2 = 0) :
    (n + 1) / (2 * S) = n / (2 * S) ∧ (n + 1) / S % 2 = 1 ∧ (n + 1) % S = 0 := by
  simp only [S] at *; omega

/-- The last tick of a symbol. -/
theorem ticks_nextSymbol {n : Nat} (h : ¬ n % S + 1 < S) (hslot : ¬ n / S % 2 = 0) :
    (n + 1) / (2 * S) = n / (2 * S) + 1 ∧ (n + 1) / S % 2 = 0 ∧ (n + 1) % S = 0 := by
  simp only [S] at *; omega

/-- One tick of the registers: within a slot, on to the second slot of the symbol, or on to the next symbol. -/
theorem symbolCounters_tick (syms : List TxSymbol) (tx : TxRegs) {n : Nat} (hn : n + 1 < 2 * S * syms.length) :
    (tx.symbolCounters syms n).symbolTick (syms.drop (n / (2 * S))) =
      (tx.symbolCounters syms (n + 1), syms.drop ((n + 1) / (2 * S))) := by
  have hsub : (tx.symbolCounters syms n).sub = n % S := rfl
  have hslot : (tx.symbolCounters syms n).slot = n / S % 2 := rfl
  unfold TxRegs.symbolTick
  rw [hsub, hslot]
  by_cases hwithin : n % S + 1 < S
  · obtain ⟨hsym, hdiv, hmod⟩ := ticks_within hwithin
    rw [if_pos hwithin, TxRegs.symbolCounters, TxRegs.symbolCounters, hsym, hdiv, hmod]
  · rw [if_neg hwithin]
    by_cases hfirst : n / S % 2 = 0
    · obtain ⟨hsym, hdiv, hmod⟩ := ticks_secondSlot hwithin hfirst
      rw [if_pos hfirst, TxRegs.symbolCounters, TxRegs.symbolCounters, hsym, hdiv, hmod]
    · obtain ⟨hsym, hdiv, hmod⟩ := ticks_nextSymbol hwithin hfirst
      have hlt : n / (2 * S) + 1 < syms.length := by rw [← hsym]; exact Nat.div_lt_of_lt_mul hn
      have hdrop := List.drop_eq_getElem_cons (Nat.lt_of_succ_lt hlt)
      rw [List.drop_eq_getElem_cons hlt] at hdrop
      rw [if_neg hfirst, hdrop]
      simp only [TxRegs.symbolCounters, hsym, hdiv, hmod, load_counters]
      rw [List.take_succ_eq_append_getElem hlt, loadAll_concat, load_eq_counters, List.drop_eq_getElem_cons hlt]

/-- The last tick of the registers. -/
theorem symbolCounters_last {syms : List TxSymbol} (hs : syms ≠ []) (tx : TxRegs) :
    (tx.symbolCounters syms (2 * S * syms.length - 1)).symbolTick (syms.drop ((2 * S * syms.length - 1) / (2 * S))) =
      ((tx.start.loadAll syms).stop 1, []) := by
  have hpos : 0 < syms.length := List.length_pos_iff.mpr hs
  have hsym : (2 * S * syms.length - 1) / (2 * S) = syms.length - 1 := by simp only [S] at *; omega
  have hsub : (2 * S * syms.length - 1) % S = 9 := by simp only [S] at *; omega
  have hslot : (2 * S * syms.length - 1) / S % 2 = 1 := by simp only [S] at *; omega
  have htake : syms.take (syms.length - 1 + 1) = syms := List.take_of_length_le (by omega)
  have hdrop : syms.drop (syms.length - 1) = [syms[syms.length - 1]] := by
    rw [List.drop_eq_getElem_cons (by omega), List.drop_of_length_le (by omega)]
  unfold TxRegs.symbolTick TxRegs.symbolCounters
  rw [hsym, hsub, hslot, htake, hdrop]
  rfl

/-- One tick of the transmitter of symbols. -/
theorem txSymbolTick_cons (u : State) (tx : TxRegs) (sym : TxSymbol) (rest : List TxSymbol) :
    txSymbolTick (u.setTx tx, sym :: rest) =
      (((if tx.sub = 0 then u.setLine (symbolLevel sym.code tx.slot) else u).setNow (u.now + 1)).setTx
        (tx.symbolTick (sym :: rest)).1, (tx.symbolTick (sym :: rest)).2) := by
  by_cases h0 : tx.sub = 0
  · simp only [txSymbolTick, setTx_tx, h0, if_true]; rfl
  · simp only [txSymbolTick, setTx_tx, h0, if_false]; rfl

/-- One tick of the transmitter, `n` ticks into symbols. -/
theorem txSymbolTick_driving (syms : List TxSymbol) (s : State) {n : Nat} (hn : n < 2 * S * syms.length) :
    txSymbolTick ((s.driving (slotsOfSymbols syms) n).setTx (s.tx.symbolCounters syms n), syms.drop (n / (2 * S))) =
      ((s.driving (slotsOfSymbols syms) (n + 1)).setTx
        ((s.tx.symbolCounters syms n).symbolTick (syms.drop (n / (2 * S)))).1,
        ((s.tx.symbolCounters syms n).symbolTick (syms.drop (n / (2 * S)))).2) := by
  have hlt : n / (2 * S) < syms.length := by simp only [S] at *; omega
  have hslots : n < S * (slotsOfSymbols syms).length := by rw [length_slotsOfSymbols]; simp only [S] at *; omega
  have hdrop := List.drop_eq_getElem_cons hlt
  have hlevel := slotsOfSymbols_getD hdrop (h := n / S % 2) (Nat.mod_lt _ (by decide))
  rw [show 2 * (n / (2 * S)) + n / S % 2 = n / S by simp only [S]; omega] at hlevel
  rw [hdrop, txSymbolTick_cons, driving_succ _ _ hslots, hlevel]
  rfl

/-- The transmitter `n` ticks into symbols. -/
theorem txSymbols_after (syms : List TxSymbol) (s : State) {n : Nat} (hn : n < 2 * S * syms.length) :
    runTicks txSymbolTick n (txSymbolsStart syms s) =
      ((s.driving (slotsOfSymbols syms) n).setTx (s.tx.symbolCounters syms n), syms.drop (n / (2 * S))) := by
  induction n with
  | zero =>
    cases syms with
    | nil => simp at hn
    | cons sym rest => exact Prod.ext (congrArg s.setTx (load_eq_counters sym s.tx.start).symm) rfl
  | succ n ih => rw [runTicks_succ, ih (by omega), txSymbolTick_driving syms s (by omega), symbolCounters_tick syms s.tx hn]

/-- The transmitter after symbols. -/
theorem txSymbols_end {syms : List TxSymbol} (hs : syms ≠ []) (s : State) :
    runTicks txSymbolTick (2 * S * syms.length) (txSymbolsStart syms s) =
      ((s.afterSlots (slotsOfSymbols syms)).setTx ((s.tx.start.loadAll syms).stop 1), []) := by
  have hpos : 0 < syms.length := List.length_pos_iff.mpr hs
  have hpred : 2 * S * syms.length = 2 * S * syms.length - 1 + 1 := by simp only [S] at *; omega
  have hslots : 2 * S * syms.length = S * (slotsOfSymbols syms).length := by
    rw [length_slotsOfSymbols]; simp only [S]; omega
  rw [hpred, runTicks_succ, txSymbols_after syms s (by omega), txSymbolTick_driving syms s (by omega),
    symbolCounters_last hs, ← hpred, hslots, driving_end]

/-- The transmitter after one symbol. -/
theorem txSymbol_end (code : BitVec 2) (s : State) :
    runTicks txSymbolTick (2 * S) (txSymbolsStart [{ code := code }] s) =
      ((s.afterSlots (symSlots code)).setTx (s.tx.start.stop 1), []) := by
  have hslots : slotsOfSymbols [{ code := code }] = symSlots code := rfl
  have hload : s.tx.start.loadAll [{ code := code }] = s.tx.start := rfl
  have hend := txSymbols_end (List.cons_ne_nil { code := code } []) s
  rw [hslots, hload, List.length_singleton, Nat.mul_one] at hend
  exact hend

/-! ## The symbols of a packet -/

theorem slotsOfSymbols_append (syms more : List TxSymbol) :
    slotsOfSymbols (syms ++ more) = slotsOfSymbols syms ++ slotsOfSymbols more := List.flatMap_append ..

/-- The symbols of bytes are on the line what the bytes are (30_encoding.md R94). -/
theorem slotsOfSymbols_bytes (bytes : List Byte) (idx : Nat) :
    slotsOfSymbols (symbolsOfBytes bytes idx) = bytes.flatMap byteSymSlots := by
  induction bytes generalizing idx with
  | nil => rfl
  | cons v bytes ih =>
    rw [symbolsOfBytes, slotsOfSymbols_append, ih, List.flatMap_cons]
    congr 1

/-- A packet begins with `SYM_START` and ends with `SYM_STOP` (41_symbol_transport.md R153). -/
theorem symbolsOfPacket_eq (bytes : List Byte) :
    symbolsOfPacket bytes = [{ code := startCode }] ++ (symbolsOfBytes bytes 0 ++ [{ code := stopCode }]) := rfl

theorem slotsOfSymbols_packet (bytes : List Byte) : slotsOfSymbols (symbolsOfPacket bytes) = packetSlots bytes := by
  rw [symbolsOfPacket_eq, slotsOfSymbols_append, slotsOfSymbols_append, slotsOfSymbols_bytes]
  rfl

theorem length_symbolsOfBytes (bytes : List Byte) (idx : Nat) : (symbolsOfBytes bytes idx).length = 8 * bytes.length := by
  induction bytes generalizing idx with
  | nil => rfl
  | cons v bytes ih =>
    rw [symbolsOfBytes, List.length_append, ih, symbolsOfByte, List.length_map, List.length_range, List.length_cons]
    omega

theorem length_symbolsOfPacket (bytes : List Byte) : (symbolsOfPacket bytes).length = 8 * bytes.length + 2 := by
  simp [symbolsOfPacket, length_symbolsOfBytes]

theorem symbolsOfBytes_append (bytes more : List Byte) (idx : Nat) :
    symbolsOfBytes (bytes ++ more) idx = symbolsOfBytes bytes idx ++ symbolsOfBytes more (idx + bytes.length) := by
  induction bytes generalizing idx with
  | nil => rfl
  | cons v bytes ih =>
    rw [List.cons_append, symbolsOfBytes, ih, symbolsOfBytes, List.append_assoc, List.length_cons,
      show idx + 1 + bytes.length = idx + (bytes.length + 1) by omega]

/-- A data symbol names its byte, the index of the byte and the bit (10_state.md R22). -/
theorem symbolsOfBytes_data (bytes : List Byte) (idx : Nat) {k : Nat} (hk : k < (symbolsOfBytes bytes idx).length) :
    (symbolsOfBytes bytes idx)[k].data = some (bytes.getD (k / 8) 0#8, idx + k / 8, 7 - k % 8) := by
  induction bytes generalizing idx k with
  | nil => simp [symbolsOfBytes] at hk
  | cons v bytes ih =>
    have hlen : (symbolsOfByte v idx).length = 8 := by simp [symbolsOfByte]
    simp only [symbolsOfBytes]
    by_cases h8 : k < 8
    · rw [List.getElem_append_left (by omega)]
      simp [symbolsOfByte, Nat.div_eq_of_lt h8, Nat.mod_eq_of_lt h8]
    · have hdiv : k / 8 = (k - 8) / 8 + 1 := by omega
      have hmod : (k - 8) % 8 = k % 8 := by omega
      rw [List.getElem_append_right (by omega)]
      simp only [hlen]
      rw [ih, hdiv, hmod, List.getD_cons_succ, show idx + 1 + (k - 8) / 8 = idx + ((k - 8) / 8 + 1) by omega]

/-- The symbols between the first and the last of a packet are those of its bytes. -/
theorem symbolsOfPacket_data (bytes : List Byte) {j : Nat} (h1 : 1 ≤ j) (hj : j ≤ 8 * bytes.length)
    (hlt : j < (symbolsOfPacket bytes).length) :
    (symbolsOfPacket bytes)[j].data = some (bytes.getD ((j - 1) / 8) 0#8, (j - 1) / 8, 7 - (j - 1) % 8) := by
  have hk : j - 1 < (symbolsOfBytes bytes 0).length := by rw [length_symbolsOfBytes]; omega
  have helem : (symbolsOfPacket bytes)[j] = (symbolsOfBytes bytes 0)[j - 1] := by
    simp only [symbolsOfPacket]
    rw [List.getElem_cons, dif_neg (by omega), List.getElem_append_left hk]
  rw [helem, symbolsOfBytes_data, Nat.zero_add]

/-! ## The registers of a packet -/

@[simp] theorem load_active (sym : TxSymbol) (tx : TxRegs) : (tx.load sym).active = tx.active := by
  unfold TxRegs.load; split <;> rfl

@[simp] theorem load_wire (sym : TxSymbol) (tx : TxRegs) : (tx.load sym).wire = tx.wire := by
  unfold TxRegs.load; split <;> rfl

@[simp] theorem loadAll_active (syms : List TxSymbol) (tx : TxRegs) : (tx.loadAll syms).active = tx.active := by
  induction syms generalizing tx with
  | nil => rfl
  | cons sym syms ih => exact (ih (tx.load sym)).trans (load_active sym tx)

@[simp] theorem loadAll_wire (syms : List TxSymbol) (tx : TxRegs) : (tx.loadAll syms).wire = tx.wire := by
  induction syms generalizing tx with
  | nil => rfl
  | cons sym syms ih => exact (ih (tx.load sym)).trans (load_wire sym tx)

/-- The registers after the symbols of a byte. -/
theorem loadAll_symbolsOfByte (v : Byte) (idx : Nat) (tx : TxRegs) :
    tx.loadAll (symbolsOfByte v idx) = { tx with slot := 0, sub := 0, sr := v, idx := idx % 256, bit := 0 } := rfl

/-- The registers after the symbols of a packet are those of `SEND_PACKET` (log entry 17). -/
theorem loadAll_symbolsOfPacket (bytes : List Byte) (tx : TxRegs) :
    (tx.start.loadAll (symbolsOfPacket bytes)).stop 1 = (tx.start.stop 1).packetSent bytes := by
  have hstart : tx.start.loadAll [{ code := startCode }] = tx.start := rfl
  rw [symbolsOfPacket_eq, loadAll_append, loadAll_concat, hstart]
  rcases bytes.eq_nil_or_concat' with rfl | ⟨front, v, rfl⟩
  · rfl
  · have hlast : symbolsOfBytes [v] (0 + front.length) = symbolsOfByte v (0 + front.length) := List.append_nil _
    rw [symbolsOfBytes_append, loadAll_append, hlast, loadAll_symbolsOfByte]
    simp [TxRegs.load, TxRegs.stop, TxRegs.packetSent, TxRegs.start_wire]

/-- A packet takes `S` ticks for each of its slots. -/
theorem packetTicks_eq (bytes : List Byte) : (4 + 16 * bytes.length) * S = 2 * S * (symbolsOfPacket bytes).length := by
  rw [length_symbolsOfPacket]
  simp only [S]
  omega

/-- The transmitter after a packet. -/
theorem txPacket_end (bytes : List Byte) (s : State) :
    runTicks txSymbolTick ((4 + 16 * bytes.length) * S) (txSymbolsStart (symbolsOfPacket bytes) s) =
      ((s.afterSlots (packetSlots bytes)).setTx ((s.tx.start.stop 1).packetSent bytes), []) := by
  have hne : symbolsOfPacket bytes ≠ [] := List.cons_ne_nil _ _
  rw [packetTicks_eq, txSymbols_end hne, slotsOfSymbols_packet, loadAll_symbolsOfPacket]

/-- The registers of the transmitter `n` ticks into a packet. -/
theorem txPacket_registers (bytes : List Byte) (s : State) {n : Nat} (hn : n < (4 + 16 * bytes.length) * S) :
    (runTicks txSymbolTick n (txSymbolsStart (symbolsOfPacket bytes) s)).1.tx =
      s.tx.symbolCounters (symbolsOfPacket bytes) n := by
  rw [txSymbols_after _ s (packetTicks_eq bytes ▸ hn)]
  rfl

/-- While data symbols are sent the registers name the byte and the bit (10_state.md R22). -/
theorem symbolCounters_data {bytes : List Byte} (tx : TxRegs) (hlen : bytes.length ≤ 255) {n : Nat} (h1 : 2 * S ≤ n)
    (h2 : n < (2 + 16 * bytes.length) * S) :
    (tx.symbolCounters (symbolsOfPacket bytes) n).idx = (n / (2 * S) - 1) / 8 ∧
      (tx.symbolCounters (symbolsOfPacket bytes) n).bit = 7 - (n / (2 * S) - 1) % 8 ∧
      (tx.symbolCounters (symbolsOfPacket bytes) n).sr = bytes.getD ((n / (2 * S) - 1) / 8) 0#8 := by
  have hj1 : 1 ≤ n / (2 * S) := by simp only [S] at *; omega
  have hj2 : n / (2 * S) ≤ 8 * bytes.length := by simp only [S] at *; omega
  have hlt : n / (2 * S) < (symbolsOfPacket bytes).length := by rw [length_symbolsOfPacket]; omega
  have hidx : (n / (2 * S) - 1) / 8 % 256 = (n / (2 * S) - 1) / 8 := Nat.mod_eq_of_lt (by omega)
  have hdata := symbolsOfPacket_data bytes hj1 hj2 hlt
  unfold TxRegs.symbolCounters
  rw [List.take_succ_eq_append_getElem hlt, loadAll_concat, TxRegs.load, hdata]
  exact ⟨hidx, rfl, rfl⟩

/-! ## The operations -/

/-- Of an operation at the caller interface, the busy time and the result are the only traces beside what its body did. -/
theorem complete_but_result {u : State} (hu : u.busy = false) (x : TxRegs) (r : Result) :
    { ((u.setBusy true).setTx x).complete r with result := u.result } = u.setTx x := by
  have hbusy : (u.setTx x).busy = false := hu
  calc { ((u.setBusy true).setTx x).complete r with result := u.result }
    _ = { u.setTx x with busy := false } := rfl
    _ = u.setTx x := by rw [← hbusy]

/-- A transmission of the caller interface ends where its slots have been driven, but for `busy` and `result`. -/
theorem callerOp_transmits {body : State → Run Unit} {s : State} {ls : List Bool} {x : TxRegs} (hr : s.callerReady = true)
    (hbody : body (s.setBusy true) = .done () (((s.setBusy true).afterSlots ls).setTx x)) :
    ∃ t, callerOp (fun u => (body u).withResult fun _ => 0#16) s = .next t ∧
      (s.afterSlots ls).setTx x = { t with result := s.result } := by
  obtain ⟨-, hbusy⟩ := callerReady_iff.mp hr
  have hidle : (s.afterSlots ls).busy = false := by rw [afterSlots_eq, hbusy]
  have hresult : (s.afterSlots ls).result = s.result := by rw [afterSlots_eq]
  refine ⟨_, callerOp_done hr (by rw [hbody, Run.withResult_done]), ?_⟩
  rw [afterSlots_setBusy, ← hresult, complete_but_result hidle]

/-- The bytes `SEND_PACKET` sends are as many as it says: `XB` holds the 255 bytes a length can name. -/
theorem length_packetInput (len : Byte) (xb : TransferBuffer) : (packetInput len xb).length = len.toNat := by
  have := len.isLt
  simp only [packetInput, List.length_take, Vector.length_toList, xbSize]
  omega

/-- Settles O60: each machine ends where the slots have been driven and the registers are what the operation leaves; in between
its registers are functions of the tick. -/
theorem transmitTickMachines : Obligations.TransmitTickMachines := by
  unfold Obligations.TransmitTickMachines
  intro s hr hp
  have hpower : ∀ c, (s.setBusy true).lossBefore c = false := lossBefore_of_power hp
  refine ⟨fun v => ?_, fun code => ?_, fun len => ?_⟩
  · obtain ⟨t, ht, hend⟩ := callerOp_transmits hr (sendByte_ok (v := v) (hpower _))
    exact ⟨t, (exec_sendByte s v).trans ht, (txByte_end v s).trans hend⟩
  · obtain ⟨t, ht, hend⟩ := callerOp_transmits hr (sendSymbol_ok (c := code) (hpower _))
    exact ⟨t, (exec_sendSym s code).trans ht, (txSymbol_end code s).trans (congrArg (·, []) hend)⟩
  · have hbytes : s.xb.toList.take len.toNat = packetInput len s.xb := rfl
    have hlen : (packetInput len s.xb).length = len.toNat := length_packetInput len s.xb
    rw [hbytes, ← hlen]
    refine ⟨?_, fun n hn => ?_⟩
    · obtain ⟨t, ht, hend⟩ := callerOp_transmits hr (sendPacket_ok (bs := packetInput len s.xb) (hpower _))
      exact ⟨t, (exec_sendPacket s len).trans ht, (txPacket_end _ s).trans (congrArg (·, []) hend)⟩
    · rw [txPacket_registers _ s hn]
      refine ⟨loadAll_active _ _, rfl, rfl, fun h1 h2 => ?_⟩
      obtain ⟨hidx, hbit, hsr⟩ := symbolCounters_data s.tx (by rw [hlen]; exact Nat.le_of_lt_succ len.isLt) h1 h2
      refine ⟨hidx, hbit, hsr.trans ?_⟩
      have hin : (n / (2 * S) - 1) / 8 < len.toNat := by rw [hlen] at h2; simp only [S] at *; omega
      rw [← hbytes, List.getD_eq_getElem?_getD, List.getD_eq_getElem?_getD, List.getElem?_take_of_lt hin]

end Sys2Proof.Machine
end

section
/-! PROOFS. Program memory: which addresses an operation spares, what a fill answers, and that it reads back what a commit has
stored. -/
namespace Sys2Proof.Machine

open Sys2Proof.Config

/-! ## Addresses that read as before -/

/-- FLASH reads as before at the addresses of `K`. `SameFlash`, `SameFlashOutside` and `SameProtected` are of this form. -/
def SameFlashAt (K : Nat → Prop) (s t : State) : Prop := ∀ a, K a → t.flash.read a = s.flash.read a

/-- The run leaves FLASH as it was at the addresses of `K`, whether it completes or the power is lost. -/
def Run.Spares {α : Type} (K : Nat → Prop) (s : State) (r : Run α) : Prop :=
  r.Sat (fun _ t => SameFlashAt K s t) (SameFlashAt K s)

/-- No address of `K` lies in the page at `pa`. -/
def AvoidsPage (K : Nat → Prop) (pa : Nat) : Prop := ∀ a, K a → a < pa ∨ pa + pageSize ≤ a

section
variable {α β : Type} {K : Nat → Prop} {w : Writes} {s t u : State}

theorem SameFlashAt.of_flash (h : t.flash = s.flash) : SameFlashAt K s t := fun _ _ => by rw [h]

theorem SameFlashAt.trans (h : SameFlashAt K s t) (h' : SameFlashAt K t u) : SameFlashAt K s u :=
  fun a ha => (h' a ha).trans (h a ha)

theorem SameFlashOutside.sameFlashAt {pa : Nat} (h : SameFlashOutside pa s t) (hK : AvoidsPage K pa) :
    SameFlashAt K s t :=
  fun a ha => h a (hK a ha)

theorem Run.Spares.after {r : Run α} (h : r.Spares K t) (hst : SameFlashAt K s t) : r.Spares K s :=
  Run.Sat.mono h (fun _ _ hu => hst.trans hu) fun _ hu => hst.trans hu

theorem Run.Spares.bind {r : Run α} {f : α → State → Run β} (h : r.Spares K s) (hf : ∀ x t, (f x t).Spares K t) :
    (r.bind f).Spares K s :=
  Run.Sat.bind h fun x t ht => (hf x t).after ht

theorem Run.spares_done {x : α} (h : t.flash = s.flash) : (Run.done x t).Spares K s := SameFlashAt.of_flash h

/-- A run that does not write FLASH spares every address. -/
theorem Run.Touches.spares {r : Run α} (h : r.Touches w s) (hw : w.flash = false) : r.Spares K s :=
  Run.Sat.mono h (fun _ _ ht => .of_flash (ht.flash hw)) fun _ ⟨ht, _⟩ => .of_flash (ht.flash hw)

/-- What a run comes to: a reset retains FLASH (10_state.md R38). -/
theorem Run.Spares.sameFlashAt {r : Run α} (h : r.Spares K s) (e : r.outcome = .next t) : SameFlashAt K s t := by
  rcases Run.outcome_eq_next.mp e with ⟨_, rfl⟩ | ⟨u, rfl, rfl⟩
  · exact h
  · exact h

theorem whileServing_sameFlashAt {body : State → Run Unit} (hbody : (body s).Spares K s)
    (e : whileServing body s = .next t) : SameFlashAt K s t := by
  rcases whileServing_spec body s with ⟨-, e'⟩ | ⟨-, e'⟩ <;> rw [e'] at e
  · cases e
    exact .of_flash rfl
  · exact hbody.sameFlashAt e

theorem callerOp_sameFlashAt {body : State → Run α} {f : α → Result} (hbody : ∀ u, (body u).Spares K u)
    (e : callerOp (fun u => (body u).withResult f) s = .next t) : SameFlashAt K s t := by
  unfold callerOp at e
  split at e
  · refine Run.Spares.sameFlashAt (Run.Spares.after (t := s.setBusy true) ?_ (.of_flash rfl)) e
    refine ((hbody _).bind fun _ _ => Run.spares_done rfl).bind fun r u => ?_
    cases r with
    | none => exact Run.spares_done rfl
    | some r => exact Run.spares_done (complete_flash r u)
  · cases e
    exact .of_flash rfl

/-! ## The flash operations stay inside a page (44_flash_sequencer.md R212) -/

theorem eraseStep_spares {pa : Addr} (hpa : pa.toNat + pageSize ≤ userLimit) (hK : AvoidsPage K pa.toNat) (s : State) :
    (eraseStep pa s).Spares K s := by
  rcases eraseStep_spec (s := s) hpa with ⟨-, e⟩ | ⟨-, e⟩ | ⟨-, e⟩ <;> rw [e]
  · exact (blankPage_outside pa.toNat s).sameFlashAt hK
  · exact SameFlashAt.of_flash rfl
  · exact (scramblePage_outside pa.toNat s).sameFlashAt hK

theorem writeStep_spares {pa : Addr} (hpa : pa.toNat + pageSize ≤ userLimit) (hK : AvoidsPage K pa.toNat) (s : State) :
    (writeStep pa s).Spares K s := by
  rcases writeStep_spec (s := s) hpa with ⟨-, e⟩ | ⟨-, e⟩ | ⟨-, e⟩ <;> rw [e]
  · exact (storePage_outside pa.toNat s).sameFlashAt hK
  · exact SameFlashAt.of_flash rfl
  · exact (scramblePage_outside pa.toNat s).sameFlashAt hK

section
variable {addr : Addr} (hK : inUserRegion addr = true → AvoidsPage K (pageBase addr).toNat)
include hK

theorem commitPage_spares (s : State) : (commitPage addr s).Spares K s := by
  cases hu : inUserRegion addr
  · rw [commitPage_rejected hu]
    exact Run.spares_done rfl
  · have hpa := userPage_inside hu
    rw [commitPage_accepted hu]
    refine Run.Spares.after (t := s.setFs (s.fs.setAddr (pageBase addr))) ?_ (.of_flash rfl)
    refine ((fillWriteBuffer_touches (w := { twb := true }) rfl _).spares rfl).bind fun _ s1 => ?_
    exact (eraseStep_spares hpa (hK hu) s1).bind fun _ s2 =>
      (writeStep_spares hpa (hK hu) s2).bind fun _ _ => Run.spares_done rfl

theorem erasePage_spares (s : State) : (erasePage addr s).Spares K s := by
  cases hu : inUserRegion addr
  · rw [erasePage_rejected hu]
    exact Run.spares_done rfl
  · rw [erasePage, if_pos hu]
    exact (eraseStep_spares (userPage_inside hu) (hK hu) s).bind fun _ _ => Run.spares_done rfl

theorem writePage_spares (s : State) : (writePage addr s).Spares K s := by
  cases hu : inUserRegion addr
  · rw [writePage_rejected hu]
    exact Run.spares_done rfl
  · rw [writePage, if_pos hu]
    exact (writeStep_spares (userPage_inside hu) (hK hu) s).bind fun _ _ => Run.spares_done rfl

theorem runCommit_spares (ck : Byte) (s : State) : (runCommit addr ck s).Spares K s := by
  by_cases hck : ck = hashBytes [0x05#8, addrHigh addr, addrLow addr]
  · rw [runCommit, withChecksum_ok hck]
    refine Run.Spares.after (t := s.setH ck) ?_ (.of_flash rfl)
    exact (commitPage_spares hK _).bind fun accepted u => (respondPage_touches {} accepted u).spares rfl
  · rw [runCommit, withChecksum_bad hck]
    exact Run.spares_done rfl
end

/-- The page of an accepted address ends where the protected region begins. -/
theorem protected_avoidsPage (hK : ∀ a, K a → userLimit ≤ a) {addr : Addr} (hu : inUserRegion addr = true) :
    AvoidsPage K (pageBase addr).toNat :=
  fun a ha => .inr (Nat.le_trans (userPage_inside hu) (hK a ha))

/-- Of the requests only COMMIT writes FLASH, and that below the protected region. -/
theorem runRequest_spares (hK : ∀ a, K a → userLimit ≤ a) (r : Request) (s : State) : (runRequest r s).Spares K s := by
  cases r with
  | rdbuf idx ck => exact (runRdbuf_touches {} idx ck s).spares rfl
  | wrbuf idx val ck => exact (runWrbuf_touches (w := { pb := true }) rfl idx val ck s).spares rfl
  | pwrstat ck => exact (runPwrstat_touches {} ck s).spares rfl
  | hashbuf ck => exact (runHashbuf_touches {} ck s).spares rfl
  | fill addr ck => exact (runFill_touches (w := { pb := true }) rfl addr ck s).spares rfl
  | commit addr ck => exact runCommit_spares (protected_avoidsPage hK) ck s
  | reserved0607 | reserved080F | reserved101F | reserved203F | reserved407F | reserved80FF =>
    exact Run.spares_done rfl

theorem cmdStep_spares (hK : ∀ a, K a → userLimit ≤ a) (s : State) : (cmdStep s).Spares K s :=
  ((recvRequest_touches {} s).spares rfl).bind fun bytes t => by
    cases bytes with
    | none => exact Run.spares_done rfl
    | some bs =>
      dsimp only
      split
      · exact runRequest_spares hK _ t
      · exact Run.spares_done rfl

/-! ## Instructions -/

/-- The addresses of `K` are none that the instruction may write: they avoid the page it names, if that is accepted; `CMD_STEP`
may write any page of the user region. -/
def SparedBy (K : Nat → Prop) : Instr → Prop
  | .commit addr _ | .commitPage addr | .erasePage addr | .writePage addr =>
    inUserRegion addr = true → AvoidsPage K (pageBase addr).toNat
  | .cmdStep => ∀ a, K a → userLimit ≤ a
  | _ => True

/-- No instruction changes FLASH at an address it spares, also when the power is lost. -/
theorem exec_sameFlashAt {i : Instr} (hK : SparedBy K i) (e : exec i s = .next t) : SameFlashAt K s t := by
  cases i with
  | commit addr ck => exact whileServing_sameFlashAt (runCommit_spares hK ck s) e
  | commitPage addr => exact callerOp_sameFlashAt (commitPage_spares hK) ((exec_commitPage s addr).symm.trans e)
  | erasePage addr => exact callerOp_sameFlashAt (erasePage_spares hK) ((exec_erasePage s addr).symm.trans e)
  | writePage addr => exact callerOp_sameFlashAt (writePage_spares hK) ((exec_writePage s addr).symm.trans e)
  | cmdStep => exact callerOp_sameFlashAt (cmdStep_spares hK) ((exec_cmdStep s).symm.trans e)
  | _ => exact fun a _ => onlyFlashOperationsWrite _ s t e trivial a

/-- Every instruction spares the protected region. -/
theorem sparedBy_protected (i : Instr) : SparedBy (userLimit ≤ ·) i := by
  cases i with
  | commit | commitPage | erasePage | writePage => exact protected_avoidsPage fun _ ha => ha
  | cmdStep => exact fun _ ha => ha
  | _ => trivial

theorem exec_sameProtected {i : Instr} (e : exec i s = .next t) : SameProtected s t :=
  exec_sameFlashAt (sparedBy_protected i) e

/-! ## The step -/

theorem SameProtected.of_flash (h : t.flash = s.flash) : SameProtected s t := SameFlashAt.of_flash h

/-- A run that does not write FLASH comes to a state with the protected region as it was. -/
theorem Run.Touches.sameProtected {r : Run α} (h : r.Touches {} s) (e : r.outcome = .next t) : SameProtected s t :=
  (h.spares rfl).sameFlashAt e

theorem idleStep_sameProtected (e : idleStep s = .next t) : SameProtected s t :=
  (delay_touches {} 1 s).sameProtected e

theorem touched_enterUpdate (w : Writes) (s : State) : Touched w s s.enterUpdate := .other rfl rfl rfl rfl rfl
theorem touched_enterUserApp (w : Writes) (s : State) : Touched w s s.enterUserApp := .other rfl rfl rfl rfl rfl

theorem bootStep_sameProtected (e : bootStep s = .next t) : SameProtected s t := by
  unfold bootStep at e
  split at e
  · exact ((advanceTo_touches {} _ s).bind fun _ u => Run.touches_done (touched_enterUpdate {} u)).sameProtected e
  · exact ((delay_touches {} _ s).bind fun _ u => Run.touches_done (touched_enterUserApp {} u)).sameProtected e

theorem continuePacket_sameProtected (e : continuePacket s = .next t) : SameProtected s t := by
  refine Run.Spares.sameFlashAt (((recvSymbol_touches (w := { xb := true }) rfl s).spares rfl).bind fun r u => ?_) e
  cases r with
  | none => exact Run.spares_done rfl
  | some r => exact Run.spares_done (complete_flash r u)

/-- Receiving writes no FLASH; the request received is an instruction. -/
theorem commandStep_sameProtected (e : commandStep s = .next t) : SameProtected s t := by
  have hreq : (recvRequest s).Spares (userLimit ≤ ·) s := (recvRequest_touches {} s).spares rfl
  unfold commandStep at e
  split at e
  · next bs u hu =>
    rw [hu] at hreq
    split at e
    · exact SameFlashAt.trans hreq (exec_sameProtected e)
    · cases e
  · next u hu =>
    rw [hu] at hreq
    cases e
    exact hreq
  · next u hu =>
    rw [hu] at hreq
    cases e
    exact hreq
  · cases e

theorem wireStep_sameProtected (e : wireStep s = .next t) : SameProtected s t := by
  unfold wireStep at e
  split at e
  · exact exec_sameProtected (s := s.setTx s.tx.unloaded) e
  · cases e

theorem callerStep_sameProtected (e : callerStep s = .next t) : SameProtected s t := by
  unfold callerStep at e
  split at e
  · exact idleStep_sameProtected e
  · split_ifs at e
    · cases e
      exact .of_flash rfl
    · exact exec_sameProtected (s := s.popCall) e
    · exact (advanceTo_touches {} _ s).sameProtected e

theorem servingStep_sameProtected {next : State → Host.Outcome State Fault Refusal} (e : servingStep next s = .next t)
    (hnext : next s = .next t → SameProtected s t) : SameProtected s t := by
  unfold servingStep at e
  split_ifs at e
  · exact continuePacket_sameProtected e
  · exact hnext e
  · exact wireStep_sameProtected e

theorem poweredStep_sameProtected (e : poweredStep s = .next t) : SameProtected s t := by
  unfold poweredStep at e
  split at e
  · exact servingStep_sameProtected e callerStep_sameProtected
  · split at e
    · exact bootStep_sameProtected e
    · exact servingStep_sameProtected e commandStep_sameProtected
    · exact idleStep_sameProtected e
end

/-- Settles O14: a reset retains FLASH, and of what else a step may be only an instruction writes it, inside the user region. -/
theorem stepKeepsProtected : Obligations.StepKeepsProtected := by
  unfold Obligations.StepKeepsProtected
  intro s t e
  unfold step at e
  split_ifs at e
  · cases e
    exact .of_flash rfl
  · exact poweredStep_sameProtected e

/-- Settles O55: each of the four spares what lies outside its page, and everything if its address is rejected. -/
theorem flashWritesStayInPage : Obligations.FlashWritesStayInPage := by
  unfold Obligations.FlashWritesStayInPage
  intro i addr s t e hi
  have hspared : ∀ {K : Nat → Prop}, (inUserRegion addr = true → AvoidsPage K (pageBase addr).toNat) → SparedBy K i := by
    intro K hK
    cases i with
    | commit | commitPage | erasePage | writePage => exact hi ▸ hK
    | _ => exact hi.elim
  refine ⟨fun _ => exec_sameFlashAt (hspared fun _ _ ha => ha) e, fun hrej a => ?_⟩
  have hrejected : inUserRegion addr = false := decide_eq_false (Nat.not_lt.mpr hrej)
  have hall : SparedBy (fun _ => True) i := hspared fun hu => by rw [hrejected] at hu; cases hu
  exact exec_sameFlashAt hall e a trivial

/-! ## FILL -/

/-- FILL of an accepted address, with the right checksum and the power on, is the copy and then the response
(43_command_processor.md R193). -/
theorem runFill_ok {addr : Addr} {ck : Byte} {s : State} (hck : ck = hashBytes [0x04#8, addrHigh addr, addrLow addr])
    (ha : fillAccepts s.env.par.progMemSize addr = true) (hl : s.lossBefore (s.now + s.env.par.tFill) = false) :
    runFill addr ck s =
      respond 0x80#8 (((s.setH ck).setPb (s.pageAt addr.toNat)).setNow (s.now + s.env.par.tFill)) := by
  rw [runFill, withChecksum_ok hck, fillPage_ok (s := s.setH ck) ha hl]
  rfl

/-- FILL of any other address is dropped. -/
theorem runFill_rejected {addr : Addr} {ck : Byte} {s : State}
    (hck : ck = hashBytes [0x04#8, addrHigh addr, addrLow addr])
    (ha : fillAccepts s.env.par.progMemSize addr = false) : runFill addr ck s = .done () (s.setH ck) := by
  rw [runFill, withChecksum_ok hck, fillPage_rejected (s := s.setH ck) ha]
  rfl

/-- Settles O40: the copy ends before the response begins, which ends before the next reset. -/
theorem fillResponds : Obligations.FillResponds := by
  unfold Obligations.FillResponds
  intro addr ck s hs hck
  rw [← fillAccepts_iff, Bool.not_eq_true]
  refine ⟨fun ha hl => ?_, fun ha => ?_⟩
  · have hcopy : s.now + s.env.par.tFill ≤ s.responseAt (s.now + s.env.par.tFill) := Nat.le_max_left _ _
    have hrun := runFill_ok hck ha (lossBefore_mono (Nat.le_add_right_of_le hcopy) hl)
    obtain ⟨t, ht, hresp⟩ := respond_ok (v := 0x80#8)
      (s := ((s.setH ck).setPb (s.pageAt addr.toNat)).setNow (s.now + s.env.par.tFill))
      (by rw [lossBefore_setNow, lossBefore_setPb, lossBefore_setH]; exact hl)
    refine ⟨t, ?_, responded_setNow hresp⟩
    rw [exec_fill, whileServing_on hs, hrun, ht, Run.outcome_done]
  · rw [exec_fill, whileServing_on hs, runFill_rejected hck ha, Run.outcome_done]

/-! ## A fill after a commit -/

/-- The page of an address in the user region can be filled from (20_memory.md R64, R72). -/
theorem fillAccepts_userPage {addr : Addr} (hu : inUserRegion addr = true) (s : State) :
    fillAccepts s.env.par.progMemSize (pageBase addr) = true := by
  refine (fillAccepts_iff _ _).mpr ⟨?_, userPage_le_progMemSize (userPage_inside hu) s⟩
  rw [pageBase_toNat]
  omega

/-- A fill from a page reads the bytes the page holds. -/
theorem State.PageHolds.pageAt {t : State} {pa : Nat} {pb : PageBuffer} (h : t.PageHolds pa pb) : t.pageAt pa = pb := by
  apply Vector.ext
  intro i hi
  rw [State.pageAt, Vector.getElem_ofFn]
  exact h ⟨i, hi⟩

/-- `COMMIT_PAGE` of an accepted address with no reset to come. -/
theorem exec_commitPage_ok {addr : Addr} {s : State} (hr : s.callerReady = true) (hp : s.env.power = [])
    (hu : inUserRegion addr = true) :
    exec (.commitPage addr) s = .next (((s.setBusy true).afterCommit (pageBase addr)).complete resultPage) := by
  rw [exec_commitPage]
  refine callerOp_done hr ?_
  rw [commitPage_ok (s := s.setBusy true) hu (lossBefore_of_power hp _)]
  rfl

/-- `FILL_PAGE` of an accepted address with no reset to come. -/
theorem exec_fillPage_ok {addr : Addr} {s : State} (hr : s.callerReady = true) (hp : s.env.power = [])
    (ha : fillAccepts s.env.par.progMemSize addr = true) :
    ∃ u, exec (.fillPage addr) s = .next u ∧ u.pb = s.pageAt addr.toNat ∧ u.flash = s.flash ∧ u.result = resultPage := by
  have hfill := fillPage_ok (s := s.setBusy true) ha (lossBefore_of_power hp _)
  refine ⟨_, (exec_fillPage s addr).trans (callerOp_done hr (by rw [hfill]; rfl)), ?_, ?_, complete_result ..⟩
  · rw [complete_pb, setNow_pb, setPb_pb]
    rfl
  · rw [complete_flash, setNow_flash, setPb_flash, setBusy_flash]

/-- Settles O52: after the commit the page holds `PB` as it was, and the fill reads the page. -/
theorem commitThenFill : Obligations.CommitThenFill := by
  unfold Obligations.CommitThenFill
  intro addr s hr hp haddr
  have hu : inUserRegion addr = true := decide_eq_true haddr
  refine ⟨_, exec_commitPage_ok hr hp hu, fun pb => ?_⟩
  obtain ⟨-, hholds, -⟩ := afterCommit_committed (pageBase addr) (s.setBusy true)
  have hready : (((s.setBusy true).afterCommit (pageBase addr)).complete resultPage).callerReady = true :=
    callerReady_iff.mpr ⟨(callerReady_iff.mp hr).1, rfl⟩
  obtain ⟨u, hexec, hpb, hflash, hresult⟩ := exec_fillPage_ok
    (s := { ((s.setBusy true).afterCommit (pageBase addr)).complete resultPage with pb := pb })
    hready hp (fillAccepts_userPage hu s)
  exact ⟨u, hexec, hpb.trans hholds.pageAt, hflash, hresult⟩

end Sys2Proof.Machine
end

section
/-! PROOFS. Reading the decoder backwards: what decodes is the encoding of its result, and the first byte of a request says
where it ends. -/
namespace Sys2Proof

/-! ## Requests -/

/-- An opcode is one of the six of 30_encoding.md R101, or reserved (R110). -/
theorem opcode_cases (op : Byte) :
    op = 0x00#8 ∨ op = 0x01#8 ∨ op = 0x02#8 ∨ op = 0x03#8 ∨ op = 0x04#8 ∨ op = 0x05#8 ∨ 6 ≤ op.toNat := by
  simp only [← BitVec.toNat_inj, BitVec.reduceToNat]
  omega

/-- An opcode has operands to count exactly if it is one of the six (43_command_processor.md R183). -/
theorem nops_ne_none_iff (op : Byte) : op.toNat < 6 ↔ nops op ≠ none := by
  rcases opcode_cases op with rfl | rfl | rfl | rfl | rfl | rfl | h
  case inr.inr.inr.inr.inr.inr => simp [Laws.EncodingForm.nops_reserved h, h]
  all_goals decide

/-- A reserved opcode is a request of its own, whatever follows (R104, R110). -/
theorem decodeRequest_reserved {op : Byte} (h : 6 ≤ op.toNat) (tail : List Byte) :
    decodeRequest (op :: tail) = .ok (reservedRequest op, tail) := by
  dsimp only [decodeRequest]
  split
  case h_7 => rw [if_neg (by omega)]
  all_goals omega

/-- A request that ends before its checksum is truncated (R104). -/
theorem decodeRequest_truncated {op : Byte} {n : Nat} {tail : List Byte} (hn : nops op = some n) (h : tail.length ≤ n) :
    decodeRequest (op :: tail) = .error (.truncatedRequest op) := by
  have hop : op.toNat < 6 := (nops_ne_none_iff op).mpr (by simp [hn])
  dsimp only [decodeRequest]
  split
  case h_7 => rw [if_pos hop]
  all_goals
    rename_i hcode
    simp only [nops, hcode, Option.some.injEq, List.length_cons] at hn h
    omega

/-- A request takes `n` operands and its checksum from the bytes after its opcode, and no more (R101). -/
theorem decodeRequest_complete {op : Byte} {n : Nat} {tail : List Byte} (hn : nops op = some n) (h : n < tail.length) :
    ∃ r, decodeRequest (op :: tail) = .ok (r, tail.drop (n + 1)) := by
  rcases opcode_cases op with rfl | rfl | rfl | rfl | rfl | rfl | hop
  case inr.inr.inr.inr.inr.inr => simp [Laws.EncodingForm.nops_reserved hop] at hn
  all_goals cases hn
  · match tail, h with | _ :: _ :: _, _ => exact ⟨_, rfl⟩
  · match tail, h with | _ :: _ :: _ :: _, _ => exact ⟨_, rfl⟩
  · match tail, h with | _ :: _, _ => exact ⟨_, rfl⟩
  · match tail, h with | _ :: _, _ => exact ⟨_, rfl⟩
  · match tail, h with | _ :: _ :: _ :: _, _ => exact ⟨_, rfl⟩
  · match tail, h with | _ :: _ :: _ :: _, _ => exact ⟨_, rfl⟩

/-- The row of a reserved opcode is the one of its range (R110). -/
theorem reservedRequest_wf {op : Byte} (h : 6 ≤ op.toNat) : (reservedRequest op).toInstr.wf = true := by
  have hlt := op.isLt
  unfold reservedRequest
  split_ifs <;> simp only [Request.toInstr, Instr.wf, Bool.and_eq_true, decide_eq_true_eq] <;> omega

/-- A reserved opcode is encoded by itself (R104). -/
theorem encode_reservedRequest (op : Byte) : encode (reservedRequest op).toInstr = .bytes [op] := by
  unfold reservedRequest
  split_ifs <;> rfl

theorem addrHigh_append (ah al : Byte) : addrHigh (ah ++ al : BitVec (8 + 8)) = ah :=
  BitVec.extractLsb'_append_eq_left

theorem addrLow_append (ah al : Byte) : addrLow (ah ++ al : BitVec (8 + 8)) = al :=
  BitVec.extractLsb'_append_eq_right

/-- What is read from the front of a byte list is well formed, and the list is its encoding followed by the bytes left
(R101, R110). -/
theorem decodeRequest_sound {op : Byte} {tail rest : List Byte} {r : Request}
    (h : decodeRequest (op :: tail) = .ok (r, rest)) :
    r.toInstr.wf = true ∧ ∃ req, encode r.toInstr = .bytes req ∧ op :: tail = req ++ rest := by
  have hcode : ∀ k, op.toNat = k → op = BitVec.ofNat 8 k := fun k hk => by
    rw [← hk, BitVec.ofNat_toNat, BitVec.setWidth_eq]
  dsimp only [decodeRequest] at h
  split at h
  case h_7 =>
    split_ifs at h with hop
    cases h
    exact ⟨reservedRequest_wf (by omega), _, encode_reservedRequest op, rfl⟩
  all_goals
    rename_i hop
    rw [hcode _ hop]
    cases h
    refine ⟨rfl, _, rfl, ?_⟩
    simp only [List.cons_append, List.nil_append, addrHigh_append, addrLow_append]

/-- What bytes decode to is well formed, and they are its bytes: nothing is left over (R104). -/
theorem decodeBytes_sound {bs : List Byte} {i : Instr} (h : decodeBytes bs = .ok i) :
    i.wf = true ∧ encode i = .bytes bs := by
  obtain _ | ⟨op, tail⟩ := bs
  · cases h
  unfold decodeBytes at h
  split at h <;> cases h
  next r hreq =>
    obtain ⟨hwf, req, henc, hbs⟩ := decodeRequest_sound hreq
    exact ⟨hwf, by rw [henc, hbs, List.append_nil]⟩

/-! ## Wire forms -/

/-- Eight bits make a byte of which they are the bits (20_memory.md R60). -/
theorem bitsOf_byteOfBits {bits : List Bool} (h : bits.length = 8) : bitsOf (byteOfBits bits) = bits := by
  have hbits : bits = (List.range 8).map fun k => bits.getD k false := by
    apply List.ext_getElem (by simp [h])
    intro k hk _
    simp [hk]
  rw [bitsOf, hbits]
  apply List.map_congr_left
  intro k hk
  exact Machine.byteOfBits_getLsbD _ (List.mem_range.mp hk)

/-- Two halves decode to the symbol they are (30_encoding.md R93). -/
theorem decodeSymbol_sound (a b : Bool) : (decodeSymbol a b).wf = true ∧ encode (decodeSymbol a b) = .slots [a, b] := by
  cases a <;> cases b <;> exact ⟨rfl, rfl⟩

/-- What decodes as a byte frame begins asserted, ends released and has the bits of its byte between (R91, R113). -/
theorem decodeFrame_sound {start stop : Bool} {data : List Bool} {i : Instr} (hlen : data.length = 8)
    (h : decodeFrame start data stop = .ok i) :
    i.wf = true ∧ encode i = .slots (start :: data ++ [stop]) := by
  unfold decodeFrame at h
  split_ifs at h with hstart hstop
  cases h
  rw [Bool.not_eq_false] at hstart
  rw [Bool.not_eq_true] at hstop
  exact ⟨rfl, by rw [encode, frameSlots, bitsOf_byteOfBits hlen, hstart, hstop]⟩

/-- The data symbols of bits. -/
def dataSlots (bits : List Bool) : List Bool :=
  bits.flatMap fun b => symSlots (dsym b)

/-- A byte in the symbol variant is the data symbols of its bits (R94). -/
theorem byteSymSlots_byteOfBits {bits : List Bool} (h : bits.length = 8) :
    byteSymSlots (byteOfBits bits) = dataSlots bits := by
  rw [byteSymSlots, bitsOf_byteOfBits h, dataSlots]

/-- Two unequal halves are the data symbol of the first (41_symbol_transport.md R152). -/
theorem dataSlots_snoc {a b : Bool} (bits : List Bool) (hsym : a ≠ b) :
    dataSlots (bits ++ [a]) = dataSlots bits ++ [a, b] := by
  rw [dataSlots, List.flatMap_append, List.flatMap_singleton, symSlots_dsym, Bool.eq_not.mpr hsym.symm]
  rfl

/-- A further bit of a byte is shifted in (42_hash_integrity.md R177). -/
theorem byteOfBits_snoc (bits : List Bool) (a : Bool) : byteOfBits (bits ++ [a]) = shiftIn (byteOfBits bits) a := by
  simp [byteOfBits]

/-- Two halves that are neither `SYM_START` nor `SYM_STOP` are unequal (30_encoding.md R93). -/
theorem halves_ne {a b : Bool} (h11 : ¬(a = true ∧ b = true)) (h00 : ¬(a = false ∧ b = false)) : a ≠ b := by
  rintro rfl
  cases a with
  | false => exact h00 ⟨rfl, rfl⟩
  | true => exact h11 ⟨rfl, rfl⟩

/-- The slots of a packet body are the data symbols that complete the byte in progress, those of the bytes to come, and
`SYM_STOP` (R95): `bits` are the bits read of the byte in progress, `done` the finished bytes, last first. -/
theorem decodePacketBody_sound {levels : List Bool} {done bytes : List Byte} {bits : List Bool} {cur : Byte} {k : Nat}
    (hcur : cur = byteOfBits bits) (hk : k = bits.length) (hlt : k < 8)
    (h : decodePacketBody levels done cur k = .ok bytes) :
    done.reverse.flatMap byteSymSlots ++ (dataSlots bits ++ levels) =
      bytes.flatMap byteSymSlots ++ symSlots stopCode := by
  induction levels, done, cur, k using decodePacketBody.induct generalizing bits with
  | case1 a b rest done cur k h11 => simp [decodePacketBody, h11] at h
  | case2 a b rest done cur k h11 h00 hend =>
    obtain ⟨rfl, rfl⟩ := h00
    obtain ⟨rfl, rfl⟩ := hend
    obtain rfl := List.length_eq_zero_iff.mp hk.symm
    simp only [decodePacketBody, h11, ↓reduceIte, and_self, Except.ok.injEq] at h
    rw [h]
    rfl
  | case3 a b rest done cur k h11 h00 hend => simp [decodePacketBody, h00, hend] at h
  | case4 a b rest done cur h11 h00 ih =>
    have hsym := halves_ne h11 h00
    have hbyte : byteSymSlots (shiftIn cur a) = dataSlots bits ++ [a, b] := by
      rw [hcur, ← byteOfBits_snoc, byteSymSlots_byteOfBits (by simp [← hk]), dataSlots_snoc bits hsym]
    rw [decodePacketBody, if_neg h11, if_neg h00, if_pos rfl] at h
    have hrest := ih (bits := []) rfl rfl (by decide) h
    simpa [List.flatMap_append, hbyte, dataSlots] using hrest
  | case5 a b rest done cur k h11 h00 h7 ih =>
    have hsym := halves_ne h11 h00
    rw [decodePacketBody, if_neg h11, if_neg h00, if_neg h7] at h
    have hrest := ih (bits := bits ++ [a]) (by rw [hcur, byteOfBits_snoc]) (by simp [hk]) (by omega) h
    simpa [dataSlots_snoc bits hsym] using hrest
  | case6 a done cur k => cases h
  | case7 done cur k => cases h

/-- What slots decode to is well formed, and they are its slots. -/
theorem decodeSlots_sound {levels : List Bool} {i : Instr} (h : decodeSlots levels = .ok i) :
    i.wf = true ∧ encode i = .slots levels := by
  unfold decodeSlots at h
  split at h
  case h_1 a b =>
    cases h
    exact decodeSymbol_sound a b
  case h_2 start d7 d6 d5 d4 d3 d2 d1 d0 stop =>
    exact decodeFrame_sound (data := [d7, d6, d5, d4, d3, d2, d1, d0]) rfl h
  case h_3 rest _ _ =>
    split at h <;> cases h
    next bytes hbody =>
      have hslots := decodePacketBody_sound (bits := []) rfl rfl (by decide) hbody
      refine ⟨rfl, ?_⟩
      rw [encode, packetSlots, ← hslots]
      rfl
  case h_4 => cases h

/-! ## Requests at the caller interface -/

/-- What a request names is well formed: a code of no operation is reserved (10_state.md R42). -/
theorem decodeCall_wf (c : Call) : (decodeCall c).wf = true := by
  have hlt := c.opSel.isLt
  unfold decodeCall
  split
  case h_13 =>
    simp only [imp_false] at *
    simp only [Instr.wf, Bool.and_eq_true, decide_eq_true_eq]
    omega
  all_goals rfl

/-! ## The statements -/

/-- Settles O2, layer by layer. -/
theorem encodingUnique : Obligations.EncodingUnique := by
  unfold Obligations.EncodingUnique
  exact ⟨fun _ _ h => (decodeBytes_sound h).2, fun _ _ h => (decodeSlots_sound h).2⟩

/-- Settles O3, layer by layer. -/
theorem decodedWellFormed : Obligations.DecodedWellFormed := by
  unfold Obligations.DecodedWellFormed
  intro c i h
  cases c with
  | bytes bs => exact (decodeBytes_sound h).1
  | slots levels => exact (decodeSlots_sound h).1
  | call c => cases h; exact decodeCall_wf c

/-- Settles O4: a reserved opcode stands alone; any other is short of its bytes, or takes them and leaves the rest. -/
theorem requestLength : Obligations.RequestLength := by
  unfold Obligations.RequestLength
  intro op tail
  refine ⟨nops_ne_none_iff op, ?_⟩
  split
  next hn => exact decodeRequest_reserved (by by_contra hop; exact (nops_ne_none_iff op).mp (by omega) hn) tail
  next n hn =>
    split_ifs with hlen
    · exact decodeRequest_truncated hn hlen
    · exact decodeRequest_complete hn (by omega)

end Sys2Proof
end

section
/-! PROOFS. What the transmitter drives for each wire form and for the operations of the symbol transport, and the reserved
opcodes, which drive nothing. -/
namespace Sys2Proof.Machine

open Sys2Proof.Config

/-! ## Wire forms -/

/-- A wire form whose operation transmits its slots while the power lasts drives them. -/
theorem drives_of_transmitted {i : Instr} {levels : List Bool} {body : State → Run Unit}
    (hexec : ∀ s, exec i s = whileServing body s)
    (hbody : ∀ s : State, s.lossBefore (s.now + S * levels.length) = false →
      ∃ t, body s = .done () t ∧ Transmitted levels s t) :
    Drives i levels := by
  intro s hs hpower
  obtain ⟨t, hdone, htrans⟩ := hbody s hpower
  exact ⟨t, by rw [hexec, whileServing_on hs, hdone, Run.outcome_done], htrans⟩

/-- A symbol's operation drives its two halves (30_encoding.md R93). -/
theorem drives_symbol {i : Instr} {code : BitVec 2} (hexec : ∀ s, exec i s = whileServing (sendSymbol code) s) :
    Drives i (symSlots code) :=
  drives_of_transmitted hexec fun _ hpower => sendSymbol_transmitted hpower

/-- The slots of a byte in the symbol variant: each bit and its complement (R94). -/
theorem byteSymSlots_eq (v : Byte) :
    byteSymSlots v = (List.range 8).flatMap fun j => [v.getLsbD (7 - j), !v.getLsbD (7 - j)] := by
  simp only [byteSymSlots, bitsOf, List.flatMap_map, symSlots_dsym]

/-- Settles O22, form by form. -/
theorem wireFormsDriven : Obligations.WireFormsDriven := by
  unfold Obligations.WireFormsDriven
  refine ⟨fun v => ?_, drives_symbol exec_symStop, drives_symbol exec_symD0, drives_symbol exec_symD1,
    drives_symbol exec_symStart, fun bytes => ?_⟩
  · exact drives_of_transmitted (fun s => exec_byteFrame s v) fun _ hpower => sendByte_transmitted (v := v) hpower
  · have hslots : packetSlots bytes = true :: true :: bytes.flatMap (fun v =>
        (List.range 8).flatMap fun j => [v.getLsbD (7 - j), !v.getLsbD (7 - j)]) ++ [false, false] := by
      simp only [packetSlots, ← byteSymSlots_eq]
      rfl
    rw [← hslots]
    refine drives_of_transmitted (fun s => exec_packet s bytes) fun s hpower => sendPacket_transmitted ?_
    rwa [length_packetSlots, Nat.mul_comm] at hpower

/-! ## The caller interface -/

/-- Beside the transmission, the busy time and the result are the only traces of an operation of the caller interface. -/
theorem complete_transmitted {levels : List Bool} {s u : State} {r : Result} (hidle : s.busy = false)
    (h : Transmitted levels (s.setBusy true) u) : Transmitted levels { s with result := r } (u.complete r) := by
  obtain ⟨hnow, hout, hdrove, hbefore, ⟨honly, hwire⟩, hflash⟩ := h
  refine ⟨hnow, hout, hdrove, hbefore, ⟨?_, hwire⟩, hflash⟩
  calc u.complete r
    _ = State.complete r { s.setBusy true with now := u.now, devOut := u.devOut, devLog := u.devLog, tx := u.tx } :=
      congrArg (State.complete r) honly
    _ = { s with result := r, busy := false, now := u.now, devOut := u.devOut, devLog := u.devLog, tx := u.tx } := rfl
    _ = { s with result := r, now := u.now, devOut := u.devOut, devLog := u.devLog, tx := u.tx } := by rw [← hidle]

/-- An operation of the caller interface that transmits: the slots are driven, the result is 0 (10_state.md R29). -/
theorem callerOp_transmitted {body : State → Run Unit} {levels : List Bool} {s : State} (hr : s.callerReady = true)
    (hbody : ∃ u, body (s.setBusy true) = .done () u ∧ Transmitted levels (s.setBusy true) u) :
    ∃ t, callerOp (fun u => (body u).withResult fun _ => 0#16) s = .next t ∧ t.result = 0 ∧
      Transmitted levels { s with result := 0 } t := by
  obtain ⟨-, hidle⟩ := callerReady_iff.mp hr
  obtain ⟨u, hdone, htrans⟩ := hbody
  exact ⟨_, callerOp_done hr (by rw [hdone]; rfl), rfl, complete_transmitted hidle htrans⟩

/-- Settles O26: the level kept is that of the last slot. -/
theorem sendSymDrivesHalves : Obligations.SendSymDrivesHalves := by
  unfold Obligations.SendSymDrivesHalves
  intro code s hr hpower
  obtain ⟨t, hexec, hresult, htrans⟩ := callerOp_transmitted hr (sendSymbol_transmitted (c := code) hpower)
  have ⟨_, hout, _⟩ := htrans
  exact ⟨t, (exec_sendSym s code).trans hexec, hresult, hout, htrans⟩

/-- A packet leaves the line released: it ends with `SYM_STOP` (30_encoding.md R95). -/
theorem packetSlots_getLastD (bytes : List Byte) (level : Bool) : (packetSlots bytes).getLastD level = false := by
  rw [packetSlots, ← List.append_assoc, List.getLastD_eq_getLast?, List.getLast?_append]
  rfl

/-- Settles O27: the bytes of `XB` are as many as `len` says, and their packet ends released. -/
theorem sendPacketDrivesPacket : Obligations.SendPacketDrivesPacket := by
  unfold Obligations.SendPacketDrivesPacket
  intro len s hr hpower
  have hlen := length_packetInput len s.xb
  obtain ⟨t, hexec, hresult, htrans⟩ := callerOp_transmitted
    (body := fun u => sendPacket (packetInput len u.xb) u) hr
    (sendPacket_transmitted (bs := packetInput len s.xb) (s := s.setBusy true) (by rw [hlen]; exact hpower))
  have ⟨hnow, hout, _⟩ := htrans
  refine ⟨t, (exec_sendPacket s len).trans hexec, hresult, hout.trans (packetSlots_getLastD ..), ?_, htrans⟩
  rw [hnow, length_packetSlots, hlen, Nat.mul_comm]

/-! ## Reserved opcodes -/

/-- A dropped request changes nothing, whether the block serves or not (43_command_processor.md R197). -/
theorem whileServing_dropReserved (s : State) : whileServing dropReserved s = .next s := by
  rcases whileServing_spec dropReserved s with ⟨-, h⟩ | ⟨-, h⟩ <;> exact h

/-- Settles O43: the six reserved rows have one meaning. -/
theorem reservedDropped : Obligations.ReservedDropped := by
  unfold Obligations.ReservedDropped
  intro op s
  have hdrop := whileServing_dropReserved s
  exact ⟨hdrop, hdrop, hdrop, hdrop, hdrop, hdrop⟩

end Sys2Proof.Machine
end

section
/-! PROOFS. The byte-timing transport (40_byte_transport.md): what SEND_BYTE drives, what RECV_BYTE makes of the line, and the
tick machine of R140, followed tick by tick. -/
namespace Sys2Proof.Machine

open Sys2Proof.Config

/-! ## SEND_BYTE -/

/-- From the end of the slots on, the block drives the level of the last one. -/
theorem afterSlots_devOutAt_end {ls : List Bool} (hls : ls ≠ []) (s : State) {τ : Nat} (hτ : (s.afterSlots ls).clock ≤ τ) :
    (s.afterSlots ls).devOutAt τ = ls.getLastD false := by
  have hclock : (s.afterSlots ls).clock = s.clock + S * ls.length := by
    simp only [State.clock, afterSlots_env, afterSlots_now, Nat.add_assoc]
  rw [afterSlots_devOutAt, if_neg (by omega), if_neg (by omega), if_neg hls]

/-- A frame leaves the line released: slot 9 is 0 (R131). -/
theorem frameSlots_getLastD (v : Byte) (level : Bool) : (frameSlots v).getLastD level = false := by
  rw [frameSlots, List.getLastD_eq_getLast?, List.getLast?_append]
  rfl

/-- Settles O21: the operation ends where the frame has been driven, and slot 9 is the last entry of the log. -/
theorem sendByteDrivesFrame : Obligations.SendByteDrivesFrame := by
  unfold Obligations.SendByteDrivesFrame
  intro v s hr hpower
  obtain ⟨-, hidle⟩ := callerReady_iff.mp hr
  have hbody := sendByte_ok (v := v) (s := s.setBusy true) (lossBefore_mono (Nat.le_succ _) hpower)
  have htrans := complete_transmitted (r := 0#16) hidle
    (afterSlots_transmitted (frameSlots v) (s.setBusy true) (x := (s.tx.setSr v).start.stop 9) rfl)
  have ⟨_, hout, _⟩ := htrans
  refine ⟨_, (exec_sendByte s v).trans (callerOp_done hr (by rw [hbody]; rfl)), rfl,
    hout.trans (frameSlots_getLastD v _), fun τ hτ => ?_, htrans⟩
  exact (afterSlots_devOutAt_end (List.cons_ne_nil _ _) (s.setBusy true) hτ).trans (frameSlots_getLastD v false)

/-! ## RECV_BYTE -/

section
variable {timeout : BitVec 16} {s : State} {t0 : Nat}

/-- `RECV_BYTE` at the caller interface completes as its body does. -/
theorem exec_recvByte_done {u : State} {x : RxByte} (hr : s.callerReady = true)
    (hbody : recvByte timeout.toNat (s.setBusy true) = .done x u) :
    exec (.recvByte timeout) s = .next (u.complete x.result) :=
  (exec_recvByte s timeout).trans (callerOp_done hr (by rw [hbody, Run.withResult_done]))

/-- `RECV_BYTE` at the caller interface, on an idle line (R138, first row). -/
theorem exec_recvByte_timeout (hr : s.callerReady = true) (hi : s.Idle s.now (s.now + timeout.toNat * S))
    (hp : s.lossBefore (s.now + timeout.toNat * S) = false) :
    exec (.recvByte timeout) s =
      .next (((s.setNow (s.now + timeout.toNat * S)).setRx (s.rx.noStart timeout.toNat)).complete resultTimeout) :=
  exec_recvByte_done hr (recvByte_timeout (s := s.setBusy true) hi hp)

/-- `RECV_BYTE` at the caller interface, synchronised at `t0` (R138, the other rows). -/
theorem exec_recvByte_synced (hr : s.callerReady = true) (hf : s.FirstAsserted s.now (s.now + timeout.toNat * S) t0)
    (hp : s.lossBefore (t0 + 9 * S + PH + 1) = false) :
    exec (.recvByte timeout) s =
      .next (((s.setNow (t0 + 9 * S + PH + 1)).setRx
        (s.rx.frameTaken t0 (timeout.toNat * S - (t0 - s.now)) (sampledByte s.line t0))).complete
          (sampledFrame s.line t0).result) :=
  (exec_recvByte_done hr (recvByte_synced (s := s.setBusy true) hf hp)).trans rfl

/-- An operation of the caller interface that wrote no more than time, `result` and the byte variant's registers. -/
theorem complete_onlyReceived (hidle : s.busy = false) (c : Nat) (r : Result) {x : RxRegs} (hphase : x.phase = .idle)
    (hfirst : x.first = s.rx.first) (hcount : x.count = s.rx.count) (hmax : x.max = s.rx.max) :
    OnlyReceived s (((s.setNow c).setRx x).complete r) := by
  refine ⟨?_, fun _ => rfl, hphase, hfirst, hcount, hmax⟩
  calc ((s.setNow c).setRx x).complete r
    _ = { s with now := c, result := r, rx := x, busy := false } := rfl
    _ = { s with now := c, result := r, rx := x } := by rw [← hidle]

/-- A synchronised reception ends with what its samples give (R134). -/
theorem exec_recvByte_receives (hr : s.callerReady = true) (hf : s.FirstAsserted s.now (s.now + timeout.toNat * S) t0)
    (hp : s.lossBefore (t0 + 9 * S + PH + 1) = false) :
    ∃ t, exec (.recvByte timeout) s = .next t ∧ t.now = t0 + 9 * S + PH + 1 ∧
      t.result = (sampledFrame s.line t0).result ∧ OnlyReceived s t := by
  obtain ⟨-, hidle⟩ := callerReady_iff.mp hr
  exact ⟨_, exec_recvByte_synced hr hf hp, rfl, rfl, complete_onlyReceived hidle _ _ rfl rfl rfl rfl⟩
end

/-! ## What the samples give -/

/-- A byte as a result is its value (00_scope.md R16). -/
theorem resultOfByte_toNat (v : Byte) : (resultOfByte v).toNat = v.toNat := by
  have := v.isLt
  rw [resultOfByte, BitVec.zeroExtend, BitVec.toNat_setWidth]
  omega

/-- The bits of a byte are those of its result. -/
theorem resultOfByte_getLsbD (v : Byte) {i : Nat} (hi : i < 8) : (resultOfByte v).getLsbD i = v.getLsbD i := by
  rw [resultOfByte, BitVec.zeroExtend, BitVec.getLsbD_setWidth, decide_eq_true (show i < 16 by omega), Bool.true_and]

section
variable {line : Nat → Bool} {t0 : Nat}

/-- The stop sample reads 1 (R137). -/
theorem sampledFrame_framing (h : line (t0 + 9 * S + PH) = true) : sampledFrame line t0 = .framing := if_pos h

/-- The stop sample reads 0 (R137). -/
theorem sampledFrame_byte (h : line (t0 + 9 * S + PH) = false) : sampledFrame line t0 = .byte (sampledByte line t0) :=
  if_neg (by rw [h]; decide)

/-- Sample `k` is bit `7-k` (R136). -/
theorem sampledByte_getLsbD {k : Nat} (hk : k < 8) : (sampledByte line t0).getLsbD (7 - k) = line (t0 + S + PH + k * S) :=
  byteOfBits_getLsbD _ hk
end

/-- Settles O23: the search fails or synchronises, and then the stop sample decides. -/
theorem recvByteOutcomes : Obligations.RecvByteOutcomes := by
  unfold Obligations.RecvByteOutcomes
  intro timeout s hr
  obtain ⟨-, hidle⟩ := callerReady_iff.mp hr
  refine ⟨fun hi hp => ?_, fun t0 hf hp => ?_⟩
  · exact ⟨_, exec_recvByte_timeout hr hi (lossBefore_mono (Nat.le_succ _) hp), rfl, rfl,
      complete_onlyReceived hidle _ _ rfl rfl rfl rfl⟩
  · obtain ⟨t, hexec, hnow, hresult, honly⟩ := exec_recvByte_receives hr hf (lossBefore_mono (Nat.le_succ _) hp)
    refine ⟨t, hexec, hnow, honly, ?_⟩
    cases hstop : s.line (t0 + 9 * S + PH) with
    | true => rw [if_pos rfl, hresult, sampledFrame_framing hstop]; rfl
    | false =>
      rw [if_neg Bool.false_ne_true, hresult, sampledFrame_byte hstop, RxByte.result, resultOfByte_toNat]
      refine ⟨(sampledByte s.line t0).isLt, fun k hk => ?_⟩
      rw [resultOfByte_getLsbD _ (by omega), sampledByte_getLsbD hk]

/-! ## Frames that are received -/

section
variable {s : State} {b : Byte} {e d : Nat}

/-- The line is asserted throughout the START pulse (R131). -/
theorem Carries.startPulse (h : s.Carries e (frameSlots b)) (hd : d < S) : s.line (e + d) = true := by
  have hstart := Carries.level h (n := 0) (τ := d) (by rw [length_frameSlots]; decide) hd
  rwa [frameSlots_start, Nat.zero_mul, Nat.add_zero] at hstart

/-- Sampled later, but from within the START pulse, sample `k` falls in slot `k+2`: the byte is shifted left, the STOP level
entering at bit 0 (R141). -/
theorem sampledByte_late (h : s.Carries e (frameSlots b)) (hd : d < S) (hlate : S ≤ d + PH) :
    sampledByte s.line (e + d) = b <<< 1 := by
  apply byte_ext
  intro k hk
  have hslot : s.line (e + d + S + PH + k * S) = (frameSlots b).getD (k + 2) false := by
    rw [← Carries.level h (n := k + 2) (τ := d + PH - S) (by rw [length_frameSlots]; omega) (by simp only [S, PH] at *; omega)]
    congr 1
    simp only [S, PH] at *; omega
  rw [sampledByte_getLsbD hk, hslot, BitVec.getLsbD_shiftLeft]
  by_cases hlast : k = 7
  · subst hlast
    exact frameSlots_stop b
  · rw [frameSlots_data b (k := k + 1) (by omega), decide_eq_true (show 7 - k < 8 by omega),
      decide_eq_false (show ¬ 7 - k < 1 by omega), show 7 - k - 1 = 7 - (k + 1) by omega]
    rfl
end

/-- Settles O24: the first asserted poll is the first tick of the frame. -/
theorem byteRoundTrip : Obligations.ByteRoundTrip := by
  unfold Obligations.ByteRoundTrip
  intro b timeout e s hr hfrom hto hi hc hp
  have hf : s.FirstAsserted s.now (s.now + timeout.toNat * S) e :=
    ⟨hfrom, hto, Carries.startPulse (d := 0) hc (by decide), hi⟩
  obtain ⟨t, hexec, hnow, hresult, honly⟩ := exec_recvByte_receives hr hf hp
  have hframe : sampledFrame s.line e = .byte b := sampledFrame_of_Carries (d := 0) hc (by decide)
  exact ⟨t, hexec, hnow, by rw [hresult, hframe, RxByte.result, resultOfByte_toNat], honly⟩

/-- Settles O25: the first poll is asserted; the samples are in their slots, or each in the next one. -/
theorem lateStart : Obligations.LateStart := by
  unfold Obligations.LateStart
  intro b timeout e d s hr hstart _ hd htimeout hc hp
  have hf : s.FirstAsserted s.now (s.now + timeout.toNat * S) (e + d) :=
    ⟨hstart.le, by simp only [S]; omega, Carries.startPulse hc hd, fun τ _ _ => by omega⟩
  obtain ⟨t, hexec, hnow, hresult, -⟩ := exec_recvByte_receives hr hf hp
  refine ⟨t, hexec, hnow, ?_⟩
  rw [hresult]
  split_ifs with hearly hstop
  · rw [sampledFrame_of_Carries hc hearly, RxByte.result, resultOfByte_toNat]
  · rw [sampledFrame_framing hstop]; rfl
  · rw [sampledFrame_byte (Bool.eq_false_iff.mpr hstop), sampledByte_late hc hd (by omega), RxByte.result,
      resultOfByte_toNat, BitVec.toNat_shiftLeft, Nat.shiftLeft_eq]

/-! ## The tick machine -/

/-- One tick of the receiver while it is active. -/
theorem rxByteTick_active (u : State) {x : RxRegs} (hx : x.phase ≠ .idle) :
    rxByteTick (u.setRx x) = u.rxTicked (x.byteTick (u.line u.now) u.now) := by
  unfold rxByteTick
  rw [setRx_rx, if_neg hx]
  rfl

/-- The registers after `n` polls that read 0, of a search of `polls` polls. -/
def RxRegs.searching (polls n : Nat) (rx : RxRegs) : RxRegs := { rx with phase := .search, polls := polls - n }

section
variable {s : State} {timeout : Nat}

/-- The receiver after `n` polls that read 0, with polls left. -/
theorem rxByte_searching {n : Nat} (hn : n < timeout * S) (hi : s.Idle s.now (s.now + n)) :
    runTicks rxByteTick n (rxByteStart timeout s) = (s.setNow (s.now + n)).setRx (s.rx.searching (timeout * S) n) := by
  induction n with
  | zero => rw [runTicks, rxByteStart, if_neg (by rintro rfl; omega)]; rfl
  | succ n ih =>
    have hline : (s.setNow (s.now + n)).line (s.now + n) = false := hi _ (by omega) (by omega)
    have hpolls : ¬ (timeout * S - n - 1 = 0) := by omega
    rw [runTicks_succ, ih (by omega) fun τ h1 h2 => hi τ h1 (by omega), rxByteTick_active _ RxPhase.noConfusion, setNow_now,
      hline]
    simp only [RxRegs.byteTick, RxRegs.searching, RxRegs.pollMissed, hpolls, Bool.false_eq_true, if_false]
    rfl

/-- The receiver after a search in which every poll reads 0. -/
theorem rxByte_timeout (hi : s.Idle s.now (s.now + timeout * S)) :
    runTicks rxByteTick (timeout * S) (rxByteStart timeout s) =
      ((s.setNow (s.now + timeout * S)).setRx (s.rx.noStart timeout)).complete resultTimeout := by
  rcases Nat.eq_zero_or_pos timeout with rfl | hpos
  · rw [Nat.zero_mul]; rfl
  · obtain ⟨n, hn⟩ : ∃ n, timeout * S = n + 1 := ⟨timeout * S - 1, by simp only [S]; omega⟩
    have hline : (s.setNow (s.now + n)).line (s.now + n) = false := hi _ (by omega) (by omega)
    have hpolls : timeout * S - n - 1 = 0 := by omega
    have hne : timeout ≠ 0 := by omega
    rw [hn, runTicks_succ, rxByte_searching (by omega) fun τ h1 h2 => hi τ h1 (by omega),
      rxByteTick_active _ RxPhase.noConfusion, setNow_now, hline]
    simp only [RxRegs.byteTick, RxRegs.searching, RxRegs.pollMissed, RxRegs.noStart, hpolls, hne, Bool.false_eq_true,
      if_true, if_false]
    rfl
end

/-- How many samples have been taken up to `m` ticks after the synchronising one: sample `k` falls `(k+1)*S + PH` ticks after it
(R136). -/
def samplesAfter (m : Nat) : Nat := (m - PH) / S

/-- The registers `m` ticks after the tick `t0` that synchronised, `left` polls being left. -/
def RxRegs.sampling (line : Nat → Bool) (t0 left m : Nat) (rx : RxRegs) : RxRegs :=
  { rx with
    phase := if samplesAfter m = 8 then .stopChk else .data
    polls := left
    wait := (samplesAfter m + 1) * S + PH - 1 - m
    k := samplesAfter m
    sr := byteOfBits ((List.range (samplesAfter m)).map fun k => line (t0 + S + PH + k * S))
    t0 := t0 }

section
variable (line : Nat → Bool) (t0 left : Nat) (rx : RxRegs)

theorem sampling_active (m : Nat) : (rx.sampling line t0 left m).phase ≠ .idle := by
  unfold RxRegs.sampling
  dsimp only
  split <;> exact RxPhase.noConfusion

/-- A tick of waiting. -/
theorem sampling_wait {m : Nat} (hwait : 0 < (samplesAfter m + 1) * S + PH - 1 - m) (x : Bool) (now : Nat) :
    (rx.sampling line t0 left m).byteTick x now = (rx.sampling line t0 left (m + 1), none) := by
  have hsamples : samplesAfter (m + 1) = samplesAfter m := by simp only [samplesAfter, S, PH] at *; omega
  have hnext : (samplesAfter m + 1) * S + PH - 1 - m - 1 = (samplesAfter m + 1) * S + PH - 1 - (m + 1) := by omega
  unfold RxRegs.byteTick RxRegs.sampling RxRegs.waited
  rw [hsamples, ← hnext]
  by_cases h8 : samplesAfter m = 8 <;> simp only [h8, if_true, if_false] at hwait ⊢ <;> rw [if_pos hwait]

/-- The tick of a data sample. -/
theorem sampling_sample {m : Nat} (hm : m + 1 < 9 * S + PH) (hwait : (samplesAfter m + 1) * S + PH - 1 - m = 0) (now : Nat) :
    (rx.sampling line t0 left m).byteTick (line (t0 + 1 + m)) now = (rx.sampling line t0 left (m + 1), none) := by
  have hk : samplesAfter m ≠ 8 := by simp only [samplesAfter, S, PH] at *; omega
  have hsamples : samplesAfter (m + 1) = samplesAfter m + 1 := by simp only [samplesAfter, S, PH] at *; omega
  have htick : t0 + 1 + m = t0 + S + PH + samplesAfter m * S := by simp only [samplesAfter, S, PH] at *; omega
  have hnext : (samplesAfter m + 1 + 1) * S + PH - 1 - (m + 1) = S - 1 := by simp only [samplesAfter, S, PH] at *; omega
  unfold RxRegs.byteTick RxRegs.sampling
  rw [hsamples, hnext, hwait, htick, List.range_succ, List.map_append, List.map_singleton, byteOfBits_snoc]
  simp only [hk, if_false, Nat.lt_irrefl]

/-- One tick before the stop sample. -/
theorem sampling_tick {m : Nat} (hm : m + 1 < 9 * S + PH) (now : Nat) :
    (rx.sampling line t0 left m).byteTick (line (t0 + 1 + m)) now = (rx.sampling line t0 left (m + 1), none) := by
  rcases Nat.eq_zero_or_pos ((samplesAfter m + 1) * S + PH - 1 - m) with hwait | hwait
  · exact sampling_sample line t0 left rx hm hwait now
  · exact sampling_wait line t0 left rx hwait _ now

/-- The tick of the stop sample. -/
theorem sampling_stop (now : Nat) :
    (rx.sampling line t0 left (9 * S + PH - 1)).byteTick (line (t0 + 9 * S + PH)) now =
      (rx.frameTaken t0 left (sampledByte line t0), some (sampledFrame line t0).result) := by
  cases hstop : line (t0 + 9 * S + PH) with
  | true => rw [sampledFrame_framing hstop]; rfl
  | false => rw [sampledFrame_byte hstop]; rfl
end

section
variable {s : State} {timeout t0 : Nat} (hf : s.FirstAsserted s.now (s.now + timeout * S) t0)
include hf

/-- The receiver at the end of the tick that synchronised. -/
theorem rxByte_synced :
    runTicks rxByteTick (t0 - s.now + 1) (rxByteStart timeout s) =
      (s.setNow (t0 + 1)).setRx (s.rx.sampling s.line t0 (timeout * S - (t0 - s.now)) 0) := by
  obtain ⟨hfrom, hto, hasserted, hidle⟩ := hf
  have hnow : s.now + (t0 - s.now) = t0 := by omega
  rw [runTicks_succ, rxByte_searching (by omega) (by rwa [hnow]), hnow, rxByteTick_active _ RxPhase.noConfusion, setNow_now,
    line_setNow, hasserted]
  rfl

/-- The receiver `m` ticks after the one that synchronised. -/
theorem rxByte_sampling {m : Nat} (hm : m < 9 * S + PH) :
    runTicks rxByteTick (t0 - s.now + 1 + m) (rxByteStart timeout s) =
      (s.setNow (t0 + 1 + m)).setRx (s.rx.sampling s.line t0 (timeout * S - (t0 - s.now)) m) := by
  induction m with
  | zero => exact rxByte_synced hf
  | succ m ih =>
    rw [← Nat.add_assoc, runTicks_succ, ih (by omega), rxByteTick_active _ (sampling_active _ _ _ _ _), setNow_now, line_setNow,
      sampling_tick _ _ _ _ hm]
    rfl

/-- The receiver after the stop sample. -/
theorem rxByte_frameTaken :
    runTicks rxByteTick (t0 - s.now + 9 * S + PH + 1) (rxByteStart timeout s) =
      ((s.setNow (t0 + 9 * S + PH + 1)).setRx
        (s.rx.frameTaken t0 (timeout * S - (t0 - s.now)) (sampledByte s.line t0))).complete
          (sampledFrame s.line t0).result := by
  have hticks : t0 - s.now + 9 * S + PH + 1 = t0 - s.now + 1 + (9 * S + PH - 1) + 1 := by simp only [S, PH]
  have hstop : t0 + 1 + (9 * S + PH - 1) = t0 + 9 * S + PH := by simp only [S, PH]
  rw [hticks, runTicks_succ, rxByte_sampling hf (by decide), hstop, rxByteTick_active _ (sampling_active _ _ _ _ _), setNow_now,
    line_setNow, sampling_stop]
  rfl
end

/-- Settles O58: on an idle line and synchronised, the machine ends where the operation does. -/
theorem recvByteTickMachine : Obligations.RecvByteTickMachine := by
  unfold Obligations.RecvByteTickMachine
  intro timeout s hr hp
  rcases idle_or_firstAsserted s (timeout.toNat * S) with hi | ⟨t0, hf⟩
  · exact ⟨_, timeout.toNat * S, exec_recvByte_timeout hr hi (lossBefore_of_power hp _), rfl,
      rxByte_timeout (s := s.setBusy true) hi⟩
  · have ⟨hfrom, _⟩ := hf
    refine ⟨_, t0 - s.now + 9 * S + PH + 1, exec_recvByte_synced hr hf (lossBefore_of_power hp _), ?_,
      rxByte_frameTaken (s := s.setBusy true) hf⟩
    change t0 + 9 * S + PH + 1 = s.now + (t0 - s.now + 9 * S + PH + 1)
    omega

end Sys2Proof.Machine
end

section
/-! PROOFS. RECV_PACKET (41_symbol_transport.md): what it makes of the line over one step or more, packets that never end, and
packets that are received as they were sent. -/
namespace Sys2Proof.Machine

open Sys2Proof.Config

/-! ## A packet at the caller interface -/

/-- The block that has accepted `RECV_PACKET(maxSize)`, right after its synchronisation at `t0`. -/
def State.synced (maxSize : Byte) (t0 : Nat) (s : State) : State :=
  ((s.setBusy true).setNow (t0 + 1)).setRx
    (s.rx.packetSynced maxSize t0 (pktSyncRounds * pktSubpolls - (t0 - s.now)))

/-- The block `m` data symbols after its synchronisation at `t0`. -/
def State.receiving (maxSize : Byte) (t0 m : Nat) (s : State) : State :=
  afterSymbols (fun j => (s.pairAt t0 j).1) t0 (s.synced maxSize t0) m

/-- What a packet comes to that ends with symbol `m + 1` (R157). -/
def State.packetResult (t0 m : Nat) (s : State) : Result :=
  if (s.pairAt t0 (m + 1)).1 then resultFraming
  else resultOfCount (m / 8) (s.env.epoch + (t0 + 2 * S * (m + 1) + S + PH + 1))

/-- The block at the completion of a packet that ends with symbol `m + 1`. -/
def State.packetOver (maxSize : Byte) (t0 m : Nat) (s : State) : State :=
  (((s.receiving maxSize t0 m).setNow (t0 + 2 * S * (m + 1) + S + PH + 1)).setRx
    ((s.receiving maxSize t0 m).rx.packetEnded (s.pairAt t0 (m + 1)).1)).complete (s.packetResult t0 m)

/-- Of a reception that is complete, no more than time, `result`, `XB` and the receive engine keep a trace. -/
theorem complete_onlyReceivedPacket {s u : State} (hidle : s.busy = false) (r : Result)
    (hu : u = { s with busy := u.busy, now := u.now, xb := u.xb, rx := u.rx }) : OnlyReceivedPacket s (u.complete r) := by
  have honly : u.complete r = { s with now := u.now, result := r, xb := u.xb, rx := u.rx } := by
    calc u.complete r
      _ = State.complete r { s with busy := u.busy, now := u.now, xb := u.xb, rx := u.rx } := congrArg (State.complete r) hu
      _ = { s with now := u.now, result := r, xb := u.xb, rx := u.rx, busy := false } := rfl
      _ = { s with now := u.now, result := r, xb := u.xb, rx := u.rx } := by rw [← hidle]
  exact ⟨honly, fun a => by rw [honly]⟩

section
variable (maxSize : Byte) (t0 m : Nat) (s : State)

theorem synced_synced : Synced t0 (s.synced maxSize t0) := synced_packetSynced maxSize t0 _ (s.setBusy true)

/-- Only `busy`, time, `XB` and the receive engine change. -/
theorem receiving_eq :
    s.receiving maxSize t0 m = { s with
      busy := true
      now := (s.receiving maxSize t0 m).now
      xb := (s.receiving maxSize t0 m).xb
      rx := (s.receiving maxSize t0 m).rx } :=
  afterSymbols_eq m

@[simp] theorem receiving_env : (s.receiving maxSize t0 m).env = s.env := afterSymbols_env m

@[simp] theorem receiving_busy : (s.receiving maxSize t0 m).busy = true := by rw [receiving_eq]

@[simp] theorem receiving_inPacket : (s.receiving maxSize t0 m).inPacket = true :=
  beq_iff_eq.mpr (afterSymbols_phase (synced_synced maxSize t0 s) m)

@[simp] theorem receiving_now_succ : (s.receiving maxSize t0 (m + 1)).now = t0 + 2 * S * (m + 1) + S + PH + 1 :=
  afterSymbols_now_succ m

@[simp] theorem packetOver_now : (s.packetOver maxSize t0 m).now = t0 + 2 * S * (m + 1) + S + PH + 1 := rfl

@[simp] theorem packetOver_result : (s.packetOver maxSize t0 m).result = s.packetResult t0 m := rfl

theorem packetOver_onlyReceived (hidle : s.busy = false) : OnlyReceivedPacket s (s.packetOver maxSize t0 m) := by
  refine complete_onlyReceivedPacket hidle _ ?_
  rw [receiving_eq]
  rfl

/-- The bytes a packet leaves in `XB` (R158). -/
theorem packetOver_stored : StoredPacket t0 (m / 8) maxSize s (s.packetOver maxSize t0 m) := by
  intro i
  have hxb : (s.packetOver maxSize t0 m).xb[i] =
      if i.val < min (m / 8) maxSize.toNat then wholeByte (fun j => (s.pairAt t0 j).1) i else s.xb[i] :=
    afterSymbols_xb (synced_synced maxSize t0 s) m i
  by_cases hi : i.val < min (m / 8) maxSize.toNat
  · rw [if_pos hi]
    rw [if_pos hi] at hxb
    intro k hk
    rw [hxb, wholeByte, byteOfBits_getLsbD _ hk]
  · rw [if_neg hi]
    rw [if_neg hi] at hxb
    exact hxb
end

section
variable {maxSize : Byte} {t0 m : Nat} {s : State}

/-- An accepted `RECV_PACKET` whose search fails (R156). -/
theorem exec_recvPacket_timeout (hr : s.callerReady = true) (hi : s.Idle s.now (s.now + pktSyncRounds * pktSubpolls))
    (hp : s.lossBefore (s.now + pktSyncRounds * pktSubpolls) = false) :
    exec (.recvPacket maxSize) s =
      .next (((s.setNow (s.now + pktSyncRounds * pktSubpolls)).setRx (s.rx.noPacket maxSize)).complete resultTimeout) := by
  have hbody : recvPacket maxSize (s.setBusy true) = .done (some resultTimeout)
      (((s.setBusy true).setNow (s.now + pktSyncRounds * pktSubpolls)).setRx (s.rx.noPacket maxSize)) :=
    congrArg (Run.bind · _) (searchPacket_timeout (maxSize := maxSize) (s := s.setBusy true) hi hp)
  exact ((exec_recvPacket s maxSize).trans (callerOp_done hr hbody)).trans rfl

/-- The body of a synchronised `RECV_PACKET` is the reception of as many symbols as one step takes. -/
theorem recvPacket_synced (hf : s.FirstAsserted s.now (s.now + pktSyncRounds * pktSubpolls) t0)
    (hp : s.lossBefore (t0 + 1) = false) :
    recvPacket maxSize (s.setBusy true) = recvSymbols s.symbolFuel (s.receiving maxSize t0 0) :=
  congrArg (Run.bind · _) (searchPacket_synced (maxSize := maxSize) (s := s.setBusy true) hf hp)

/-- A packet that does not end within the symbols one step takes. -/
theorem exec_recvPacket_running (hr : s.callerReady = true)
    (hf : s.FirstAsserted s.now (s.now + pktSyncRounds * pktSubpolls) t0)
    (hd : ∀ j, 1 ≤ j → j ≤ s.symbolFuel → isData (s.pairAt t0 j) = true)
    (hp : s.lossBefore (t0 + 2 * S * s.symbolFuel + S + PH + 1) = false) :
    exec (.recvPacket maxSize) s = .next (s.receiving maxSize t0 s.symbolFuel) := by
  have hbody : recvSymbols s.symbolFuel (s.receiving maxSize t0 0) =
      .done none (s.receiving maxSize t0 (0 + s.symbolFuel)) :=
    recvSymbols_data (synced_synced maxSize t0 s) (fun _ => rfl) _ 0 (fun j h1 h2 => hd j h1 (by omega))
      (by rw [Nat.zero_add]; exact hp)
  rw [Nat.zero_add] at hbody
  exact (exec_recvPacket s maxSize).trans
    (callerOp_running hr ((recvPacket_synced hf (lossBefore_mono (by omega) hp)).trans hbody))

/-- A packet that ends within the symbols one step takes. -/
theorem exec_recvPacket_ended (hr : s.callerReady = true)
    (hf : s.FirstAsserted s.now (s.now + pktSyncRounds * pktSubpolls) t0) (hfuel : m < s.symbolFuel)
    (hd : ∀ j, 1 ≤ j → j ≤ m → isData (s.pairAt t0 j) = true) (he : isData (s.pairAt t0 (m + 1)) = false)
    (hp : s.lossBefore (t0 + 2 * S * (m + 1) + S + PH + 1) = false) :
    exec (.recvPacket maxSize) s = .next (s.packetOver maxSize t0 m) := by
  have hbody := recvSymbols_end (f := fun j => (s.pairAt t0 j).1) (synced_synced maxSize t0 s) (fun _ => rfl)
    s.symbolFuel 0 m (by omega) (Nat.zero_le m) hd he hp
  exact (exec_recvPacket s maxSize).trans
    (callerOp_done hr ((recvPacket_synced hf (lossBefore_mono (by omega) hp)).trans hbody))

/-! ## Further steps of a packet -/

/-- A block that stands alone goes on with its packet. -/
theorem step_inPacket (ha : s.env.par.assembly = .caller) (hp : s.inPacket = true) (hl : s.lossDue = false) :
    step s = continuePacket s := by
  rw [step_of_no_loss hl, poweredStep_caller ha, servingStep, if_pos hp]

/-- No reset is due before the end of the symbol that is next. -/
theorem receiving_lossDue (hp : s.lossBefore (t0 + 2 * S * (m + 1) + S + PH + 1) = false) :
    (s.receiving maxSize t0 m).lossDue = false := by
  have hsample : (s.receiving maxSize t0 m).now + (s.receiving maxSize t0 m).rx.wait = t0 + 2 * S * (m + 1) + PH :=
    afterSymbols_sample (synced_synced maxSize t0 s) m
  refine (afterSymbols_lossBefore (base := s.synced maxSize t0) m _).trans (lossBefore_mono (s := s) ?_ hp)
  omega

/-- A step takes one more data symbol (log entry 16). -/
theorem step_receiving_data (ha : s.env.par.assembly = .caller) (hd : isData (s.pairAt t0 (m + 1)) = true)
    (hp : s.lossBefore (t0 + 2 * S * (m + 1) + S + PH + 1) = false) :
    step (s.receiving maxSize t0 m) = .next (s.receiving maxSize t0 (m + 1)) := by
  have hsym : recvSymbol (s.receiving maxSize t0 m) = .done none (s.receiving maxSize t0 (m + 1)) :=
    recvSymbol_data (synced_synced maxSize t0 s) (fun _ => rfl) hd hp
  rw [step_inPacket (by rw [receiving_env]; exact ha) (receiving_inPacket ..) (receiving_lossDue hp), continuePacket, hsym]
  rfl

/-- A step takes the symbol that ends the packet. -/
theorem step_receiving_end (ha : s.env.par.assembly = .caller) (he : isData (s.pairAt t0 (m + 1)) = false)
    (hp : s.lossBefore (t0 + 2 * S * (m + 1) + S + PH + 1) = false) :
    step (s.receiving maxSize t0 m) = .next (s.packetOver maxSize t0 m) := by
  have hsym := recvSymbol_end (f := fun j => (s.pairAt t0 j).1) (synced_synced maxSize t0 s) he hp
  rw [step_inPacket (by rw [receiving_env]; exact ha) (receiving_inPacket ..) (receiving_lossDue hp), continuePacket,
    State.receiving, hsym]
  rfl

/-- A run whose first step is known. -/
theorem run_succ {u v : State} (h : step u = .next v) (n : Nat) :
    Host.Core.run Sys2Proof.core (n + 1) u = Host.Core.run Sys2Proof.core n v := by
  have hstep : Sys2Proof.core.step u = .next v := h
  simp only [Host.Core.run, hstep]

/-- As many steps as there are data symbols. -/
theorem run_receiving_data (ha : s.env.par.assembly = .caller) (n : Nat)
    (hd : ∀ j, m < j → j ≤ m + n → isData (s.pairAt t0 j) = true)
    (hp : s.lossBefore (t0 + 2 * S * (m + n) + S + PH + 1) = false) :
    Host.Core.run Sys2Proof.core n (s.receiving maxSize t0 m) = .next (s.receiving maxSize t0 (m + n)) := by
  induction n generalizing m with
  | zero => rfl
  | succ n ih =>
    have hsum : m + 1 + n = m + (n + 1) := by omega
    rw [run_succ (step_receiving_data ha (hd _ (by omega) (by omega)) (lossBefore_mono (by simp only [S]; omega) hp)),
      ih (fun j h1 h2 => hd j (by omega) (by omega)) (by rwa [hsum]), hsum]

/-- The steps up to the symbol that ends the packet. -/
theorem run_receiving_end (ha : s.env.par.assembly = .caller) (n : Nat)
    (hd : ∀ j, m < j → j ≤ m + n → isData (s.pairAt t0 j) = true) (he : isData (s.pairAt t0 (m + n + 1)) = false)
    (hp : s.lossBefore (t0 + 2 * S * (m + n + 1) + S + PH + 1) = false) :
    Host.Core.run Sys2Proof.core (n + 1) (s.receiving maxSize t0 m) = .next (s.packetOver maxSize t0 (m + n)) := by
  induction n generalizing m with
  | zero => exact run_succ (step_receiving_end ha he hp) 0
  | succ n ih =>
    have hsum : m + 1 + n = m + (n + 1) := by omega
    rw [run_succ (step_receiving_data ha (hd _ (by omega) (by omega)) (lossBefore_mono (by simp only [S]; omega) hp)),
      ih (fun j h1 h2 => hd j (by omega) (by omega)) (by rwa [hsum]) (by rwa [hsum]), hsum]

/-! ## The outcomes -/

/-- One step takes every packet that has a result, and every packet that ends on a line without a stream (log entry 16). -/
theorem lt_symbolFuel (hd : ∀ j, 1 ≤ j → j ≤ m → isData (s.pairAt t0 j) = true)
    (he : isData (s.pairAt t0 (m + 1)) = false) (h : m / 8 ≤ 32767 ∨ s.env.wave.stream = none) : m < s.symbolFuel := by
  cases hs : s.env.wave.stream with
  | none =>
    by_contra hlong
    have := isData_of_fuel hs (fun j h1 h2 => hd j h1 (by omega)) (m + 1) (by omega)
    rw [he] at this
    exact Bool.false_ne_true this
  | some k =>
    have hfuel : s.symbolFuel = packetSymbols := by simp only [State.symbolFuel, hs]
    have hcount : m / 8 ≤ 32767 := h.resolve_right (by rw [hs]; exact nofun)
    rw [hfuel]
    simp only [packetSymbols]
    omega

/-- The count of a packet that has a result (R159). -/
theorem packetResult_count (hstop : (s.pairAt t0 (m + 1)).1 = false) (hcount : m / 8 ≤ 32767) :
    (s.packetResult t0 m).toNat = m / 8 := by
  rw [State.packetResult, hstop, if_neg Bool.false_ne_true, resultOfCount, if_pos hcount, BitVec.toNat_ofNat]
  omega

/-- Every packet that ends is over after the step that began it and the steps its further symbols take. -/
theorem recvPacket_reaches_packetOver (hr : s.callerReady = true)
    (hf : s.FirstAsserted s.now (s.now + pktSyncRounds * pktSubpolls) t0)
    (hd : ∀ j, 1 ≤ j → j ≤ m → isData (s.pairAt t0 j) = true) (he : isData (s.pairAt t0 (m + 1)) = false)
    (hp : s.lossBefore (t0 + 2 * S * (m + 1) + S + PH + 1) = false) :
    ∃ u n, exec (.recvPacket maxSize) s = .next u ∧
      Host.Core.run Sys2Proof.core n u = .next (s.packetOver maxSize t0 m) ∧
      (m / 8 ≤ 32767 ∨ s.env.wave.stream = none → n = 0) := by
  obtain ⟨ha, -⟩ := callerReady_iff.mp hr
  by_cases hfuel : m < s.symbolFuel
  · exact ⟨_, 0, exec_recvPacket_ended hr hf hfuel hd he hp, rfl, fun _ => rfl⟩
  · have hsum : s.symbolFuel + (m - s.symbolFuel) = m := by omega
    refine ⟨_, m - s.symbolFuel + 1,
      exec_recvPacket_running hr hf (fun j h1 h2 => hd j h1 (by omega)) (lossBefore_mono (by simp only [S]; omega) hp), ?_,
      fun h => absurd (lt_symbolFuel hd he h) hfuel⟩
    have hrun := run_receiving_end (maxSize := maxSize) (m := s.symbolFuel) ha (m - s.symbolFuel)
      (fun j h1 h2 => hd j (by omega) (by omega)) (by rwa [hsum]) (by rwa [hsum])
    rwa [hsum] at hrun
end

/-- Settles O28: the search fails, or the packet ends with symbol `m + 1`. -/
theorem recvPacketOutcomes : Obligations.RecvPacketOutcomes := by
  unfold Obligations.RecvPacketOutcomes
  intro maxSize s hr
  obtain ⟨-, hidle⟩ := callerReady_iff.mp hr
  refine ⟨fun hi hp => ?_, fun t0 J hf hJ hd he hp => ?_⟩
  · refine ⟨_, exec_recvPacket_timeout hr hi hp, rfl, rfl, rfl, complete_onlyReceivedPacket hidle _ rfl⟩
  · obtain ⟨m, rfl⟩ : ∃ m, J = m + 1 := ⟨J - 1, by omega⟩
    obtain ⟨u, n, hexec, hrun, hone⟩ := recvPacket_reaches_packetOver (maxSize := maxSize) hr hf
      (fun j h1 h2 => hd j h1 (by omega)) he hp
    refine ⟨u, n, _, hexec, hrun, hone, rfl, packetOver_onlyReceived maxSize t0 m s hidle,
      packetOver_stored maxSize t0 m s, ?_⟩
    rw [packetOver_result]
    cases hpair : (s.pairAt t0 (m + 1)).1 with
    | true => rw [if_pos rfl, State.packetResult, hpair, if_pos rfl]
    | false =>
      rw [if_neg Bool.false_ne_true]
      exact packetResult_count hpair

/-- Settles O30: after the first step, each step takes one more symbol. -/
theorem endlessPacket : Obligations.EndlessPacket := by
  unfold Obligations.EndlessPacket
  intro maxSize t0 s hr hpower hf hd
  obtain ⟨ha, -⟩ := callerReady_iff.mp hr
  have hp := lossBefore_of_power hpower
  obtain ⟨m, hm⟩ : ∃ m, s.symbolFuel = m + 1 := by
    refine Nat.exists_eq_succ_of_ne_zero ?_
    unfold State.symbolFuel
    split <;> exact Nat.succ_ne_zero _
  refine ⟨_, exec_recvPacket_running hr hf (fun j h1 _ => hd j h1) (hp _), fun n => ?_⟩
  refine ⟨_, run_receiving_data ha n (fun j h1 _ => hd j (by omega)) (hp _), receiving_busy ..,
    receiving_inPacket .., ?_⟩
  rw [hm, show m + 1 + n = m + n + 1 by omega, receiving_now_succ, receiving_now_succ]
  simp only [S]
  omega

/-! ## Packets that are received as they were sent -/

/-- The halves of the data symbol of bit `7-m` of a byte (41_symbol_transport.md R152, 30_encoding.md R94). -/
theorem byteSymSlots_getD (v : Byte) {m : Nat} (hm : m < 8) :
    (byteSymSlots v).getD (2 * m) false = v.getLsbD (7 - m) ∧
      (byteSymSlots v).getD (2 * m + 1) false = !v.getLsbD (7 - m) := by
  rw [byteSymSlots_eq]
  simp only [List.range_succ, List.range_zero, List.nil_append, List.cons_append, List.flatMap_cons, List.flatMap_nil]
  interval_cases m <;> exact ⟨rfl, rfl⟩

section
variable {s : State} {e : Nat} {bytes : List Byte}

/-- Where the bytes of a packet stand on the line. -/
theorem Carries.byteSlots {i : Nat} (h : s.Carries e (bytes.flatMap byteSymSlots)) (hi : i < bytes.length) :
    s.Carries (e + 16 * S * i) (byteSymSlots (bytes.getD i 0#8)) := by
  induction bytes generalizing e i with
  | nil => exact absurd hi (Nat.not_lt_zero i)
  | cons v bytes ih =>
    rw [List.flatMap_cons] at h
    cases i with
    | zero => exact Carries.left h
    | succ i =>
      have hrest := ih (Carries.right h) (Nat.lt_of_succ_lt_succ hi)
      rwa [length_byteSymSlots, show e + S * 16 + 16 * S * i = e + 16 * S * (i + 1) by simp only [S]; omega] at hrest

/-- The halves of symbol `k + j` after a synchronisation at `e` fall in slots `2*j` and `2*j + 1` of what the line carries from
symbol `k` on (R157). -/
theorem Carries.pairAt {ls : List Bool} {k j : Nat} (h : s.Carries (e + 2 * S * k) ls) (hj : 2 * j + 1 < ls.length) :
    s.pairAt e (k + j) = (ls.getD (2 * j) false, ls.getD (2 * j + 1) false) := by
  rw [← Carries.level h (n := 2 * j) (τ := PH) (by omega) (by decide), ← Carries.level h (τ := PH) hj (by decide)]
  simp only [State.pairAt, S, PH, Prod.mk.injEq]
  constructor <;> congr 1 <;> omega

/-- Symbol `8*i + m + 1` of a packet is the data symbol of bit `7-m` of byte `i`. -/
theorem pairAt_packet_data (h : s.Carries e (packetSlots bytes)) {i m : Nat} (hi : i < bytes.length) (hm : m < 8) :
    s.pairAt e (8 * i + m + 1) = ((bytes.getD i 0#8).getLsbD (7 - m), !(bytes.getD i 0#8).getLsbD (7 - m)) := by
  have hbyte := Carries.byteSlots (Carries.left (Carries.right h)) hi
  rw [length_symSlots, show e + S * 2 + 16 * S * i = e + 2 * S * (8 * i + 1) by simp only [S]; omega] at hbyte
  obtain ⟨hfirst, hsecond⟩ := byteSymSlots_getD (bytes.getD i 0#8) hm
  rw [show 8 * i + m + 1 = 8 * i + 1 + m by omega, Carries.pairAt hbyte (by rw [length_byteSymSlots]; omega), hfirst,
    hsecond]

/-- The symbol after the last byte of a packet is `SYM_STOP` (30_encoding.md R95). -/
theorem pairAt_packet_stop (h : s.Carries e (packetSlots bytes)) : s.pairAt e (8 * bytes.length + 1) = (false, false) := by
  have hlen : (bytes.flatMap byteSymSlots).length = 16 * bytes.length := by
    have := length_packetSlots bytes
    rw [packetSlots, List.length_append, List.length_append, length_symSlots, length_symSlots] at this
    omega
  have hstop := Carries.right (Carries.right h)
  rw [hlen, length_symSlots,
    show e + S * 2 + S * (16 * bytes.length) = e + 2 * S * (8 * bytes.length + 1) by simp only [S]; omega] at hstop
  exact Carries.pairAt (j := 0) hstop (by decide)

/-- The first poll of a packet reads its `SYM_START` asserted. -/
theorem Carries.startSymbol (h : s.Carries e (packetSlots bytes)) : s.line e = true :=
  Carries.level (Carries.left h) (n := 0) (τ := 0) (by decide) (by decide)
end

/-- Settles O29: the packet is synchronised at its first tick and ends with its own `SYM_STOP`. -/
theorem packetRoundTrip : Obligations.PacketRoundTrip := by
  unfold Obligations.PacketRoundTrip
  intro bytes maxSize e s hr hlen hfrom hto hi hc hp
  have hdata : ∀ j, 1 ≤ j → j < 8 * bytes.length + 1 → isData (s.pairAt e j) = true := by
    intro j h1 h2
    have hpair := pairAt_packet_data hc (i := (j - 1) / 8) (m := (j - 1) % 8) (by omega) (by omega)
    rw [show 8 * ((j - 1) / 8) + (j - 1) % 8 + 1 = j by omega] at hpair
    rw [hpair]
    exact Bool.bne_not_self _
  have hstop := pairAt_packet_stop hc
  have hcount : (8 * bytes.length + 1 - 1) / 8 = bytes.length := by omega
  obtain ⟨-, hended⟩ := recvPacketOutcomes maxSize s hr
  obtain ⟨u, n, t, hexec, hrun, hone, hnow, honly, hstored, hresult⟩ :=
    hended e (8 * bytes.length + 1) ⟨hfrom, hto, Carries.startSymbol hc, hi⟩ (by omega) hdata (by rw [hstop]; rfl) hp
  rw [hcount] at hone hstored hresult
  rw [hstop, if_neg Bool.false_ne_true] at hresult
  obtain rfl := hone (.inl hlen)
  obtain rfl : u = t := Host.Outcome.next.inj hrun
  refine ⟨u, hexec, hresult hlen, hnow, honly, fun i => ?_⟩
  have hbyte := hstored i
  by_cases hin : i.val < min bytes.length maxSize.toNat
  · rw [if_pos hin] at hbyte ⊢
    refine byte_ext fun m hm => ?_
    rw [hbyte m hm, pairAt_packet_data hc (by omega) hm]
  · rwa [if_neg hin] at hbyte ⊢

end Sys2Proof.Machine
end

section
/-! PROOFS. The tick machine of RECV_PACKET (41_symbol_transport.md R160), followed through the search, the halves of a symbol and
the symbols of a packet. -/
namespace Sys2Proof.Machine

open Sys2Proof.Config

/-! ## The search -/

/-- One stretch of ticks after another. -/
theorem runTicks_add {α : Type} (tick : α → α) (m n : Nat) (x : α) :
    runTicks tick (m + n) x = runTicks tick n (runTicks tick m x) := by
  induction n with
  | zero => rfl
  | succ n ih => rw [← Nat.add_assoc, runTicks_succ, ih, runTicks_succ]

/-- One tick of the packet receiver while it is active and no byte is complete. -/
theorem rxPacketTick_active (u : State) {x : RxRegs} (hx : x.phase ≠ .idle)
    (hbyte : x.byteDone (u.line u.now) = false) :
    rxPacketTick (u.setRx x) = u.rxTicked (x.packetTick (u.line u.now) u.now (u.clock + 1)) := by
  simp only [rxPacketTick, setRx_rx, if_neg hx, line_setRx, setRx_now, hbyte, Bool.false_eq_true, if_false]
  rfl

/-- The tick of a search never completes a byte. -/
theorem searching_byteDone (polls n : Nat) (rx : RxRegs) (x : Bool) : (rx.searching polls n).byteDone x = false := rfl

/-- Everything the search of `RECV_PACKET` can do. -/
theorem searchPacket_spec (maxSize : Byte) (s : State) :
    (s.Idle s.now (s.now + pktSyncRounds * pktSubpolls) ∧
      searchPacket maxSize s = .done (some resultTimeout)
        ((s.setNow (s.now + pktSyncRounds * pktSubpolls)).setRx (s.rx.noPacket maxSize))) ∨
    (∃ t0, s.FirstAsserted s.now (s.now + pktSyncRounds * pktSubpolls) t0 ∧
      searchPacket maxSize s = .done none
        ((s.setNow (t0 + 1)).setRx (s.rx.packetSynced maxSize t0 (pktSyncRounds * pktSubpolls - (t0 - s.now))))) ∨
    searchPacket maxSize s = .lost s := by
  rcases idle_or_firstAsserted s (pktSyncRounds * pktSubpolls) with hi | ⟨t0, hf⟩
  · cases hp : s.lossBefore (s.now + pktSyncRounds * pktSubpolls) with
    | false => exact .inl ⟨hi, searchPacket_timeout hi hp⟩
    | true =>
      rw [searchPacket, firstAsserted_of_Idle hi]
      exact .inr (.inr (congrArg (Run.bind · _) (advanceTo_lost hp)))
  · cases hp : s.lossBefore (t0 + 1) with
    | false => exact .inr (.inl ⟨t0, hf, searchPacket_synced hf hp⟩)
    | true =>
      rw [searchPacket, firstAsserted_of_FirstAsserted hf]
      exact .inr (.inr (congrArg (Run.bind · _) (advanceTo_lost hp)))

section
variable {maxSize : Byte} {s : State}

/-- The packet receiver after `n` polls that read 0, with polls left. -/
theorem rxPacket_searching {n : Nat} (hn : n < pktSyncRounds * pktSubpolls) (hi : s.Idle s.now (s.now + n)) :
    runTicks rxPacketTick n (rxPacketStart maxSize s) =
      (s.setNow (s.now + n)).setRx ((s.rx.noPacket maxSize).searching (pktSyncRounds * pktSubpolls) n) := by
  induction n with
  | zero => rfl
  | succ n ih =>
    have hline : (s.setNow (s.now + n)).line (s.now + n) = false := hi _ (by omega) (by omega)
    have hpolls : ¬ (pktSyncRounds * pktSubpolls - n - 1 = 0) := by omega
    rw [runTicks_succ, ih (by omega) fun τ h1 h2 => hi τ h1 (by omega),
      rxPacketTick_active _ RxPhase.noConfusion (searching_byteDone ..), setNow_now, hline]
    simp only [RxRegs.packetTick, RxRegs.searching, RxRegs.pollMissed, hpolls, Bool.false_eq_true, if_false]
    rfl

/-- The packet receiver after a search in which every poll reads 0. -/
theorem rxPacket_timeout (hi : s.Idle s.now (s.now + pktSyncRounds * pktSubpolls)) :
    runTicks rxPacketTick (pktSyncRounds * pktSubpolls) (rxPacketStart maxSize s) =
      ((s.setNow (s.now + pktSyncRounds * pktSubpolls)).setRx (s.rx.noPacket maxSize)).complete resultTimeout := by
  obtain ⟨n, hn⟩ : ∃ n, pktSyncRounds * pktSubpolls = n + 1 := ⟨999, rfl⟩
  rw [hn] at hi
  have hline : (s.setNow (s.now + n)).line (s.now + n) = false := hi _ (by omega) (by omega)
  have hpolls : pktSyncRounds * pktSubpolls - n - 1 = 0 := by omega
  rw [hn, runTicks_succ, rxPacket_searching (by omega) fun τ h1 h2 => hi τ h1 (by omega),
    rxPacketTick_active _ RxPhase.noConfusion (searching_byteDone ..), setNow_now, hline]
  simp only [RxRegs.packetTick, RxRegs.searching, RxRegs.pollMissed, hpolls, Bool.false_eq_true, if_false, if_true]
  rfl

/-- The packet receiver at the end of the tick that synchronised. -/
theorem rxPacket_synced {t0 : Nat} (hf : s.FirstAsserted s.now (s.now + pktSyncRounds * pktSubpolls) t0) :
    runTicks rxPacketTick (t0 - s.now + 1) (rxPacketStart maxSize s) =
      (s.setNow (t0 + 1)).setRx (s.rx.packetSynced maxSize t0 (pktSyncRounds * pktSubpolls - (t0 - s.now))) := by
  obtain ⟨hfrom, hto, hasserted, hidle⟩ := hf
  have hnow : s.now + (t0 - s.now) = t0 := by omega
  rw [runTicks_succ, rxPacket_searching (by omega) (by rwa [hnow]), hnow,
    rxPacketTick_active _ RxPhase.noConfusion (searching_byteDone ..), setNow_now, line_setNow, hasserted]
  rfl
end

/-! ## A symbol -/

/-- The registers after `n` ticks of waiting. -/
def RxRegs.waitedFor (n : Nat) (rx : RxRegs) : RxRegs := { rx with wait := rx.wait - n }

/-- The registers after the first half of a symbol has been sampled as `a` (R157). -/
def RxRegs.firstHalf (a : Bool) (rx : RxRegs) : RxRegs := { rx with phase := .h2, wait := S - 1, first := a }

section
variable (s : State)

/-- The packet receiver waits for a half of a symbol. -/
theorem rxPacket_waiting (hphase : s.rx.phase = .h1 ∨ s.rx.phase = .h2) {n : Nat} (hn : n ≤ s.rx.wait) :
    runTicks rxPacketTick n s = (s.setNow (s.now + n)).setRx (s.rx.waitedFor n) := by
  induction n with
  | zero => rfl
  | succ n ih =>
    have hwait : 0 < (s.rx.waitedFor n).wait := Nat.sub_pos_of_lt hn
    have hactive : (s.rx.waitedFor n).phase ≠ .idle := by
      change s.rx.phase ≠ .idle
      rcases hphase with h | h <;> rw [h] <;> exact RxPhase.noConfusion
    have hbyte : ∀ x, (s.rx.waitedFor n).byteDone x = false := by
      intro x
      simp [RxRegs.byteDone, Nat.ne_of_gt hwait]
    have hphase' : (s.rx.waitedFor n).phase = .h1 ∨ (s.rx.waitedFor n).phase = .h2 := hphase
    rw [runTicks_succ, ih (by omega), rxPacketTick_active _ hactive (hbyte _)]
    rcases hphase' with h | h <;> simp only [RxRegs.packetTick, h, if_pos hwait] <;> rfl

/-- The packet receiver at the end of the tick that sampled the first half of a symbol. -/
theorem rxPacket_firstHalf (hphase : s.rx.phase = .h1) :
    runTicks rxPacketTick (s.rx.wait + 1) s =
      (s.setNow (s.now + s.rx.wait + 1)).setRx (s.rx.firstHalf (s.line (s.now + s.rx.wait))) := by
  have hphase' : (s.rx.waitedFor s.rx.wait).phase = .h1 := hphase
  have hwait : ¬ 0 < (s.rx.waitedFor s.rx.wait).wait := by simp [RxRegs.waitedFor]
  rw [runTicks_succ, rxPacket_waiting s (.inl hphase) (Nat.le_refl _),
    rxPacketTick_active _ (by rw [hphase']; exact RxPhase.noConfusion) (by simp [RxRegs.byteDone, hphase'])]
  simp only [RxRegs.packetTick, hphase', if_neg hwait]
  rfl

/-- The registers when the second half of a symbol is due, the first having been sampled as `a`. -/
def RxRegs.secondDue (a : Bool) (rx : RxRegs) : RxRegs := { rx with phase := .h2, wait := 0, first := a }

/-- The packet receiver when the second half of a symbol is due. -/
theorem rxPacket_secondDue (hphase : s.rx.phase = .h1) :
    runTicks rxPacketTick (s.rx.wait + S) s =
      (s.setNow (s.now + s.rx.wait + S)).setRx (s.rx.secondDue (s.line (s.now + s.rx.wait))) := by
  rw [show s.rx.wait + S = s.rx.wait + 1 + (S - 1) from rfl, runTicks_add, rxPacket_firstHalf s hphase]
  exact rxPacket_waiting _ (n := S - 1) (.inr rfl) (Nat.le_refl _)

/-- The tick of the second half of a symbol that ends the packet. -/
theorem rxPacketTick_end {a : Bool} (hline : s.line s.now = a) (rx : RxRegs) :
    rxPacketTick (s.setRx (rx.secondDue a)) =
      ((s.setNow (s.now + 1)).setRx (rx.packetEnded a)).complete
        (if a then resultFraming else resultOfCount rx.count (s.clock + 1)) := by
  rw [rxPacketTick_active _ RxPhase.noConfusion (by simp [RxRegs.byteDone, RxRegs.secondDue, hline]), hline]
  cases a <;> rfl

/-- A completed byte is stored whatever time it is and whatever the other receive registers hold. -/
theorem storeByte_setRx (v : Byte) {x y : RxRegs} (hcount : x.count = s.rx.count) (hmax : x.max = s.rx.max) (n : Nat) :
    (((s.setRx x).storeByte v).setNow n).setRx y = ((s.setNow n).storeByte v).setRx y := by
  unfold State.storeByte
  by_cases hroom : s.rx.count < s.rx.max.toNat <;>
    simp only [setRx_rx, setNow_rx, hcount, hmax, hroom, if_true, if_false] <;> rfl

/-- The tick of the second half of a data symbol. -/
theorem rxPacketTick_data {a : Bool} (hline : s.line s.now = !a) :
    rxPacketTick (s.setRx (s.rx.secondDue a)) = takeDataBit a (s.setNow (s.now + 1)) := by
  by_cases hk : s.rx.k + 1 = 8
  · have hbyte : (s.rx.secondDue a).byteDone (!a) = true := by
      cases a <;> simp [RxRegs.byteDone, RxRegs.secondDue, hk]
    have htick : (s.rx.secondDue a).packetTick (!a) s.now (s.clock + 1) = (s.rx.byteTaken a, none) := by
      cases a <;> simp [RxRegs.packetTick, RxRegs.secondDue, RxRegs.byteTaken, hk]
    have htake : takeDataBit a (s.setNow (s.now + 1)) = _ := if_pos hk
    have hactive : (s.rx.secondDue a).phase ≠ .idle := RxPhase.noConfusion
    rw [htake]
    simp only [rxPacketTick, setRx_rx, if_neg hactive, line_setRx, setRx_now, setRx_clock, hline, hbyte, if_true, htick,
      State.rxTicked, storeByte_now]
    exact storeByte_setRx s (x := s.rx.secondDue a) _ rfl rfl _
  · have hk7 : s.rx.k ≠ 7 := fun h => hk (congrArg (· + 1) h)
    have hbyte : (s.rx.secondDue a).byteDone (s.line s.now) = false := by
      simp [RxRegs.byteDone, RxRegs.secondDue, hk7]
    have htick : (s.rx.secondDue a).packetTick (!a) s.now (s.clock + 1) = (s.rx.bitTaken a, none) := by
      cases a <;> simp [RxRegs.packetTick, RxRegs.secondDue, RxRegs.bitTaken, hk]
    have htake : takeDataBit a (s.setNow (s.now + 1)) = _ := if_neg hk
    rw [htake, rxPacketTick_active _ RxPhase.noConfusion hbyte, hline, htick]
    rfl
end

/-! ## The operation -/

/-- The block when an operation has answered: with a result it is complete. -/
def State.answered (o : Option Result) (s : State) : State :=
  match o with
  | none => s
  | some r => s.complete r

/-- What the operation makes of `s`, the answer `o` and the state `t`, the machine begun in `start` makes in as many ticks;
without an answer the engine is in its packet. -/
structure MachineFollows (start s : State) (o : Option Result) (t : State) : Prop where
  busy : t.busy = s.busy
  phase : o = none → t.rx.phase = .h1
  ticks : ∃ n, t.now = s.now + n ∧ runTicks rxPacketTick n start = t.answered o

section
variable {start s t u : State} {o : Option Result}

/-- One operation after another. -/
theorem MachineFollows.trans (h : MachineFollows start s none u) (h' : MachineFollows u u o t) :
    MachineFollows start s o t := by
  obtain ⟨m, hnow, hrun⟩ := h.ticks
  obtain ⟨n, hnow', hrun'⟩ := h'.ticks
  refine ⟨h'.busy.trans h.busy, h'.phase, m + n, by omega, ?_⟩
  rw [runTicks_add, hrun]
  exact hrun'

/-- The ticks of a symbol, the last of which samples its second half. -/
theorem rxPacket_symbol (hphase : s.rx.phase = .h1) :
    runTicks rxPacketTick (s.rx.wait + S + 1) s =
      rxPacketTick ((s.setNow (s.now + s.rx.wait + S)).setRx (s.rx.secondDue (s.line (s.now + s.rx.wait)))) := by
  rw [runTicks_succ, rxPacket_secondDue s hphase]

/-- The ticks of a symbol that ends the packet. -/
theorem endSymbol_follows {a : Bool} (hphase : s.rx.phase = .h1) (hfirst : s.line (s.now + s.rx.wait) = a)
    (hsecond : s.line (s.now + s.rx.wait + S) = a) :
    MachineFollows s s
      (some (if a then resultFraming else resultOfCount s.rx.count (s.env.epoch + (s.now + s.rx.wait + S + 1))))
      ((s.setNow (s.now + s.rx.wait + S + 1)).setRx (s.rx.packetEnded a)) := by
  have hrun := rxPacket_symbol hphase
  rw [hfirst] at hrun
  have hnow : s.now + s.rx.wait + S + 1 = s.now + (s.rx.wait + S + 1) := by omega
  exact ⟨rfl, nofun, _, hnow, hrun.trans (rxPacketTick_end (s.setNow (s.now + s.rx.wait + S)) hsecond s.rx)⟩

/-- The ticks of a data symbol. -/
theorem dataSymbol_follows (hphase : s.rx.phase = .h1)
    (hhalves : s.line (s.now + s.rx.wait) ≠ s.line (s.now + s.rx.wait + S)) :
    MachineFollows s s none (takeDataBit (s.line (s.now + s.rx.wait)) (s.setNow (s.now + s.rx.wait + S + 1))) := by
  have htick := rxPacketTick_data (s.setNow (s.now + s.rx.wait + S)) (Bool.eq_not.mpr hhalves.symm)
  have hnow : s.now + s.rx.wait + S + 1 = s.now + (s.rx.wait + S + 1) := by omega
  exact ⟨takeDataBit_busy .., fun _ => takeDataBit_phase .., _, (takeDataBit_now ..).trans hnow,
    (rxPacket_symbol hphase).trans htick⟩

/-- The ticks of a symbol are its reception (R157). -/
theorem recvSymbol_follows (hphase : s.rx.phase = .h1) (h : recvSymbol s = .done o t) : MachineFollows s s o t := by
  rcases recvSymbol_spec s with ⟨-, e⟩ | ⟨-, ⟨ha, hb, e⟩ | ⟨ha, hb, e⟩ | ⟨hne, e⟩⟩ <;> rw [e] at h
  · cases h
  · obtain ⟨rfl, rfl⟩ := Run.done.inj h
    exact endSymbol_follows hphase ha hb
  · obtain ⟨rfl, rfl⟩ := Run.done.inj h
    exact endSymbol_follows hphase ha hb
  · obtain ⟨rfl, rfl⟩ := Run.done.inj h
    exact dataSymbol_follows hphase hne

theorem recvSymbols_follows (fuel : Nat) (hphase : s.rx.phase = .h1) (h : recvSymbols fuel s = .done o t) :
    MachineFollows s s o t := by
  induction fuel generalizing s with
  | zero =>
    obtain ⟨rfl, rfl⟩ := Run.done.inj h
    exact ⟨rfl, fun _ => hphase, 0, rfl, rfl⟩
  | succ fuel ih =>
    obtain ⟨r, v, hsym, hrest⟩ := Run.bind_eq_done.mp h
    have hfirst := recvSymbol_follows hphase hsym
    cases r with
    | some r =>
      obtain ⟨rfl, rfl⟩ := Run.done.inj hrest
      exact hfirst
    | none => exact hfirst.trans (ih (hfirst.phase rfl) hrest)

theorem searchPacket_follows {maxSize : Byte} (h : searchPacket maxSize s = .done o t) :
    MachineFollows (rxPacketStart maxSize s) s o t := by
  rcases searchPacket_spec maxSize s with ⟨hi, e⟩ | ⟨t0, hf, e⟩ | e <;> rw [e] at h
  · obtain ⟨rfl, rfl⟩ := Run.done.inj h
    exact ⟨rfl, nofun, _, rfl, rxPacket_timeout hi⟩
  · obtain ⟨rfl, rfl⟩ := Run.done.inj h
    have ⟨hfrom, _⟩ := hf
    have hnow : t0 + 1 = s.now + (t0 - s.now + 1) := by omega
    exact ⟨rfl, fun _ => rfl, _, hnow, rxPacket_synced hf⟩
  · cases h

theorem recvPacket_follows {maxSize : Byte} (h : recvPacket maxSize s = .done o t) :
    MachineFollows (rxPacketStart maxSize s) s o t := by
  obtain ⟨r, v, hsearch, hrest⟩ := Run.bind_eq_done.mp h
  have hfirst := searchPacket_follows hsearch
  cases r with
  | some r =>
    obtain ⟨rfl, rfl⟩ := Run.done.inj hrest
    exact hfirst
  | none => exact hfirst.trans (recvSymbols_follows _ (hfirst.phase rfl) hrest)
end

/-- Settles O59: a body that completes is followed tick by tick; one that has not completed leaves the block busy. -/
theorem recvPacketTickMachine : Obligations.RecvPacketTickMachine := by
  unfold Obligations.RecvPacketTickMachine
  intro maxSize s t hr hpower hexec hidle
  have htouches := recvPacket_touches (w := { xb := true }) rfl maxSize (s.setBusy true)
  rw [exec_recvPacket] at hexec
  rcases callerOp_spec (recvPacket maxSize) s with
    ⟨hno, -⟩ | ⟨-, ⟨r, u, hbody, e⟩ | ⟨u, hbody, e⟩ | ⟨u, hbody, -⟩ | ⟨f, hbody, -⟩⟩
  · rw [hr] at hno; cases hno
  · obtain rfl := Host.Outcome.next.inj (e.symm.trans hexec)
    exact (recvPacket_follows hbody).ticks
  · obtain rfl := Host.Outcome.next.inj (e.symm.trans hexec)
    have hbusy := (recvPacket_follows hbody).busy
    rw [hidle] at hbusy
    cases hbusy
  · rw [hbody] at htouches
    obtain ⟨-, hlost⟩ := htouches
    exact absurd hpower hlost
  · rw [hbody] at htouches
    exact htouches.elim

end Sys2Proof.Machine
end

section
/-! PROOFS. The algebra of the hash (42_hash_integrity.md R171 to R176): what rotations do to XOR, to a single bit and to
each other, and from them what the hash makes of a list put together from two. -/
namespace Sys2Proof.Machine

/-! ## Rotations -/

/-- `rotl8` as the pseudocode of 42_hash_integrity.md R171 writes it. -/
theorem rotl8_eq_shifts (x : Byte) : rotl8 x = (x <<< 1) ||| (x >>> 7) := rfl

/-- A rotation moves no bit past another, so it goes through XOR. -/
theorem rotateLeft_xor (a b : Byte) (n : Nat) : (a ^^^ b).rotateLeft n = a.rotateLeft n ^^^ b.rotateLeft n := by
  ext i hi
  simp only [BitVec.getElem_rotateLeft, BitVec.getElem_xor]
  split <;> rfl

/-- Bit `i` of a rotated byte was bit `i - n`, counted round the byte. -/
theorem getElem_rotateLeft_byte (x : Byte) (n : Nat) {i : Nat} (hi : i < 8) :
    (x.rotateLeft n)[i] = x[(i + (8 - n % 8)) % 8]'(Nat.mod_lt _ (by decide)) := by
  rw [BitVec.getElem_rotateLeft]
  split <;> congr 1 <;> omega

theorem rotateLeft_zero (x : Byte) : x.rotateLeft 0 = x := by
  ext i hi
  simp [BitVec.getElem_rotateLeft]

/-- `rotl8` rotates by one more place. -/
theorem rotl8_rotateLeft (x : Byte) (n : Nat) : rotl8 (x.rotateLeft n) = x.rotateLeft (n + 1) := by
  ext i hi
  simp only [rotl8, getElem_rotateLeft_byte]
  congr 1
  omega

/-- A single bit rotated is a single bit: it re-enters at the low end (R177). -/
theorem rotateLeft_twoPow (n : Nat) {p : Nat} (hp : p < 8) :
    (BitVec.twoPow 8 p).rotateLeft n = BitVec.twoPow 8 ((p + n) % 8) := by
  ext i hi
  simp only [getElem_rotateLeft_byte, BitVec.getElem_twoPow, decide_eq_decide]
  omega

/-- Only the bytes whose bits are all equal are their own rotation. -/
theorem rotl8_eq_self_iff (x : Byte) : rotl8 x = x ↔ x = 0x00#8 ∨ x = 0xFF#8 := by
  revert x
  decide

/-! ## The hash of a list put together -/

@[simp] theorem hashBytes_nil : hashBytes [] = 0#8 := rfl

/-- The hash of the first part is rotated by the number of bytes in the second (R172). -/
theorem hashBytes_append (xs ys : List Byte) :
    hashBytes (xs ++ ys) = (hashBytes xs).rotateLeft ys.length ^^^ hashBytes ys := by
  induction ys using List.reverseRecOn with
  | nil => rw [List.append_nil, List.length_nil, rotateLeft_zero, hashBytes_nil, BitVec.xor_zero]
  | append_singleton ys b ih =>
    rw [← List.append_assoc, hashBytes_snoc, hashBytes_snoc, ih, rotl8_xor, rotl8_rotateLeft, List.length_append,
      List.length_singleton, BitVec.xor_assoc]

@[simp] theorem hashBytes_singleton (b : Byte) : hashBytes [b] = b :=
  BitVec.zero_xor

/-- The first byte is rotated by the number of bytes after it (R172). -/
theorem hashBytes_cons (b : Byte) (bs : List Byte) : hashBytes (b :: bs) = b.rotateLeft bs.length ^^^ hashBytes bs := by
  rw [← List.singleton_append, hashBytes_append, hashBytes_singleton]

/-- The XOR of the rotated bytes, from any value on. -/
theorem foldl_rotated_eq (bs : List Byte) (acc : Byte) :
    (List.range bs.length).foldl (fun acc i => acc ^^^ (bs.getD i 0#8).rotateLeft ((bs.length - 1 - i) % 8)) acc =
      acc ^^^ hashBytes bs := by
  induction bs generalizing acc with
  | nil => exact BitVec.xor_zero.symm
  | cons b bs ih =>
    have hrest : ∀ i, bs.length + 1 - 1 - (i + 1) = bs.length - 1 - i := by omega
    rw [List.length_cons, List.range_succ_eq_map, List.foldl_cons, List.foldl_map]
    simp only [List.getD_cons_succ, List.getD_cons_zero, Nat.succ_eq_add_one, hrest]
    rw [ih, hashBytes_cons, BitVec.xor_assoc, Nat.add_sub_cancel, Nat.sub_zero, BitVec.rotateLeft_mod_eq_rotateLeft]

theorem hashBytes_zipWith_xor {xs ys : List Byte} (h : xs.length = ys.length) :
    hashBytes (List.zipWith (· ^^^ ·) xs ys) = hashBytes xs ^^^ hashBytes ys := by
  induction xs generalizing ys with
  | nil =>
    obtain rfl := List.length_eq_zero_iff.mp h.symm
    rfl
  | cons x xs ih =>
    obtain ⟨y, ys, rfl⟩ := List.exists_cons_of_length_eq_add_one h.symm
    have htail : xs.length = ys.length := Nat.succ.inj h
    rw [List.zipWith_cons_cons, hashBytes_cons, hashBytes_cons, hashBytes_cons, ih htail, rotateLeft_xor,
      List.length_zipWith, ← htail, Nat.min_self]
    ac_rfl

/-- What is flipped in one byte is flipped in the hash, rotated by the number of bytes that follow (R173). -/
theorem hashBytes_flip (xs ys : List Byte) (b d : Byte) :
    hashBytes (xs ++ (b ^^^ d) :: ys) = hashBytes (xs ++ b :: ys) ^^^ d.rotateLeft ys.length := by
  simp only [hashBytes_append, hashBytes_cons, List.length_cons, rotateLeft_xor]
  ac_rfl

/-- The hash of a pair. -/
theorem hashBytes_pair (a b : Byte) : hashBytes [a, b] = rotl8 a ^^^ b := by
  rw [hashBytes_cons, hashBytes_singleton]
  rfl

/-- By linearity a pair hashes as its reverse exactly if the XOR of its bytes is its own rotation. -/
theorem hashBytes_pair_eq_reverse_iff (a b : Byte) :
    hashBytes [a, b] = hashBytes [b, a] ↔ rotl8 (a ^^^ b) = a ^^^ b := by
  have hxor : hashBytes [a, b] ^^^ hashBytes [b, a] = rotl8 (a ^^^ b) ^^^ (a ^^^ b) := calc
    hashBytes [a, b] ^^^ hashBytes [b, a]
    _ = hashBytes [a ^^^ b, b ^^^ a] := (hashBytes_zipWith_xor (xs := [a, b]) (ys := [b, a]) rfl).symm
    _ = rotl8 (a ^^^ b) ^^^ (a ^^^ b) := by rw [hashBytes_pair, BitVec.xor_comm b a]
  rw [← BitVec.xor_eq_zero_iff, hxor, BitVec.xor_eq_zero_iff]

/-! ## The statements -/

/-- Settles O32: the closed form seeded at 0, and linearity byte by byte. -/
theorem hashClosedForm : Obligations.HashClosedForm := by
  unfold Obligations.HashClosedForm
  refine ⟨fun bs => ?_, fun _ _ => hashBytes_zipWith_xor⟩
  rw [foldl_rotated_eq, BitVec.zero_xor]

/-- Settles O33: the flipped bit, rotated, is one bit. -/
theorem hashSingleBit : Obligations.HashSingleBit := by
  unfold Obligations.HashSingleBit
  intro xs ys b p hp
  rw [hashBytes_flip, rotateLeft_twoPow _ hp]

/-- Settles O34: the bytes that are their own rotation are 0x00 and 0xFF. -/
theorem hashReverse : Obligations.HashReverse := by
  unfold Obligations.HashReverse
  intro a b
  rw [hashBytes_pair_eq_reverse_iff, rotl8_eq_self_iff]

end Sys2Proof.Machine
end

section
/-! PROOFS. Where the block uses the hash: the operation HASH, the check of a packet, the checksum of a request
(42_hash_integrity.md R171, R174, R175). -/
namespace Sys2Proof.Machine

open Sys2Proof.Config

/-! ## HASH -/

/-- An accepted HASH leaves the hash of the bytes it reads in `h` and in `result`, and takes no tick (R171). -/
theorem exec_hash_ready {s : State} (h : s.callerReady = true) (src : HashSource) (len : Byte) :
    exec (.hash src len) s = .next { s with
      h := hashBytes (hashInput src len s.pb s.xb)
      result := resultOfByte (hashBytes (hashInput src len s.pb s.xb)) } := by
  obtain ⟨-, hidle⟩ := callerReady_iff.mp h
  have hend (v : Byte) :
      ((s.setBusy true).setH v).complete (resultOfByte v) =
        { s with h := v, result := resultOfByte v, busy := s.busy } := by
    rw [hidle]
    rfl
  exact ((exec_hash s src len).trans (callerOp_done h rfl)).trans (congrArg _ (hend _))

/-- Settles O31: the recursion of the hash, and HASH for each of its sources. -/
theorem hashReduces : Obligations.HashReduces := by
  unfold Obligations.HashReduces
  refine ⟨fun bs b => ⟨rfl, ?_⟩, fun len s h => ⟨exec_hash_ready h .xb len, exec_hash_ready h .pb len⟩⟩
  rw [hashBytes_snoc, rotl8_eq_shifts]

/-! ## The check of a packet -/

/-- The check compares the last of the bytes received with the hash of those before it (R174). -/
theorem packetCheck_of_take {xb : TransferBuffer} {n : Nat} {others : List Byte} {ck : Byte} (hn : n ≤ xbSize)
    (h : xb.toList.take n = others ++ [ck]) : packetCheck xb n = (hashBytes others == ck) := by
  rw [packetCheck, if_neg (Nat.not_lt.mpr hn), h, List.reverse_append, List.reverse_singleton, List.singleton_append]
  dsimp only
  rw [List.reverse_reverse]

/-! ## The checksum of a request -/

/-- A request with a wrong checksum leaves its hash in the hash unit, and does nothing else (43_command_processor.md
R184). -/
theorem whileServing_checksum_bad {req : List Byte} {ck : Byte} {body : State → Run Unit} {s : State}
    (hs : s.serving = true) (hck : ck ≠ hashBytes req) :
    whileServing (withChecksum req ck body) s = .next (s.setH (hashBytes req)) := by
  rw [whileServing_on hs, withChecksum_bad hck, Run.outcome_done]

/-- The last byte of a request is its checksum, the others are what it covers (R175). -/
theorem request_split {covered req : List Byte} {x ck : Byte} (h : Code.bytes (covered ++ [x]) = .bytes (req ++ [ck])) :
    covered = req ∧ x = ck :=
  List.append_singleton_inj.mp (Code.bytes.inj h)

/-- A request of more than one byte is executed behind the integrity check of its bytes (R175): a reserved opcode is one
byte. -/
theorem exec_eq_withChecksum {i : Instr} {req : List Byte} {ck : Byte} (h : encode i = .bytes (req ++ [ck]))
    (hreq : req ≠ []) : ∃ body, ∀ s, exec i s = whileServing (withChecksum req ck body) s := by
  cases i with
  | rdbuf idx x =>
    obtain ⟨rfl, rfl⟩ := request_split (covered := [0x00#8, idx]) h
    exact ⟨_, fun _ => rfl⟩
  | wrbuf idx val x =>
    obtain ⟨rfl, rfl⟩ := request_split (covered := [0x01#8, idx, val]) h
    exact ⟨_, fun _ => rfl⟩
  | pwrstat x =>
    obtain ⟨rfl, rfl⟩ := request_split (covered := [0x02#8]) h
    exact ⟨_, fun _ => rfl⟩
  | hashbuf x =>
    obtain ⟨rfl, rfl⟩ := request_split (covered := [0x03#8]) h
    exact ⟨_, fun _ => rfl⟩
  | fill addr x =>
    obtain ⟨rfl, rfl⟩ := request_split (covered := [0x04#8, addrHigh addr, addrLow addr]) h
    exact ⟨_, fun _ => rfl⟩
  | commit addr x =>
    obtain ⟨rfl, rfl⟩ := request_split (covered := [0x05#8, addrHigh addr, addrLow addr]) h
    exact ⟨_, fun _ => rfl⟩
  | reserved0607 op | reserved080F op | reserved101F op | reserved203F op | reserved407F op | reserved80FF op =>
    exact absurd (request_split (covered := []) h).1.symm hreq
  | _ => cases h

/-- Settles O42: whatever the command is, its integrity check comes first. -/
theorem checksumMismatchDropped : Obligations.ChecksumMismatchDropped := by
  unfold Obligations.ChecksumMismatchDropped
  intro i req ck s hs henc hreq hck
  obtain ⟨body, hexec⟩ := exec_eq_withChecksum henc hreq
  rw [hexec, whileServing_checksum_bad hs hck]

end Sys2Proof.Machine

namespace Sys2Proof

open Machine

/-- Settles O35: of the bytes `XB[0..n]` the last is `XB[n]`. -/
theorem packetCheck : Obligations.PacketCheck := by
  unfold Obligations.PacketCheck
  intro xb
  refine ⟨rfl, fun n => ?_⟩
  have hn : n.val < xb.toList.length := by simp
  rw [packetCheck_of_take n.isLt (List.take_succ_eq_append_getElem hn), beq_iff_eq, Vector.getElem_toList]
  rfl

end Sys2Proof
end

section
/-! PROOFS. The commands that answer (43_command_processor.md R185 to R196): RDBUF, WRBUF, HASHBUF and COMMIT, each with the
right checksum. -/
namespace Sys2Proof.Machine

open Sys2Proof.Config

/-! ## Answering -/

/-- A command whose body comes to a response, with the power on until the response has ended. -/
theorem whileServing_responds {body : State → Run Unit} {v : Byte} {s u : State} (hs : s.serving = true)
    (hbody : body s = respond v u) (hl : u.lossBefore (u.responseTick + 10 * S) = false) :
    ∃ t, whileServing body s = .next t ∧ Responded v u.responseTick u t := by
  obtain ⟨t, ht, hresp⟩ := respond_ok (v := v) hl
  exact ⟨t, by rw [whileServing_on hs, hbody, ht, Run.outcome_done], hresp⟩

/-- A command whose body drops the request. -/
theorem whileServing_drops {body : State → Run Unit} {s u : State} (hs : s.serving = true)
    (hbody : body s = .done () u) : whileServing body s = .next u := by
  rw [whileServing_on hs, hbody, Run.outcome_done]

/-! ## What each command comes to -/

section
variable {idx val ck : Byte} {addr : Addr} {s : State}

theorem runRdbuf_ok (hck : ck = hashBytes [0x00#8, idx]) (hidx : idx.toNat < pageSize) :
    runRdbuf idx ck s = respond s.pb[idx.toNat] (s.setH ck) := by
  rw [runRdbuf, withChecksum_ok hck, dif_pos hidx]
  rfl

theorem runRdbuf_dropped (hck : ck = hashBytes [0x00#8, idx]) (hidx : pageSize ≤ idx.toNat) :
    runRdbuf idx ck s = .done () (s.setH ck) := by
  rw [runRdbuf, withChecksum_ok hck, dif_neg (Nat.not_lt.mpr hidx)]

theorem runWrbuf_ok (hck : ck = hashBytes [0x01#8, idx, val]) (hidx : idx.toNat < pageSize) :
    runWrbuf idx val ck s = respond val ((s.setH ck).setPb (s.pb.set idx.toNat val)) := by
  rw [runWrbuf, withChecksum_ok hck, dif_pos hidx]
  rfl

theorem runWrbuf_dropped (hck : ck = hashBytes [0x01#8, idx, val]) (hidx : pageSize ≤ idx.toNat) :
    runWrbuf idx val ck s = .done () (s.setH ck) := by
  rw [runWrbuf, withChecksum_ok hck, dif_neg (Nat.not_lt.mpr hidx)]

/-- The hash of the request has made way for the hash of `PB` (42_hash_integrity.md R171). -/
theorem runHashbuf_ok (hck : ck = hashBytes [0x03#8]) :
    runHashbuf ck s = respond (hashBytes s.pb.toList) (s.setH (hashBytes s.pb.toList)) := by
  rw [runHashbuf, withChecksum_ok hck]
  rfl

theorem runCommit_ok (hck : ck = hashBytes [0x05#8, addrHigh addr, addrLow addr]) (hu : inUserRegion addr = true)
    (hl : s.lossBefore (s.now + s.commitTicks + 1) = false) :
    runCommit addr ck s = respond 0x80#8 ((s.setH ck).afterCommit (pageBase addr)) := by
  rw [runCommit, withChecksum_ok hck, commitPage_ok (s := s.setH ck) hu hl]
  rfl

theorem runCommit_dropped (hck : ck = hashBytes [0x05#8, addrHigh addr, addrLow addr]) (hu : inUserRegion addr = false) :
    runCommit addr ck s = .done () (s.setH ck) := by
  rw [runCommit, withChecksum_ok hck, commitPage_rejected hu]
  rfl
end

/-! ## The statements -/

/-- Settles O36: on either side of `PAGE_SIZE` the request is answered or dropped. -/
theorem rdbufResponds : Obligations.RdbufResponds := by
  unfold Obligations.RdbufResponds
  intro idx ck s hs hck
  exact ⟨fun hidx hl => whileServing_responds hs (runRdbuf_ok hck hidx) hl,
    fun hidx => whileServing_drops hs (runRdbuf_dropped hck hidx)⟩

/-- Settles O37: on either side of `PAGE_SIZE` the request is answered or dropped. -/
theorem wrbufResponds : Obligations.WrbufResponds := by
  unfold Obligations.WrbufResponds
  intro idx val ck s hs hck
  exact ⟨fun hidx hl => whileServing_responds hs (runWrbuf_ok hck hidx) hl,
    fun hidx => whileServing_drops hs (runWrbuf_dropped hck hidx)⟩

/-- Settles O39: the hash takes no tick, so the response waits for the end of the request only. -/
theorem hashbufResponds : Obligations.HashbufResponds := by
  unfold Obligations.HashbufResponds
  intro ck s hs hck hl
  exact whileServing_responds hs (runHashbuf_ok hck) hl

/-- Settles O41: the commit ends before the response does, which ends before the next reset. -/
theorem commitResponds : Obligations.CommitResponds := by
  unfold Obligations.CommitResponds
  intro addr ck s hs hck
  refine ⟨fun haddr hl => ?_, fun haddr => ?_⟩
  · have hcommit : s.now + s.commitTicks + 1 ≤ s.responseAt (s.now + s.commitTicks) + 10 * S :=
      Nat.add_le_add (Nat.le_max_left _ _) (by decide)
    have hrun := runCommit_ok hck (decide_eq_true haddr) (lossBefore_mono hcommit hl)
    obtain ⟨t, ht, hresp⟩ := whileServing_responds hs hrun hl
    exact ⟨_, t, ht, pageBase_toNat addr, afterCommit_committed (pageBase addr) (s.setH ck), rfl, hresp⟩
  · exact whileServing_drops hs (runCommit_dropped hck (decide_eq_false (Nat.not_lt.mpr haddr)))

end Sys2Proof.Machine
end

section
/-! PROOFS. The command loop (43_command_processor.md R181 to R186): which requests are received, what CMD_STEP makes of a whole
request and of one that breaks off, and a whole exchange in update mode. -/
namespace Sys2Proof.Machine

open Sys2Proof.Config

/-! ## Forms of a request -/

/-- Only a reserved opcode has no operands to count. -/
theorem reserved_of_nops {op : Byte} (h : nops op = none) : 6 ≤ op.toNat :=
  Nat.le_of_not_lt fun hlt => (nops_ne_none_iff op).mp hlt h

/-- No request has more than two operands (R183). -/
theorem nops_le_two {op : Byte} {n : Nat} (h : nops op = some n) : n ≤ 2 := by
  unfold nops at h
  split at h <;> cases h <;> decide

/-- A request that decodes is a reserved opcode alone, or an opcode, its operands and a checksum (30_encoding.md R101, R104). -/
theorem decodeBytes_parts {bs : List Byte} {i : Instr} (h : decodeBytes bs = .ok i) :
    ∃ op, (nops op = none ∧ bs = [op]) ∨ ∃ args ck, nops op = some args.length ∧ bs = op :: (args ++ [ck]) := by
  obtain _ | ⟨op, rest⟩ := bs
  · cases h
  refine ⟨op, ?_⟩
  rcases decodeBytes_shape h with ⟨hn, rfl⟩ | ⟨hn, ck, rfl⟩ | ⟨hn, a, ck, rfl⟩ | ⟨hn, a, b, ck, rfl⟩
  · exact .inl ⟨hn, rfl⟩
  · exact .inr ⟨[], ck, hn, rfl⟩
  · exact .inr ⟨[a], ck, hn, rfl⟩
  · exact .inr ⟨[a, b], ck, hn, rfl⟩

/-- A truncated request is an opcode with no more bytes after it than it has operands (R104). -/
theorem truncated_parts {bs : List Byte} {op : Byte} (h : decodeBytes bs = .error (.truncatedRequest op)) :
    ∃ args n, nops op = some n ∧ args.length ≤ n ∧ bs = op :: args := by
  obtain _ | ⟨op', args⟩ := bs
  · cases h
  unfold decodeBytes at h
  cases hn : nops op' with
  | none =>
    rw [decodeRequest_reserved (reserved_of_nops hn)] at h
    cases args <;> cases h
  | some n =>
    by_cases hlen : args.length ≤ n
    · rw [decodeRequest_truncated hn hlen] at h
      cases h
      exact ⟨args, n, hn, hlen, rfl⟩
    · obtain ⟨r, hr⟩ := decodeRequest_complete hn (Nat.lt_of_not_le hlen)
      rw [hr] at h
      cases htail : args.drop (n + 1) <;> rw [htail] at h <;> cases h

/-- An opcode with its operands and checksum is exactly one request. -/
theorem decodeRequest_exact {op : Byte} {tail : List Byte}
    (h : (nops op = none ∧ tail = []) ∨ ∃ n, nops op = some n ∧ tail.length = n + 1) :
    ∃ r, decodeRequest (op :: tail) = .ok (r, []) := by
  rcases h with ⟨hn, rfl⟩ | ⟨n, hn, hlen⟩
  · exact ⟨_, decodeRequest_reserved (reserved_of_nops hn) []⟩
  · obtain ⟨r, hr⟩ := decodeRequest_complete hn (Nat.lt_of_succ_le hlen.ge)
    exact ⟨r, by rw [hr, ← hlen, List.drop_length]⟩

/-- What a request is executed as: the instruction it stands for, while the block serves. -/
theorem exec_toInstr (r : Request) (s : State) : exec r.toInstr s = whileServing (runRequest r) s := by
  cases r <;> rfl

/-- Bytes that hold exactly one request decode to its instruction. -/
theorem decodeBytes_of_request {bs : List Byte} {r : Request} (h : decodeRequest bs = .ok (r, [])) :
    decodeBytes bs = .ok r.toInstr := by
  rw [decodeBytes, h]

/-- What decodes to an instruction holds exactly one request, which stands for it. -/
theorem request_of_decodeBytes {bs : List Byte} {i : Instr} (h : decodeBytes bs = .ok i) :
    ∃ r, decodeRequest bs = .ok (r, []) ∧ i = r.toInstr := by
  unfold decodeBytes at h
  split at h <;> cases h
  next r hr => exact ⟨r, hr, rfl⟩

/-! ## What a reception comes to, whatever is on the line -/

section
variable {s u : State} (h : OnlyListened s u)
include h

theorem OnlyListened.pb : u.pb = s.pb := by rw [h]
theorem OnlyListened.xb : u.xb = s.xb := by rw [h]
theorem OnlyListened.twb : u.twb = s.twb := by rw [h]
theorem OnlyListened.devLog : u.devLog = s.devLog := by rw [h]
end

/-- `u` is where a reception begun in `s` has come: nothing but its registers has changed, and the receive engine is at rest. -/
def Listened (s u : State) : Prop := OnlyListened s u ∧ u.rx.phase = .idle

theorem Listened.setCp {s u : State} (h : Listened s u) (x : CpRegs) : Listened s (u.setCp x) :=
  ⟨h.1.trans (OnlyListened.setCp x u), h.2⟩

theorem Listened.after {s t u : State} (h : Listened t u) (hst : OnlyListened s t) : Listened s u := ⟨hst.trans h.1, h.2⟩

/-- The reception of a byte leaves the engine at rest. -/
theorem recvByte_listened (n : Nat) (s : State) :
    (recvByte n s).Sat (fun _ u => Listened s u) fun _ => True := by
  rcases recvByte_spec n s with ⟨-, -, h⟩ | ⟨t0, -, -, h⟩ | h <;> rw [h]
  · exact ⟨rfl, rfl⟩
  · exact ⟨rfl, rfl⟩
  · trivial

/-- As many operands are received as were asked for, or the request is dropped. -/
theorem recvOperands_listened (n i : Nat) {s : State} (hs : s.rx.phase = .idle) :
    (recvOperands n i s).Sat (fun r u => Listened s u ∧ ∀ vs, r = some vs → vs.length = n) fun _ => True := by
  induction n generalizing i s with
  | zero => exact ⟨⟨.refl s, hs⟩, fun vs h => by cases h; rfl⟩
  | succ n ih =>
    refine (recvByte_listened _ s).bind fun r t ht => ?_
    cases r with
    | byte v =>
      refine (ih (i + 1) (s := t.setCp (t.cp.setOperand i v)) ht.2).bind fun r u ⟨hu, hlen⟩ => ?_
      refine ⟨hu.after (ht.setCp _).1, fun ws hws => ?_⟩
      obtain ⟨vs, hvs, rfl⟩ := Option.map_eq_some_iff.mp hws
      rw [List.length_cons, hlen vs hvs]
    | timeout => exact ⟨ht, fun _ h => by cases h⟩
    | framing => exact ⟨ht, fun _ h => by cases h⟩

theorem recvChecksum_listened (s : State) : (recvChecksum s).Sat (fun _ u => Listened s u) fun _ => True :=
  (recvByte_listened _ s).bind fun r t ht => by
    cases r with
    | byte v => exact ht.setCp _
    | timeout => exact ht
    | framing => exact ht

/-- What is received holds exactly one request (R182, R183). -/
theorem recvRequest_listened (s : State) :
    (recvRequest s).Sat (fun r u => Listened s u ∧ ∀ bs, r = some bs → ∃ req, decodeRequest bs = .ok (req, []))
      fun _ => True :=
  (recvByte_listened _ s).bind fun r t ht => by
    cases r with
    | byte op =>
      have hop := ht.setCp (t.cp.setOp op)
      dsimp only
      split
      next hn => exact ⟨hop, fun bs h => by cases h; exact decodeRequest_exact (.inl ⟨hn, rfl⟩)⟩
      next n hn =>
        refine (recvOperands_listened n 0 hop.2).bind fun args u ⟨hu, hlen⟩ => ?_
        cases args with
        | none => exact ⟨hu.after hop.1, fun _ h => by cases h⟩
        | some vs =>
          refine (recvChecksum_listened u).bind fun ck x hx => ⟨(hx.after hu.1).after hop.1, fun bs h => ?_⟩
          obtain ⟨c, -, rfl⟩ := Option.map_eq_some_iff.mp h
          exact decodeRequest_exact (.inr ⟨n, hn, by simp [hlen vs rfl]⟩)
    | timeout => exact ⟨ht, fun _ h => by cases h⟩
    | framing => exact ⟨ht, fun _ h => by cases h⟩

/-- A block at rest that served before a reception serves after it. -/
theorem Listened.serving {s u : State} (h : Listened s u) (hs : s.env.par.assembly = .caller ∨ s.mode = .update) :
    u.serving = true := by
  obtain ⟨honly, hphase⟩ := h
  refine serving_iff.mpr ⟨by rw [honly.env, honly.mode]; exact hs, ?_⟩
  rw [State.inPacket, hphase]
  rfl

/-- `CMD_STEP` executes the request it has received. -/
theorem cmdStep_received {bs : List Byte} {r : Request} {s u : State} (hr : recvRequest s = .done (some bs) u)
    (hd : decodeRequest bs = .ok (r, [])) : cmdStep s = runRequest r u := by
  rw [cmdStep, hr, Run.done_bind]
  dsimp only
  rw [hd]

/-- `CMD_STEP` does no more than receive where the request is dropped on the way. -/
theorem cmdStep_dropped {s u : State} (hr : recvRequest s = .done none u) : cmdStep s = .done () u := by
  rw [cmdStep, hr, Run.done_bind]

/-- The command loop and `CMD_STEP` make the same of the line. -/
theorem commandStep_eq {s : State} (hs : s.mode = .update) : commandStep s = (cmdStep s).outcome := by
  have hrecv := recvRequest_listened s
  cases hr : recvRequest s with
  | done r u =>
    rw [hr] at hrecv
    obtain ⟨hu, hreq⟩ := hrecv
    cases r with
    | none => rw [cmdStep_dropped hr, commandStep, hr, Run.outcome_done]
    | some bs =>
      obtain ⟨req, hd⟩ := hreq bs rfl
      rw [commandStep_received hr (decodeBytes_of_request hd), cmdStep_received hr hd, exec_toInstr,
        whileServing_on (hu.serving (.inr hs))]
  | lost u => rw [commandStep, cmdStep, hr, Run.lost_bind, Run.outcome_lost]
  | fault e => rw [commandStep, cmdStep, hr, Run.fault_bind, Run.outcome_fault]

/-- Settles O7: in update mode, with nothing else to do, the block runs the command loop. -/
theorem updateStepIsCmdStep : Obligations.UpdateStepIsCmdStep := by
  unfold Obligations.UpdateStepIsCmdStep
  intro s ha hm hp hw hl
  rw [step_of_no_loss hl, poweredStep_update ha hm, servingStep_next hp hw, commandStep_eq hm]

/-! ## Bytes sent back to back -/

/-- A frame takes ten slots. -/
theorem frames_succ (e k : Nat) : e + 10 * S * (k + 1) = e + 10 * S + 10 * S * k := by
  simp only [S]
  omega

/-- The registers of the Command Processor after operands have arrived, the first being operand `i`. -/
def CpRegs.setOperands : Nat → List Byte → CpRegs → CpRegs
  | _, [], c => c
  | i, v :: vs, c => (c.setOperand i v).setOperands (i + 1) vs

/-- `u` is where the reception begun in `s` stands after a byte synchronised at `e`, with `c` in the registers of the Command
Processor. -/
structure HeardAt (e : Nat) (c : CpRegs) (s u : State) : Prop where
  now : u.now = e + 9 * S + PH + 1
  cp : u.cp = c
  listened : Listened s u

section
variable {e : Nat} {c : CpRegs} {s u : State}

theorem HeardAt.lossBefore (h : HeardAt e c s u) (n : Nat) : u.lossBefore n = s.lossBefore n :=
  lossBefore_eq_of_power (by rw [h.listened.1.env]) (by rw [h.listened.1.env]) n

/-- A further byte, synchronised at `e'`, with the registers of the Command Processor set to `c'`. -/
theorem heardAt_heard (h : OnlyListened s u) (n e' : Nat) (v : Byte) (c' : CpRegs) :
    HeardAt e' c' s ((u.heard n e' v).setCp c') :=
  ⟨rfl, rfl, (Listened.setCp ⟨heard_onlyListened n e' v u, heard_phase n e' v u⟩ c').after h⟩

/-- What follows the first of the bytes the line carries. -/
theorem Carries.tail {v : Byte} {rest : List Byte} (h : s.Carries e ((v :: rest).flatMap frameSlots)) :
    s.Carries (e + 10 * S) (rest.flatMap frameSlots) := by
  rw [List.flatMap_cons] at h
  have hright := Carries.right h
  rwa [length_frameSlots, Nat.mul_comm] at hright

/-- The opcode of a request sent while the block waits for one is received, and decides what follows (R182, R183). -/
theorem recvRequest_opcode {op : Byte} {rest : List Byte} (h1 : s.now ≤ e) (h2 : e < s.now + s.env.par.tOpcode * S)
    (hi : s.Idle s.now e) (hc : s.Carries e ((op :: rest).flatMap frameSlots))
    (hp : s.lossBefore (e + 9 * S + PH + 1) = false) :
    ∃ u, HeardAt e (s.cp.setOp op) s u ∧ (nops op = none → recvRequest s = .done (some [op]) u) ∧
      ∀ n, nops op = some n → recvRequest s = recvRest op n u := by
  have hop : recvByte s.env.par.tOpcode s = .done (.byte op) (s.heard s.env.par.tOpcode e op) :=
    recvByte_frame hp h1 h2 hi (Carries.left (by rwa [List.flatMap_cons] at hc))
  refine ⟨_, heardAt_heard (.refl s) s.env.par.tOpcode e op (s.cp.setOp op), fun hn => ?_, fun n hn => ?_⟩
  all_goals
    rw [recvRequest, hop, Run.done_bind]
    dsimp only
    rw [hn]
    rfl

/-- The next byte of a request sent back to back. -/
theorem HeardAt.recvByte_next {v w : Byte} {rest : List Byte} (h : HeardAt e c s u)
    (hc : s.Carries e ((v :: w :: rest).flatMap frameSlots))
    (hp : s.lossBefore (e + 10 * S + 9 * S + PH + 1) = false) :
    recvByte u.env.par.tOperand u = .done (.byte w) (u.heard u.env.par.tOperand (e + 10 * S) w) :=
  Machine.recvByte_next (by rw [h.lossBefore]; exact hp) hc h.listened.1.line h.now

/-- Operands sent back to back are received one after the other; the reception then goes on with those that are left. -/
theorem HeardAt.operands {v : Byte} {vs rest : List Byte} (h : HeardAt e c s u)
    (hc : s.Carries e ((v :: (vs ++ rest)).flatMap frameSlots))
    (hp : s.lossBefore (e + 10 * S * vs.length + 9 * S + PH + 1) = false) (i : Nat) :
    ∃ w, HeardAt (e + 10 * S * vs.length) (c.setOperands i vs) s w ∧
      ∀ m, recvOperands (vs.length + m) i u =
        (recvOperands m (i + vs.length) w).bind fun ws x => .done (ws.map (vs ++ ·)) x := by
  induction vs generalizing e c u v i with
  | nil =>
    refine ⟨u, h, fun m => ?_⟩
    rw [List.length_nil, Nat.zero_add, Nat.add_zero]
    cases recvOperands m i u <;> simp
  | cons a vs ih =>
    rw [List.length_cons, frames_succ] at hp ⊢
    have hnext := h.recvByte_next hc (lossBefore_mono (by omega) hp)
    obtain ⟨w, hw, hrest⟩ := ih (heardAt_heard h.listened.1 u.env.par.tOperand (e + 10 * S) a (c.setOperand i a))
      (Carries.tail hc) hp (i + 1)
    refine ⟨w, hw, fun m => ?_⟩
    rw [Nat.add_right_comm, recvOperands, hnext, Run.done_bind]
    dsimp only
    rw [heard_cp, h.cp, hrest m, Run.bind_assoc, Nat.add_right_comm i 1, Nat.add_assoc i]
    congr 1
    funext ws x
    cases ws <;> rfl

/-- The checksum byte sent after the operands is received, with its synchronisation tick (R182). -/
theorem HeardAt.checksum {v ck : Byte} (h : HeardAt e c s u) (hc : s.Carries e ([v, ck].flatMap frameSlots))
    (hp : s.lossBefore (e + 10 * S + 9 * S + PH + 1) = false) :
    ∃ w, HeardAt (e + 10 * S) (c.setChecksum ck (e + 10 * S)) s w ∧ recvChecksum u = .done (some ck) w := by
  refine ⟨_, heardAt_heard h.listened.1 u.env.par.tOperand (e + 10 * S) ck _, ?_⟩
  rw [recvChecksum, h.recvByte_next hc hp, ← h.cp]
  rfl

/-- What the line carries after the operands begins with the last byte received. -/
theorem Carries.afterOperands {v : Byte} {vs rest : List Byte} (h : s.Carries e ((v :: (vs ++ rest)).flatMap frameSlots)) :
    ∃ last, s.Carries (e + 10 * S * vs.length) ((last :: rest).flatMap frameSlots) := by
  induction vs generalizing e v with
  | nil => exact ⟨v, h⟩
  | cons a vs ih =>
    obtain ⟨last, hlast⟩ := ih (Carries.tail h)
    exact ⟨last, by rwa [List.length_cons, frames_succ]⟩

/-- The bytes after the opcode, sent back to back: the operands, then the checksum (R182). -/
theorem HeardAt.rest {v ck : Byte} {args : List Byte} (h : HeardAt e c s u)
    (hc : s.Carries e ((v :: (args ++ [ck])).flatMap frameSlots))
    (hp : s.lossBefore (e + 10 * S * (args.length + 1) + 9 * S + PH + 1) = false) (op : Byte) :
    ∃ w, HeardAt (e + 10 * S * (args.length + 1))
        ((c.setOperands 0 args).setChecksum ck (e + 10 * S * (args.length + 1))) s w ∧
      recvRest op args.length u = .done (some (op :: args ++ [ck])) w := by
  rw [Nat.mul_succ, ← Nat.add_assoc] at hp ⊢
  obtain ⟨w, hw, hargs⟩ := h.operands hc (lossBefore_mono (by omega) hp) 0
  obtain ⟨last, hlast⟩ := Carries.afterOperands hc
  obtain ⟨x, hx, hck⟩ := hw.checksum hlast hp
  have hall : recvOperands args.length 0 u = .done (some args) w := by
    rw [← Nat.add_zero args.length, hargs 0, recvOperands, Run.done_bind, Option.map_some, List.append_nil]
  exact ⟨x, hx, by rw [recvRest, hall, Run.done_bind, hck]; rfl⟩
end

/-! ## Whole requests -/

/-- Operands are no opcode, and the first two of them are `a0` and `a1` (10_state.md R26). -/
theorem setOperands_regs (c : CpRegs) {vs : List Byte} (h : vs.length ≤ 2) :
    (c.setOperands 0 vs).op = c.op ∧ (0 < vs.length → (c.setOperands 0 vs).a0 = vs.getD 0 0#8) ∧
      (1 < vs.length → (c.setOperands 0 vs).a1 = vs.getD 1 0#8) := by
  match vs, h with
  | [], _ => simp [CpRegs.setOperands]
  | [_], _ => simp [CpRegs.setOperands, CpRegs.setOperand]
  | [_, _], _ => simp [CpRegs.setOperands, CpRegs.setOperand]

/-- The reception of a request changes no more than its registers. -/
theorem ReceivedRequest.listened {bs : List Byte} {e : Nat} {s u : State} (h : ReceivedRequest bs e s u) : Listened s u := by
  obtain ⟨-, -, -, -, -, hphase, honly⟩ := h
  exact ⟨honly, hphase⟩

/-- A reserved opcode has been received. -/
theorem HeardAt.receivedReserved {op : Byte} {e : Nat} {s u : State} (h : HeardAt e (s.cp.setOp op) s u) :
    ReceivedRequest [op] e s u := by
  obtain ⟨hnow, hcp, honly, hphase⟩ := h
  refine ⟨hnow, by rw [hcp]; rfl, ?_, ?_, ?_, hphase, honly⟩ <;> simp

/-- A request with its operands and checksum has been received. -/
theorem HeardAt.receivedRequest {op ck : Byte} {args : List Byte} {e : Nat} {s u : State} (hargs : args.length ≤ 2)
    (h : HeardAt (e + 10 * S * (args.length + 1))
      (((s.cp.setOp op).setOperands 0 args).setChecksum ck (e + 10 * S * (args.length + 1))) s u) :
    ReceivedRequest (op :: args ++ [ck]) e s u := by
  obtain ⟨hnow, hcp, honly, hphase⟩ := h
  obtain ⟨hop, ha0, ha1⟩ := setOperands_regs (s.cp.setOp op) hargs
  have hlen : (op :: args ++ [ck]).length - 1 = args.length + 1 := by simp
  refine ⟨by rw [hlen]; exact hnow, ?_, fun hpos => ?_, fun hpos => ?_, fun _ => ?_, hphase, honly⟩
  · rw [hcp]
    exact hop
  · have hpos : 0 < args.length := by simpa using hpos
    rw [hcp, List.cons_append, List.getD_cons_succ, List.getD_append _ _ _ _ hpos]
    exact ha0 hpos
  · have hpos : 1 < args.length := by simpa [Nat.succ_le_iff] using hpos
    rw [hcp, List.cons_append, List.getD_cons_succ, List.getD_append _ _ _ _ hpos]
    exact ha1 hpos
  · rw [hlen, hcp]
    exact ⟨by simp [CpRegs.setChecksum], rfl⟩

/-- Settles O44: the opcode, then the operands, then the checksum. -/
theorem requestReceived : Obligations.RequestReceived := by
  unfold Obligations.RequestReceived
  intro bs i e s hd h1 h2 hi hc hp
  obtain ⟨op, ⟨hn, rfl⟩ | ⟨args, ck, hn, rfl⟩⟩ := decodeBytes_parts hd
  · obtain ⟨u, hu, hrun, -⟩ := recvRequest_opcode h1 h2 hi hc hp
    exact ⟨u, hrun hn, hu.receivedReserved⟩
  · have hlen : (op :: (args ++ [ck])).length - 1 = args.length + 1 := by simp
    rw [hlen] at hp
    obtain ⟨u, hu, -, hrun⟩ := recvRequest_opcode h1 h2 hi hc (lossBefore_mono (by omega) hp)
    obtain ⟨w, hw, hrest⟩ := hu.rest hc hp op
    exact ⟨w, (hrun _ hn).trans hrest, hw.receivedRequest (nops_le_two hn)⟩

/-! ## CMD_STEP -/

/-- An accepted operation in which a reset falls. -/
theorem callerOp_lost {body : State → Run (Option Result)} {s t : State} (h : s.callerReady = true)
    (hb : body (s.setBusy true) = .lost t) : callerOp body s = .next t.takeReset := by
  simp [callerOp, h, hb]

/-- The reset taken has left the list of those to come. -/
theorem takeReset_env_ne {u : State} (h : u.env.power ≠ []) : u.takeReset.env ≠ u.env := by
  intro heq
  have hpower : u.env.power.tail.length = u.env.power.length := by rw [← takeReset_power, heq]
  have := List.length_pos_iff.mpr h
  rw [List.length_tail] at hpower
  omega

/-- `CMD_STEP` completes as its body does. -/
theorem exec_cmdStep_done {s t : State} (hr : s.callerReady = true) (hbody : cmdStep (s.setBusy true) = .done () t) :
    exec .cmdStep s = .next (t.complete 0#16) :=
  (exec_cmdStep s).trans (callerOp_done hr (by rw [hbody, Run.withResult_done]))

/-- Settles O45: the request that has been received completes, or a reset falls in it. -/
theorem cmdStepExecutes : Obligations.CmdStepExecutes := by
  unfold Obligations.CmdStepExecutes
  intro bs i e s hr hd h1 h2 hi hc hp
  obtain ⟨u, hrecv, hu⟩ := requestReceived bs i e (s.setBusy true) hd h1 h2 hi hc hp
  obtain ⟨r, hreq, rfl⟩ := request_of_decodeBytes hd
  have henv : u.env = s.env := hu.listened.1.env
  have hserving : u.serving = true := hu.listened.serving (.inl (callerReady_iff.mp hr).1)
  have hstep : cmdStep (s.setBusy true) = runRequest r u := cmdStep_received hrecv hreq
  obtain ⟨t, hout, ⟨_, hdone, ht⟩ | ⟨x, hlost, ⟨hx, hpower⟩, rfl⟩⟩ :=
    Run.Sat.outcome (runRequest_touches (w := ⟨true, true, true, true⟩) rfl rfl rfl r u)
  · refine ⟨u, t, hu, by rw [exec_toInstr, whileServing_on hserving, hout], fun _ => ?_, fun hne => ?_⟩
    · exact exec_cmdStep_done hr (hstep.trans hdone)
    · exact absurd (ht.env.trans henv) hne
  · refine ⟨u, x.takeReset, hu, by rw [exec_toInstr, whileServing_on hserving, hout], fun heq => ?_, fun _ => ?_⟩
    · exact absurd (heq.trans (hx.env.trans henv).symm) (takeReset_env_ne (hx.env ▸ hpower))
    · exact ⟨hx.tookReset hpower, (exec_cmdStep s).trans (callerOp_lost hr (by rw [hstep, hlost]; rfl))⟩

/-! ## Requests that are not received -/

section
variable {s u x : State}

theorem OnlyReceived.listened (h : OnlyReceived s u) : Listened s u := by
  obtain ⟨honly, -, hphase, -⟩ := h
  exact ⟨by rw [honly]; rfl, hphase⟩

/-- Beside the reception, the busy time and the result are the only traces of a `CMD_STEP` that drops its request. -/
theorem complete_onlyListened (hidle : s.busy = false) (r : Result) (h : OnlyListened (s.setBusy true) u) :
    OnlyListened s (u.complete r) := by
  calc u.complete r
    _ = State.complete r { s.setBusy true with now := u.now, result := u.result, rx := u.rx, cp := u.cp } :=
      congrArg (State.complete r) h
    _ = { s with now := u.now, result := r, rx := u.rx, cp := u.cp, busy := false } := rfl
    _ = { s with now := u.now, result := r, rx := u.rx, cp := u.cp } := by rw [← hidle]

theorem complete_received (hidle : s.busy = false) (r : Result) (h : OnlyReceived (s.setBusy true) u) :
    OnlyReceived s (u.complete r) := by
  obtain ⟨honly, hflash, hregs⟩ := h
  refine ⟨?_, hflash, hregs⟩
  calc u.complete r
    _ = State.complete r { s.setBusy true with now := u.now, result := u.result, rx := u.rx } :=
      congrArg (State.complete r) honly
    _ = { s with now := u.now, result := r, rx := u.rx, busy := false } := rfl
    _ = { s with now := u.now, result := r, rx := u.rx } := by rw [← hidle]

/-- No START in the time a byte is waited for (40_byte_transport.md R138, first row). -/
theorem recvByte_silent {n : Nat} (hi : s.Idle s.now (s.now + n * S)) (hp : s.lossBefore (s.now + n * S + 1) = false) :
    ∃ x, recvByte n s = .done .timeout x ∧ x.now = s.now + n * S ∧ OnlyReceived s x :=
  ⟨_, recvByte_timeout hi (lossBefore_mono (Nat.le_succ _) hp), rfl, rfl, fun _ => rfl, rfl, rfl, rfl, rfl⟩

/-- A byte whose STOP slot is asserted (R138, second row). -/
theorem recvByte_framing {n t0 : Nat} (hf : s.FirstAsserted s.now (s.now + n * S) t0)
    (hstop : s.line (t0 + 9 * S + PH) = true) (hp : s.lossBefore (t0 + 9 * S + PH + 2) = false) :
    ∃ x, recvByte n s = .done .framing x ∧ x.now = t0 + 9 * S + PH + 1 ∧ OnlyReceived s x := by
  have hrecv := recvByte_synced hf (lossBefore_mono (Nat.le_succ _) hp)
  rw [sampledFrame_framing hstop] at hrecv
  exact ⟨_, hrecv, rfl, rfl, fun _ => rfl, rfl, rfl, rfl, rfl⟩

/-- No START in the time the next byte of a request is waited for. -/
theorem HeardAt.silent {e : Nat} {c : CpRegs} {w : State} (h : HeardAt e c s w)
    (hi : s.Idle (e + 9 * S + PH + 1) (e + 9 * S + PH + 1 + s.env.par.tOperand * S))
    (hp : s.lossBefore (e + 9 * S + PH + 1 + s.env.par.tOperand * S + 1) = false) :
    ∃ x, recvByte w.env.par.tOperand w = .done .timeout x ∧ x.now = e + 9 * S + PH + 1 + s.env.par.tOperand * S ∧
      OnlyReceived w x := by
  rw [← h.now, ← h.listened.1.env] at hi hp ⊢
  exact recvByte_silent (fun τ h1 h2 => by rw [h.listened.1.line]; exact hi τ h1 h2) (by rw [h.lossBefore]; exact hp)

/-- The next byte of a request has its STOP slot asserted. -/
theorem HeardAt.framing {e t0 : Nat} {c : CpRegs} {w : State} (h : HeardAt e c s w)
    (hf : s.FirstAsserted (e + 9 * S + PH + 1) (e + 9 * S + PH + 1 + s.env.par.tOperand * S) t0)
    (hstop : s.line (t0 + 9 * S + PH) = true) (hp : s.lossBefore (t0 + 9 * S + PH + 2) = false) :
    ∃ x, recvByte w.env.par.tOperand w = .done .framing x ∧ x.now = t0 + 9 * S + PH + 1 ∧ OnlyReceived w x := by
  rw [← h.now, ← h.listened.1.env] at hf
  have hline := h.listened.1.line
  refine recvByte_framing ?_ (by rw [hline]; exact hstop) (by rw [h.lossBefore]; exact hp)
  rw [State.FirstAsserted, State.Idle, hline]
  exact hf

/-- Without an opcode there is no request (43_command_processor.md R182). -/
theorem recvRequest_noOpcode {r : RxByte} (h : recvByte s.env.par.tOpcode s = .done r x) (hr : ∀ v, r ≠ .byte v) :
    recvRequest s = .done none x := by
  rw [recvRequest, h, Run.done_bind]
  cases r with
  | byte v => exact absurd rfl (hr v)
  | timeout | framing => rfl

/-- A request that breaks off before an operand is dropped (R186). -/
theorem recvOperands_broken {r : RxByte} (h : recvByte s.env.par.tOperand s = .done r x) (hr : ∀ v, r ≠ .byte v)
    (n i : Nat) : recvOperands (n + 1) i s = .done none x := by
  rw [recvOperands, h, Run.done_bind]
  cases r with
  | byte v => exact absurd rfl (hr v)
  | timeout | framing => rfl

/-- A request that breaks off before its checksum is dropped (R186). -/
theorem recvChecksum_broken {r : RxByte} (h : recvByte s.env.par.tOperand s = .done r x) (hr : ∀ v, r ≠ .byte v) :
    recvChecksum s = .done none x := by
  rw [recvChecksum, h, Run.done_bind]
  cases r with
  | byte v => exact absurd rfl (hr v)
  | timeout | framing => rfl

/-- A request breaks off after an opcode and some of its operands: the reception ends with the byte that is not received,
be it an operand or the checksum. -/
theorem recvRequest_brokenOff {op : Byte} {args : List Byte} {n e : Nat} (hn : nops op = some n) (hlen : args.length ≤ n)
    (h1 : s.now ≤ e) (h2 : e < s.now + s.env.par.tOpcode * S) (hi : s.Idle s.now e)
    (hc : s.Carries e ((op :: args).flatMap frameSlots))
    (hp : s.lossBefore (e + 10 * S * args.length + 9 * S + PH + 1) = false) :
    ∃ w c, HeardAt (e + 10 * S * args.length) c s w ∧
      ∀ r x, recvByte w.env.par.tOperand w = .done r x → (∀ v, r ≠ .byte v) → recvRequest s = .done none x := by
  obtain ⟨u, hu, -, hrun⟩ := recvRequest_opcode h1 h2 hi hc (lossBefore_mono (by omega) hp)
  obtain ⟨w, hw, hargs⟩ := hu.operands (rest := []) (by rwa [List.append_nil]) hp 0
  refine ⟨w, _, hw, fun r x hrecv hr => ?_⟩
  obtain ⟨m, rfl⟩ := Nat.exists_eq_add_of_le hlen
  rw [hrun _ hn, recvRest, hargs m]
  cases m with
  | zero =>
    simp only [recvOperands, Run.done_bind, Option.map_some, recvChecksum_broken hrecv hr]
    rfl
  | succ m => rw [recvOperands_broken hrecv hr]; rfl

/-- `CMD_STEP` on a request that is not received: it ends where the reception does, with result 0. -/
theorem exec_cmdStep_dropped (hr : s.callerReady = true) (hrecv : recvRequest (s.setBusy true) = .done none x) :
    exec .cmdStep s = .next (x.complete 0#16) :=
  exec_cmdStep_done hr (cmdStep_dropped hrecv)

/-- `CMD_STEP` on a request of which bytes were received up to the state `w`, and then no more. -/
theorem exec_cmdStep_brokenOff {w : State} (hr : s.callerReady = true) (hw : Listened (s.setBusy true) w)
    (hx : OnlyReceived w x) (hrecv : recvRequest (s.setBusy true) = .done none x) :
    ∃ t, exec .cmdStep s = .next t ∧ t.now = x.now ∧ t.result = 0 ∧ t.rx.phase = .idle ∧ OnlyListened s t ∧
      SameFlash s t := by
  obtain ⟨honly, hphase⟩ := hx.listened.after hw.1
  have hall : OnlyListened s (x.complete 0#16) := complete_onlyListened (callerReady_iff.mp hr).2 0#16 honly
  exact ⟨_, exec_cmdStep_dropped hr hrecv, rfl, rfl, hphase, hall, fun _ => by rw [hall.flash]⟩

end

/-- Settles O46: the reception ends with the opcode, or with a later byte, that is not received. -/
theorem cmdStepIncomplete : Obligations.CmdStepIncomplete := by
  unfold Obligations.CmdStepIncomplete
  intro s hr
  obtain ⟨-, hidle⟩ := callerReady_iff.mp hr
  refine ⟨fun hi hp => ?_, fun t0 hf hstop hp => ?_, fun bs op e c hd h1 h2 hi hc hnow => ?_⟩
  · obtain ⟨x, hrecv, hnow, hx⟩ := recvByte_silent (s := s.setBusy true) hi hp
    exact ⟨_, exec_cmdStep_dropped hr (recvRequest_noOpcode hrecv (fun _ h => by cases h)), hnow, rfl,
      complete_received hidle _ hx⟩
  · obtain ⟨x, hrecv, hnow, hx⟩ := recvByte_framing (s := s.setBusy true) hf hstop hp
    exact ⟨_, exec_cmdStep_dropped hr (recvRequest_noOpcode hrecv (fun _ h => by cases h)), hnow, rfl,
      complete_received hidle _ hx⟩
  · obtain ⟨args, n, hn, hlen, rfl⟩ := truncated_parts hd
    subst hnow
    refine ⟨fun hquiet hp => ?_, fun t0 hf hstop hp => ?_⟩
    · obtain ⟨w, _, hw, hbreak⟩ := recvRequest_brokenOff (s := s.setBusy true) hn hlen h1 h2 hi hc
        (lossBefore_mono (Nat.le_add_right_of_le (Nat.le_add_right _ _)) hp)
      obtain ⟨x, hrecv, hnow, hx⟩ := hw.silent hquiet hp
      exact hnow ▸ exec_cmdStep_brokenOff hr hw.listened hx (hbreak _ x hrecv fun _ h => by cases h)
    · have ⟨hfrom, _, _, _⟩ := hf
      obtain ⟨w, _, hw, hbreak⟩ := recvRequest_brokenOff (s := s.setBusy true) hn hlen h1 h2 hi hc
        (lossBefore_mono (Nat.le_add_right_of_le (Nat.le_add_right_of_le (Nat.le_add_right_of_le hfrom))) hp)
      obtain ⟨x, hrecv, hnow, hx⟩ := hw.framing hf hstop hp
      exact hnow ▸ exec_cmdStep_brokenOff hr hw.listened hx (hbreak _ x hrecv fun _ h => by cases h)

/-! ## A whole exchange -/

/-- In update mode a step receives the request on the line and executes it. -/
theorem step_awaiting {bs : List Byte} {i : Instr} {s u : State} (hs : s.Awaiting) (hr : recvRequest s = .done (some bs) u)
    (hd : decode (.bytes bs) = .ok i) : step s = exec i u := by
  obtain ⟨hrun, -, -⟩ := stepRunsDecoded
  exact hrun s u bs i hs hr hd

/-- An index into the page buffer fits a byte. -/
theorem index_toNat (idx : Fin pageSize) : (BitVec.ofNat 8 idx).toNat = idx := by
  have := idx.isLt
  rw [BitVec.toNat_ofNat]
  simp only [pageSize] at this
  omega

/-- Settles O47: the four frames end at `e + 400`, after the request has been received and before the response starts. -/
theorem wrbufExchange : Obligations.WrbufExchange := by
  unfold Obligations.WrbufExchange
  intro idx val e s hs h1 h2 hi hc
  have hd : decodeBytes [0x01#8, BitVec.ofNat 8 idx, val, hashBytes [0x01#8, BitVec.ofNat 8 idx, val]] =
      .ok (.wrbuf (BitVec.ofNat 8 idx) val (hashBytes [0x01#8, BitVec.ofNat 8 idx, val])) := rfl
  obtain ⟨u, hrecv, hu⟩ := requestReceived _ _ e s hd h1 h2 hi hc (lossBefore_of_power hs.power _)
  obtain ⟨honly, -⟩ := hu.listened
  have hserving : u.serving = true := hu.listened.serving (.inr hs.mode)
  obtain ⟨hnow, -, -, -, hck, -⟩ := hu
  obtain ⟨-, ht0⟩ := hck (by simp)
  have hstart : u.responseAt u.now = e + 400 := by
    rw [State.responseAt, hnow, ht0]
    simp only [List.length_cons, List.length_nil, S, PH]
    omega
  have hidx : (BitVec.ofNat 8 idx).toNat < pageSize := by rw [index_toNat]; exact idx.isLt
  obtain ⟨hwrite, -⟩ := wrbufResponds (BitVec.ofNat 8 idx) val _ u hserving rfl
  obtain ⟨t, hexec, hend, hout, hdrove, hbefore, ⟨hframe, -⟩, hflash⟩ :=
    hwrite hidx (lossBefore_of_power (by rw [honly.env, hs.power]) _)
  rw [hstart] at hend hdrove hbefore
  rw [setPb_env, setH_env, honly.env] at hdrove hbefore
  refine ⟨t, (step_awaiting hs hrecv hd).trans hexec, ?_, hend, hout, hdrove, fun τ hτ => ?_, ?_, ?_, ?_, fun a => ?_⟩
  · rw [hframe, setPb_pb]
    simp only [index_toNat, honly.pb]
  · rw [hbefore τ hτ]
    exact devOutAt_congr honly.devLog τ
  · rw [hframe]
    exact honly.mode.trans hs.mode
  · rw [hframe]
    exact honly.xb
  · rw [hframe]
    exact honly.twb
  · rw [hflash a, setPb_flash, setH_flash, honly.flash]

end Sys2Proof.Machine
end

section
/-! PROOFS. The flash sequencer at the caller interface with the power on (44_flash_sequencer.md R212 to R217): FILL_PAGE,
COMMIT_PAGE, ERASE_PAGE and WRITE_PAGE. -/
namespace Sys2Proof.Machine

open Sys2Proof.Config

/-- Addresses from `USER_LIMIT` on are rejected (44_flash_sequencer.md R212). -/
theorem inUserRegion_eq_false {addr : Addr} (h : 0x7000 ≤ addr.toNat) : inUserRegion addr = false :=
  decide_eq_false (Nat.not_lt.mpr h)

/-- An accepted operation that completes: the caller interface is idle as it was before, and `result` is written. -/
theorem callerOp_completes {α : Type} {op : State → Run α} {f : α → Result} {s u : State} {x : α}
    (hr : s.callerReady = true) (hop : op (s.setBusy true) = .done x u) :
    callerOp (fun v => (op v).withResult f) s = .next { u with result := f x, busy := s.busy } := by
  obtain ⟨-, hidle⟩ := callerReady_iff.mp hr
  rw [callerOp_done (r := f x) (t := u) hr (by rw [hop]; rfl), hidle]
  rfl

/-! ## Writing a page -/

/-- A write of a page changes FLASH and the count of free values only, and does not look at `busy`. -/
theorem storePage_setBusy (pa : Nat) (b : Bool) (s : State) :
    (s.setBusy b).storePage pa =
      { s with flash := (s.storePage pa).flash, draws := (s.storePage pa).draws, busy := b } := by
  unfold State.storePage
  rw [setBusy_flash]
  split <;> rfl

/-- Writing a page that is not erased leaves free values in it (93_implementation_defined.md U4). -/
theorem storePage_read_dirty {s : State} {pa i : Nat} (he : ¬ s.flash.erased pa pageSize = true) (hi : i < pageSize) :
    (s.storePage pa).flash.read (pa + i) = freeByte (s.draws + i) := by
  rw [State.storePage, if_neg he]
  exact Memory.read_writeRange_inside hi

/-- Writing an erased page draws no free value. -/
theorem storePage_draws {s : State} {pa : Nat} (he : s.flash.erased pa pageSize = true) :
    (s.storePage pa).draws = s.draws := by
  rw [State.storePage, if_pos he, setFlash_draws]

/-- A word is stored with its low byte at the even address and its high byte at the odd one (44_flash_sequencer.md R215). -/
theorem twbByte_word (twb : WriteBuffer) (k : Fin twbSize) :
    twbByte twb (2 * k) = twb[k].extractLsb' 0 8 ∧ twbByte twb (2 * k + 1) = twb[k].extractLsb' 8 8 := by
  have hword : twb.toList.getD k 0#16 = twb[k] := by
    rw [List.getD_eq_getElem _ _ (by simp), Vector.getElem_toList]
    rfl
  have heven : 2 * k.val / 2 = k := by omega
  have hodd : (2 * k.val + 1) / 2 = k := by omega
  unfold twbByte
  rw [heven, hodd, hword]
  exact ⟨if_pos (by omega), if_neg (by omega)⟩

/-- A word of a page is its bytes in little-endian order (20_memory.md R62). -/
theorem wordsOfPage_getElem (pb : PageBuffer) (k : Fin twbSize) :
    (wordsOfPage pb)[k] = pb.toList.getD (2 * k + 1) 0#8 ++ pb.toList.getD (2 * k) 0#8 := by
  have hk : 2 * k.val + 1 < pb.toList.length := by
    have := k.isLt
    simp only [twbSize, pageSize, Vector.length_toList] at *
    omega
  rw [List.getD_eq_getElem _ _ hk, List.getD_eq_getElem _ _ (Nat.lt_of_succ_lt hk)]
  simp [wordsOfPage]

/-! ## The operations -/

theorem pageAt_setBusy (b : Bool) (s : State) (addr : Nat) : (s.setBusy b).pageAt addr = s.pageAt addr := rfl

section
variable {addr : Addr} {s : State} (hr : s.callerReady = true)
include hr

theorem exec_fillPage_accepted (ha : fillAccepts s.env.par.progMemSize addr = true)
    (hl : s.lossBefore (s.now + s.env.par.tFill) = false) :
    exec (.fillPage addr) s =
      .next { s with now := s.now + s.env.par.tFill, result := resultPage, pb := s.pageAt addr.toNat } := by
  rw [exec_fillPage, callerOp_completes (op := fillPage addr) hr (fillPage_ok (s := s.setBusy true) ha hl),
    pageAt_setBusy]
  generalize s.pageAt addr.toNat = copy
  rfl

theorem exec_fillPage_rejected (ha : fillAccepts s.env.par.progMemSize addr = false) :
    exec (.fillPage addr) s = .next { s with result := resultTimeout } := by
  rw [exec_fillPage, callerOp_completes (op := fillPage addr) hr (fillPage_rejected (s := s.setBusy true) ha)]
  rfl

theorem exec_commitPage_accepted (hu : inUserRegion addr = true) (hl : s.lossBefore (s.now + s.commitTicks + 1) = false) :
    exec (.commitPage addr) s = .next ({ s with result := resultPage }.afterCommit (pageBase addr)) := by
  rw [exec_commitPage, callerOp_completes (op := commitPage addr) hr (commitPage_ok (s := s.setBusy true) hu hl)]
  rfl

theorem exec_commitPage_rejected (hu : inUserRegion addr = false) :
    exec (.commitPage addr) s = .next { s with result := resultTimeout } := by
  rw [exec_commitPage, callerOp_completes (op := commitPage addr) hr (commitPage_rejected hu)]
  rfl

theorem exec_erasePage_accepted (hu : inUserRegion addr = true) (hl : s.lossBefore (s.now + s.env.par.tErase + 1) = false) :
    exec (.erasePage addr) s = .next { s with
      now := s.now + s.env.par.tErase, result := 0, flash := (s.blankPage (pageBase addr).toNat).flash,
      fs := s.fs.setPhase .idle } := by
  rw [exec_erasePage, callerOp_completes (op := erasePage addr) hr (erasePage_ok (s := s.setBusy true) hu hl)]
  rfl

theorem exec_erasePage_rejected (hu : inUserRegion addr = false) :
    exec (.erasePage addr) s = .next { s with result := 0 } := by
  rw [exec_erasePage, callerOp_completes (op := erasePage addr) hr (erasePage_rejected hu)]
  rfl

theorem exec_writePage_accepted (hu : inUserRegion addr = true) (hl : s.lossBefore (s.now + s.env.par.tWrite + 1) = false) :
    exec (.writePage addr) s = .next { s with
      now := s.now + s.env.par.tWrite, result := 0, flash := (s.storePage (pageBase addr).toNat).flash,
      draws := (s.storePage (pageBase addr).toNat).draws, fs := s.fs.setPhase .idle } := by
  rw [exec_writePage, callerOp_completes (op := writePage addr) hr (writePage_ok (s := s.setBusy true) hu hl),
    State.pageStored, storePage_setBusy]
  rfl

theorem exec_writePage_rejected (hu : inUserRegion addr = false) :
    exec (.writePage addr) s = .next { s with result := 0 } := by
  rw [exec_writePage, callerOp_completes (op := writePage addr) hr (writePage_rejected hu)]
  rfl
end

/-! ## The statements -/

/-- Settles O48: the alignment and the extent of the page decide. -/
theorem fillPageCopies : Obligations.FillPageCopies := by
  unfold Obligations.FillPageCopies
  intro addr s hr
  rw [← fillAccepts_iff, Bool.not_eq_true]
  exact ⟨exec_fillPage_accepted hr, exec_fillPage_rejected hr⟩

/-- Settles O49: on either side of `USER_LIMIT` the page is committed or the address rejected. -/
theorem commitPagePrograms : Obligations.CommitPagePrograms := by
  unfold Obligations.CommitPagePrograms
  intro addr s hr
  refine ⟨fun haddr hl => ?_, fun haddr => exec_commitPage_rejected hr (inUserRegion_eq_false haddr)⟩
  exact ⟨_, exec_commitPage_accepted hr (decide_eq_true haddr) hl, rfl, rfl, pageBase_toNat addr,
    afterCommit_committed (pageBase addr) _, wordsOfPage_getElem s.pb⟩

/-- Settles O50: on either side of `USER_LIMIT` the page is erased or the address rejected. -/
theorem erasePageBlanks : Obligations.ErasePageBlanks := by
  unfold Obligations.ErasePageBlanks
  intro addr s hr
  refine ⟨fun haddr hl => ?_, fun haddr => exec_erasePage_rejected hr (inUserRegion_eq_false haddr)⟩
  exact ⟨_, exec_erasePage_accepted hr (decide_eq_true haddr) hl, fun i => blankPage_read_inside i.isLt,
    blankPage_outside _ s, rfl⟩

/-- Settles O51: what stood in the page decides whether the words of `TWB` or free values are stored. -/
theorem writePageStores : Obligations.WritePageStores := by
  unfold Obligations.WritePageStores
  intro addr s hr
  refine ⟨fun haddr hl => ?_, fun haddr => exec_writePage_rejected hr (inUserRegion_eq_false haddr)⟩
  refine ⟨_, exec_writePage_accepted hr (decide_eq_true haddr) hl, storePage_outside _ s, rfl, ?_⟩
  split
  case isTrue he =>
    refine ⟨storePage_draws he, fun k => ?_⟩
    have hk : 2 * k.val + 1 < pageSize := by
      have := k.isLt
      simp only [twbSize, pageSize] at *
      omega
    obtain ⟨hlow, hhigh⟩ := twbByte_word s.twb k
    exact ⟨(storePage_read he (Nat.lt_of_succ_lt hk)).trans hlow, (storePage_read he hk).trans hhigh⟩
  case isFalse he => exact fun i => storePage_read_dirty he i.isLt

end Sys2Proof.Machine
end

section
/-! PROOFS. Loss of power at a commit (44_flash_sequencer.md R218): what the next reset makes of each step, of the response,
and of a commit presented at its very tick. -/
namespace Sys2Proof.Machine

open Sys2Proof.Config

/-! ## The next reset, still to come -/

/-- The environment is `e` as before, and its next reset `p` has not been overtaken by the clock. -/
structure Ahead (p : PowerLoss) (e : Env) (t : State) : Prop where
  env : t.env = e
  clock_le : t.clock ≤ p.tick

/-- Two judgements of one run. -/
theorem Run.Sat.and {α : Type} {r : Run α} {D D' : α → State → Prop} {L L' : State → Prop} (h : r.Sat D L)
    (h' : r.Sat D' L') : r.Sat (fun a s => D a s ∧ D' a s) fun s => L s ∧ L' s := by
  cases r with
  | done a s => exact ⟨h, h'⟩
  | lost s => exact ⟨h, h'⟩
  | fault r => exact h

section
variable {p : PowerLoss} {ps : List PowerLoss} {e : Env} {s t u : State} (hp : e.power = p :: ps)
include hp

theorem Ahead.power (h : Ahead p e t) : t.env.power = p :: ps := by rw [h.env, hp]

/-- A reset that has not been overtaken is taken at its tick (log entry 4). -/
theorem Ahead.tookResetAt (h : Ahead p e t) (hs : s.env = e) : TookResetAt p.tick s t.takeReset := by
  subst hs
  refine ⟨⟨by rw [hp]; exact List.cons_ne_nil p ps, ?_, rfl, rfl⟩, takeReset_epoch_cons (h.power hp) h.clock_le⟩
  rw [takeReset_power, h.env]

/-- Time that passes without a loss of power does not overtake the reset. -/
theorem Ahead.of_no_loss (hs : s.env = e) {c : Nat} (hl : s.lossBefore c = false) : Ahead p e (s.setNow c) := by
  refine ⟨hs, ?_⟩
  rw [State.lossBefore, hs, hp, decide_eq_false_iff_not, Nat.not_lt] at hl
  rwa [setNow_clock, hs]

/-! ## Time and transmission -/

theorem advanceTo_ahead (h : Ahead p e s) (c : Nat) :
    (advanceTo c s).Sat (fun _ t => Ahead p e t ∧ t.now = c) (Ahead p e) :=
  advanceTo_sat (fun hl => ⟨.of_no_loss hp h.env hl, rfl⟩) fun _ => h

theorem driveSlots_ahead (ls : List Bool) (h : Ahead p e s) :
    (driveSlots ls s).Sat (fun _ t => Ahead p e t ∧ t.now = s.now + S * ls.length) (Ahead p e) := by
  induction ls generalizing s with
  | nil => exact ⟨h, rfl⟩
  | cons v vs ih =>
    refine (advanceTo_ahead (s := s.setLine v) hp ⟨h.env, h.clock_le⟩ (s.now + S)).bind fun _ t ⟨ht, hnow⟩ => ?_
    refine (ih ht).mono (fun _ u ⟨hu, hend⟩ => ⟨hu, ?_⟩) fun _ hu => hu
    rw [hend, hnow, List.length_cons, Nat.mul_succ, Nat.add_assoc, Nat.add_comm S]

theorem sendByte_ahead (v : Byte) (h : Ahead p e s) :
    (sendByte v s).Sat (fun _ t => Ahead p e t ∧ t.now = s.now + 10 * S) (Ahead p e) :=
  (driveSlots_ahead (s := s.setTx (s.tx.setSr v).start) hp (frameSlots v) ⟨h.env, h.clock_le⟩).bind
    fun _ _ ⟨ht, hnow⟩ => ⟨⟨ht.env, ht.clock_le⟩, hnow.trans (by rw [length_frameSlots, Nat.mul_comm]; rfl)⟩

/-- A response that completes has ended before the reset, and one that is cut short has not overtaken it. FLASH is as it
was. -/
theorem respond_ahead (v : Byte) (h : Ahead p e s) :
    (respond v s).Sat (fun _ t => e.epoch + (s.responseTick + 10 * S) ≤ p.tick ∧ t.flash = s.flash)
      fun t => Ahead p e t ∧ t.flash = s.flash := by
  have htime : (respond v s).Sat (fun _ t => Ahead p e t ∧ t.now = s.responseTick + 10 * S) (Ahead p e) :=
    (advanceTo_ahead hp h _).bind fun _ t ⟨ht, hnow⟩ => hnow ▸ sendByte_ahead hp v ht
  have hflash : (respond v s).Sat (fun _ t => t.flash = s.flash) fun t => t.flash = s.flash :=
    (respond_touches {} v s).mono (fun _ _ ht => ht.flash rfl) fun _ ⟨ht, _⟩ => ht.flash rfl
  refine (htime.and hflash).mono (fun _ t ⟨⟨⟨henv, hle⟩, hnow⟩, ht⟩ => ⟨?_, ht⟩) fun _ ht => ht
  rwa [State.clock, henv, hnow] at hle

/-! ## The position of a reset in a commit -/

/-- How a reset that has not been overtaken meets a flash step. -/
theorem flashCut_ahead (h : Ahead p e s) (phase : FsPhase) (dur : Nat) :
    s.flashCut phase dur =
      if p.tick = s.clock then if dur = 0 then zeroCut phase p.cut else .untouched
      else if p.tick < s.clock + dur then .scrambled else .completes := by
  have hle := h.clock_le
  unfold State.flashCut
  rw [h.power hp]
  grind
end

/-- The row of the table of 44_flash_sequencer.md R218 that the reset `p` takes in a commit begun in `s`, whatever the
durations: the conditions of `PageAfterReset`, in its order. -/
def cutPosition (p : PowerLoss) (s : State) : CutPos :=
  let a := s.clock + s.env.par.tTwb
  let b := a + s.env.par.tErase
  let c := b + s.env.par.tWrite
  if p.tick < a ∨ p.tick = a ∧ (0 < s.env.par.tErase ∨ p.cut = .beforeErase) then .beforeErase
  else if p.tick < b ∨ p.tick = b ∧ s.env.par.tErase = 0 ∧ p.cut = .duringErase then .duringErase
  else if p.tick = b ∧ (0 < s.env.par.tWrite ∨ (p.cut ≠ .duringWrite ∧ p.cut ≠ .afterWrite)) then .betweenSteps
  else if p.tick < c ∨ p.tick = c ∧ s.env.par.tWrite = 0 ∧ p.cut = .duringWrite then .duringWrite
  else .afterWrite

section
variable {p : PowerLoss} {ps : List PowerLoss} {s t u : State} {pa : Nat}

/-- What a reset leaves in the page is the row of its position. -/
theorem pageAfterReset_iff : PageAfterReset p pa s t ↔ PageAfterCut (cutPosition p s) pa s t := by
  unfold PageAfterReset cutPosition
  dsimp only
  split_ifs <;> exact Iff.rfl

/-- The commit completes before the reset exactly in the last row. -/
theorem completesBefore_iff : CompletesBefore p s.commitTicks s ↔ cutPosition p s = .afterWrite := by
  unfold CompletesBefore cutPosition State.commitTicks
  grind

/-- Where erase and write take no time the environment's choice is the position (log entry 12). -/
theorem cutPosition_of_zero (htick : p.tick = s.clock + s.env.par.tTwb) (herase : s.env.par.tErase = 0)
    (hwrite : s.env.par.tWrite = 0) : cutPosition p s = p.cut := by
  unfold cutPosition
  cases hcut : p.cut <;> simp [htick, herase, hwrite]

theorem cutPosition_of_lt (h : p.tick < s.clock + s.env.par.tTwb) : cutPosition p s = .beforeErase :=
  if_pos (.inl h)

section
variable (hp : s.env.power = p :: ps) (hu : Ahead p s.env u)
include hp hu

/-- The erase meets the reset as a step without duration would, at its position: both sides compare the tick of the reset
with the first tick of the erase and with its end. -/
theorem flashCut_erase (hclock : u.clock = s.clock + s.env.par.tTwb) :
    u.flashCut .erase s.env.par.tErase = zeroCut .erase (cutPosition p s) := by
  have hle := hu.clock_le
  rw [flashCut_ahead hp hu]
  unfold cutPosition
  grind [zeroCut]

/-- So does the write, after an erase that has completed. -/
theorem flashCut_write (hclock : u.clock = s.clock + s.env.par.tTwb + s.env.par.tErase)
    (herase : zeroCut .erase (cutPosition p s) = .completes) :
    u.flashCut .write s.env.par.tWrite = zeroCut .write (cutPosition p s) := by
  have hle := hu.clock_le
  rw [flashCut_ahead hp hu]
  unfold cutPosition at herase ⊢
  grind [zeroCut]
end

/-- An erase that has completed has not overtaken the reset. -/
theorem le_tick_of_erased (h : zeroCut .erase (cutPosition p s) = .completes) :
    s.clock + s.env.par.tTwb + s.env.par.tErase ≤ p.tick := by
  unfold cutPosition at h
  grind [zeroCut]

/-- Nor has a commit that has completed. -/
theorem le_tick_of_afterWrite (h : cutPosition p s = .afterWrite) : s.clock + s.commitTicks ≤ p.tick := by
  unfold cutPosition State.commitTicks at *
  grind
end

/-! ## A commit under a reset to come -/

/-! The rows in which a step is not begun, is in progress or has completed. -/

theorem zeroCut_erase_untouched {c : CutPos} : zeroCut .erase c = .untouched ↔ c = .beforeErase := by cases c <;> decide
theorem zeroCut_erase_scrambled {c : CutPos} : zeroCut .erase c = .scrambled ↔ c = .duringErase := by cases c <;> decide
theorem zeroCut_write_scrambled {c : CutPos} : zeroCut .write c = .scrambled ↔ c = .duringWrite := by cases c <;> decide
theorem zeroCut_write_completes {c : CutPos} : zeroCut .write c = .completes ↔ c = .afterWrite := by cases c <;> decide

theorem zeroCut_betweenSteps {c : CutPos} (he : zeroCut .erase c = .completes) (hw : zeroCut .write c = .untouched) :
    c = .betweenSteps := by
  cases c <;> simp [zeroCut] at he hw ⊢

theorem scramblePage_read {s : State} {pa i : Nat} (hi : i < pageSize) :
    (s.scramblePage pa).flash.read (pa + i) = freeByte (s.draws + i) :=
  Memory.read_writeRange_inside hi

/-- A run of a commit that the reset `p` cuts short leaves what its row of the table says (R218). -/
def LostInCommit (p : PowerLoss) (pa : Nat) (s t : State) : Prop :=
  Ahead p s.env t ∧ cutPosition p s ≠ .afterWrite ∧ PageAfterCut (cutPosition p s) pa s t

section
variable {p : PowerLoss} {ps : List PowerLoss} {s t u : State} {addr pa : Addr}

theorem LostInCommit.intro {pos : CutPos} (h : Ahead p s.env t) (hpos : cutPosition p s = pos) (hne : pos ≠ .afterWrite)
    (hpage : PageAfterCut pos pa.toNat s t) : LostInCommit p pa.toNat s t := by
  subst hpos
  exact ⟨h, hne, hpage⟩

variable (hp : s.env.power = p :: ps)
include hp

/-- Step 1 of a commit, from a state with the environment, the time and FLASH of its start. -/
theorem fillWriteBuffer_ahead (hu : Ahead p s.env u) (hclock : u.clock = s.clock) (hflash : u.flash = s.flash) :
    (fillWriteBuffer u).Sat (fun _ t => t = u.twbFilled ∧ Ahead p s.env t) (LostInCommit p pa.toNat s) := by
  have hbefore : u.lossBefore (u.now + u.env.par.tTwb) = decide (p.tick < s.clock + s.env.par.tTwb) := by
    rw [State.lossBefore, hu.power hp, ← hclock, State.clock, hu.env, Nat.add_assoc]
  rcases fillWriteBuffer_spec u with ⟨hl, e⟩ | ⟨hl, e⟩ <;> rw [e] <;> rw [hbefore] at hl
  · refine ⟨rfl, (twbFilled_env u).trans hu.env, ?_⟩
    rw [twbFilled_clock, hclock, hu.env]
    exact Nat.not_lt.mp (of_decide_eq_false hl)
  · refine .intro ⟨?_, ?_⟩ (cutPosition_of_lt (of_decide_eq_true hl)) (by decide) fun a => ?_
    · rw [setFs_env, setTwb_env, hu.env]
    · rw [setFs_clock, setTwb_clock]
      exact hu.clock_le
    · rw [setFs_flash, setTwb_flash, hflash]

/-- The erase of a commit, from a state `u` with FLASH as at its start. -/
theorem eraseStep_ahead (hpa : pa.toNat + pageSize ≤ userLimit) (hu : Ahead p s.env u) (hdraws : u.draws = s.draws)
    (hclock : u.clock = s.clock + s.env.par.tTwb) (hflash : u.flash = s.flash) :
    (eraseStep pa u).Sat (fun _ t => t = u.pageBlanked pa.toNat ∧ zeroCut .erase (cutPosition p s) = .completes)
      (LostInCommit p pa.toNat s) := by
  have hcut := flashCut_erase hp hu hclock
  rw [← hu.env] at hcut
  rcases eraseStep_spec (s := u) hpa with ⟨h, e⟩ | ⟨h, e⟩ | ⟨h, e⟩ <;> rw [e] <;> rw [hcut] at h
  · exact ⟨rfl, h⟩
  · exact .intro hu (zeroCut_erase_untouched.mp h) (by decide) fun a => congrArg (Memory.read · a) hflash
  · refine .intro ⟨hu.env, hu.clock_le⟩ (zeroCut_erase_scrambled.mp h) (by decide) fun i => ?_
    rw [← hdraws]
    exact scramblePage_read i.isLt

/-- The write of a commit, from a state `u` in which the page is erased. -/
theorem writeStep_ahead (hpa : pa.toNat + pageSize ≤ userLimit) (henv : u.env = s.env) (hdraws : u.draws = s.draws)
    (hclock : u.clock = s.clock + s.env.par.tTwb + s.env.par.tErase) (hblank : u.PageErased pa.toNat)
    (herase : zeroCut .erase (cutPosition p s) = .completes) :
    (writeStep pa u).Sat (fun _ t => t = u.pageStored pa.toNat ∧ cutPosition p s = .afterWrite)
      (LostInCommit p pa.toNat s) := by
  have hu : Ahead p s.env u := ⟨henv, hclock ▸ le_tick_of_erased herase⟩
  have hcut := flashCut_write hp hu hclock herase
  rw [← henv] at hcut
  rcases writeStep_spec (s := u) hpa with ⟨h, e⟩ | ⟨h, e⟩ | ⟨h, e⟩ <;> rw [e] <;> rw [hcut] at h
  · exact ⟨rfl, zeroCut_write_completes.mp h⟩
  · exact .intro hu (zeroCut_betweenSteps herase h) (by decide) hblank
  · refine .intro ⟨henv, hu.clock_le⟩ (zeroCut_write_scrambled.mp h) (by decide) fun i => ?_
    rw [← hdraws]
    exact scramblePage_read i.isLt

/-- Everything a commit can do that begins no later than the next reset falls. -/
theorem commitPage_ahead (hu : inUserRegion addr = true) (hle : s.clock ≤ p.tick) :
    (commitPage addr s).Sat
      (fun accepted t => accepted = true ∧ t = s.afterCommit (pageBase addr) ∧ cutPosition p s = .afterWrite)
      (LostInCommit p (pageBase addr).toNat s) := by
  have hpa := userPage_inside hu
  rw [commitPage_accepted hu]
  refine (fillWriteBuffer_ahead (u := s.setFs (s.fs.setAddr (pageBase addr))) hp ⟨rfl, hle⟩ rfl rfl).bind
    fun _ s1 ⟨h1, ha⟩ => ?_
  refine (eraseStep_ahead hp hpa ha (by simp [h1]) (by simp [h1]) (by simp [h1])).bind fun _ s2 ⟨h2, herase⟩ => ?_
  have hblank : s2.PageErased (pageBase addr).toNat := fun i => by
    rw [h2, pageBlanked_flash, blankPage_read_inside i.isLt]
  refine (writeStep_ahead hp hpa (by simp [h1, h2]) (by simp [h1, h2]) (by simp [h1, h2]) hblank herase).bind
    fun _ s3 ⟨h3, hpos⟩ => ⟨rfl, ?_, hpos⟩
  rw [h3, h2, h1, steps_afterCommit]
end

/-! ## COMMIT_PAGE and COMMIT -/

section
variable {p : PowerLoss} {ps : List PowerLoss} {s : State} {addr : Addr} (hu : inUserRegion addr = true)
  (hp : s.env.power = p :: ps)
include hu hp

/-- `COMMIT_PAGE` presented no later than the next reset falls. -/
theorem exec_commitPage_ahead (hle : s.clock ≤ p.tick) (hr : s.callerReady = true) :
    ∃ t, exec (.commitPage addr) s = .next t ∧ PageAfterCut (cutPosition p s) (pageBase addr).toNat s t ∧
      (cutPosition p s = .afterWrite → t.result = resultPage ∧ t.now = s.now + s.commitTicks ∧ t.env = s.env) ∧
      (cutPosition p s ≠ .afterWrite → TookResetAt p.tick s t) := by
  have hbody := commitPage_ahead (s := s.setBusy true) hp hu hle
  rw [exec_commitPage]
  rcases hrun : commitPage addr (s.setBusy true) with ⟨accepted, t⟩ | t | r <;> rw [hrun] at hbody
  · obtain ⟨rfl, rfl, hpos⟩ := hbody
    obtain ⟨-, hholds, -⟩ := afterCommit_committed (pageBase addr) (s.setBusy true)
    have hpos' : cutPosition p s = .afterWrite := hpos
    refine ⟨_, callerOp_completes (op := commitPage addr) hr hrun, ?_, fun _ => ⟨rfl, rfl, rfl⟩,
      fun h => absurd hpos h⟩
    rw [hpos']
    exact hholds
  · obtain ⟨hahead, hpos, hpage⟩ := hbody
    exact ⟨t.takeReset, callerOp_lost hr (by rw [hrun]; rfl), hpage, fun h => absurd h hpos,
      fun _ => hahead.tookResetAt hp rfl⟩
  · exact hbody.elim

/-- What `COMMIT` comes to: the commit, and a response that may be cut short in turn. -/
theorem runCommit_ahead {ck : Byte} (hle : s.clock ≤ p.tick) (hck : ck = hashBytes [0x05#8, addrHigh addr, addrLow addr]) :
    (runCommit addr ck s).Sat
      (fun _ t => s.env.epoch + (s.responseAt (s.now + s.commitTicks) + 10 * S) ≤ p.tick ∧
        PageAfterCut (cutPosition p s) (pageBase addr).toNat s t)
      fun t => Ahead p s.env t ∧ PageAfterCut (cutPosition p s) (pageBase addr).toNat s t := by
  rw [runCommit, withChecksum_ok hck]
  have hlost : ∀ t, LostInCommit p (pageBase addr).toNat (s.setH ck) t →
      Ahead p s.env t ∧ PageAfterCut (cutPosition p s) (pageBase addr).toNat s t :=
    fun t ⟨hahead, _, hpage⟩ => ⟨hahead, hpage⟩
  refine ((commitPage_ahead (s := s.setH ck) hp hu hle).mono (fun _ _ h => h) hlost).bind ?_
  rintro _ _ ⟨rfl, rfl, hpos⟩
  obtain ⟨-, hholds, -⟩ := afterCommit_committed (pageBase addr) (s.setH ck)
  have hpos : cutPosition p s = .afterWrite := hpos
  have hahead : Ahead p s.env ((s.setH ck).afterCommit (pageBase addr)) :=
    ⟨rfl, (Nat.add_assoc ..).symm.trans_le (le_tick_of_afterWrite hpos)⟩
  have hpage : ∀ t : State, t.flash = ((s.setH ck).afterCommit (pageBase addr)).flash →
      PageAfterCut (cutPosition p s) (pageBase addr).toNat s t := by
    intro t hflash
    rw [hpos]
    exact fun i => by rw [hflash]; exact hholds i
  exact (respond_ahead hp _ hahead).mono (fun _ t ⟨hend, hflash⟩ => ⟨hend, hpage t hflash⟩)
    fun t ⟨ht, hflash⟩ => ⟨ht, hpage t hflash⟩

/-- The wire command `COMMIT`, executed no later than the next reset falls. -/
theorem exec_commit_ahead {ck : Byte} (hle : s.clock ≤ p.tick) (hs : s.serving = true)
    (hck : ck = hashBytes [0x05#8, addrHigh addr, addrLow addr]) :
    ∃ t, exec (.commit addr ck) s = .next t ∧ PageAfterCut (cutPosition p s) (pageBase addr).toNat s t ∧
      (p.tick < s.env.epoch + (s.responseAt (s.now + s.commitTicks) + 10 * S) → TookResetAt p.tick s t) := by
  obtain ⟨t, hrun, ⟨_, -, hend, hpage⟩ | ⟨u, -, ⟨hahead, hpage⟩, rfl⟩⟩ :=
    (runCommit_ahead hu hp hle hck).outcome
  · exact ⟨t, (whileServing_on hs).trans hrun, hpage, fun hlt => absurd hend (Nat.not_le.mpr hlt)⟩
  · exact ⟨u.takeReset, (whileServing_on hs).trans hrun, hpage, fun _ => hahead.tookResetAt hp rfl⟩
end

/-- Settles O56: the conditions of `PageAfterReset` name the position of the reset, and the steps of the commit follow it. -/
theorem commitInterrupted : Obligations.CommitInterrupted := by
  unfold Obligations.CommitInterrupted
  intro addr s p ps haddr hp hle
  have hu : inUserRegion addr = true := decide_eq_true haddr
  simp only [pageAfterReset_iff, completesBefore_iff]
  refine ⟨fun hr => ?_, fun ck hs hck => ?_⟩
  · obtain ⟨t, hexec, hpage, hdone, hlost⟩ := exec_commitPage_ahead hu hp hle hr
    obtain ⟨houtside, -⟩ := flashWritesStayInPage (.commitPage addr) addr s t hexec rfl
    exact ⟨t, hexec, houtside haddr, hpage, hdone, hlost⟩
  · obtain ⟨t, hexec, hpage, hlost⟩ := exec_commit_ahead hu hp hle hs hck
    obtain ⟨houtside, -⟩ := flashWritesStayInPage (.commit addr ck) addr s t hexec rfl
    exact ⟨t, hexec, houtside haddr, hpage, hlost⟩

/-! ## A commit presented at the tick of the reset (log entry 30) -/

/-- The same block with other requests to come. -/
def State.withCalls (calls : List TimedCall) (s : State) : State := s.setEnv { s.env with calls := calls }

section
variable {p : PowerLoss} {ps : List PowerLoss} {s : State} {c : TimedCall} {stale cs : List TimedCall}

/-- Requests of earlier ticks do not hide the one of this tick. -/
theorem presented_withCalls (hc : c.tick = s.clock) (hstale : ∀ d ∈ stale, d.tick < s.clock) :
    (s.withCalls (stale ++ c :: cs)).presented = some c := by
  have hdrop : (stale ++ c :: cs).dropWhile (fun d => d.tick < s.clock) = c :: cs := by
    induction stale with
    | nil => simp [hc]
    | cons d ds ih =>
      rw [List.cons_append, List.dropWhile_cons_of_pos (by simpa using hstale d List.mem_cons_self)]
      exact ih fun x hx => hstale x (List.mem_cons_of_mem d hx)
  have hcalls : (s.withCalls (stale ++ c :: cs)).env.calls.dropWhile
      (fun d => d.tick < (s.withCalls (stale ++ c :: cs)).clock) = c :: cs := hdrop
  rw [State.presented, hcalls]
  exact if_pos hc

theorem lossDue_of_tick_le (hp : s.env.power = p :: ps) (h : p.tick ≤ s.clock) : s.lossDue = true := by
  rw [State.lossDue, State.lossBefore, hp]
  exact decide_eq_true (Nat.lt_succ_of_le h)

/-- A reset before the erase comes before the request (log entry 30). -/
theorem step_beforeErase (hp : s.env.power = p :: ps) (htick : p.tick = s.clock) (hcut : p.cut = .beforeErase) :
    step s = .next s.takeReset := by
  refine step_of_loss (lossDue_of_tick_le hp htick.le) ?_
  rw [State.requestFirst, hp]
  simp [hcut]

section
variable (hp : s.env.power = p :: ps) (htick : p.tick = s.clock) (hcut : p.cut ≠ .beforeErase)
  (hr : s.callerReady = true) (hpacket : s.inPacket = false) (hwire : s.tx.wire = [])
include hp htick hcut hr hpacket hwire

/-- In any other position the request comes first. -/
theorem step_of_presented (hc : s.presented = some c) : step s = callerStep s := by
  have hfirst : s.requestFirst = true := by
    rw [State.requestFirst, hp]
    simp [hr, hpacket, hwire, htick, hc, hcut]
  obtain ⟨hassembly, -⟩ := callerReady_iff.mp hr
  rw [step, hfirst, poweredStep_caller hassembly, servingStep_next hpacket hwire]
  simp

theorem step_withCalls (hc : c.tick = s.clock) (hstale : ∀ d ∈ stale, d.tick < s.clock) :
    step (s.withCalls (stale ++ c :: cs)) = callerStep (s.withCalls (stale ++ c :: cs)) :=
  step_of_presented (s := s.withCalls (stale ++ c :: cs)) hp htick hcut hr hpacket hwire (presented_withCalls hc hstale)

/-- Each request of an earlier tick is dropped by a step of its own (log entry 19). -/
theorem run_withCalls (hc : c.tick = s.clock) (hstale : ∀ d ∈ stale, d.tick < s.clock) (n : Nat) :
    Host.Core.run Sys2Proof.core (stale.length + n) (s.withCalls (stale ++ c :: cs)) =
      Host.Core.run Sys2Proof.core n (s.withCalls (c :: cs)) := by
  induction stale with
  | nil => rw [List.length_nil, Nat.zero_add]; rfl
  | cons d ds ih =>
    have hstep : step (s.withCalls (d :: ds ++ c :: cs)) = .next (s.withCalls (ds ++ c :: cs)) :=
      (step_withCalls hp htick hcut hr hpacket hwire hc hstale).trans (if_pos (hstale d List.mem_cons_self))
    rw [List.length_cons, Nat.succ_add, run_succ hstep]
    exact ih fun x hx => hstale x (List.mem_cons_of_mem d hx)

/-- The steps up to the request of this tick, that one included. -/
theorem run_presented {t : State} (hc : c.tick = s.clock) (hstale : ∀ d ∈ stale, d.tick < s.clock)
    (hcalls : s.env.calls = stale ++ c :: cs) (hexec : exec (decodeCall c.call) (s.withCalls cs) = .next t) :
    Host.Core.run Sys2Proof.core (stale.length + 1) s = .next t := by
  have hstep : step (s.withCalls (c :: cs)) = .next t :=
    calc step (s.withCalls (c :: cs))
      _ = callerStep (s.withCalls (c :: cs)) :=
        step_withCalls (stale := []) hp htick hcut hr hpacket hwire hc (by simp)
      _ = exec (decodeCall c.call) (s.withCalls cs) := callerStep_presented rfl hc
      _ = .next t := hexec
  calc Host.Core.run Sys2Proof.core (stale.length + 1) s
    _ = Host.Core.run Sys2Proof.core (stale.length + 1) (s.withCalls (stale ++ c :: cs)) := by rw [← hcalls]; rfl
    _ = Host.Core.run Sys2Proof.core 1 (s.withCalls (c :: cs)) := run_withCalls hp htick hcut hr hpacket hwire hc hstale 1
    _ = .next t := run_succ hstep 0
end
end

/-! ## Erase and write without duration -/

theorem commitTicks_of_zero {s : State} (herase : s.env.par.tErase = 0) (hwrite : s.env.par.tWrite = 0) :
    s.commitTicks = s.env.par.tTwb := by
  rw [State.commitTicks, herase, hwrite]
  rfl

/-- `COMMIT_PAGE` begun `T_TWB` ticks before the reset. -/
theorem exec_commitPage_zero {addr : Addr} {s : State} {p : PowerLoss} {ps : List PowerLoss} (haddr : addr.toNat < 0x7000)
    (hp : s.env.power = p :: ps) (htick : p.tick = s.clock + s.env.par.tTwb) (herase : s.env.par.tErase = 0)
    (hwrite : s.env.par.tWrite = 0) (hr : s.callerReady = true) :
    ∃ t, exec (.commitPage addr) s = .next t ∧ SameFlashOutside (pageBase addr).toNat s t ∧
      PageAfterCut p.cut (pageBase addr).toNat s t ∧
      (if p.cut = .afterWrite then t.result = resultPage ∧ t.clock = p.tick ∧ t.lossDue = true
       else TookResetAt p.tick s t) := by
  have hle : s.clock ≤ p.tick := htick ▸ Nat.le_add_right _ _
  obtain ⟨t, hexec, hpage, hdone, hlost⟩ := exec_commitPage_ahead (decide_eq_true haddr) hp hle hr
  obtain ⟨houtside, -⟩ := flashWritesStayInPage (.commitPage addr) addr s t hexec rfl
  rw [cutPosition_of_zero htick herase hwrite] at hpage hdone hlost
  refine ⟨t, hexec, houtside haddr, hpage, ?_⟩
  split
  case isTrue hcut =>
    obtain ⟨hresult, hnow, henv⟩ := hdone hcut
    have hclock : t.clock = p.tick := by
      rw [State.clock, henv, hnow, commitTicks_of_zero herase hwrite, htick, State.clock, Nat.add_assoc]
    exact ⟨hresult, hclock, lossDue_of_tick_le (by rw [henv, hp]) hclock.ge⟩
  case isFalse hcut => exact hlost hcut

/-- Settles O57: with no duration the position is the one the environment chose, whichever way the commit is presented. -/
theorem commitInterruptedZero : Obligations.CommitInterruptedZero := by
  unfold Obligations.CommitInterruptedZero
  intro addr s p ps haddr hp htick herase hwrite
  refine ⟨exec_commitPage_zero haddr hp htick herase hwrite, fun ck hs hck => ?_, ?_⟩
  · have hle : s.clock ≤ p.tick := htick ▸ Nat.le_add_right _ _
    obtain ⟨t, hexec, hpage, hlost⟩ := exec_commit_ahead (decide_eq_true haddr) hp hle hs hck
    obtain ⟨houtside, -⟩ := flashWritesStayInPage (.commit addr ck) addr s t hexec rfl
    rw [cutPosition_of_zero htick herase hwrite] at hpage
    refine ⟨t, hexec, houtside haddr, hpage, hlost ?_⟩
    have hend : s.now + s.env.par.tTwb ≤ s.responseAt (s.now + s.commitTicks) := by
      rw [commitTicks_of_zero herase hwrite]
      exact Nat.le_max_left _ _
    rw [htick, State.clock]
    simp only [S]
    omega
  · intro stale c cs hr hpacket hwire htwb hcalls hstale hc hcall
    have hnow : p.tick = s.clock := by rw [htick, htwb, Nat.add_zero]
    by_cases hcut : p.cut = .beforeErase
    · have hreset : Ahead p s.env s := ⟨rfl, hnow.ge⟩
      rw [if_pos hcut]
      refine ⟨s.takeReset, run_succ (step_beforeErase hp hnow hcut) 0, fun _ _ => rfl, ?_, ?_⟩
      · rw [hcut]
        exact fun _ => rfl
      · rw [if_neg (by rw [hcut]; decide)]
        exact hreset.tookResetAt hp rfl
    · obtain ⟨t, hexec, hleft⟩ := exec_commitPage_zero (s := s.withCalls cs) haddr hp htick herase hwrite hr
      rw [if_neg hcut]
      exact ⟨t, run_presented hp hnow hcut hr hpacket hwire hc hstale hcalls (by rw [hcall, hexec]), hleft⟩

end Sys2Proof.Machine
end

section
/-! PROOFS. Loss of power and progress (60_exceptions.md): how every operation meets the next reset, that no instruction stops, what
a block that does not serve ignores, and the inert user mode. -/
namespace Sys2Proof.Machine

open Sys2Proof.Config

/-! ## Operations and the next reset -/

/-- `t` is where the block has come from `s` before its power failed: if any time has passed, the next reset has not been
overtaken. Without that proviso a reset that was overdue in `s` would refute it. -/
structure Powered (s t : State) : Prop where
  env : t.env = s.env
  now_le : s.now ≤ t.now
  lasted : t.now = s.now ∨ s.lossBefore t.now = false

/-- The run does not stop, and it either completes with the power on or is cut short by a reset to come. -/
def Run.StaysPowered {α : Type} (s : State) (r : Run α) : Prop :=
  r.Sat (fun _ t => Powered s t) fun t => Powered s t ∧ s.env.power ≠ []

section
variable {α β : Type} {s t u : State}

/-- An update that lets no time pass and leaves the environment alone. -/
theorem Powered.at_once (he : t.env = s.env) (hn : t.now = s.now) : Powered s t := ⟨he, hn.ge, .inl hn⟩

theorem Powered.refl (s : State) : Powered s s := .at_once rfl rfl

/-- Time that passes up to a tick before which no reset falls. -/
theorem Powered.of_no_loss (he : t.env = s.env) (hn : s.now ≤ t.now) (hl : s.lossBefore t.now = false) : Powered s t :=
  ⟨he, hn, .inr hl⟩

theorem Powered.lossBefore_eq (h : Powered s t) (c : Nat) : t.lossBefore c = s.lossBefore c :=
  lossBefore_eq_of_power (by rw [h.env]) (by rw [h.env]) c

theorem Powered.trans (h : Powered s t) (h' : Powered t u) : Powered s u := by
  refine ⟨h'.env.trans h.env, h.now_le.trans h'.now_le, ?_⟩
  rcases h'.lasted with hn | hl
  · rw [hn]
    exact h.lasted
  · exact .inr (h.lossBefore_eq _ ▸ hl)

theorem Run.powered_done {x : α} (he : t.env = s.env) (hn : t.now = s.now) : (Run.done x t).StaysPowered s :=
  Powered.at_once he hn

theorem Run.powered_done_later {x : α} (he : t.env = s.env) (hn : s.now ≤ t.now) (hl : s.lossBefore t.now = false) :
    (Run.done x t).StaysPowered s :=
  Powered.of_no_loss he hn hl

theorem Run.powered_lost (h : Powered s t) (hp : s.env.power ≠ []) : (Run.lost t : Run α).StaysPowered s := ⟨h, hp⟩

theorem Run.StaysPowered.trans {r : Run α} (h : r.StaysPowered t) (hst : Powered s t) : r.StaysPowered s :=
  Run.Sat.mono h (fun _ _ hu => hst.trans hu) fun _ ⟨hu, hp⟩ => ⟨hst.trans hu, hst.env ▸ hp⟩

/-- A run that begins after an update. -/
theorem Run.StaysPowered.after {r : Run α} (h : r.StaysPowered t) (he : t.env = s.env) (hn : t.now = s.now) :
    r.StaysPowered s :=
  h.trans (.at_once he hn)

theorem Run.StaysPowered.bind {r : Run α} {f : α → State → Run β} (h : r.StaysPowered s)
    (hf : ∀ x t, (f x t).StaysPowered t) : (r.bind f).StaysPowered s :=
  Run.Sat.bind h fun x t ht => (hf x t).trans ht

/-! ## Time and the line -/

theorem advanceTo_powered {c : Nat} (hc : s.now ≤ c) : (advanceTo c s).StaysPowered s :=
  advanceTo_sat (fun hl => .of_no_loss rfl hc hl) fun hl => ⟨.refl s, power_ne_nil_of_lossBefore hl⟩

theorem delay_powered (n : Nat) (s : State) : (delay n s).StaysPowered s := advanceTo_powered (Nat.le_add_right _ _)

theorem driveSlots_powered (ls : List Bool) (s : State) : (driveSlots ls s).StaysPowered s := by
  induction ls generalizing s with
  | nil => exact Powered.refl s
  | cons v vs ih => exact ((delay_powered S (s.setLine v)).bind fun _ t => ih t).after rfl rfl

/-- A transmission with the transmit registers set before and after it. -/
theorem transmit_powered (ls : List Bool) (s : State) (x : TxRegs) (f : TxRegs → TxRegs) :
    ((driveSlots ls (s.setTx x)).bind fun _ t => .done () (t.setTx (f t.tx))).StaysPowered s :=
  ((driveSlots_powered ls (s.setTx x)).bind fun _ t => Run.powered_done (t := t.setTx (f t.tx)) rfl rfl).after rfl rfl

theorem sendByte_powered (v : Byte) (s : State) : (sendByte v s).StaysPowered s :=
  transmit_powered _ s _ (TxRegs.stop 9)

theorem sendSymbol_powered (code : BitVec 2) (s : State) : (sendSymbol code s).StaysPowered s :=
  transmit_powered _ s _ (TxRegs.stop 1)

theorem sendPacket_powered (bytes : List Byte) (s : State) : (sendPacket bytes s).StaysPowered s :=
  transmit_powered _ s _ fun tx => (tx.stop 1).packetSent bytes

/-- A poll that reads 1 is not in the past. -/
theorem le_of_firstAsserted {f : Nat → Bool} {a n b : Nat} (h : firstAsserted f a n = some b) : a ≤ b := by
  obtain ⟨hle, -⟩ := firstAsserted_eq_some.mp h
  exact hle

theorem recvByte_powered (n : Nat) (s : State) : (recvByte n s).StaysPowered s := by
  unfold recvByte
  split
  · exact (advanceTo_powered (Nat.le_add_right _ _)).bind fun _ _ => Run.powered_done rfl rfl
  · next t0 ht0 =>
    have hle : s.now ≤ t0 + 9 * S + PH + 1 := by
      have := le_of_firstAsserted ht0
      omega
    exact (advanceTo_powered hle).bind fun _ _ => Run.powered_done rfl rfl

/-! ## The flash sequencer -/

/-- A flash step that completes has ended before the next reset, or at its tick. -/
theorem lossBefore_of_flashCut {phase : FsPhase} {dur : Nat} (h : s.flashCut phase dur = .completes) :
    s.lossBefore (s.now + dur) = false := by
  unfold State.flashCut State.clock at h
  unfold State.lossBefore
  cases hp : s.env.power with
  | nil => rfl
  | cons p ps =>
    rw [hp] at h
    dsimp only at h ⊢
    rw [decide_eq_false_iff_not]
    split_ifs at h <;> omega

theorem fillPage_powered (addr : Addr) (s : State) : (fillPage addr s).StaysPowered s := by
  rcases fillPage_spec addr s with ⟨-, e⟩ | ⟨-, ⟨hl, e⟩ | ⟨hl, e⟩⟩ <;> rw [e]
  · exact Run.powered_done rfl rfl
  · exact Run.powered_done_later (by simp) (Nat.le_add_right _ _) hl
  · exact Run.powered_lost (.at_once (by simp) (by simp)) (power_ne_nil_of_lossBefore hl)

theorem fillWriteBuffer_powered (s : State) : (fillWriteBuffer s).StaysPowered s :=
  (delay_powered s.env.par.tTwb ((s.setTwb (wordsOfPage s.pb)).setFs (s.fs.setPhase .fill))).after (by simp) (by simp)

section
variable {pa : Addr} (hpa : pa.toNat + pageSize ≤ userLimit)
include hpa

theorem eraseStep_powered (s : State) : (eraseStep pa s).StaysPowered s := by
  rcases eraseStep_spec hpa with ⟨hc, e⟩ | ⟨hc, e⟩ | ⟨hc, e⟩ <;> rw [e]
  · exact Run.powered_done_later (pageBlanked_env _ s) (by simp) (by simpa using lossBefore_of_flashCut hc)
  · exact Run.powered_lost (.refl s) (power_ne_nil_of_flashCut (by rw [hc]; decide))
  · exact Run.powered_lost (.at_once (by simp) (by simp)) (power_ne_nil_of_flashCut (by rw [hc]; decide))

theorem writeStep_powered (s : State) : (writeStep pa s).StaysPowered s := by
  rcases writeStep_spec hpa with ⟨hc, e⟩ | ⟨hc, e⟩ | ⟨hc, e⟩ <;> rw [e]
  · exact Run.powered_done_later (pageStored_env _ s) (by simp) (by simpa using lossBefore_of_flashCut hc)
  · exact Run.powered_lost (.refl s) (power_ne_nil_of_flashCut (by rw [hc]; decide))
  · exact Run.powered_lost (.at_once (by simp) (by simp)) (power_ne_nil_of_flashCut (by rw [hc]; decide))
end

theorem commitPage_powered (addr : Addr) (s : State) : (commitPage addr s).StaysPowered s := by
  cases hu : inUserRegion addr
  · rw [commitPage_rejected hu]
    exact Run.powered_done rfl rfl
  · have hpa := userPage_inside hu
    rw [commitPage_accepted hu]
    refine ((fillWriteBuffer_powered _).bind fun _ s1 => ?_).after rfl rfl
    exact (eraseStep_powered hpa s1).bind fun _ s2 => (writeStep_powered hpa s2).bind fun _ _ => Run.powered_done rfl rfl

theorem erasePage_powered (addr : Addr) (s : State) : (erasePage addr s).StaysPowered s := by
  cases hu : inUserRegion addr
  · rw [erasePage_rejected hu]
    exact Run.powered_done rfl rfl
  · rw [erasePage, if_pos hu]
    exact (eraseStep_powered (userPage_inside hu) s).bind fun _ _ => Run.powered_done rfl rfl

theorem writePage_powered (addr : Addr) (s : State) : (writePage addr s).StaysPowered s := by
  cases hu : inUserRegion addr
  · rw [writePage_rejected hu]
    exact Run.powered_done rfl rfl
  · rw [writePage, if_pos hu]
    exact (writeStep_powered (userPage_inside hu) s).bind fun _ _ => Run.powered_done rfl rfl

/-! ## The Command Processor -/

theorem respond_powered (v : Byte) (s : State) : (respond v s).StaysPowered s :=
  (advanceTo_powered (Nat.le_max_left _ _)).bind fun _ t => sendByte_powered v t

theorem respondPage_powered (accepted : Bool) (s : State) : (respondPage accepted s).StaysPowered s := by
  cases accepted
  · exact Run.powered_done rfl rfl
  · exact respond_powered _ s

theorem withChecksum_powered {body : State → Run Unit} (hbody : ∀ t, (body t).StaysPowered t) (req : List Byte) (ck : Byte)
    (s : State) : (withChecksum req ck body s).StaysPowered s := by
  by_cases hck : ck = hashBytes req
  · rw [withChecksum_ok hck]
    exact (hbody _).after rfl rfl
  · rw [withChecksum_bad hck]
    exact Run.powered_done rfl rfl

theorem runRdbuf_powered (idx ck : Byte) (s : State) : (runRdbuf idx ck s).StaysPowered s :=
  withChecksum_powered (fun t => by
    split
    · exact respond_powered _ t
    · exact Run.powered_done rfl rfl) _ _ s

theorem runWrbuf_powered (idx val ck : Byte) (s : State) : (runWrbuf idx val ck s).StaysPowered s :=
  withChecksum_powered (fun t => by
    split
    · exact (respond_powered val _).after (setPb_env _ t) (setPb_now _ t)
    · exact Run.powered_done rfl rfl) _ _ s

theorem runPwrstat_powered (ck : Byte) (s : State) : (runPwrstat ck s).StaysPowered s :=
  withChecksum_powered (fun t => (delay_powered _ t).bind fun _ u =>
    (respond_powered (adcSample u.draws) (u.setDraws (u.draws + 1))).after rfl rfl) _ _ s

theorem runHashbuf_powered (ck : Byte) (s : State) : (runHashbuf ck s).StaysPowered s :=
  withChecksum_powered (fun t => (respond_powered (t.runHash t.pb.toList).h (t.runHash t.pb.toList)).after rfl rfl) _ _ s

theorem runFill_powered (addr : Addr) (ck : Byte) (s : State) : (runFill addr ck s).StaysPowered s :=
  withChecksum_powered (fun t => (fillPage_powered addr t).bind respondPage_powered) _ _ s

theorem runCommit_powered (addr : Addr) (ck : Byte) (s : State) : (runCommit addr ck s).StaysPowered s :=
  withChecksum_powered (fun t => (commitPage_powered addr t).bind respondPage_powered) _ _ s

theorem runRequest_powered (r : Request) (s : State) : (runRequest r s).StaysPowered s := by
  cases r with
  | rdbuf idx ck => exact runRdbuf_powered idx ck s
  | wrbuf idx val ck => exact runWrbuf_powered idx val ck s
  | pwrstat ck => exact runPwrstat_powered ck s
  | hashbuf ck => exact runHashbuf_powered ck s
  | fill addr ck => exact runFill_powered addr ck s
  | commit addr ck => exact runCommit_powered addr ck s
  | reserved0607 | reserved080F | reserved101F | reserved203F | reserved407F | reserved80FF =>
    exact Run.powered_done rfl rfl

theorem recvOperands_powered (n i : Nat) (s : State) : (recvOperands n i s).StaysPowered s := by
  induction n generalizing i s with
  | zero => exact Run.powered_done rfl rfl
  | succ n ih =>
    refine (recvByte_powered _ s).bind fun r t => ?_
    cases r with
    | byte v => exact ((ih (i + 1) _).bind fun _ _ => Run.powered_done rfl rfl).after rfl rfl
    | timeout => exact Run.powered_done rfl rfl
    | framing => exact Run.powered_done rfl rfl

theorem recvChecksum_powered (s : State) : (recvChecksum s).StaysPowered s :=
  (recvByte_powered _ s).bind fun r t => by cases r <;> exact Run.powered_done rfl rfl

theorem recvRest_powered (op : Byte) (n : Nat) (s : State) : (recvRest op n s).StaysPowered s :=
  (recvOperands_powered n 0 s).bind fun args t => by
    cases args with
    | none => exact Run.powered_done rfl rfl
    | some vs => exact (recvChecksum_powered t).bind fun _ _ => Run.powered_done rfl rfl

theorem recvRequest_powered (s : State) : (recvRequest s).StaysPowered s :=
  (recvByte_powered _ s).bind fun r t => by
    cases r with
    | byte op =>
      dsimp only
      split
      · exact Run.powered_done rfl rfl
      · exact (recvRest_powered op _ _).after rfl rfl
    | timeout => exact Run.powered_done rfl rfl
    | framing => exact Run.powered_done rfl rfl

theorem cmdStep_powered (s : State) : (cmdStep s).StaysPowered s :=
  (recvRequest_powered s).bind fun bytes t => by
    cases bytes with
    | none => exact Run.powered_done rfl rfl
    | some bs =>
      dsimp only
      split
      · exact runRequest_powered _ t
      · exact Run.powered_done rfl rfl

/-! ## Reception of a packet -/

theorem recvSymbol_powered (s : State) : (recvSymbol s).StaysPowered s := by
  have hle : s.now ≤ s.now + s.rx.wait + S + 1 := by omega
  rcases recvSymbol_spec s with ⟨hl, e⟩ | ⟨hl, ⟨-, -, e⟩ | ⟨-, -, e⟩ | ⟨-, e⟩⟩ <;> rw [e]
  · exact Run.powered_lost (.refl s) (power_ne_nil_of_lossBefore hl)
  · exact Run.powered_done_later rfl hle hl
  · exact Run.powered_done_later rfl hle hl
  · exact Run.powered_done_later (by simp) (by simpa using hle) (by simpa using hl)

theorem recvSymbols_powered (n : Nat) (s : State) : (recvSymbols n s).StaysPowered s := by
  induction n generalizing s with
  | zero => exact Run.powered_done rfl rfl
  | succ n ih =>
    refine (recvSymbol_powered s).bind fun r t => ?_
    cases r with
    | some r => exact Run.powered_done rfl rfl
    | none => exact ih t

theorem searchPacket_powered (maxSize : Byte) (s : State) : (searchPacket maxSize s).StaysPowered s := by
  unfold searchPacket
  split
  · exact (advanceTo_powered (Nat.le_add_right _ _)).bind fun _ _ => Run.powered_done rfl rfl
  · next t0 ht0 =>
    exact (advanceTo_powered (Nat.le_succ_of_le (le_of_firstAsserted ht0))).bind fun _ _ => Run.powered_done rfl rfl

theorem recvPacket_powered (maxSize : Byte) (s : State) : (recvPacket maxSize s).StaysPowered s :=
  (searchPacket_powered maxSize s).bind fun r t => by
    cases r with
    | some r => exact Run.powered_done rfl rfl
    | none => exact recvSymbols_powered _ t

/-! ## Instructions -/

/-- `t` is where an operation begun in `s` has come: to its completion with the power on, or to the reset that cut it short. -/
def EndsPowered (s t : State) : Prop :=
  Powered s t ∨ ∃ u, Powered s u ∧ s.env.power ≠ [] ∧ t = u.takeReset

theorem Run.StaysPowered.ends {r : Run α} (h : r.StaysPowered s) : ∃ t, r.outcome = .next t ∧ EndsPowered s t := by
  obtain ⟨t, ht, ⟨_, -, hdone⟩ | ⟨u, -, ⟨hlost, hp⟩, rfl⟩⟩ := Run.Sat.outcome h
  · exact ⟨t, ht, .inl hdone⟩
  · exact ⟨_, ht, .inr ⟨u, hlost, hp, rfl⟩⟩

theorem Run.StaysPowered.progresses {r : Run α} (h : r.StaysPowered s) : ∃ t, r.outcome = .next t :=
  h.ends.imp fun _ ⟨ht, _⟩ => ht

theorem whileServing_ends {body : State → Run Unit} (hbody : ∀ u, (body u).StaysPowered u) (s : State) :
    ∃ t, whileServing body s = .next t ∧ EndsPowered s t := by
  rcases whileServing_spec body s with ⟨-, e⟩ | ⟨-, e⟩ <;> rw [e]
  · exact ⟨s, rfl, .inl (.refl s)⟩
  · exact (hbody s).ends

theorem callerOp_ends {body : State → Run (Option Result)} (hbody : ∀ u, (body u).StaysPowered u) (s : State) :
    ∃ t, callerOp body s = .next t ∧ EndsPowered s t := by
  unfold callerOp
  split
  · refine Run.StaysPowered.ends (((hbody (s.setBusy true)).bind fun r u => ?_).after rfl rfl)
    cases r <;> exact Run.powered_done rfl rfl
  · exact ⟨s, rfl, .inl (.refl s)⟩

theorem withResult_powered {body : State → Run α} (hbody : ∀ u, (body u).StaysPowered u) (f : α → Result) (u : State) :
    ((body u).withResult f).StaysPowered u :=
  (hbody u).bind fun _ _ => Run.powered_done rfl rfl
end

/-- What `exec` makes of an instruction: an operation that takes place only while the block serves, or, for the codes of the
caller interface, an operation of that interface. -/
inductive ExecForm (i : Instr) : Prop
  | serving (body : State → Run Unit) (exec_eq : ∀ s, exec i s = whileServing body s)
      (powered : ∀ s, (body s).StaysPowered s)
  | caller (c : Call) (encode_eq : encode i = .call c) (body : State → Run (Option Result))
      (exec_eq : ∀ s, exec i s = callerOp body s) (powered : ∀ s, (body s).StaysPowered s)

/-- The command a request stands for. -/
theorem execForm_toInstr (r : Request) : ExecForm r.toInstr :=
  .serving (runRequest r) (exec_toInstr r) (runRequest_powered r)

/-- Every instruction is of one of the two forms. -/
theorem execForm (i : Instr) : ExecForm i := by
  cases i with
  | rdbuf idx ck => exact execForm_toInstr (.rdbuf idx ck)
  | wrbuf idx val ck => exact execForm_toInstr (.wrbuf idx val ck)
  | pwrstat ck => exact execForm_toInstr (.pwrstat ck)
  | hashbuf ck => exact execForm_toInstr (.hashbuf ck)
  | fill addr ck => exact execForm_toInstr (.fill addr ck)
  | commit addr ck => exact execForm_toInstr (.commit addr ck)
  | reserved0607 op => exact execForm_toInstr (.reserved0607 op)
  | reserved080F op => exact execForm_toInstr (.reserved080F op)
  | reserved101F op => exact execForm_toInstr (.reserved101F op)
  | reserved203F op => exact execForm_toInstr (.reserved203F op)
  | reserved407F op => exact execForm_toInstr (.reserved407F op)
  | reserved80FF op => exact execForm_toInstr (.reserved80FF op)
  | byteFrame v => exact .serving _ (exec_byteFrame · v) (sendByte_powered v)
  | symStop => exact .serving _ exec_symStop (sendSymbol_powered stopCode)
  | symD0 => exact .serving _ exec_symD0 (sendSymbol_powered d0Code)
  | symD1 => exact .serving _ exec_symD1 (sendSymbol_powered d1Code)
  | symStart => exact .serving _ exec_symStart (sendSymbol_powered startCode)
  | packet bytes => exact .serving _ (exec_packet · bytes) (sendPacket_powered bytes)
  | nop => exact .caller _ rfl _ exec_nop fun _ => Run.powered_done rfl rfl
  | opselReserved code => exact .caller _ rfl _ (exec_opselReserved · code) fun _ => Run.powered_done rfl rfl
  | sendByte v => exact .caller _ rfl _ (exec_sendByte · v) (withResult_powered (sendByte_powered v) _)
  | recvByte timeout => exact .caller _ rfl _ (exec_recvByte · timeout) (withResult_powered (recvByte_powered _) _)
  | sendSym code => exact .caller _ rfl _ (exec_sendSym · code) (withResult_powered (sendSymbol_powered code) _)
  | sendPacket len =>
    exact .caller _ rfl _ (exec_sendPacket · len) (withResult_powered (fun u => sendPacket_powered _ u) _)
  | recvPacket maxSize => exact .caller _ rfl _ (exec_recvPacket · maxSize) (recvPacket_powered maxSize)
  | hash src len => exact .caller _ rfl _ (exec_hash · src len) fun _ => Run.powered_done rfl rfl
  | cmdStep => exact .caller _ rfl _ exec_cmdStep (withResult_powered cmdStep_powered _)
  | fillPage addr => exact .caller _ rfl _ (exec_fillPage · addr) (withResult_powered (fillPage_powered addr) _)
  | commitPage addr => exact .caller _ rfl _ (exec_commitPage · addr) (withResult_powered (commitPage_powered addr) _)
  | erasePage addr => exact .caller _ rfl _ (exec_erasePage · addr) (withResult_powered (erasePage_powered addr) _)
  | writePage addr => exact .caller _ rfl _ (exec_writePage · addr) (withResult_powered (writePage_powered addr) _)

/-- Every instruction completes with the power on or is cut short by the next reset. -/
theorem exec_ends (i : Instr) (s : State) : ∃ t, exec i s = .next t ∧ EndsPowered s t := by
  obtain ⟨body, hexec, hbody⟩ | ⟨_, -, body, hexec, hbody⟩ := execForm i <;> rw [hexec]
  · exact whileServing_ends hbody s
  · exact callerOp_ends hbody s

/-! ## The next reset, taken -/

section
variable {s u : State}

/-- The reset is released at its tick, or at once where it was overdue before the operation began (log entry 4). -/
theorem Powered.takeReset_epoch (h : Powered s u) {p : PowerLoss} {ps : List PowerLoss} (hp : s.env.power = p :: ps) :
    u.takeReset.env.epoch = max p.tick s.clock := by
  have hpu : u.env.power = p :: ps := by rw [h.env, hp]
  have hepoch : u.takeReset.env.epoch = max p.tick u.clock := by simp [State.takeReset, State.powerUp, hpu]
  have hle := h.now_le
  rw [hepoch, State.clock, State.clock, h.env]
  rcases h.lasted with hn | hl
  · rw [hn]
  · rw [State.lossBefore, hp, decide_eq_false_iff_not] at hl
    omega

theorem Powered.tookReset (h : Powered s u) (hp : s.env.power ≠ []) : TookReset s u.takeReset :=
  ⟨hp, by rw [takeReset_power, h.env], rfl, rfl⟩
end

/-! ## What the block does next -/

section
variable {s : State}

theorem exec_progresses (i : Instr) (s : State) : ∃ t, exec i s = .next t :=
  (exec_ends i s).imp fun _ ⟨ht, _⟩ => ht

theorem bootStep_progresses (s : State) : ∃ t, bootStep s = .next t := by
  unfold bootStep
  split
  · next p hp =>
    have hpoll := advanceTo_powered (Nat.le_succ_of_le (le_of_firstAsserted hp))
    exact (hpoll.bind fun _ u => Run.powered_done (t := u.enterUpdate) rfl rfl).progresses
  · exact ((delay_powered _ s).bind fun _ u => Run.powered_done (t := u.enterUserApp) rfl rfl).progresses

theorem idleStep_progresses (s : State) : ∃ t, idleStep s = .next t := (delay_powered 1 s).progresses

theorem continuePacket_progresses (s : State) : ∃ t, continuePacket s = .next t :=
  Run.StaysPowered.progresses (s := s) ((recvSymbol_powered s).bind fun r _ => by cases r <;> exact Run.powered_done rfl rfl)

theorem callerStep_progresses (s : State) : ∃ t, callerStep s = .next t := by
  unfold callerStep
  split
  · exact idleStep_progresses s
  · next c cs hcalls =>
    split_ifs with hpast hnow
    · exact ⟨s.popCall, rfl⟩
    · exact exec_progresses _ _
    · have hle : s.now ≤ c.tick - s.env.epoch := by
        rw [State.clock] at hpast
        omega
      exact (advanceTo_powered hle).progresses

/-- A wire form that has been loaded is driven. -/
theorem wireStep_progresses {i : Instr} (hw : decode (.slots s.tx.wire) = .ok i) : ∃ t, wireStep s = .next t := by
  rw [wireStep_loaded hw]
  exact exec_progresses i _

theorem servingStep_progresses {next : State → Host.Outcome State Fault Refusal}
    (hw : s.tx.wire = [] ∨ ∃ i, decode (.slots s.tx.wire) = .ok i) (hnext : ∃ t, next s = .next t) :
    ∃ t, servingStep next s = .next t := by
  unfold servingStep
  split_ifs with hp hempty
  · exact continuePacket_progresses s
  · exact hnext
  · obtain ⟨i, hi⟩ := hw.resolve_left hempty
    exact wireStep_progresses hi

theorem poweredStep_progresses (hw : s.tx.wire = [] ∨ ∃ i, decode (.slots s.tx.wire) = .ok i) :
    ∃ t, poweredStep s = .next t := by
  unfold poweredStep
  split
  · exact servingStep_progresses hw (callerStep_progresses s)
  · split
    · exact bootStep_progresses s
    · next hm => exact servingStep_progresses hw (commandStep_eq hm ▸ (cmdStep_powered s).progresses)
    · exact idleStep_progresses s

/-- After the normal boot the block lets a tick pass. -/
theorem poweredStep_userApp (ha : s.env.par.assembly = .bootloader) (hm : s.mode = .userApp) :
    poweredStep s = idleStep s := by
  simp [poweredStep, ha, hm]
end

/-! ## The statements -/

/-- Settles O8: an operation that completes and one that is cut short both come to a next state. -/
theorem execAlwaysNext : Obligations.ExecAlwaysNext := by
  unfold Obligations.ExecAlwaysNext
  exact exec_progresses

/-- Settles O9: a reset that is due is taken; else what the block does next is an instruction or a run of its own, and of the
slots loaded into the transmitter alone it is not known that they decode. -/
theorem stepAlwaysNext : Obligations.StepAlwaysNext := by
  unfold Obligations.StepAlwaysNext
  intro s hw
  unfold step
  split_ifs
  · exact ⟨s.takeReset, rfl⟩
  · exact poweredStep_progresses hw

/-- Settles O11: the two ways in which an instruction ends. -/
theorem lossOverrides : Obligations.LossOverrides := by
  unfold Obligations.LossOverrides
  intro i s t e
  obtain ⟨t', e', hend⟩ := exec_ends i s
  obtain rfl : t' = t := by simpa [e] using e'.symm
  rcases hend with h | ⟨u, h, hp, rfl⟩
  · refine .inl ⟨h.env, fun hs => ?_⟩
    rw [h.lossBefore_eq]
    rcases h.lasted with hn | hl
    · rwa [hn]
    · exact hl
  · refine .inr ⟨h.tookReset hp, rfl, rfl, rfl, rfl, rfl, ?_, ?_, fun p ps hps => h.takeReset_epoch hps, ?_⟩
    · rw [takeReset_par, h.env]
    · rw [takeReset_wave, h.env]
    · rw [takeReset_calls, h.env]

/-- Settles O17: with no reset due the tick passes, since the power lasts up to its end; a reset that is due is taken. -/
theorem userAppInert : Obligations.UserAppInert := by
  unfold Obligations.UserAppInert
  intro s ha hm
  have hpowered : s.lossDue = false → step s = .next { s with now := s.now + 1 } := fun hl => by
    rw [step_of_no_loss hl, poweredStep_userApp ha hm, idleStep, delay_ok (lossDue_false.mp hl), Run.outcome_done]
    rfl
  refine ⟨hpowered, fun t e => ?_⟩
  cases hl : s.lossDue with
  | false =>
    rw [hpowered hl] at e
    cases e
    exact .inr rfl
  | true =>
    rw [step_of_loss hl (requestFirst_bootloader ha)] at e
    cases e
    exact .inl ((Powered.refl s).tookReset (power_ne_nil_of_lossBefore hl))

/-- Settles O20: what is not encoded as a request at the caller interface takes place only while the block serves. -/
theorem notServedIgnored : Obligations.NotServedIgnored := by
  unfold Obligations.NotServedIgnored
  intro i s hs hcode
  obtain ⟨body, hexec, -⟩ | ⟨c, hcall, -⟩ := execForm i
  · rw [hexec, whileServing_off hs]
  · rw [hcall] at hcode
    obtain ⟨_, h⟩ | ⟨_, h⟩ := hcode <;> cases h

end Sys2Proof.Machine
end

section
/-! PROOFS. The power-up branch and why it is irreversible (70_reset_and_hazards.md R262 to R266): the boot sequence is run
up to its decision, and no operation of the block changes `mode`. -/
namespace Sys2Proof.Machine

open Sys2Proof.Config

/-! ## Operations leave the mode alone -/

/-- The run does not stop, and if it completes it is in the mode of `s`. A run cut short says nothing: the reset takes its
mode away. -/
def Run.KeepsMode {α : Type} (s : State) (r : Run α) : Prop :=
  r.Sat (fun _ t => t.mode = s.mode) fun _ => True

section
variable {α β : Type} {s t : State}

theorem Run.keepsMode_done {x : α} (h : t.mode = s.mode) : (Run.done x t).KeepsMode s := h

theorem Run.keepsMode_lost : (Run.lost t : Run α).KeepsMode s := trivial

/-- A run that begins after an update. -/
theorem Run.KeepsMode.after {r : Run α} (h : r.KeepsMode t) (hm : t.mode = s.mode) : r.KeepsMode s :=
  Run.Sat.mono h (fun _ _ hu => hu.trans hm) fun _ => id

theorem Run.KeepsMode.bind {r : Run α} {f : α → State → Run β} (h : r.KeepsMode s)
    (hf : ∀ x t, (f x t).KeepsMode t) : (r.bind f).KeepsMode s :=
  Run.Sat.bind h fun x t ht => (hf x t).after ht

/-! ### Time and the line -/

theorem advanceTo_keepsMode (c : Nat) (s : State) : (advanceTo c s).KeepsMode s :=
  advanceTo_sat (fun _ => rfl) fun _ => trivial

theorem delay_keepsMode (n : Nat) (s : State) : (delay n s).KeepsMode s := advanceTo_keepsMode _ s

theorem driveSlots_keepsMode (ls : List Bool) (s : State) : (driveSlots ls s).KeepsMode s := by
  induction ls generalizing s with
  | nil => exact Run.keepsMode_done rfl
  | cons v vs ih => exact ((delay_keepsMode S (s.setLine v)).bind fun _ t => ih t).after rfl

/-- A transmission with the transmit registers set before and after it. -/
theorem transmit_keepsMode (ls : List Bool) (s : State) (x : TxRegs) (f : TxRegs → TxRegs) :
    ((driveSlots ls (s.setTx x)).bind fun _ t => .done () (t.setTx (f t.tx))).KeepsMode s :=
  ((driveSlots_keepsMode ls (s.setTx x)).bind fun _ t => Run.keepsMode_done (setTx_mode (f t.tx) t)).after rfl

theorem sendByte_keepsMode (v : Byte) (s : State) : (sendByte v s).KeepsMode s :=
  transmit_keepsMode _ s _ (TxRegs.stop 9)

theorem sendSymbol_keepsMode (code : BitVec 2) (s : State) : (sendSymbol code s).KeepsMode s :=
  transmit_keepsMode _ s _ (TxRegs.stop 1)

theorem sendPacket_keepsMode (bytes : List Byte) (s : State) : (sendPacket bytes s).KeepsMode s :=
  transmit_keepsMode _ s _ fun tx => (tx.stop 1).packetSent bytes

theorem recvByte_keepsMode (n : Nat) (s : State) : (recvByte n s).KeepsMode s :=
  Run.Sat.mono (recvByte_listened n s) (fun _ _ ⟨honly, _⟩ => honly.mode) fun _ => id

/-! ### The flash sequencer -/

theorem fillPage_keepsMode (addr : Addr) (s : State) : (fillPage addr s).KeepsMode s := by
  rcases fillPage_spec addr s with ⟨-, e⟩ | ⟨-, ⟨-, e⟩ | ⟨-, e⟩⟩ <;> rw [e]
  · exact Run.keepsMode_done rfl
  · exact Run.keepsMode_done (by simp)
  · exact Run.keepsMode_lost

theorem fillWriteBuffer_keepsMode (s : State) : (fillWriteBuffer s).KeepsMode s :=
  (delay_keepsMode s.env.par.tTwb ((s.setTwb (wordsOfPage s.pb)).setFs (s.fs.setPhase .fill))).after (by simp)

section
variable {pa : Addr} (hpa : pa.toNat + pageSize ≤ userLimit)
include hpa

theorem eraseStep_keepsMode (s : State) : (eraseStep pa s).KeepsMode s := by
  rcases eraseStep_spec hpa with ⟨-, e⟩ | ⟨-, e⟩ | ⟨-, e⟩ <;> rw [e]
  · exact Run.keepsMode_done (by simp [State.pageBlanked])
  · exact Run.keepsMode_lost
  · exact Run.keepsMode_lost

theorem writeStep_keepsMode (s : State) : (writeStep pa s).KeepsMode s := by
  rcases writeStep_spec hpa with ⟨-, e⟩ | ⟨-, e⟩ | ⟨-, e⟩ <;> rw [e]
  · exact Run.keepsMode_done (by simp [State.pageStored])
  · exact Run.keepsMode_lost
  · exact Run.keepsMode_lost
end

theorem commitPage_keepsMode (addr : Addr) (s : State) : (commitPage addr s).KeepsMode s := by
  cases hu : inUserRegion addr
  · rw [commitPage_rejected hu]
    exact Run.keepsMode_done rfl
  · have hpa := userPage_inside hu
    rw [commitPage_accepted hu]
    refine ((fillWriteBuffer_keepsMode _).bind fun _ s1 => ?_).after rfl
    exact (eraseStep_keepsMode hpa s1).bind fun _ s2 => (writeStep_keepsMode hpa s2).bind fun _ _ => Run.keepsMode_done rfl

theorem erasePage_keepsMode (addr : Addr) (s : State) : (erasePage addr s).KeepsMode s := by
  cases hu : inUserRegion addr
  · rw [erasePage_rejected hu]
    exact Run.keepsMode_done rfl
  · rw [erasePage, if_pos hu]
    exact (eraseStep_keepsMode (userPage_inside hu) s).bind fun _ _ => Run.keepsMode_done rfl

theorem writePage_keepsMode (addr : Addr) (s : State) : (writePage addr s).KeepsMode s := by
  cases hu : inUserRegion addr
  · rw [writePage_rejected hu]
    exact Run.keepsMode_done rfl
  · rw [writePage, if_pos hu]
    exact (writeStep_keepsMode (userPage_inside hu) s).bind fun _ _ => Run.keepsMode_done rfl

/-! ### The Command Processor -/

theorem respond_keepsMode (v : Byte) (s : State) : (respond v s).KeepsMode s :=
  (advanceTo_keepsMode _ s).bind fun _ t => sendByte_keepsMode v t

theorem respondPage_keepsMode (accepted : Bool) (s : State) : (respondPage accepted s).KeepsMode s := by
  cases accepted
  · exact Run.keepsMode_done rfl
  · exact respond_keepsMode _ s

theorem withChecksum_keepsMode {body : State → Run Unit} (hbody : ∀ t, (body t).KeepsMode t) (req : List Byte) (ck : Byte)
    (s : State) : (withChecksum req ck body s).KeepsMode s := by
  by_cases hck : ck = hashBytes req
  · rw [withChecksum_ok hck]
    exact (hbody _).after rfl
  · rw [withChecksum_bad hck]
    exact Run.keepsMode_done rfl

theorem runRdbuf_keepsMode (idx ck : Byte) (s : State) : (runRdbuf idx ck s).KeepsMode s :=
  withChecksum_keepsMode (fun t => by
    split
    · exact respond_keepsMode _ t
    · exact Run.keepsMode_done rfl) _ _ s

theorem runWrbuf_keepsMode (idx val ck : Byte) (s : State) : (runWrbuf idx val ck s).KeepsMode s :=
  withChecksum_keepsMode (fun t => by
    split
    · exact (respond_keepsMode val _).after (setPb_mode _ t)
    · exact Run.keepsMode_done rfl) _ _ s

theorem runPwrstat_keepsMode (ck : Byte) (s : State) : (runPwrstat ck s).KeepsMode s :=
  withChecksum_keepsMode (fun t => (delay_keepsMode _ t).bind fun _ u =>
    (respond_keepsMode (adcSample u.draws) (u.setDraws (u.draws + 1))).after rfl) _ _ s

theorem runHashbuf_keepsMode (ck : Byte) (s : State) : (runHashbuf ck s).KeepsMode s :=
  withChecksum_keepsMode (fun t => (respond_keepsMode _ (t.runHash t.pb.toList)).after rfl) _ _ s

theorem runFill_keepsMode (addr : Addr) (ck : Byte) (s : State) : (runFill addr ck s).KeepsMode s :=
  withChecksum_keepsMode (fun t => (fillPage_keepsMode addr t).bind respondPage_keepsMode) _ _ s

theorem runCommit_keepsMode (addr : Addr) (ck : Byte) (s : State) : (runCommit addr ck s).KeepsMode s :=
  withChecksum_keepsMode (fun t => (commitPage_keepsMode addr t).bind respondPage_keepsMode) _ _ s

theorem runRequest_keepsMode (r : Request) (s : State) : (runRequest r s).KeepsMode s := by
  cases r with
  | rdbuf idx ck => exact runRdbuf_keepsMode idx ck s
  | wrbuf idx val ck => exact runWrbuf_keepsMode idx val ck s
  | pwrstat ck => exact runPwrstat_keepsMode ck s
  | hashbuf ck => exact runHashbuf_keepsMode ck s
  | fill addr ck => exact runFill_keepsMode addr ck s
  | commit addr ck => exact runCommit_keepsMode addr ck s
  | reserved0607 | reserved080F | reserved101F | reserved203F | reserved407F | reserved80FF =>
    exact Run.keepsMode_done rfl

theorem recvRequest_keepsMode (s : State) : (recvRequest s).KeepsMode s :=
  Run.Sat.mono (recvRequest_listened s) (fun _ _ ⟨⟨honly, _⟩, _⟩ => honly.mode) fun _ => id

theorem cmdStep_keepsMode (s : State) : (cmdStep s).KeepsMode s :=
  (recvRequest_keepsMode s).bind fun bytes t => by
    cases bytes with
    | none => exact Run.keepsMode_done rfl
    | some bs =>
      dsimp only
      split
      · exact runRequest_keepsMode _ t
      · exact Run.keepsMode_done rfl

/-! ### Reception of a packet -/

theorem recvSymbol_keepsMode (s : State) : (recvSymbol s).KeepsMode s := by
  rcases recvSymbol_spec s with ⟨-, e⟩ | ⟨-, ⟨-, -, e⟩ | ⟨-, -, e⟩ | ⟨-, e⟩⟩ <;> rw [e]
  · exact Run.keepsMode_lost
  · exact Run.keepsMode_done rfl
  · exact Run.keepsMode_done rfl
  · exact Run.keepsMode_done (takeDataBit_mode _ (s.setNow _))

theorem recvSymbols_keepsMode (n : Nat) (s : State) : (recvSymbols n s).KeepsMode s := by
  induction n generalizing s with
  | zero => exact Run.keepsMode_done rfl
  | succ n ih =>
    refine (recvSymbol_keepsMode s).bind fun r t => ?_
    cases r with
    | some r => exact Run.keepsMode_done rfl
    | none => exact ih t

theorem searchPacket_keepsMode (maxSize : Byte) (s : State) : (searchPacket maxSize s).KeepsMode s := by
  unfold searchPacket
  split
  · exact (advanceTo_keepsMode _ s).bind fun _ _ => Run.keepsMode_done rfl
  · exact (advanceTo_keepsMode _ s).bind fun _ _ => Run.keepsMode_done rfl

theorem recvPacket_keepsMode (maxSize : Byte) (s : State) : (recvPacket maxSize s).KeepsMode s :=
  (searchPacket_keepsMode maxSize s).bind fun r t => by
    cases r with
    | some r => exact Run.keepsMode_done rfl
    | none => exact recvSymbols_keepsMode _ t

/-! ## The mode after an operation -/

/-- `t` is in the mode of `s`, or a reset has been taken on the way to it. -/
def SameModeOrReset (s t : State) : Prop := t.mode = s.mode ∨ TookReset s t

/-- Of a run that keeps the mode only a reset to come makes another mode. -/
theorem Run.KeepsMode.sameModeOrReset {r : Run α} (h : r.KeepsMode s) (hp : r.StaysPowered s) (e : r.outcome = .next t) :
    SameModeOrReset s t := by
  obtain ⟨u, hu, ⟨_, -, hmode, -⟩ | ⟨v, -, ⟨-, hlost, hpower⟩, rfl⟩⟩ := (Run.Sat.and h hp).outcome
  · obtain rfl : u = t := by simpa [hu] using e
    exact .inl hmode
  · obtain rfl : v.takeReset = t := by simpa [hu] using e
    exact .inr (hlost.tookReset hpower)

theorem whileServing_sameModeOrReset {body : State → Run Unit} (h : (body s).KeepsMode s) (hp : (body s).StaysPowered s)
    (e : whileServing body s = .next t) : SameModeOrReset s t := by
  rcases whileServing_spec body s with ⟨-, e'⟩ | ⟨-, e'⟩ <;> rw [e'] at e
  · cases e
    exact .inl rfl
  · exact h.sameModeOrReset hp e

theorem callerOp_sameModeOrReset {body : State → Run (Option Result)} (h : ∀ u, (body u).KeepsMode u)
    (hp : ∀ u, (body u).StaysPowered u) (e : callerOp body s = .next t) : SameModeOrReset s t := by
  unfold callerOp at e
  split at e
  · refine Run.KeepsMode.sameModeOrReset (s := s.setBusy true) ((h _).bind fun r u => ?_) ((hp _).bind fun r u => ?_) e
    · cases r <;> exact Run.keepsMode_done rfl
    · cases r <;> exact Run.powered_done rfl rfl
  · cases e
    exact .inl rfl

/-- An operation of the caller interface that answers with the result of a run. -/
theorem callerOp_withResult_sameModeOrReset {body : State → Run α} {f : α → Result} (h : ∀ u, (body u).KeepsMode u)
    (hp : ∀ u, (body u).StaysPowered u) (e : callerOp (fun u => (body u).withResult f) s = .next t) : SameModeOrReset s t :=
  callerOp_sameModeOrReset (fun u => (h u).bind fun _ _ => Run.keepsMode_done rfl) (withResult_powered hp f) e

/-- The command a request stands for. -/
theorem exec_toInstr_sameModeOrReset (r : Request) (e : exec r.toInstr s = .next t) : SameModeOrReset s t :=
  whileServing_sameModeOrReset (runRequest_keepsMode r s) (runRequest_powered r s) ((exec_toInstr r s).symm.trans e)

/-- No instruction changes the mode, unless the power is lost. -/
theorem exec_sameModeOrReset (i : Instr) (e : exec i s = .next t) : SameModeOrReset s t := by
  cases i with
  | rdbuf idx ck => exact exec_toInstr_sameModeOrReset (.rdbuf idx ck) e
  | wrbuf idx val ck => exact exec_toInstr_sameModeOrReset (.wrbuf idx val ck) e
  | pwrstat ck => exact exec_toInstr_sameModeOrReset (.pwrstat ck) e
  | hashbuf ck => exact exec_toInstr_sameModeOrReset (.hashbuf ck) e
  | fill addr ck => exact exec_toInstr_sameModeOrReset (.fill addr ck) e
  | commit addr ck => exact exec_toInstr_sameModeOrReset (.commit addr ck) e
  | reserved0607 op => exact exec_toInstr_sameModeOrReset (.reserved0607 op) e
  | reserved080F op => exact exec_toInstr_sameModeOrReset (.reserved080F op) e
  | reserved101F op => exact exec_toInstr_sameModeOrReset (.reserved101F op) e
  | reserved203F op => exact exec_toInstr_sameModeOrReset (.reserved203F op) e
  | reserved407F op => exact exec_toInstr_sameModeOrReset (.reserved407F op) e
  | reserved80FF op => exact exec_toInstr_sameModeOrReset (.reserved80FF op) e
  | byteFrame v => exact whileServing_sameModeOrReset (sendByte_keepsMode v s) (sendByte_powered v s) e
  | symStop => exact whileServing_sameModeOrReset (sendSymbol_keepsMode _ s) (sendSymbol_powered stopCode s) e
  | symD0 => exact whileServing_sameModeOrReset (sendSymbol_keepsMode _ s) (sendSymbol_powered d0Code s) e
  | symD1 => exact whileServing_sameModeOrReset (sendSymbol_keepsMode _ s) (sendSymbol_powered d1Code s) e
  | symStart => exact whileServing_sameModeOrReset (sendSymbol_keepsMode _ s) (sendSymbol_powered startCode s) e
  | packet bytes => exact whileServing_sameModeOrReset (sendPacket_keepsMode bytes s) (sendPacket_powered bytes s) e
  | nop | opselReserved =>
    exact callerOp_sameModeOrReset (fun _ => Run.keepsMode_done rfl) (fun _ => Run.powered_done rfl rfl) e
  | hash src len =>
    exact callerOp_sameModeOrReset (fun _ => Run.keepsMode_done (runHash_mode _ _)) (fun _ => Run.powered_done rfl rfl)
      ((exec_hash s src len).symm.trans e)
  | recvPacket maxSize => exact callerOp_sameModeOrReset (recvPacket_keepsMode maxSize) (recvPacket_powered maxSize) e
  | sendByte v => exact callerOp_withResult_sameModeOrReset (sendByte_keepsMode v) (sendByte_powered v) e
  | recvByte timeout => exact callerOp_withResult_sameModeOrReset (recvByte_keepsMode _) (recvByte_powered timeout.toNat) e
  | sendSym code => exact callerOp_withResult_sameModeOrReset (sendSymbol_keepsMode code) (sendSymbol_powered code) e
  | sendPacket len =>
    exact callerOp_withResult_sameModeOrReset (fun u => sendPacket_keepsMode _ u)
      (fun u => sendPacket_powered (packetInput len u.xb) u) e
  | cmdStep => exact callerOp_withResult_sameModeOrReset cmdStep_keepsMode cmdStep_powered e
  | fillPage addr => exact callerOp_withResult_sameModeOrReset (fillPage_keepsMode addr) (fillPage_powered addr) e
  | commitPage addr => exact callerOp_withResult_sameModeOrReset (commitPage_keepsMode addr) (commitPage_powered addr) e
  | erasePage addr => exact callerOp_withResult_sameModeOrReset (erasePage_keepsMode addr) (erasePage_powered addr) e
  | writePage addr => exact callerOp_withResult_sameModeOrReset (writePage_keepsMode addr) (writePage_powered addr) e

/-! ## The mode after a step -/

theorem idleStep_sameModeOrReset (e : idleStep s = .next t) : SameModeOrReset s t :=
  (delay_keepsMode 1 s).sameModeOrReset (delay_powered 1 s) e

theorem continuePacket_sameModeOrReset (e : continuePacket s = .next t) : SameModeOrReset s t := by
  refine Run.KeepsMode.sameModeOrReset ((recvSymbol_keepsMode s).bind fun r _ => ?_)
    ((recvSymbol_powered s).bind fun r _ => ?_) e
  · cases r <;> exact Run.keepsMode_done rfl
  · cases r <;> exact Run.powered_done rfl rfl

theorem commandStep_sameModeOrReset (hm : s.mode = .update) (e : commandStep s = .next t) : SameModeOrReset s t :=
  (cmdStep_keepsMode s).sameModeOrReset (cmdStep_powered s) ((commandStep_eq hm).symm.trans e)

theorem wireStep_sameModeOrReset (e : wireStep s = .next t) : SameModeOrReset s t := by
  unfold wireStep at e
  split at e
  · exact exec_sameModeOrReset (s := s.setTx s.tx.unloaded) _ e
  · cases e

theorem callerStep_sameModeOrReset (e : callerStep s = .next t) : SameModeOrReset s t := by
  unfold callerStep at e
  split at e
  · exact idleStep_sameModeOrReset e
  · split_ifs at e with hpast
    · cases e
      exact .inl rfl
    · exact exec_sameModeOrReset (s := s.popCall) _ e
    · refine (advanceTo_keepsMode _ s).sameModeOrReset (advanceTo_powered ?_) e
      rw [State.clock] at hpast
      omega

theorem servingStep_sameModeOrReset {next : State → Host.Outcome State Fault Refusal} (e : servingStep next s = .next t)
    (hnext : next s = .next t → SameModeOrReset s t) : SameModeOrReset s t := by
  unfold servingStep at e
  split_ifs at e
  · exact continuePacket_sameModeOrReset e
  · exact hnext e
  · exact wireStep_sameModeOrReset e

/-- Only the boot sequence decides the mode. -/
theorem poweredStep_sameModeOrReset (hm : s.mode ≠ .bootCheck) (e : poweredStep s = .next t) : SameModeOrReset s t := by
  unfold poweredStep at e
  split at e
  · exact servingStep_sameModeOrReset e callerStep_sameModeOrReset
  · split at e
    · next hboot => exact absurd hboot hm
    · next hupdate => exact servingStep_sameModeOrReset e (commandStep_sameModeOrReset hupdate)
    · exact idleStep_sameModeOrReset e

/-! ## The boot sequence -/

/-- Before its decision the block of a boot sequence polls the line. -/
theorem poweredStep_bootCheck (ha : s.env.par.assembly = .bootloader) (hm : s.mode = .bootCheck) :
    poweredStep s = bootStep s := by
  simp [poweredStep, ha, hm]

/-- The first poll that reads 1, at tick `p`, decides for update mode at `p + 1` (R263). -/
theorem bootStep_asserted {p : Nat} (hf : s.FirstAsserted s.now (s.now + s.gracePolls) p)
    (hl : s.lossBefore (p + 1) = false) : bootStep s = .next (s.setNow (p + 1)).enterUpdate := by
  rw [bootStep, firstAsserted_of_FirstAsserted hf]
  dsimp only
  rw [advanceTo_ok hl, Run.done_bind, Run.outcome_done]

/-- A window without such a poll ends in the user application (R263, R266). -/
theorem bootStep_idle (hi : s.Idle s.now (s.now + s.gracePolls)) (hl : s.lossBefore (s.now + s.gracePolls) = false) :
    bootStep s = .next (s.setNow (s.now + s.gracePolls)).enterUserApp := by
  rw [bootStep, firstAsserted_of_Idle hi]
  dsimp only
  rw [delay_ok hl, Run.done_bind, Run.outcome_done]

/-- At the release of reset the whole window is ahead (R262). -/
theorem window_at_release (hn : s.now = 0) : s.now + s.gracePolls = s.env.par.bootGrace * S := by
  rw [State.gracePolls, hn, Nat.zero_add, Nat.sub_zero]
end

/-! ## The statements -/

/-- Settles O15: a reset that is due is taken, and what the block does next changes no mode but in the boot sequence. -/
theorem modeIrreversible : Obligations.ModeIrreversible := by
  unfold Obligations.ModeIrreversible
  intro s t hm e
  unfold step at e
  split_ifs at e with hdue
  · cases e
    obtain ⟨hloss, -⟩ := Bool.and_eq_true_iff.mp hdue
    exact .inr ((Powered.refl s).tookReset (power_ne_nil_of_lossBefore hloss))
  · exact poweredStep_sameModeOrReset hm e

/-- Settles O16: no reset comes before the decision, so the step is the boot sequence run up to it. -/
theorem bootBranch : Obligations.BootBranch := by
  unfold Obligations.BootBranch
  intro s ha hm hn
  have hstep : ∀ c, s.lossBefore (c + 1) = false → step s = bootStep s := fun c hl => by
    have hdue : s.lossDue = false := lossDue_false.mpr (lossBefore_mono (by omega) hl)
    rw [step_of_no_loss hdue, poweredStep_bootCheck ha hm]
  have hwindow := window_at_release hn
  refine ⟨fun p hf hl => ?_, fun hi hl => ?_⟩
  · rw [← hwindow, ← hn] at hf
    rw [hstep _ hl, bootStep_asserted hf (lossBefore_mono (Nat.le_succ _) hl)]
    rfl
  · rw [← hwindow] at hi hl ⊢
    rw [← hn] at hi
    rw [hstep _ hl, bootStep_idle hi (lossBefore_mono (Nat.le_succ _) hl)]
    rfl

end Sys2Proof.Machine
end
